-- ==== Sys2Proof/Word.lean ====
section
/-! DEFINITION. The two bit-vector types the part's wire formats use. -/

namespace Sys2Proof

/-- One byte on the control link, in buffer memory or on the slot bus (R167, R107). -/
abbrev Byte := BitVec 8

/-- A four-byte field: an offset, a length, an operand, a checksum (R201). -/
abbrev Word := BitVec 32

end Sys2Proof
end

