-- ==== Sys2Proof/Syntax.lean ====
section
/-! DEFINITION. The commands the part takes: one constructor per row of spec/opcode_table.json, in the table's order. -/

namespace Sys2Proof

/-- The two ports the part masters (R101). -/
inductive Port where
  | buffer
  | slot
  deriving DecidableEq, Repr

/-- The 20-byte descriptor form of CHAIN NEW, CHAIN APPEND and SLOT READ, field by field, before validation (R204). -/
structure DescForm where
  kind    : Byte
  flags   : Byte
  src     : Byte
  dst     : Byte
  srcOff  : Word
  dstOff  : Word
  length  : Word
  operand : Word
  deriving DecidableEq, Repr

/-- A command. A request carries the tag of its frame and the fields of its payload (R202); it stands for the arrival of that
good frame (log 7). Pin events carry the unit whose line they are on. -/
inductive Instr where
  | hello (tag : Byte)
  | status (tag : Byte)
  | reset (tag scope : Byte)
  | linkTally (tag clear : Byte)
  | noticeMask (tag : Byte) (mask : BitVec 16)
  | chainNew (tag openByte : Byte) (entries : List DescForm)
  | chainAppend (tag handle : Byte) (entries : List DescForm)
  | chainClose (tag handle : Byte)
  | chainDrop (tag handle : Byte)
  | chainQuery (tag handle : Byte) (start : BitVec 16)
  | slotRead (tag : Byte) (slot : BitVec 16)
  | channelStart (tag channel handle : Byte)
  | channelHold (tag channel : Byte)
  | channelResume (tag channel : Byte)
  | channelStop (tag channel : Byte)
  | channelRetry (tag channel : Byte)
  | channelSkip (tag channel : Byte)
  | channelClear (tag channel : Byte)
  | channelQuery (tag channel : Byte)
  | collect (tag max : Byte)
  | unitSet (tag unit : Byte) (base size : BitVec 24) (timeout : Byte)
  | unitActivate (tag unit : Byte)
  | unitDeactivate (tag unit force : Byte)
  | unitQuery (tag unit : Byte)
  | guardSet (tag index enabled : Byte) (base limit : Word) (mode agents : Byte)
  | guardFreeze (tag : Byte)
  | guardQuery (tag clear : Byte)
  | peek (tag space : Byte) (offset : Word) (count : Byte)
  | poke (tag space : Byte) (offset : Word) (data : List Byte)
  | unknownKind (tag kind : Byte) (payload : List Byte)
  | goodFrame (tag kind : Byte) (payload : List Byte)
  | noticeAck (tag : Byte) (payload : List Byte)
  | lenErr (length : Byte)
  | checkErr
  | gapErr
  | lineBreak
  | frameTaken
  | replyEnd
  | noticeSent
  | resendTimerExpiry
  | arbiterGrant (port : Port)
  | bufferAccessEnd
  | doneAnswer (unit : Fin 8) (data : List Byte)
  | errorAnswer (unit : Fin 8)
  | accessTimeout
  | presenceLineChange (unit : Fin 8) (level : Bool)
  | cardDetected (unit : Fin 8)
  | cardLost (unit : Fin 8)
  | requestEdge (unit : Fin 8)
  | deadlineExpiry (channel : Fin 4)
  | blockedPosterServed
  | resetTakesEffect
  | resetNLow
  | resetNRelease (baud msz : BitVec 2) (presence : BitVec 8)
  | startUpEnd
  | characterReceived (byte : Byte)
  deriving DecidableEq, Repr

end Sys2Proof
end

