-- ==== Sys2Proof/Decode.lean ====
section
/-! DEFINITION. The words of the opcode table. spec/opcode_table.json gives no row any bits, so no word spells a command. -/

namespace Sys2Proof

/-- The command a word of the opcode table spells: none, since no row has bits. -/
def decodeTableWord (_nbits _w : Nat) : Option Instr := none

end Sys2Proof
end

