-- ==== Sys2Proof/Config.lean ====
section
/-! DEFINITION. The fixed numbers of the VL4620 (spec/00_scope.md, key capacities) and the values the manual leaves free. -/

namespace Sys2Proof.Config

/-- Descriptor slots, numbered 0 to 511 (R1). -/
def slotCount : Nat := 512

/-- Completion queue capacity in records (R85). -/
def queueCapacity : Nat := 64

/-- The depth whose reaching from below raises QUEUE_HIGH (R95). -/
def queueHighDepth : Nat := 48

/-- Receive queue capacity in frames (R174). -/
def rxQueueCapacity : Nat := 4

/-- Reply memory capacity in entries (R188). -/
def replyMemoryCapacity : Nat := 4

/-- Bytes of an access at most, and the burst boundary (R64, R107). -/
def burstBytes : Nat := 64

/-- The largest window of a unit (R8, R117). -/
def maxWindow : Nat := 1048576

/-- The slot-bus address space in bytes (R123). -/
def slotBusBytes : Nat := 16777216

/-- The access timeout of an unconfigured unit, in microseconds (R117). -/
def defaultTimeout : Nat := 32

/-- The largest length of a COPY, FILL or CHECK (R7). -/
def maxLength : Nat := 16777216

/-- The largest operand of a WAIT (R7). -/
def maxWaitOperand : Nat := 16777215

/-- A saturating counter's last value: tally counters (R181) and hit counts (R144). -/
def counterMax : Nat := 65535

/-- The instant, in microseconds after the last byte taken, at which MORE than 2 ms have passed (R172). -/
def gapLimit : Nat := 2001

/-- The resend timer, in microseconds (R159). -/
def resendTime : Nat := 25000

/-- The debounce time of a presence line, in microseconds (R119). -/
def debounceTime : Nat := 10000

/-- Start-up lasts at most this many microseconds (R200); the model's clock ends it then. DESIGN CHOICE, log 27 (unsafe). -/
def startUpTime : Nat := 5000

/-- One unit of a WAIT deadline, in microseconds (R7). -/
def deadlineUnit : Nat := 100

/-- Sends of one notice tag at most (R159). -/
def maxSends : Nat := 4

/-- FREE VALUE, log 8 (safe): whether the notice is the one taken first when a reply and a notice are placed together on an
idle line; R178 says only that one of them is. The argument is the state's counter of such choices. -/
opaque noticeFirst : Nat → Bool

/-- FREE VALUE, log 9 (safe): the byte the data lines carry at a position of a read for which the card's answer brings no
byte (R133 has the card place all of them). The arguments are the state's counter and the position. -/
opaque undrivenByte : Nat → Nat → Byte

/-- FREE VALUE, log 10 (safe): a byte of a buffer write cut by RESET_N; R199 calls these bytes unknown. The arguments are the
state's counter and the position in the access. -/
opaque cutWriteByte : Nat → Nat → Byte

end Sys2Proof.Config
end

