-- ==== Sys2Proof/Machine/State.lean ====
section
/-! DEFINITION. Everything the VL4620 holds, as plain data, and its state right after reset. The default value of every field is
its COLD value, as the block's own reset table gives it (R24, R58, R84, R100, R106, R143, R153, R165, R183, R200). -/

namespace Sys2Proof.Machine

/-! ### Names and numbers -/

/-- CH0 to CH3. -/
abbrev ChanId := Fin 4

/-- UNIT0 to UNIT7. -/
abbrev UnitId := Fin 8

/-- A chain table entry's number (R11). -/
abbrev Handle := Fin 32

/-- A guard entry's number (R144). -/
abbrev GuardId := Fin 8

/-- The space a range lies in (R5). -/
inductive Space where
  | buf
  | unit (n : UnitId)
  deriving DecidableEq, Repr

/-- Direction of an access or a range check (R107, R145). -/
inductive Dir where
  | read
  | write
  deriving DecidableEq, Repr

/-- The five requesters of each arbiter, in the cyclic order (R101). -/
inductive Requester where
  | chan (c : ChanId)
  | link
  deriving DecidableEq, Repr

/-! ### Descriptor store (chapter 1) -/

/-- The five descriptor kinds (R5). -/
inductive DescKind where
  | copy
  | fill
  | check
  | mark
  | wait
  deriving DecidableEq, Repr

/-- The descriptor record of a slot that is a member of a chain (R5). -/
structure Descriptor where
  kind      : DescKind
  record    : Bool
  haltAfter : Bool
  cont      : Bool
  src       : Space
  srcOff    : Word
  dst       : Space
  dstOff    : Word
  length    : Word
  operand   : Word
  deriving DecidableEq, Repr

/-- A slot of a chain with the record it holds (R5, R12). -/
structure Member where
  slot : Nat
  desc : Descriptor
  deriving DecidableEq, Repr

/-- Life-cycle state of a chain (R11). -/
inductive ChainState where
  | free
  | staged
  | bound
  | spent
  deriving DecidableEq, Repr

/-- A chain table entry (R11). The members stand in link order (R12): head, tail and count are the list's first, last and length. -/
structure Chain where
  state   : ChainState := .free
  isOpen  : Bool := false
  members : List Member := []
  boundTo : Option ChanId := none
  deriving DecidableEq, Repr

/-! ### Channels (chapters 2 and 3) and their records (chapter 4) -/

/-- The seven channel states (R25). -/
inductive ChanState where
  | idle
  | running
  | pending
  | starved
  | held
  | blocked
  | faulted
  deriving DecidableEq, Repr

/-- What a BLOCKED channel does when its outbox has drained (R37). -/
inductive Continuation where
  | proceed
  | held
  | faulted
  | idle
  deriving DecidableEq, Repr

/-- The seven fault codes (R39, R81). -/
inductive FaultCode where
  | unitState
  | windowRange
  | unitTimeout
  | unitError
  | unitGone
  | guard
  | waitTimeout
  deriving DecidableEq, Repr

/-- A fault: its code and the unit number or guard index it names; every code names one (R86). -/
structure FaultInfo where
  code   : FaultCode
  detail : Fin 8
  deriving DecidableEq, Repr

/-- The four record kinds (R86). -/
inductive RecordKind where
  | done
  | runEnd
  | fault
  | stopped
  deriving DecidableEq, Repr

/-- A completion record (R86). The sequence number is absent while the record is in an outbox (R88). -/
structure Record where
  seq     : Option (BitVec 16) := none
  kind    : RecordKind
  channel : ChanId
  handle  : Option Handle
  slot    : Option Nat := none
  fault   : Option FaultInfo := none
  amount  : Nat
  check   : Option Word := none
  deriving DecidableEq, Repr

/-- A channel record (R25) with the channel's staging buffer (R70). Defaults are the IDLE values (R34). The deadline is an
instant of the model's clock, in microseconds. -/
structure Channel where
  state         : ChanState := .idle
  handle        : Option Handle := none
  cursor        : Option Nat := none
  started       : Bool := false
  bytesDone     : Nat := 0
  completed     : Nat := 0
  crc           : Option Word := none
  deadline      : Option Nat := none
  holdRequested : Bool := false
  stopRequested : Bool := false
  outbox        : List Record := []
  continuation  : Option Continuation := none
  fault         : Option FaultInfo := none
  staging       : List Byte := []
  deriving DecidableEq, Repr

/-- The completion queue (R85); the depth is the number of records. -/
structure Queue where
  records : List Record := []
  nextSeq : BitVec 16 := 0
  blocked : List ChanId := []
  deriving DecidableEq, Repr

/-! ### Ports (chapter 5) -/

/-- What a slot bus access has beside a buffer access: the addressed unit and the instant its timer expires (R131). -/
structure CardTiming where
  unit : UnitId
  due  : Nat
  deriving DecidableEq, Repr

/-- An access in flight (R107). `data` is what a write carries; a read carries none. -/
structure Access where
  requester : Requester
  dir       : Dir
  addr      : Nat
  count     : Nat
  data      : List Byte
  card      : Option CardTiming
  deriving DecidableEq, Repr

/-- A port's arbiter (R101) with the access in flight on its port; the owner is that access's requester. -/
structure Arbiter where
  requests    : List Requester := []
  inFlight    : Option Access := none
  lastGranted : Requester := .link
  barred      : Bool := false
  deriving DecidableEq, Repr

/-- PEEK or POKE (R110). -/
inductive AgentKind where
  | peek
  | poke
  deriving DecidableEq, Repr

/-- The link agent's operation in progress (R110); its claim stands in the arbiters. -/
structure AgentOp where
  kind   : AgentKind
  space  : Space
  offset : Nat
  count  : Nat
  done   : Nat
  data   : List Byte
  deriving DecidableEq, Repr

/-! ### Units (chapter 6) and guards (chapter 7) -/

/-- The four unit states (R117). -/
inductive UnitState where
  | empty
  | present
  | active
  | fenced
  deriving DecidableEq, Repr

/-- A unit's window (R117). -/
structure Window where
  base : Nat
  size : Nat
  deriving DecidableEq, Repr

/-- A unit table entry (R117) with its presence line and debounce timer (R119). `configured` is the presence of the window.
The defaults are the COLD values of a slot with no card (R143). -/
structure UnitEntry where
  presence    : Bool := false
  state       : UnitState := .empty
  window      : Option Window := none
  timeout     : Nat := Config.defaultTimeout
  slotEnable  : Bool := false
  latch       : Bool := false
  waiters     : List ChanId := []
  deactPending : Bool := false
  line        : Bool := false
  debounceDue : Option Nat := none
  deriving DecidableEq, Repr

/-- The directions an entry refuses (R145). -/
inductive GuardMode where
  | noWrite
  | noRead
  | noAccess
  deriving DecidableEq, Repr

/-- The agents an entry covers (R145). -/
inductive GuardAgents where
  | channels
  | link
  | both
  deriving DecidableEq, Repr

/-- An enabled guard entry (R144); a disabled one is an absent one. -/
structure GuardRange where
  base   : Nat
  limit  : Nat
  mode   : GuardMode
  agents : GuardAgents
  deriving DecidableEq, Repr

/-- The guard unit (R144). -/
structure GuardUnit where
  entries : Vector (Option GuardRange) 8 := Vector.replicate 8 none
  hits    : Vector Nat 8 := Vector.replicate 8 0
  frozen  : Bool := false
  deriving DecidableEq, Repr

/-! ### Notices (chapter 8) -/

/-- A frame without its sync, length and check bytes, which follow from it (R169). -/
structure Frame where
  tag     : Byte
  kind    : Byte
  payload : List Byte
  deriving DecidableEq, Repr

/-- The twelve notice sources (R154). -/
inductive Source where
  | reset
  | records
  | queueHigh
  | fault (c : ChanId)
  | held
  | starved
  | unit
  | guard
  | link
  deriving DecidableEq, Repr

/-- A set of notice sources as the part sends it: 16 flags, one per source (R201, R207). -/
abbrev SourceSet := BitVec 16

/-- Where the current send of the notice in flight stands; TIMING holds the instant the resend timer expires (R154, R159). -/
inductive SendPhase where
  | waiting
  | onLine
  | timing (due : Nat)
  deriving DecidableEq, Repr

/-- The notice in flight (R154). -/
structure NoticeInFlight where
  snapshot : SourceSet
  later    : SourceSet
  frame    : Frame
  sends    : Nat
  phase    : SendPhase
  deriving DecidableEq, Repr

/-- The sender state, with the notice in flight exactly in AWAITING (R154). -/
inductive Sender where
  | quiet
  | awaiting (n : NoticeInFlight)
  | muted
  deriving DecidableEq, Repr

/-- The notice unit (R154). COLD: summary RESET alone, mask all twelve, QUIET, tag 0 (R165). -/
structure NoticeUnit where
  summary : SourceSet := 0x0001
  mask    : SourceSet := 0x0FFF
  sender  : Sender := .quiet
  tag     : Byte := 0
  deriving DecidableEq, Repr

/-! ### Control link (chapter 9) and request handler (chapter 10) -/

/-- A frame of the receive queue, with the check value received with it (R174). -/
structure RxFrame where
  tag     : Byte
  kind    : Byte
  payload : List Byte
  check   : BitVec 16
  deriving DecidableEq, Repr

/-- The frame in progress: its length byte, the bytes kept so far and the running check register (R171). -/
structure Partial where
  length : Nat
  taken  : List Byte
  crc    : BitVec 16
  deriving DecidableEq, Repr

/-- The receiver (R171). Outside HUNT it holds the frame in progress and the instant the gap timer expires (R172); in CHECK it
holds the first check byte once that has been taken. -/
inductive Receiver where
  | hunt
  | length (gapDue : Nat)
  | body (p : Partial) (gapDue : Nat)
  | check (p : Partial) (first : Option Byte) (gapDue : Nat)
  deriving DecidableEq, Repr

/-- An entry of reply memory (R188). -/
structure ReplyEntry where
  tag   : Byte
  kind  : Byte
  check : BitVec 16
  reply : Frame
  deriving DecidableEq, Repr

/-- The line LTX (R178): idle, sending a reply or a notice that ends at an instant of the clock, or finishing the one character
of a frame that a LINK reset has cut (R176). -/
inductive Line where
  | idle
  | reply (f : Frame) (due : Nat)
  | notice (f : Frame) (due : Nat)
  | cut
  deriving DecidableEq, Repr

/-- The seven link tally counters (R181). -/
structure Tally where
  lenErr    : Nat := 0
  gapErr    : Nat := 0
  checkErr  : Nat := 0
  overrun   : Nat := 0
  breaks    : Nat := 0
  replays   : Nat := 0
  staleAcks : Nat := 0
  deriving DecidableEq, Repr

/-- The link controller (R171 to R183), less the notice slot, which the notice unit fills (`Blocks.noticeSlot`). -/
structure Link where
  baudCode    : BitVec 2 := 0
  receiver    : Receiver := .hunt
  rxQueue     : List RxFrame := []
  replyMemory : List ReplyEntry := []
  silent      : Bool := false
  replySlot   : Option Frame := none
  line        : Line := .idle
  tally       : Tally := {}
  deriving DecidableEq, Repr

/-- The request handler's phase with the request in progress (R184). -/
inductive HandlerPhase where
  | free
  | deferred (r : RxFrame)
  | sending (r : RxFrame)
  deriving DecidableEq, Repr

/-- RESET scope (R194). -/
inductive Scope where
  | work
  | full
  deriving DecidableEq, Repr

/-- Reset cause (R198). -/
inductive ResetCause where
  | cold
  | link
  | work
  | full
  deriving DecidableEq, Repr

/-- What an owning block hands to the request handler at the end of a deferral (R190); the reply is built from it at the end
of the step. -/
inductive Handover where
  | channel (c : ChanId)
  | unit (gone : Bool) (u : UnitId)
  | agent (payload : List Byte)
  | reset (scope : Scope)
  deriving DecidableEq, Repr

/-- The part between RESET_N low and normal operation (R199, R200); start-up holds the instant by which it has ended. -/
inductive Power where
  | heldLow
  | startUp (due : Nat)
  | running
  deriving DecidableEq, Repr

/-! ### The whole part -/

/-- The blocks behind the request handler, which channel steps reach: descriptor store, channels, completion queue, arbiters,
link agent, unit table, guard unit and notice unit, with the reset cause and the clock (log 1), which notices and timers read. -/
structure Blocks where
  now        : Nat := 0
  resetCause : ResetCause := .cold
  mszCode    : BitVec 2 := 0
  chains     : Vector Chain 32 := Vector.replicate 32 {}
  pool       : List Nat := List.range Config.slotCount
  chans      : Vector Channel 4 := Vector.replicate 4 {}
  queue      : Queue := {}
  bufPort    : Arbiter := {}
  slotPort   : Arbiter := {}
  agent      : Option AgentOp := none
  units      : Vector UnitEntry 8 := Vector.replicate 8 {}
  guards     : GuardUnit := {}
  notice     : NoticeUnit := {}
  noticeSlot : Option Frame := none
  handover   : Option Handover := none
  deriving DecidableEq, Repr

/-- Buffer memory: the bytes that are not 00h, at strictly rising addresses (R109; `Memory.wf`). -/
abbrev Memory := List Host.Cell

/-- The state of the VL4620, and the queue of commands that wait for it. -/
structure State where
  blocks       : Blocks := {}
  mem          : Memory := []
  link         : Link := {}
  handler      : HandlerPhase := .free
  pendingReset : Option Scope := none
  power        : Power := .startUp Config.startUpTime
  freeCount    : Nat := 0
  pending      : List Instr := []
  deriving DecidableEq, Repr

/-- Why the machine stops with a fault. -/
inductive Fault where
  /-- Raised by BUFFER_ACCESS_END when the access in flight on the buffer port does not lie wholly within buffer memory. R108: every
  buffer access does, so no run from reset raises it. Safe (log 12). -/
  | bufferAddressAbsent
  deriving DecidableEq, Repr

/-- Why the machine refuses a command. -/
inductive Refusal where
  /-- Raised by the dispatch for a command without a meaning; no arm raises it. Safe. -/
  | notModelled (mnemonic : String)
  deriving DecidableEq, Repr

/-- The outcome of a step. -/
abbrev Out := Host.Outcome State Fault Refusal

/-- The machine right after reset: RESET_N has just been released, the blocks have their COLD values and start-up is in
progress (R200 steps 1 to 3). DESIGN CHOICE (log 4, log 5): straps low, no cards, reset cause COLD, clock 0. -/
def State.reset : State := {}

end Sys2Proof.Machine
end

