-- ==== Sys2Proof/Machine/Wire.lean ====
section
/-! DEFINITION. Bytes on the wire: byte order, the frame check, the code values, frames and records (R169, R170, chapter 12). -/

namespace Sys2Proof.Machine

/-! ### Byte order -/

/-- A number as `width` bytes, most significant byte first (R201). -/
def beBytes : (width n : Nat) → List Byte
  | 0, _ => []
  | k + 1, n => BitVec.ofNat 8 (n / 256 ^ k) :: beBytes k n

/-- The number that bytes spell, most significant byte first (R201). -/
def beNat (bytes : List Byte) : Nat := bytes.foldl (fun n b => n * 256 + b.toNat) 0

/-- The number in the field of `width` bytes that begins at byte `pos` of a payload (R201, R202). -/
def fieldAt (payload : List Byte) (pos width : Nat) : Nat := beNat ((payload.drop pos).take width)

/-- A number as one byte. -/
def byteOf (n : Nat) : Byte := BitVec.ofNat 8 n

/-- A set or clear item (R201). -/
def flagByte (b : Bool) : Byte := if b then 1 else 0

/-- A field that may be absent, sent as all ones when it is (R201). -/
def optBytes (width : Nat) : Option Nat → List Byte
  | some n => beBytes width n
  | none => List.replicate width 0xFF

/-! ### The frame check -/

/-- One shift of the CRC-16 register (R170). -/
def crc16Shift (r : BitVec 16) : BitVec 16 := if r.msb then (r <<< 1) ^^^ 0x1021 else r <<< 1

/-- Shifts of the CRC-16 register, one after the other. -/
def crc16Shifts : Nat → BitVec 16 → BitVec 16
  | 0, r => r
  | k + 1, r => crc16Shifts k (crc16Shift r)

/-- One byte taken into the CRC-16 register: into its eight most significant bits, then eight shifts (R170). -/
def crc16Byte (r : BitVec 16) (b : Byte) : BitVec 16 := crc16Shifts 8 (r ^^^ (b.setWidth 16 <<< 8))

/-- Bytes taken into the CRC-16 register in frame order (R170). -/
def crc16Bytes : BitVec 16 → List Byte → BitVec 16
  | r, [] => r
  | r, b :: bs => crc16Bytes (crc16Byte r b) bs

/-- The register before the first byte (R170). -/
def crc16Start : BitVec 16 := 0xFFFF

/-- The check of a frame: over its length, tag, kind and payload bytes (R169, R170). -/
def frameCheck (tag kind : Byte) (payload : List Byte) : BitVec 16 :=
  crc16Bytes crc16Start (byteOf (payload.length + 2) :: tag :: kind :: payload)

/-- A frame as it goes on the line: sync, length, tag, kind, payload and check, high byte first (R169, R179). -/
def Frame.wire (f : Frame) : List Byte :=
  0xC3 :: byteOf (f.payload.length + 2) :: f.tag :: f.kind :: f.payload
    ++ beBytes 2 (frameCheck f.tag f.kind f.payload).toNat

/-- The line rate in bit/s of a baud code (R167). -/
def bitRate (code : BitVec 2) : Nat :=
  if code = 0 then 115200 else if code = 1 then 460800 else if code = 2 then 1000000 else 3000000

/-- The time of one character of 10 bits, in microseconds rounded up (R167). -/
def characterTime (code : BitVec 2) : Nat := (10 * 1000000 + (bitRate code - 1)) / bitRate code

/-- The time a frame takes on the line, in microseconds rounded up: L + 4 characters of 10 bits (R169, R179). DEDUCED, log 21. -/
def lineTime (code : BitVec 2) (f : Frame) : Nat :=
  ((f.payload.length + 6) * 10 * 1000000 + (bitRate code - 1)) / bitRate code

/-! ### Buffer memory size -/

/-- Buffer memory size in bytes of a strap code MSZ1-0 (R108). -/
def memorySize (msz : BitVec 2) : Nat := 4194304 * 2 ^ msz.toNat

/-! ### Code values (R207) -/

def ChanState.code : ChanState → Byte
  | .idle => 0 | .running => 1 | .pending => 2 | .starved => 3 | .held => 4 | .blocked => 5 | .faulted => 6

def Continuation.code : Continuation → Byte
  | .proceed => 1 | .held => 2 | .faulted => 3 | .idle => 4

def ChainState.code : ChainState → Byte
  | .free => 0 | .staged => 1 | .bound => 2 | .spent => 3

def UnitState.code : UnitState → Byte
  | .empty => 0 | .present => 1 | .active => 2 | .fenced => 3

def FaultCode.code : FaultCode → Byte
  | .unitState => 1 | .windowRange => 2 | .unitTimeout => 3 | .unitError => 4 | .unitGone => 5 | .guard => 6
  | .waitTimeout => 7

def GuardMode.code : GuardMode → Byte
  | .noWrite => 1 | .noRead => 2 | .noAccess => 3

def GuardAgents.code : GuardAgents → Byte
  | .channels => 1 | .link => 2 | .both => 3

def Sender.code : Sender → Byte
  | .quiet => 0 | .awaiting _ => 1 | .muted => 2

def ResetCause.code : ResetCause → Byte
  | .cold => 0 | .link => 1 | .work => 2 | .full => 3

def Scope.code : Scope → Byte
  | .work => 0 | .full => 1

/-- Record kinds (R205). -/
def RecordKind.code : RecordKind → Byte
  | .done => 1 | .runEnd => 2 | .fault => 3 | .stopped => 4

/-- Descriptor kinds (R204). -/
def DescKind.code : DescKind → Byte
  | .copy => 1 | .fill => 2 | .check => 3 | .mark => 4 | .wait => 5

/-- Spaces (R204, R207). -/
def Space.code : Space → Byte
  | .buf => 0x00
  | .unit n => byteOf (0x10 + n.val)

/-- The bit a source has in a set (R207). -/
def Source.bit : Source → Nat
  | .reset => 0 | .records => 1 | .queueHigh => 2 | .fault c => 3 + c.val | .held => 7 | .starved => 8 | .unit => 9
  | .guard => 10 | .link => 11

/-- The set that holds one source. -/
def Source.set (s : Source) : SourceSet := 1#16 <<< s.bit

/-- Result codes (R189). -/
inductive Result where
  | ok | unknownKind | badLength | badField | noSlots | noChains | badHandle | chainBusy | chainClosed | channelBusy
  | wrongState | unitState | notConfigured | overlap | unitBusy | guardFrozen | guardRefused | accessTimeout
  | accessError | accessGone | range
  deriving DecidableEq, Repr

def Result.code : Result → Byte
  | .ok => 0x00 | .unknownKind => 0x01 | .badLength => 0x02 | .badField => 0x03 | .noSlots => 0x04 | .noChains => 0x05
  | .badHandle => 0x06 | .chainBusy => 0x07 | .chainClosed => 0x08 | .channelBusy => 0x09 | .wrongState => 0x0A
  | .unitState => 0x0B | .notConfigured => 0x0C | .overlap => 0x0D | .unitBusy => 0x0E | .guardFrozen => 0x0F
  | .guardRefused => 0x10 | .accessTimeout => 0x11 | .accessError => 0x12 | .accessGone => 0x13 | .range => 0x14

/-- A BAD_FIELD reply with its index: an entry's, or FFh for the request itself (R187, R203). -/
def badField (index : Byte) : List Byte := [Result.badField.code, index]

/-! ### Descriptor and record forms -/

/-- A descriptor form as its 20 bytes (R204). -/
def DescForm.bytes (f : DescForm) : List Byte :=
  [f.kind, f.flags, f.src, f.dst] ++ beBytes 4 f.srcOff.toNat ++ beBytes 4 f.dstOff.toNat ++ beBytes 4 f.length.toNat
    ++ beBytes 4 f.operand.toNat

/-- The flags byte of a descriptor (R204). -/
def Descriptor.flags (d : Descriptor) : Byte :=
  byteOf (d.record.toNat + 2 * d.haltAfter.toNat + 4 * d.cont.toNat)

/-- The form of a descriptor record, as SLOT READ sends it (R23, R204). -/
def Descriptor.form (d : Descriptor) : DescForm where
  kind := d.kind.code
  flags := d.flags
  src := d.src.code
  dst := d.dst.code
  srcOff := d.srcOff
  dstOff := d.dstOff
  length := d.length
  operand := d.operand

/-- The presence mask of a record: bit 0 slot, bit 1 code, bit 2 detail, bit 3 check value (R205). -/
def Record.mask (r : Record) : Byte :=
  byteOf (r.slot.isSome.toNat + 6 * r.fault.isSome.toNat + 8 * r.check.isSome.toNat)

/-- A record as its 18 bytes (R205); absent fields are 0 under the mask. -/
def Record.bytes (r : Record) : List Byte :=
  beBytes 2 ((r.seq.map BitVec.toNat).getD 0)
    ++ [r.kind.code, byteOf r.channel.val, byteOf ((r.handle.map Fin.val).getD 0xFF), r.mask]
    ++ beBytes 2 (r.slot.getD 0)
    ++ [(r.fault.map fun f => f.code.code).getD 0, (r.fault.map fun f => byteOf f.detail.val).getD 0]
    ++ beBytes 4 r.amount ++ beBytes 4 ((r.check.map BitVec.toNat).getD 0)

/-- A guard entry as GUARD SET and GUARD QUERY replies send it; a disabled one is all 0 (R201, R203). -/
def guardBytes : Option GuardRange → List Byte
  | some g => [1] ++ beBytes 4 g.base ++ beBytes 4 g.limit ++ [g.mode.code, g.agents.code]
  | none => [0] ++ beBytes 4 0 ++ beBytes 4 0 ++ [0, 0]

/-- The kind of a reply: the request kind plus 80h, or FFh where that does not fit (R187). -/
def replyKind (kind : Byte) : Byte := if kind.toNat < 0x80 then kind + 0x80 else 0xFF

end Sys2Proof.Machine
end

