-- ==== Sys2Proof/Machine/Ops.lean ====
section
/-! DEFINITION. The named operations over buffer memory and over the tables of the part. Every read and write of an entry of a
table goes through an accessor here. -/

namespace Sys2Proof.Machine

/-! ### Buffer memory (R107, R109) -/

/-- The byte at an address; an address not listed reads 00h, the value start-up writes (R109). -/
def Memory.read : Memory → Nat → Byte
  | [], _ => 0
  | (a, v) :: rest, x => if x = a then v else Memory.read rest x

/-- Put a byte at an address of a list with rising addresses; 00h is what an unlisted address reads, so it is not listed. -/
def Memory.write : Memory → Nat → Byte → Memory
  | [], x, b => if b = 0 then [] else [(x, b)]
  | (a, v) :: rest, x, b =>
    if x < a then (if b = 0 then (a, v) :: rest else (x, b) :: (a, v) :: rest)
    else if x = a then (if b = 0 then rest else (x, b) :: rest)
    else (a, v) :: Memory.write rest x b

/-- The canonical form: addresses strictly rise from above `low`, and no entry is 00h. -/
def Memory.wfFrom : (low : Nat) → Memory → Bool
  | _, [] => true
  | low, (a, v) :: rest => low ≤ a && v != 0 && Memory.wfFrom (a + 1) rest

/-- The canonical form of buffer memory. -/
def Memory.wf (m : Memory) : Bool := Memory.wfFrom 0 m

/-- Bytes stored at consecutive addresses upward (R107). -/
def Memory.writeBytes : Memory → Nat → List Byte → Memory
  | m, _, [] => m
  | m, a, b :: bs => Memory.writeBytes (Memory.write m a b) (a + 1) bs

/-- Bytes held at consecutive addresses upward (R107). -/
def Memory.readBytes (m : Memory) (a : Nat) : (n : Nat) → List Byte
  | 0 => []
  | n + 1 => Memory.read m a :: Memory.readBytes m (a + 1) n

/-- Every cell holds an unknown byte: a write cut by RESET_N (R199, log 10). -/
def cutBytes (k : Nat) (data : List Byte) : List Byte := (List.range data.length).map (Config.cutWriteByte k)

/-! ### Access to the tables -/

def Blocks.chan (b : Blocks) (c : ChanId) : Channel := b.chans[c]
def Blocks.chain (b : Blocks) (h : Handle) : Chain := b.chains[h]
def Blocks.unit (b : Blocks) (u : UnitId) : UnitEntry := b.units[u]

def Blocks.updChan (b : Blocks) (c : ChanId) (f : Channel → Channel) : Blocks :=
  { b with chans := b.chans.set c.val (f (b.chan c)) }

def Blocks.updChain (b : Blocks) (h : Handle) (f : Chain → Chain) : Blocks :=
  { b with chains := b.chains.set h.val (f (b.chain h)) }

def Blocks.updUnit (b : Blocks) (u : UnitId) (f : UnitEntry → UnitEntry) : Blocks :=
  { b with units := b.units.set u.val (f (b.unit u)) }

/-- The arbiter of a port (R101). -/
def Blocks.arb (b : Blocks) : Port → Arbiter
  | .buffer => b.bufPort
  | .slot => b.slotPort

def Blocks.updArb (b : Blocks) (p : Port) (f : Arbiter → Arbiter) : Blocks :=
  match p with
  | .buffer => { b with bufPort := f b.bufPort }
  | .slot => { b with slotPort := f b.slotPort }

/-- The handles, channels and units in ascending order. -/
def allHandles : List Handle := List.finRange 32
def allChans : List ChanId := List.finRange 4
def allUnits : List UnitId := List.finRange 8
def allGuards : List GuardId := List.finRange 8

/-- A number as an index of a table, when it names an entry (R208: too large a number is refused by its owning rule). -/
def indexOf? (size n : Nat) : Option (Fin size) := if h : n < size then some ⟨n, h⟩ else none

/-- The queue's depth (R85). -/
def Blocks.depth (b : Blocks) : Nat := b.queue.records.length

/-- Buffer memory size (R108). -/
def Blocks.bufferSize (b : Blocks) : Nat := memorySize b.mszCode

/-- The clock stands at an instant or later: a timer's expiry has been reached (log 2). -/
def Blocks.reachTime (b : Blocks) (due : Nat) : Blocks := { b with now := max b.now due }

/-! ### Chains and cursors (R11, R12) -/

/-- The members of a chain from a slot to the tail: that slot, its successor, and so on (R12). -/
def membersFrom (members : List Member) (slot : Nat) : List Member := members.dropWhile fun m => m.slot != slot

/-- The members a channel has before it: from its cursor to the tail of its chain; none when the cursor is absent (R25). -/
def Blocks.ahead (b : Blocks) (c : ChanId) : List Member :=
  match (b.chan c).handle, (b.chan c).cursor with
  | some h, some slot => membersFrom (b.chain h).members slot
  | _, _ => []

/-- The descriptor at a channel's cursor. -/
def Blocks.current (b : Blocks) (c : ChanId) : Option Descriptor := ((b.ahead c).head?).map Member.desc

/-- Whether the chain bound to a channel is open (R33). -/
def Blocks.boundOpen (b : Blocks) (c : ChanId) : Bool :=
  match (b.chan c).handle with
  | some h => (b.chain h).isOpen
  | none => false

/-! ### Claims on the ports (R26, R101, R104) -/

/-- The port of a space (R65). -/
def Space.port : Space → Port
  | .buf => .buffer
  | .unit _ => .slot

/-- The five requesters in the fixed cyclic order (R101). -/
def requesterOrder : List Requester := [.chan 0, .chan 1, .chan 2, .chan 3, .link]

/-- The set with one requester more, kept in the cyclic order. -/
def addRequest (r : Requester) (rs : List Requester) : List Requester :=
  requesterOrder.filter fun x => x == r || rs.contains x

/-- A requester joins the requests of a port's arbiter (R102). -/
def Blocks.raiseRequest (b : Blocks) (r : Requester) (p : Port) : Blocks :=
  b.updArb p fun a => { a with requests := addRequest r a.requests }

/-- A requester's outstanding request is withdrawn; nothing else of the arbiter changes (R104). -/
def Arbiter.withdraw (a : Arbiter) (r : Requester) : Arbiter := { a with requests := a.requests.filter (· != r) }

/-- The withdrawal of a requester's outstanding request, on whichever port it stands (R26, R104). -/
def Blocks.withdrawRequest (b : Blocks) (r : Requester) : Blocks :=
  { b with bufPort := b.bufPort.withdraw r, slotPort := b.slotPort.withdraw r }

/-- The requester whose access is in flight on the arbiter's port (R101). -/
def Arbiter.owner (a : Arbiter) : Option Requester := a.inFlight.map Access.requester

/-- Whether an access of a channel is in flight on either port. -/
def Blocks.accessInFlight (b : Blocks) (c : ChanId) : Bool :=
  b.bufPort.owner == some (.chan c) || b.slotPort.owner == some (.chan c)

/-- Whether a slot bus access to a unit is in flight. -/
def Blocks.unitAccessed (b : Blocks) (u : UnitId) : Bool :=
  match b.slotPort.inFlight with
  | some a => (a.card.map CardTiming.unit) == some u
  | none => false

/-- Whether an access is in flight on either port (R194). -/
def Blocks.anyInFlight (b : Blocks) : Bool := b.bufPort.inFlight.isSome || b.slotPort.inFlight.isSome

/-! ### Waiter lists (R76) -/

/-- A channel leaves a unit's waiter list; those behind it move up. Its deadline becomes absent. -/
def Blocks.leaveWaiters (b : Blocks) (u : UnitId) (c : ChanId) : Blocks :=
  (b.updUnit u fun e => { e with waiters := e.waiters.filter (· != c) }).updChan c fun ch => { ch with deadline := none }

/-- A PENDING channel is withdrawn from the waiter list of the unit its WAIT names (R76, R80). -/
def Blocks.leaveWait (b : Blocks) (c : ChanId) : Blocks :=
  match (b.current c).map Descriptor.src with
  | some (.unit u) => b.leaveWaiters u c
  | _ => b.updChan c fun ch => { ch with deadline := none }

end Sys2Proof.Machine
end

