-- ==== Sys2Proof/Machine/Flags.lean ====
section
/-! DEFINITION. The flags of the part: raising a notice source, building a notice (chapter 8), and the saturating counters. -/

namespace Sys2Proof.Machine

/-- One more event on a counter that saturates at 65535 (R147, R181). -/
def countUp (n : Nat) : Nat := if n < Config.counterMax then n + 1 else n

/-- Whether a source is in a set. -/
def SourceSet.has (s : SourceSet) (x : Source) : Bool := s.getLsbD x.bit

/-- The NOTICE frame for a snapshot: its payload is the snapshot, the queue depth, the four channel states and the reset cause
as they stand now (R157, R158, R206). DEDUCED, log 14: a notice built inside a step shows the values at that point of the step. -/
def noticeFrame (b : Blocks) (tag : Byte) (snapshot : SourceSet) : Frame where
  tag := tag
  kind := 0xC0
  payload := beBytes 2 snapshot.toNat ++ [byteOf b.depth] ++ allChans.map (fun c => (b.chan c).state.code)
    ++ [b.resetCause.code]

/-- A QUIET sender with a non-empty summary builds a notice and hands it to the transmitter (R157). -/
def buildNotice (b : Blocks) : Blocks :=
  match b.notice.sender with
  | .quiet =>
    if b.notice.summary = 0 then b
    else
      let tag := b.notice.tag + 1
      let frame := noticeFrame b tag b.notice.summary
      { b with
        notice := { b.notice with
          tag := tag
          sender := .awaiting { snapshot := b.notice.summary, later := 0, frame := frame, sends := 1, phase := .waiting } }
        noticeSlot := some frame }
  | _ => b

/-- A source enters the summary, and the later set in AWAITING (R155). -/
def addSource (n : NoticeUnit) (x : SourceSet) : NoticeUnit :=
  { n with
    summary := n.summary ||| x
    sender := match n.sender with
      | .awaiting f => .awaiting { f with later := f.later ||| x }
      | other => other }

/-- A source is raised: discarded when masked, otherwise added; a QUIET sender builds a notice in the same step (R155, R157). -/
def raise (x : Source) (b : Blocks) : Blocks :=
  if SourceSet.has b.notice.mask x then buildNotice { b with notice := addSource b.notice x.set } else b

/-- The notice in flight is given up, with its snapshot, later set, frame and timer; one that the transmitter has not begun
to send is withdrawn (R160, R166, R180). -/
def dropNotice (b : Blocks) : Blocks :=
  match b.notice.sender with
  | .awaiting f =>
    { b with
      notice := { b.notice with sender := .quiet }
      noticeSlot := if f.phase = .waiting then none else b.noticeSlot }
  | _ => { b with notice := { b.notice with sender := .quiet } }

end Sys2Proof.Machine
end

