-- ==== Sys2Proof/Machine/Operands.lean ====
section
/-! DEFINITION. The operand forms: the fields of request payloads, the descriptor form and its static validation (R6 to R10,
R186, R202, R204, R208). -/

namespace Sys2Proof.Machine

/-! ### Request kinds -/

/-- The 29 request kinds (R186). -/
inductive RequestKind where
  | hello | status | reset | linkTally | noticeMask
  | chainNew | chainAppend | chainClose | chainDrop | chainQuery | slotRead
  | channelStart | channelHold | channelResume | channelStop | channelRetry | channelSkip | channelClear | channelQuery
  | collect
  | unitSet | unitActivate | unitDeactivate | unitQuery
  | guardSet | guardFreeze | guardQuery
  | peek | poke
  deriving DecidableEq, Repr

/-- The kind code of each request (R186, R202). -/
def RequestKind.code : RequestKind → Byte
  | .hello => 0x01 | .status => 0x02 | .reset => 0x03 | .linkTally => 0x04 | .noticeMask => 0x05
  | .chainNew => 0x10 | .chainAppend => 0x11 | .chainClose => 0x12 | .chainDrop => 0x13 | .chainQuery => 0x14
  | .slotRead => 0x15
  | .channelStart => 0x20 | .channelHold => 0x21 | .channelResume => 0x22 | .channelStop => 0x23
  | .channelRetry => 0x24 | .channelSkip => 0x25 | .channelClear => 0x26 | .channelQuery => 0x27
  | .collect => 0x2C
  | .unitSet => 0x30 | .unitActivate => 0x31 | .unitDeactivate => 0x32 | .unitQuery => 0x33
  | .guardSet => 0x38 | .guardFreeze => 0x39 | .guardQuery => 0x3A
  | .peek => 0x3C | .poke => 0x3D

/-- Every request kind. -/
def RequestKind.all : List RequestKind :=
  [.hello, .status, .reset, .linkTally, .noticeMask, .chainNew, .chainAppend, .chainClose, .chainDrop, .chainQuery, .slotRead,
   .channelStart, .channelHold, .channelResume, .channelStop, .channelRetry, .channelSkip, .channelClear, .channelQuery,
   .collect, .unitSet, .unitActivate, .unitDeactivate, .unitQuery, .guardSet, .guardFreeze, .guardQuery, .peek, .poke]

/-- The request a kind byte names, if any (R186). -/
def RequestKind.ofCode (kind : Byte) : Option RequestKind := RequestKind.all.find? fun k => k.code == kind

/-- Whether a payload length is one of those of the kind (R186). -/
def RequestKind.lengthFits (k : RequestKind) (n : Nat) : Bool :=
  match k with
  | .hello | .status | .guardFreeze => n == 0
  | .reset | .linkTally | .guardQuery | .chainClose | .chainDrop | .collect | .unitActivate | .unitQuery => n == 1
  | .channelHold | .channelResume | .channelStop | .channelRetry | .channelSkip | .channelClear | .channelQuery => n == 1
  | .noticeMask | .slotRead | .channelStart | .unitDeactivate => n == 2
  | .chainQuery => n == 3
  | .peek => n == 6
  | .unitSet => n == 8
  | .guardSet => n == 12
  | .chainNew => n % 20 == 1 && n ≤ 221
  | .chainAppend => n % 20 == 1 && 21 ≤ n && n ≤ 221
  | .poke => 6 ≤ n && n ≤ 133

/-! ### The descriptor form -/

/-- The descriptor form that 20 bytes spell (R204). -/
def DescForm.ofBytes (bytes : List Byte) : DescForm where
  kind := byteOf (fieldAt bytes 0 1)
  flags := byteOf (fieldAt bytes 1 1)
  src := byteOf (fieldAt bytes 2 1)
  dst := byteOf (fieldAt bytes 3 1)
  srcOff := BitVec.ofNat 32 (fieldAt bytes 4 4)
  dstOff := BitVec.ofNat 32 (fieldAt bytes 8 4)
  length := BitVec.ofNat 32 (fieldAt bytes 12 4)
  operand := BitVec.ofNat 32 (fieldAt bytes 16 4)

/-- `n` descriptor forms, one after the other (R202). -/
def formsOf : (n : Nat) → List Byte → List DescForm
  | 0, _ => []
  | n + 1, bytes => DescForm.ofBytes (bytes.take 20) :: formsOf n (bytes.drop 20)

/-- The space a space code names (R204, R207). -/
def Space.ofCode (code : Byte) : Option Space :=
  if code = 0 then some .buf
  else if 0x10 ≤ code.toNat then (indexOf? 8 (code.toNat - 0x10)).map .unit else none

/-- The descriptor kind a kind code names (R204). -/
def DescKind.ofCode (code : Byte) : Option DescKind :=
  [DescKind.copy, .fill, .check, .mark, .wait].find? fun k => k.code == code

/-- A range of `length` bytes fits its space as far as the store can tell; sums are true sums (R8). -/
def rangeFits (bufferSize : Nat) (space : Space) (offset length : Nat) : Bool :=
  match space with
  | .buf => offset + length ≤ bufferSize
  | .unit _ => offset + length ≤ Config.maxWindow

/-- Two ranges of the same length share a byte (R9). -/
def rangesMeet (a b length : Nat) : Bool := a < b + length && b < a + length

/-- The zero form of an unused source: space code 0, offset 0 (R6). -/
def DescForm.noSource (f : DescForm) : Bool := f.src == 0 && f.srcOff == 0

/-- The zero form of an unused destination (R6). -/
def DescForm.noDest (f : DescForm) : Bool := f.dst == 0 && f.dstOff == 0

/-- The checks of R6 to R9 that follow the codes of an entry, by kind. -/
def entryOk (bufferSize : Nat) (f : DescForm) (kind : DescKind) (src dst : Space) : Bool :=
  let len := f.length.toNat
  let lengthOk := 1 ≤ len && len ≤ Config.maxLength
  let srcFits := rangeFits bufferSize src f.srcOff.toNat len
  let dstFits := rangeFits bufferSize dst f.dstOff.toNat len
  match kind with
  | .copy =>
    lengthOk && f.operand == 0 && srcFits && dstFits
      && !(src == .buf && dst == .buf && rangesMeet f.srcOff.toNat f.dstOff.toNat len)
  | .fill => DescForm.noSource f && lengthOk && dstFits
  | .check => DescForm.noDest f && lengthOk && srcFits
  | .mark => DescForm.noSource f && len == 4 && dstFits && f.dstOff.toNat % 4 == 0
  | .wait => DescForm.noDest f && f.srcOff == 0 && len == 0 && f.operand.toNat ≤ Config.maxWaitOperand && src != .buf

/-- Static validation of one entry: its record, or nothing when a check of R6 to R9 fails (R10). -/
def validate (bufferSize : Nat) (f : DescForm) : Option Descriptor :=
  match DescKind.ofCode f.kind, Space.ofCode f.src, Space.ofCode f.dst with
  | some kind, some src, some dst =>
    if f.flags.toNat < 8 && entryOk bufferSize f kind src dst then
      some
        { kind := kind
          record := f.flags.getLsbD 0
          haltAfter := f.flags.getLsbD 1
          cont := f.flags.getLsbD 2
          src := src
          srcOff := f.srcOff
          dst := dst
          dstOff := f.dstOff
          length := f.length
          operand := f.operand }
    else none
  | _, _, _ => none

/-- Static validation of the entries of a request, in request order: their records, or the index of the first that fails (R10). -/
def validateAll (bufferSize : Nat) : (index : Nat) → List DescForm → Except Nat (List Descriptor)
  | _, [] => .ok []
  | i, f :: fs =>
    match validate bufferSize f with
    | none => .error i
    | some d =>
      match validateAll bufferSize (i + 1) fs with
      | .ok ds => .ok (d :: ds)
      | .error j => .error j

/-! ### Code fields of the other requests -/

/-- A set or clear byte: 00h or 01h (R208). -/
def flagOf? (n : Nat) : Option Bool := if n = 0 then some false else if n = 1 then some true else none

/-- The guard mode of a code (R207). -/
def GuardMode.ofCode (n : Nat) : Option GuardMode :=
  if n = 1 then some .noWrite else if n = 2 then some .noRead else if n = 3 then some .noAccess else none

/-- The guard agents of a code (R207). -/
def GuardAgents.ofCode (n : Nat) : Option GuardAgents :=
  if n = 1 then some .channels else if n = 2 then some .link else if n = 3 then some .both else none

/-- RESET's scope (R194). -/
def Scope.ofCode (n : Nat) : Option Scope := if n = 0 then some .work else if n = 1 then some .full else none

/-- A window size: a power of two from 4,096 to 1,048,576 (R124). -/
def isWindowSize (n : Nat) : Bool := (List.range 9).any fun k => n == 4096 * 2 ^ k

/-! ### The frames of the request commands (R202) -/

/-- The payload of a chain request: a first byte, then the entries' forms. -/
def formsPayload (first : Byte) (entries : List DescForm) : List Byte := first :: entries.flatMap DescForm.bytes

end Sys2Proof.Machine
end

