-- ==== Sys2Proof/Machine/Guard.lean ====
section
/-! DEFINITION. The guard unit's range check (R145 to R148). -/

namespace Sys2Proof.Machine

/-- The agent a range check is made for (R145). -/
inductive Agent where
  | channels
  | link
  deriving DecidableEq, Repr

/-- Whether a mode refuses a direction (R145). -/
def GuardMode.refuses : GuardMode → Dir → Bool
  | .noWrite, .write => true
  | .noRead, .read => true
  | .noAccess, _ => true
  | _, _ => false

/-- Whether an entry's agents cover an agent (R145). -/
def GuardAgents.covers : GuardAgents → Agent → Bool
  | .channels, .channels => true
  | .link, .link => true
  | .both, _ => true
  | _, _ => false

/-- Whether an enabled entry refuses a check: a shared byte, the direction, the agent (R146). -/
def GuardRange.refuses (g : GuardRange) (offset length : Nat) (dir : Dir) (agent : Agent) : Bool :=
  offset < g.limit && g.base < offset + length && g.mode.refuses dir && g.agents.covers agent

/-- The lowest-numbered entry that refuses a check, if any (R147). -/
def GuardUnit.refusing (g : GuardUnit) (offset length : Nat) (dir : Dir) (agent : Agent) : Option GuardId :=
  allGuards.find? fun i =>
    match g.entries[i] with
    | some r => r.refuses offset length dir agent
    | none => false

/-- A refusal is charged to an entry: its hit count grows, saturating, and GUARD is raised (R147). -/
def chargeGuard (i : GuardId) (b : Blocks) : Blocks :=
  raise .guard { b with guards := { b.guards with hits := b.guards.hits.set i.val (countUp b.guards.hits[i]) } }

/-- A range check: pass, which changes nothing, or refuse, charged to the entry named (R146, R147). -/
def rangeCheck (offset length : Nat) (dir : Dir) (agent : Agent) (b : Blocks) : Blocks × Option GuardId :=
  match b.guards.refusing offset length dir agent with
  | some i => (chargeGuard i b, some i)
  | none => (b, none)

end Sys2Proof.Machine
end

