-- ==== Sys2Proof/Machine/Queue.lean ====
section
/-! DEFINITION. Posting records into the completion queue (chapter 4) and entering the states a channel rests in (chapter 2). -/

namespace Sys2Proof.Machine

/-! ### Posting -/

/-- An accepted offer: the record takes the next sequence number and joins the tail; RECORDS is raised, and QUEUE_HIGH when the
depth has just become 48 (R89, R90, R94, R95). -/
def acceptRecord (r : Record) (b : Blocks) : Blocks :=
  let posted : Record := { r with seq := some b.queue.nextSeq }
  let b1 : Blocks := { b with queue := { b.queue with records := b.queue.records ++ [posted], nextSeq := b.queue.nextSeq + 1 } }
  let b2 := raise .records b1
  if b1.depth = Config.queueHighDepth then raise .queueHigh b2 else b2

/-- A channel offers records, oldest first, while the queue has space; what is left is its outbox (R36, R90). -/
def offerAll (c : ChanId) : List Record → Blocks → Blocks
  | [], b => b.updChan c fun ch => { ch with outbox := [] }
  | r :: rs, b =>
    if b.depth < Config.queueCapacity then offerAll c rs (acceptRecord r b)
    else b.updChan c fun ch => { ch with outbox := r :: rs }

/-- A channel posts from its outbox (R36). -/
def postOutbox (c : ChanId) (b : Blocks) : Blocks := offerAll c (b.chan c).outbox b

/-- Whether a channel's outbox has drained. -/
def Blocks.drained (b : Blocks) (c : ChanId) : Bool := (b.chan c).outbox.isEmpty

/-- A channel joins the tail of the blocked-poster list and enters BLOCKED with a continuation (R91). -/
def block (c : ChanId) (k : Continuation) (b : Blocks) : Blocks :=
  { b.updChan c fun ch => { ch with state := .blocked, continuation := some k } with
    queue := { b.queue with blocked := b.queue.blocked ++ [c] } }

/-- A channel that is not BLOCKED posts its records; if the queue is full, it blocks with the continuation given (R36, R91). -/
def postOrBlock (c : ChanId) (k : Continuation) (b : Blocks) : Blocks :=
  let b1 := postOutbox c b
  if b1.drained c then b1 else block c k b1

/-- A record enters a channel's outbox at its tail (R36). -/
def pushRecord (c : ChanId) (r : Record) (b : Blocks) : Blocks :=
  b.updChan c fun ch => { ch with outbox := ch.outbox ++ [r] }

/-! ### The records a channel makes (R87) -/

/-- A DONE record; a CHECK's carries the check value, the register exclusive-OR FFFFFFFFh (R30, R72, R73). -/
def doneRecord (c : ChanId) (ch : Channel) (m : Member) : Record where
  kind := .done
  channel := c
  handle := ch.handle
  slot := some m.slot
  amount := ch.bytesDone
  check := if m.desc.kind = .check then ch.crc.map (· ^^^ 0xFFFFFFFF) else none

/-- A FAULT record (R39). -/
def faultRecord (c : ChanId) (ch : Channel) (m : Member) (f : FaultInfo) : Record where
  kind := .fault
  channel := c
  handle := ch.handle
  slot := some m.slot
  fault := some f
  amount := ch.bytesDone

/-- An END record (R34). -/
def endRecord (c : ChanId) (ch : Channel) : Record where
  kind := .runEnd
  channel := c
  handle := ch.handle
  amount := ch.completed

/-- A STOPPED record (R48). -/
def stoppedRecord (c : ChanId) (ch : Channel) : Record where
  kind := .stopped
  channel := c
  handle := ch.handle
  slot := ch.cursor
  amount := ch.bytesDone

/-! ### Entering a state (R57) -/

/-- HELD is entered: HELD is raised (R57). -/
def enterHeld (c : ChanId) (b : Blocks) : Blocks :=
  raise .held (b.updChan c fun ch => { ch with state := .held, continuation := none })

/-- FAULTED is entered: FAULTn is raised (R40, R57). -/
def enterFaulted (c : ChanId) (b : Blocks) : Blocks :=
  raise (.fault c) (b.updChan c fun ch => { ch with state := .faulted, continuation := none })

/-- STARVED is entered: STARVED is raised (R33, R57). -/
def enterStarved (c : ChanId) (b : Blocks) : Blocks :=
  raise .starved (b.updChan c fun ch => { ch with state := .starved, continuation := none })

/-- A chain's run has ended: it is SPENT and has no bound channel (R13, R14). -/
def unbind (h : Option Handle) (b : Blocks) : Blocks :=
  match h with
  | some h => b.updChain h fun x => { x with state := .spent, boundTo := none }
  | none => b

/-- IDLE is entered, and the chain becomes SPENT in the same step (R14, R34). -/
def enterIdle (c : ChanId) (b : Blocks) : Blocks := (unbind (b.chan c).handle b).updChan c fun _ => {}

/-- The run ends: END enters the outbox with continuation IDLE (R34). -/
def endRun (c : ChanId) (b : Blocks) : Blocks :=
  let b1 := postOrBlock c .idle (pushRecord c (endRecord c (b.chan c)) b)
  if b1.drained c then enterIdle c b1 else b1

/-- STOPPED enters the outbox with continuation IDLE (R48). The staged bytes are discarded and a fault held is given up. -/
def stopRun (c : ChanId) (b : Blocks) : Blocks :=
  let b1 := b.updChan c fun ch => { ch with staging := [], fault := none }
  let b2 := postOrBlock c .idle (pushRecord c (stoppedRecord c (b1.chan c)) b1)
  if b2.drained c then enterIdle c b2 else b2

/-- A fault without CONTINUE stops the channel on the descriptor: the FAULT record already stands in the outbox, the code and
detail are recorded, and FAULTED is entered when the record has been posted (R40). -/
def stopOnFault (c : ChanId) (f : FaultInfo) (b : Blocks) : Blocks :=
  let b1 := postOrBlock c .faulted (b.updChan c fun ch => { ch with fault := some f, staging := [] })
  if b1.drained c then enterFaulted c b1 else b1

end Sys2Proof.Machine
end

