-- ==== Sys2Proof/Machine/Channel.lean ====
section
/-! DEFINITION. The channel engine: descriptor start, completion, the fault policy and the accesses a channel makes (chapters 2
and 3). -/

namespace Sys2Proof.Machine

/-! ### The check value (R72) -/

/-- One shift of the reflected CRC-32 register (R72). -/
def crc32Shift (r : Word) : Word := if r.getLsbD 0 then (r >>> 1) ^^^ 0xEDB88320 else r >>> 1

/-- Shifts of the CRC-32 register, one after the other. -/
def crc32Shifts : Nat → Word → Word
  | 0, r => r
  | k + 1, r => crc32Shifts k (crc32Shift r)

/-- Bytes taken into the CRC-32 register in ascending position (R72). -/
def crc32Bytes : Word → List Byte → Word
  | r, [] => r
  | r, b :: bs => crc32Bytes (crc32Shifts 8 (r ^^^ b.setWidth 32)) bs

/-! ### The checks of descriptor start (R59 to R62) -/

/-- The kinds with a source range: COPY and CHECK. -/
def DescKind.hasSource : DescKind → Bool
  | .copy | .check => true
  | _ => false

/-- The kinds with a destination range: COPY, FILL and MARK. -/
def DescKind.hasDest : DescKind → Bool
  | .copy | .fill | .mark => true
  | _ => false

/-- The unit state check of a space (R60). -/
def stateFault (b : Blocks) : Space → Option FaultInfo
  | .buf => none
  | .unit u => if (b.unit u).state = .active then none else some ⟨.unitState, u⟩

/-- The window range check of a range (R61). -/
def windowFault (b : Blocks) (offset length : Nat) : Space → Option FaultInfo
  | .buf => none
  | .unit u =>
    match (b.unit u).window with
    | some w => if offset + length ≤ w.size then none else some ⟨.windowRange, u⟩
    | none => some ⟨.windowRange, u⟩

/-- The guard check of a range (R62). -/
def guardFault (offset length : Nat) (dir : Dir) (b : Blocks) : Space → Blocks × Option FaultInfo
  | .buf =>
    match rangeCheck offset length dir .channels b with
    | (b1, some i) => (b1, some ⟨.guard, i⟩)
    | (b1, none) => (b1, none)
  | .unit _ => (b, none)

/-- A check that applies to some kinds only (R59). -/
def applies (on : Bool) (f : Option FaultInfo) : Option FaultInfo := if on then f else none

/-- Checks 1 to 4 of R59: the first that fails. -/
def unitFault (b : Blocks) (d : Descriptor) : Option FaultInfo :=
  [applies (d.kind.hasSource || d.kind == .wait) (stateFault b d.src),
   applies d.kind.hasDest (stateFault b d.dst),
   applies d.kind.hasSource (windowFault b d.srcOff.toNat d.length.toNat d.src),
   applies d.kind.hasDest (windowFault b d.dstOff.toNat d.length.toNat d.dst)].findSome? id

/-- The checks of descriptor start in their order: the first that fails gives the fault; a failing guard check is charged (R59). -/
def checkStart (d : Descriptor) (b : Blocks) : Blocks × Option FaultInfo :=
  match unitFault b d with
  | some f => (b, some f)
  | none =>
    match (if d.kind.hasSource then guardFault d.srcOff.toNat d.length.toNat .read b d.src else (b, none)) with
    | (b1, some f) => (b1, some f)
    | (b1, none) =>
      if d.kind.hasDest then guardFault d.dstOff.toNat d.length.toNat .write b1 d.dst else (b1, none)

/-! ### The accesses of a requester (R64, R65, R68, R71, R73, R74, R112) -/

/-- An access as its requester raises it: in a space, before the address on the port is known (R65, R102). -/
structure Plan where
  space  : Space
  offset : Nat
  dir    : Dir
  count  : Nat
  data   : List Byte
  deriving DecidableEq, Repr

/-- The size of a burst at a position of a range (R64, R112). -/
def burst (refOffset length done : Nat) : Nat :=
  min (length - done) (Config.burstBytes - (refOffset + done) % Config.burstBytes)

/-- Byte `i` of a pattern, byte 0 the most significant of the operand (R71). -/
def patternByte (operand : Word) (i : Nat) : Byte := byteOf (operand.toNat / 256 ^ (3 - i % 4))

/-- `n` bytes of a pattern from a position (R71); a MARK's four bytes are those from position 0 (R74). -/
def patternBytes (operand : Word) (position n : Nat) : List Byte :=
  (List.range n).map fun j => patternByte operand (position + j)

/-- The next access of a descriptor with `done` bytes done and bytes staged (R64, R68, R71, R73, R74). -/
def Descriptor.plan (d : Descriptor) (done : Nat) (staging : List Byte) : Option Plan :=
  let src := d.srcOff.toNat + done
  let dst := d.dstOff.toNat + done
  match d.kind with
  | .copy =>
    if staging = [] then some ⟨d.src, src, .read, burst d.srcOff.toNat d.length.toNat done, []⟩
    else some ⟨d.dst, dst, .write, staging.length, staging⟩
  | .fill =>
    let n := burst d.dstOff.toNat d.length.toNat done
    some ⟨d.dst, dst, .write, n, patternBytes d.operand done n⟩
  | .check => some ⟨d.src, src, .read, burst d.srcOff.toNat d.length.toNat done, []⟩
  | .mark => some ⟨d.dst, d.dstOff.toNat, .write, 4, patternBytes d.operand 0 4⟩
  | .wait => none

/-- The link agent's next access (R112). -/
def AgentOp.plan (o : AgentOp) : Plan :=
  let n := burst o.offset o.count o.done
  match o.kind with
  | .peek => ⟨o.space, o.offset + o.done, .read, n, []⟩
  | .poke => ⟨o.space, o.offset + o.done, .write, n, (o.data.drop o.done).take n⟩

/-- The next access of a requester. -/
def Blocks.plan (b : Blocks) : Requester → Option Plan
  | .chan c => (b.current c).bind fun d => d.plan (b.chan c).bytesDone (b.chan c).staging
  | .link => b.agent.map AgentOp.plan

/-- A requester raises its request on the port its next access needs (R26, R65, R102). -/
def request (r : Requester) (b : Blocks) : Blocks :=
  match b.plan r with
  | some p => b.raiseRequest r p.space.port
  | none => b

/-! ### Leaving a descriptor -/

/-- The cursor moves to the first of the members that follow, or becomes absent; what belonged to the descriptor left is
cleared (R30, R41, R52). -/
def moveCursor (c : ChanId) (rest : List Member) (b : Blocks) : Blocks :=
  b.updChan c fun ch =>
    { ch with
      cursor := rest.head?.map Member.slot
      bytesDone := 0
      started := false
      crc := none
      deadline := none
      staging := [] }

/-- A descriptor completes (R30): DONE when due, completed grows, the cursor moves, and the record is posted or the channel
blocks with the continuation given. -/
def finish (c : ChanId) (m : Member) (rest : List Member) (k : Continuation) (b : Blocks) : Blocks :=
  let b1 := if m.desc.record || m.desc.kind == .check then pushRecord c (doneRecord c (b.chan c) m) b else b
  postOrBlock c k (moveCursor c rest (b1.updChan c fun ch => { ch with completed := ch.completed + 1 }))

/-- A fault is taken (R39): FAULT enters the outbox; with CONTINUE the cursor moves on and the record is posted or the channel
blocks with the continuation given (R41); without, the channel stops on the descriptor (R40). -/
def takeFault (c : ChanId) (m : Member) (rest : List Member) (f : FaultInfo) (k : Continuation) (b : Blocks) : Blocks :=
  let b1 := pushRecord c (faultRecord c (b.chan c) m f) b
  if m.desc.cont then postOrBlock c k (moveCursor c rest b1) else stopOnFault c f b1

/-- Descriptor start passes for a kind that moves bytes (R63): RUNNING, with the first access requested. -/
def startMoving (c : ChanId) (d : Descriptor) (b : Blocks) : Blocks :=
  request (.chan c) (b.updChan c fun ch =>
    { ch with
      state := .running
      continuation := none
      started := true
      staging := []
      crc := if d.kind = .check then some d.operand else none })

/-- Descriptor start passes for a WAIT that finds the latch clear (R75): the channel joins the waiter list and is PENDING. -/
def startWaiting (c : ChanId) (u : UnitId) (d : Descriptor) (b : Blocks) : Blocks :=
  (b.updUnit u fun e => { e with waiters := e.waiters ++ [c] }).updChan c fun ch =>
    { ch with
      state := .pending
      continuation := none
      started := true
      deadline := if d.operand = 0 then none else some (b.now + d.operand.toNat * Config.deadlineUnit) }

/-! ### The proceed step, carried through (R29, R33) -/

/-- The proceed step of a channel that has the members given before it, its cursor on the first of them, carried through until
the channel waits for a further event (R29, R33, R59, R75). Every round leaves one member behind. -/
def run (c : ChanId) : List Member → Blocks → Blocks
  | [], b => if b.boundOpen c then enterStarved c b else endRun c b
  | m :: rest, b =>
    match checkStart m.desc b with
    | (b1, some f) =>
      let b2 := takeFault c m rest f .proceed b1
      if m.desc.cont && b2.drained c then run c rest b2 else b2
    | (b1, none) =>
      match m.desc.kind, m.desc.src with
      | .wait, .unit u =>
        if (b1.unit u).latch then
          let k : Continuation := if m.desc.haltAfter then .held else .proceed
          let b2 := finish c m rest k (b1.updUnit u fun e => { e with latch := false })
          if b2.drained c then (if m.desc.haltAfter then enterHeld c b2 else run c rest b2) else b2
        else startWaiting c u m.desc b1
      | _, _ => startMoving c m.desc b1

/-- The proceed step, or descriptor start when the cursor is present (R27, R33). -/
def proceed (c : ChanId) (b : Blocks) : Blocks := run c (b.ahead c) b

/-- The cursor descriptor completes, and the channel goes on: to HELD when a HOLD waited for it or HALT_AFTER is set, else by the
proceed step (R30, R32, R42). -/
def complete (c : ChanId) (hold : Bool) (b : Blocks) : Blocks :=
  match b.ahead c with
  | [] => b
  | m :: rest =>
    let halts := hold || m.desc.haltAfter
    let b1 := finish c m rest (if halts then .held else .proceed) b
    if b1.drained c then (if halts then enterHeld c b1 else run c rest b1) else b1

/-- A fault reaches a channel on its cursor descriptor (R39 to R41), and with CONTINUE the channel goes on: to HELD when a HOLD
waited (R42), else by the proceed step. -/
def fault (c : ChanId) (f : FaultInfo) (hold : Bool) (b : Blocks) : Blocks :=
  match b.ahead c with
  | [] => b
  | m :: rest =>
    let b1 := b.updChan c fun ch => { ch with deadline := none, staging := [] }
    let b2 := takeFault c m rest f (if hold then .held else .proceed) b1
    if m.desc.cont && b2.drained c then (if hold then enterHeld c b2 else run c rest b2) else b2

/-! ### The end of an access (R28, R42, R49, R66, R67) -/

/-- How an access ended, as its owner is told (R67, R107): done, with the bytes of a read, or failed. -/
inductive Ending where
  | done (data : List Byte)
  | failed (code : FaultCode) (unit : UnitId)
  deriving DecidableEq, Repr

/-- What a successful access does to the channel record (R66, R68, R73, R74). -/
def countAccess (kind : DescKind) (a : Access) (data : List Byte) (ch : Channel) : Channel :=
  match kind, a.dir with
  | .copy, .read => { ch with staging := data }
  | .check, _ => { ch with crc := ch.crc.map (crc32Bytes · data), bytesDone := ch.bytesDone + a.count }
  | _, _ => { ch with staging := [], bytesDone := ch.bytesDone + a.count }

/-- A channel with stop requested stops (R49). -/
def endStopped (c : ChanId) (a : Access) (e : Ending) (d : Descriptor) (b : Blocks) : Blocks :=
  match e with
  | .done data => stopRun c (b.updChan c (countAccess d.kind a data))
  | .failed _ _ => stopRun c b

/-- A channel with hold requested stops at the end of its access (R42). -/
def endHeld (c : ChanId) (a : Access) (e : Ending) (d : Descriptor) (b : Blocks) : Blocks :=
  match e with
  | .done data =>
    let b1 := b.updChan c (countAccess d.kind a data)
    if (b1.chan c).bytesDone = d.length.toNat then complete c true b1
    else enterHeld c (b1.updChan c fun ch => { ch with staging := [] })
  | .failed code u => fault c ⟨code, u⟩ true b

/-- A channel takes the end of its access and goes on (R28, R66). -/
def endGoing (c : ChanId) (a : Access) (e : Ending) (d : Descriptor) (b : Blocks) : Blocks :=
  match e with
  | .done data =>
    let b1 := b.updChan c (countAccess d.kind a data)
    if (b1.chan c).bytesDone = d.length.toNat then complete c false b1 else request (.chan c) b1
  | .failed code u => fault c ⟨code, u⟩ false b

/-- The deferred reply of a HOLD or STOP is handed over; both flags are cleared (R42, R49, R55). -/
def handChannel (c : ChanId) (b : Blocks) : Blocks :=
  { b.updChan c fun ch => { ch with holdRequested := false, stopRequested := false } with handover := some (.channel c) }

/-- The end of an access is handed to its channel (R28, R42, R49). -/
def endOfChannel (c : ChanId) (a : Access) (e : Ending) (b : Blocks) : Blocks :=
  match b.current c with
  | none => b
  | some d =>
    if (b.chan c).stopRequested then handChannel c (endStopped c a e d b)
    else if (b.chan c).holdRequested then handChannel c (endHeld c a e d b)
    else endGoing c a e d b

end Sys2Proof.Machine
end

