-- ==== Sys2Proof/Machine/Ports.lean ====
section
/-! DEFINITION. The link agent, the grants of the two arbiters, and what a step does once its own effect is complete: grant, hand
over what was given back, grant again (chapter 5). -/

namespace Sys2Proof.Machine

/-! ### The link agent (R110 to R114) -/

/-- The reply of a PEEK or POKE: result, detail, count and, for PEEK, the bytes (R203). -/
def agentReply (o : AgentOp) (r : Result) (detail : Byte) : List Byte :=
  [r.code, detail, byteOf o.done] ++ (match o.kind with | .peek => o.data | .poke => [])

/-- The link agent gives its operation up and hands the reply over (R113, R114). -/
def endAgent (o : AgentOp) (r : Result) (detail : Byte) (b : Blocks) : Blocks :=
  { b with agent := none, handover := some (.agent (agentReply o r detail)) }

/-- The result a failure gives a PEEK or POKE (R112, R114, R132). The range case is log 18. -/
def agentResult : FaultCode → Result
  | .unitTimeout => .accessTimeout
  | .unitError => .accessError
  | .unitGone => .accessGone
  | .windowRange => .range
  | _ => .unitState

/-- The detail byte of such a reply: the unit number the result names, FFh for RANGE (R203). -/
def agentDetail (code : FaultCode) (u : UnitId) : Byte := if code = .windowRange then 0xFF else byteOf u.val

/-- The operation with one more access ended done (R110, R112). -/
def AgentOp.counted (o : AgentOp) (a : Access) (data : List Byte) : AgentOp :=
  { o with
    done := o.done + a.count
    data := match o.kind with | .peek => o.data ++ data | .poke => o.data }

/-- The end of an access is handed to the link agent (R112 to R114). -/
def endOfAgent (a : Access) (e : Ending) (b : Blocks) : Blocks :=
  match b.agent, e with
  | none, _ => b
  | some o, .done data =>
    let o1 := o.counted a data
    if o1.done = o1.count then endAgent o1 .ok 0xFF b else request .link { b with agent := some o1 }
  | some o, .failed code u => endAgent o (agentResult code) (agentDetail code u) b

/-- The end of an access is handed to its owner (R107). -/
def endOfOwner (a : Access) (e : Ending) (b : Blocks) : Blocks :=
  match a.requester with
  | .chan c => endOfChannel c a e b
  | .link => endOfAgent a e b

/-! ### Grants (R102, R103, R105) -/

/-- The requesters in the order a search meets them: from the one that follows last granted, round to last granted (R103). -/
def searchOrder (last : Requester) : List Requester :=
  (requesterOrder.dropWhile (· != last)).drop 1 ++ requesterOrder.takeWhile (· != last) ++ [last]

/-- The requester an arbiter grants next, if any (R103). -/
def Arbiter.next (a : Arbiter) : Option Requester :=
  if a.barred || a.inFlight.isSome then none else (searchOrder a.lastGranted).find? a.requests.contains

/-- A grant: the requester leaves the set, becomes last granted, and its access is in flight; none, when given back (R103, R105). -/
def Arbiter.grant (a : Arbiter) (r : Requester) (access : Option Access) : Arbiter :=
  { a with requests := a.requests.filter (· != r), lastGranted := r, inFlight := access }

/-- The buffer port arbiter grants, if it can (R103, R107). -/
def grantBuffer (b : Blocks) : Blocks :=
  match b.bufPort.next with
  | none => b
  | some r =>
    let access := (b.plan r).map fun p : Plan =>
      { requester := r, dir := p.dir, addr := p.offset, count := p.count, data := p.data, card := none : Access }
    { b with bufPort := b.bufPort.grant r access }

/-- The unit check at a grant: the access to put on the bus, or the fault (R65, R112, R131). -/
def slotAccess (b : Blocks) (r : Requester) (p : Plan) : Except FaultInfo Access :=
  match p.space with
  | .buf => .error ⟨.unitState, 0⟩
  | .unit u =>
    match (b.unit u).state, (b.unit u).window with
    | .empty, _ => .error ⟨.unitGone, u⟩
    | .active, some w =>
      if p.offset + p.count ≤ w.size then
        .ok
          { requester := r
            dir := p.dir
            addr := w.base + p.offset
            count := p.count
            data := p.data
            card := some ⟨u, b.now + (b.unit u).timeout⟩ }
      else .error ⟨.windowRange, u⟩
    | .active, none => .error ⟨.windowRange, u⟩
    | _, _ => .error ⟨.unitState, u⟩

/-- The slot bus arbiter grants, if it can; a grant that is given back starts the search again from the requester after it (R103,
R105). The answer lists the requesters whose grants were given back, in order. Each round takes a requester from the set. -/
def grantSlot : (rounds : Nat) → Blocks → Blocks × List (Requester × FaultInfo)
  | 0, b => (b, [])
  | k + 1, b =>
    match b.slotPort.next with
    | none => (b, [])
    | some r =>
      match b.plan r with
      | none => grantSlot k { b with slotPort := b.slotPort.grant r none }
      | some p =>
        match slotAccess b r p with
        | .ok a => ({ b with slotPort := b.slotPort.grant r (some a) }, [])
        | .error f =>
          let more := grantSlot k { b with slotPort := b.slotPort.grant r none }
          (more.1, (r, f) :: more.2)

/-- A grant given back reaches its requester (R65, R105, R112, R114). -/
def giveBack (b : Blocks) (x : Requester × FaultInfo) : Blocks :=
  match x.1 with
  | .chan c => fault c x.2 false b
  | .link =>
    match b.agent with
    | some o => endAgent o (agentResult x.2.code) (agentDetail x.2.code x.2.detail) b
    | none => b

/-- Both arbiters grant what they can; what was given back reaches its requesters in the order of the grants. -/
def grants (b : Blocks) : Blocks × List (Requester × FaultInfo) := grantSlot 5 (grantBuffer b)

/-- Grants until nothing is given back any more (R102, R103, R105). A request raised inside a round has passed the same unit check in
the same step, so it is not given back: two rounds are always enough (log 19). DESIGN CHOICE, log 29 (unsafe): R102 lets either of
two requests that reach a free port in one step be taken first; the requests that one round raises are pooled, and the arbiter
takes them in the cyclic order after last granted. -/
def settleRounds : Nat → Blocks → Blocks
  | 0, b => b
  | k + 1, b =>
    match grants b with
    | (b1, []) => b1
    | (b1, back) => settleRounds k (back.foldl giveBack b1)

/-- The ports take the requests that an action has raised (R102). -/
def settle (b : Blocks) : Blocks := settleRounds 8 b

/-- The port has become free at the end of an access: the arbiters search, what is given back reaches its requesters, and then the
outcome reaches the owner, which may raise a new request (R103, R107, R121; log 13). Where channels given back and the owner raise
requests for one free port, which is taken first is the choice of log 29. -/
def handEnd (a : Access) (e : Ending) (b : Blocks) : Blocks :=
  let g := grants b
  settle (endOfOwner a e (g.2.foldl giveBack g.1))

/-! ### Serving the blocked posters (R97) -/

/-- A channel whose outbox has drained leaves the list and acts on its continuation (R37). -/
def actOnContinuation (c : ChanId) (b : Blocks) : Blocks :=
  let b1 := { b with queue := { b.queue with blocked := b.queue.blocked.filter (· != c) } }
  match (b.chan c).continuation with
  | some .proceed => proceed c b1
  | some .held => enterHeld c b1
  | some .faulted => enterFaulted c b1
  | some .idle => enterIdle c b1
  | none => b1

/-- The listed channels are served in order while the queue has space; one that cannot post all keeps its place (R97). -/
def serve : List ChanId → Blocks → Blocks
  | [], b => b
  | c :: cs, b =>
    if b.depth < Config.queueCapacity then
      let b1 := postOutbox c b
      if b1.drained c then serve cs (settle (actOnContinuation c b1)) else b1
    else b

/-- The queue serves its blocked-poster list from the head (R97). -/
def serveBlocked (b : Blocks) : Blocks := serve b.queue.blocked b

/-! ### Units (chapter 6) -/

/-- Every waiter leaves the unit's list and faults, in list order (R79). -/
def faultWaiters (u : UnitId) (code : FaultCode) (b : Blocks) : Blocks :=
  (b.unit u).waiters.foldl (fun b c => settle (fault c ⟨code, u⟩ false b)) (b.updUnit u fun e => { e with waiters := [] })

/-- A unit leaves ACTIVE or FENCED for PRESENT: enable released, latch cleared (R127, R128). -/
def releaseUnit (u : UnitId) (b : Blocks) : Blocks :=
  b.updUnit u fun e => { e with state := .present, slotEnable := false, latch := false, deactPending := false }

/-- A forced deactivation is carried out (R128). -/
def deactivate (u : UnitId) (b : Blocks) : Blocks := faultWaiters u .unitState (releaseUnit u b)

/-- The pending forced deactivation of a unit is carried out at the end of the access (R129). -/
def deactivatePending (u : UnitId) (b : Blocks) : Blocks :=
  if (b.unit u).deactPending then { deactivate u b with handover := some (.unit false u) } else b

/-- An ACTIVE unit becomes FENCED (R135). -/
def fence (e : UnitEntry) : UnitEntry := if e.state = .active then { e with state := .fenced } else e

/-- The effect on the unit of an access that ended, before the port is freed (R129, R132, R135). -/
def unitEffect (u : UnitId) (e : Ending) (b : Blocks) : Blocks :=
  match e with
  | .failed .unitTimeout _ => deactivatePending u (raise .unit (b.updUnit u fence))
  | _ => deactivatePending u b

/-- A unit becomes EMPTY at a card-lost event: UNIT is raised, and configuration, enable, latch and pending deactivation are cleared
(R121 steps 1 and 2). -/
def emptyUnit (u : UnitId) (b : Blocks) : Blocks :=
  raise .unit (b.updUnit u fun e =>
    { e with
      presence := false
      state := .empty
      debounceDue := none
      line := false
      window := none
      timeout := Config.defaultTimeout
      slotEnable := false
      latch := false
      deactPending := false })

/-- A card-lost event at the unit entry, up to the access in flight: the unit becomes EMPTY, its waiters fault, and the reply of a
forced deactivation that waited is handed over (R121 steps 1 to 3, R129). -/
def loseCard (u : UnitId) (b : Blocks) : Blocks :=
  let b1 := faultWaiters u .unitGone (emptyUnit u b)
  if (b.unit u).deactPending then { b1 with handover := some (.unit true u) } else b1

/-- A card-detected event (R120). -/
def detectCard (u : UnitId) (b : Blocks) : Blocks :=
  raise .unit (b.updUnit u fun e => { e with presence := true, state := .present, debounceDue := none, line := true })

/-- A request edge at a unit entry (R138 to R140). -/
def takeEdge (u : UnitId) (b : Blocks) : Blocks :=
  if (b.unit u).state = .active || (b.unit u).state = .fenced then
    match (b.unit u).waiters with
    | [] => b.updUnit u fun e => { e with latch := true }
    | c :: _ => settle (complete c false (b.leaveWaiters u c))
  else b

/-- A WAIT's deadline expires (R78). -/
def expireWait (c : ChanId) (b : Blocks) : Blocks :=
  match (b.current c).map Descriptor.src with
  | some (.unit u) => settle (fault c ⟨.waitTimeout, u⟩ false (b.leaveWaiters u c))
  | _ => b

/-- The unit's window overlaps that of another unit in ACTIVE or FENCED (R123, R124, R126). -/
def overlapsInUse (u : UnitId) (w : Window) (b : Blocks) : Bool :=
  allUnits.any fun v =>
    v != u && ((b.unit v).state == .active || (b.unit v).state == .fenced)
      && match (b.unit v).window with
        | some x => w.base < x.base + x.size && x.base < w.base + w.size
        | none => false

/-- A channel that is not IDLE has a present cursor whose descriptor names the unit (R127). -/
def unitInUse (u : UnitId) (b : Blocks) : Bool :=
  allChans.any fun c =>
    (b.chan c).state != .idle
      && match b.current c with
        | some d => d.src == .unit u || d.dst == .unit u
        | none => false

end Sys2Proof.Machine
end

