-- ==== Sys2Proof/Machine/Store.lean ====
section
/-! DEFINITION. What a request does behind the request handler, and the chain requests of the descriptor store (chapter 1). -/

namespace Sys2Proof.Machine

/-- What a request answers in the step of taking: a reply payload, or a deferral (R184, R190). -/
inductive Answer where
  | now (payload : List Byte)
  | deferred
  deriving DecidableEq, Repr

/-- A request executed: the blocks and the tally after it, a reset it asks for, and its answer. -/
structure Executed where
  blocks : Blocks
  tally  : Tally
  reset  : Option Scope := none
  answer : Answer
  deriving DecidableEq, Repr

/-! ### The pool and the chains (R2, R3, R12) -/

/-- Slots taken from the pool's head receive the records of the entries, in order (R3). -/
def takeSlots (b : Blocks) (ds : List Descriptor) : List Member := (b.pool.zip ds).map fun x => ⟨x.1, x.2⟩

/-- Slot numbers on the wire (R201). -/
def slotBytes (slots : List Nat) : List Byte := slots.flatMap (beBytes 2)

/-- The lowest-numbered FREE handle (R15). -/
def lowestFree (b : Blocks) : Option Handle := allHandles.find? fun h => (b.chain h).state == .free

/-- A handle that is valid in a request: in range, its entry not FREE (R11). -/
def validHandle (b : Blocks) (n : Nat) : Option Handle :=
  (indexOf? 32 n).bind fun h => if (b.chain h).state = .free then none else some h

/-- The pool count as a reply carries it. -/
def poolBytes (b : Blocks) : List Byte := beBytes 2 b.pool.length

/-- A refusal with the state and count of a chain (R203). -/
def chainRefusal (r : Result) (x : Chain) : List Byte := [r.code, x.state.code] ++ beBytes 2 x.members.length

/-! ### CHAIN NEW and CHAIN APPEND (R16 to R19) -/

/-- CHAIN NEW accepted: the chain is built in the entry of the handle (R17). -/
def buildChain (h : Handle) (isOpen : Bool) (ds : List Descriptor) (b : Blocks) : Blocks :=
  { b.updChain h fun _ => { state := .staged, isOpen := isOpen, members := takeSlots b ds, boundTo := none } with
    pool := b.pool.drop ds.length }

/-- The chain request CHAIN NEW (R16, R17). -/
def requestChainNew (payload : List Byte) (b : Blocks) : Blocks × Answer :=
  let forms := formsOf ((payload.length - 1) / 20) (payload.drop 1)
  match flagOf? (fieldAt payload 0 1) with
  | none => (b, .now (badField 0xFF))
  | some isOpen =>
    if forms = [] && !isOpen then (b, .now (badField 0xFF))
    else
      match validateAll b.bufferSize 0 forms with
      | .error i => (b, .now (badField (byteOf i)))
      | .ok ds =>
        match lowestFree b with
        | none => (b, .now [Result.noChains.code])
        | some h =>
          if b.pool.length < ds.length then (b, .now (Result.noSlots.code :: poolBytes b))
          else
            (buildChain h isOpen ds b,
             .now ([Result.ok.code, byteOf h.val, byteOf ds.length] ++ slotBytes (b.pool.take ds.length)))

/-- The new slots become the chain's last members (R19). -/
def extendChain (h : Handle) (ds : List Descriptor) (b : Blocks) : Blocks :=
  { b.updChain h fun x => { x with members := x.members ++ takeSlots b ds } with pool := b.pool.drop ds.length }

/-- A bound channel with no cursor receives the first new slot; a STARVED one takes descriptor start there (R19, R35). -/
def wakeBound (h : Handle) (first : Nat) (b : Blocks) : Blocks :=
  match (b.chain h).boundTo with
  | none => b
  | some c =>
    if (b.chan c).cursor = none then
      let b1 := b.updChan c fun ch => { ch with cursor := some first }
      if (b.chan c).state = .starved then settle (proceed c b1) else b1
    else b

/-- The chain request CHAIN APPEND (R18, R19). -/
def requestChainAppend (payload : List Byte) (b : Blocks) : Blocks × Answer :=
  let forms := formsOf ((payload.length - 1) / 20) (payload.drop 1)
  match validHandle b (fieldAt payload 0 1) with
  | none => (b, .now [Result.badHandle.code])
  | some h =>
    if !(b.chain h).isOpen then (b, .now (chainRefusal .chainClosed (b.chain h)))
    else
      match validateAll b.bufferSize 0 forms with
      | .error i => (b, .now (badField (byteOf i)))
      | .ok ds =>
        if b.pool.length < ds.length then (b, .now (Result.noSlots.code :: poolBytes b))
        else
          let slots := b.pool.take ds.length
          let b1 := extendChain h ds b
          (wakeBound h (slots.headD 0) b1,
           .now ([Result.ok.code, byteOf h.val] ++ beBytes 2 (b1.chain h).members.length ++ [byteOf ds.length]
             ++ slotBytes slots))

/-! ### CHAIN CLOSE and CHAIN DROP (R20, R21) -/

/-- A STARVED channel whose chain has been closed takes the proceed step again (R35). -/
def endStarved (h : Handle) (b : Blocks) : Blocks :=
  match (b.chain h).boundTo with
  | none => b
  | some c => if (b.chan c).state = .starved then settle (proceed c b) else b

/-- The chain request CHAIN CLOSE (R20); its reply shows the chain at the end of the step (R187, log 28). -/
def requestChainClose (payload : List Byte) (b : Blocks) : Blocks × Answer :=
  match validHandle b (fieldAt payload 0 1) with
  | none => (b, .now [Result.badHandle.code])
  | some h =>
    let b1 := endStarved h (b.updChain h fun x => { x with isOpen := false })
    (b1, .now (chainRefusal .ok (b1.chain h)))

/-- A chain's slots return to the pool's tail in chain order, and its entry becomes FREE (R4, R21). -/
def dropChain (h : Handle) (b : Blocks) : Blocks :=
  { b.updChain h fun _ => {} with pool := b.pool ++ (b.chain h).members.map Member.slot }

/-- The chain request CHAIN DROP (R21). -/
def requestChainDrop (payload : List Byte) (b : Blocks) : Blocks × Answer :=
  match validHandle b (fieldAt payload 0 1) with
  | none => (b, .now [Result.badHandle.code])
  | some h =>
    if (b.chain h).state = .bound then (b, .now (chainRefusal .chainBusy (b.chain h)))
    else
      let b1 := dropChain h b
      (b1, .now ([Result.ok.code] ++ beBytes 2 (b.chain h).members.length ++ poolBytes b1))

/-! ### CHAIN QUERY and SLOT READ (R22, R23) -/

/-- The chain request CHAIN QUERY (R22). -/
def requestChainQuery (payload : List Byte) (b : Blocks) : Blocks × Answer :=
  match indexOf? 32 (fieldAt payload 0 1) with
  | none => (b, .now [Result.badHandle.code])
  | some h =>
    let x := b.chain h
    let slots := x.members.map Member.slot
    let listed := (slots.drop (fieldAt payload 1 2)).take 100
    (b,
     .now ([Result.ok.code, byteOf h.val, x.state.code, flagByte x.isOpen] ++ beBytes 2 slots.length
       ++ optBytes 2 slots.head? ++ optBytes 2 slots.getLast? ++ optBytes 1 (x.boundTo.map Fin.val)
       ++ [byteOf listed.length] ++ slotBytes listed))

/-- The chain a slot is a member of (R1). -/
def holderOf (b : Blocks) (slot : Nat) : Option Handle :=
  allHandles.find? fun h => (b.chain h).members.any fun m => m.slot == slot

/-- The chain request SLOT READ (R23); the handle and position of a pool slot are sent as absent (R201, log 28). -/
def requestSlotRead (payload : List Byte) (b : Blocks) : Blocks × Answer :=
  let slot := fieldAt payload 0 2
  if Config.slotCount ≤ slot then (b, .now (badField 0xFF))
  else
    match holderOf b slot with
    | none => (b, .now ([Result.ok.code, 0] ++ optBytes 1 none ++ optBytes 2 none))
    | some h =>
      let members := (b.chain h).members
      let position := members.findIdx fun m => m.slot == slot
      (b,
       .now ([Result.ok.code, 1, byteOf h.val] ++ beBytes 2 position
         ++ ((members.find? fun m => m.slot == slot).map fun m => DescForm.bytes m.desc.form).getD []))

end Sys2Proof.Machine
end

