-- ==== Sys2Proof/Machine/ChannelRequests.lean ====
section
/-! DEFINITION. The channel requests (chapter 2, R31, R42 to R56) and COLLECT (R96 to R98). -/

namespace Sys2Proof.Machine

/-- The reply to a channel request: a result, the channel's state, and its continuation in BLOCKED (R54, R203). -/
def channelReply (r : Result) (c : ChanId) (b : Blocks) : List Byte :=
  [r.code, (b.chan c).state.code, ((b.chan c).continuation.map Continuation.code).getD 0xFF]

/-- A request that names one channel: a number of 4 or more is refused (R43, R48, R56). -/
def onChannel (payload : List Byte) (b : Blocks) (f : ChanId → Blocks × Answer) : Blocks × Answer :=
  match indexOf? 4 (fieldAt payload 0 1) with
  | none => (b, .now (badField 0xFF))
  | some c => f c

/-- Refused with no change, with the unchanged state (R54). -/
def refuseChannel (r : Result) (c : ChanId) (b : Blocks) : Blocks × Answer := (b, .now (channelReply r c b))

/-- Carried out: the reply shows the channel at the end of the step (R29, R54). -/
def answerChannel (c : ChanId) (b : Blocks) : Blocks × Answer :=
  let b1 := settle b
  (b1, .now (channelReply .ok c b1))

/-! ### START (R31) -/

/-- The chain is bound and the channel stands at its head (R14, R31). -/
def bindChain (c : ChanId) (h : Handle) (b : Blocks) : Blocks :=
  (b.updChain h fun x => { x with state := .bound, boundTo := some c }).updChan c fun _ =>
    { handle := some h, cursor := ((b.chain h).members.head?).map Member.slot }

/-- CHANNEL START (R31). -/
def requestStart (payload : List Byte) (b : Blocks) : Blocks × Answer :=
  onChannel payload b fun c =>
    match validHandle b (fieldAt payload 1 1) with
    | none => refuseChannel .badHandle c b
    | some h =>
      if (b.chan c).state ≠ .idle then refuseChannel .channelBusy c b
      else if (b.chain h).state = .bound then refuseChannel .chainBusy c b
      else answerChannel c (proceed c (bindChain c h b))

/-! ### HOLD and RESUME (R42 to R46) -/

/-- A BLOCKED channel's continuation is rewritten (R44, R46). -/
def rewrite (c : ChanId) (k : Continuation) (b : Blocks) : Blocks :=
  b.updChan c fun ch => { ch with continuation := some k }

/-- CHANNEL HOLD (R42 to R44). -/
def requestHold (payload : List Byte) (b : Blocks) : Blocks × Answer :=
  onChannel payload b fun c =>
    match (b.chan c).state with
    | .running =>
      if b.accessInFlight c then (b.updChan c fun ch => { ch with holdRequested := true }, .deferred)
      else answerChannel c (enterHeld c ((b.withdrawRequest (.chan c)).updChan c fun ch => { ch with staging := [] }))
    | .pending => answerChannel c (enterHeld c ((b.leaveWait c).updChan c fun ch => { ch with started := false }))
    | .starved => answerChannel c (enterHeld c b)
    | .held => answerChannel c b
    | .blocked =>
      match (b.chan c).continuation with
      | some .proceed | some .held => answerChannel c (rewrite c .held b)
      | _ => refuseChannel .wrongState c b
    | .idle | .faulted => refuseChannel .wrongState c b

/-- A HELD descriptor with started set goes on: RUNNING, with its next access requested (R45). -/
def resumeMoving (c : ChanId) (b : Blocks) : Blocks :=
  request (.chan c) (b.updChan c fun ch => { ch with state := .running })

/-- CHANNEL RESUME (R45, R46). -/
def requestResume (payload : List Byte) (b : Blocks) : Blocks × Answer :=
  onChannel payload b fun c =>
    match (b.chan c).state with
    | .held =>
      if (b.chan c).cursor.isSome && (b.chan c).started then answerChannel c (resumeMoving c b)
      else answerChannel c (proceed c b)
    | .blocked =>
      match (b.chan c).continuation with
      | some .held => answerChannel c (rewrite c .proceed b)
      | _ => refuseChannel .wrongState c b
    | _ => refuseChannel .wrongState c b

/-! ### STOP (R48 to R50) -/

/-- A STOP to a BLOCKED channel: STOPPED is appended behind the record that waits, unless the run ends already (R50). -/
def stopBlocked (c : ChanId) (b : Blocks) : Blocks :=
  match (b.chan c).continuation with
  | some .idle => b
  | _ =>
    (pushRecord c (stoppedRecord c (b.chan c)) b).updChan c fun ch => { ch with continuation := some .idle, fault := none }

/-- CHANNEL STOP (R48 to R50). -/
def requestStop (payload : List Byte) (b : Blocks) : Blocks × Answer :=
  onChannel payload b fun c =>
    match (b.chan c).state with
    | .idle => refuseChannel .wrongState c b
    | .running =>
      if b.accessInFlight c then (b.updChan c fun ch => { ch with stopRequested := true }, .deferred)
      else answerChannel c (stopRun c (b.withdrawRequest (.chan c)))
    | .pending => answerChannel c (stopRun c (b.leaveWait c))
    | .blocked => answerChannel c (stopBlocked c b)
    | .starved | .held | .faulted => answerChannel c (stopRun c b)

/-! ### RETRY, SKIP and CLEAR (R51 to R53) -/

/-- A request that only a FAULTED channel admits (R51 to R53). -/
def onFaulted (payload : List Byte) (b : Blocks) (f : ChanId → Blocks) : Blocks × Answer :=
  onChannel payload b fun c =>
    if (b.chan c).state = .faulted then answerChannel c (f c) else refuseChannel .wrongState c b

/-- The channel record as RETRY begins the faulted descriptor again (R51). -/
def afresh (ch : Channel) : Channel := { ch with fault := none, bytesDone := 0, started := false, crc := none }

/-- CHANNEL RETRY (R51). -/
def requestRetry (payload : List Byte) (b : Blocks) : Blocks × Answer :=
  onFaulted payload b fun c => proceed c (b.updChan c afresh)

/-- CHANNEL SKIP (R52). -/
def requestSkip (payload : List Byte) (b : Blocks) : Blocks × Answer :=
  onFaulted payload b fun c =>
    let rest := (b.ahead c).drop 1
    run c rest (moveCursor c rest (b.updChan c fun ch => { ch with fault := none }))

/-- CHANNEL CLEAR (R53). -/
def requestClear (payload : List Byte) (b : Blocks) : Blocks × Answer :=
  onFaulted payload b fun c => enterIdle c b

/-! ### QUERY (R56) -/

/-- The time left until a deadline, in whole units of 100 µs rounded up, never less than 1 (R56, R80; log 24). -/
def timeRemaining (now due : Nat) : Nat := max 1 ((due - now + (Config.deadlineUnit - 1)) / Config.deadlineUnit)

/-- The presence byte of a CHANNEL QUERY reply and the two fields it marks (R201, R203). -/
def queryPresence (now : Nat) (ch : Channel) : List Byte :=
  [byteOf (ch.crc.isSome.toNat + 2 * ch.deadline.isSome.toNat)] ++ beBytes 4 ((ch.crc.map BitVec.toNat).getD 0)
    ++ beBytes 3 ((ch.deadline.map (timeRemaining now)).getD 0)

/-- CHANNEL QUERY (R56). -/
def requestChannelQuery (payload : List Byte) (b : Blocks) : Blocks × Answer :=
  onChannel payload b fun c =>
    let ch := b.chan c
    (b,
     .now (channelReply .ok c b ++ optBytes 1 (ch.handle.map Fin.val) ++ optBytes 2 ch.cursor ++ [flagByte ch.started]
       ++ beBytes 4 ch.bytesDone ++ beBytes 2 ch.completed ++ queryPresence b.now ch ++ [byteOf ch.outbox.length]
       ++ ((ch.outbox.map fun r : Record => r.kind.code) ++ [0xFF, 0xFF]).take 2
       ++ (match ch.fault with | some f => [f.code.code, byteOf f.detail.val] | none => [0xFF, 0xFF])))

/-! ### COLLECT (R96 to R98) -/

/-- The oldest records leave the queue, and the blocked posters are served when any left (R96, R97). -/
def collect (k : Nat) (b : Blocks) : Blocks :=
  let b1 := { b with queue := { b.queue with records := b.queue.records.drop k } }
  if b.queue.records.take k = [] then b1 else serveBlocked b1

/-- COLLECT (R96 to R98). -/
def requestCollect (payload : List Byte) (b : Blocks) : Blocks × Answer :=
  let max := fieldAt payload 0 1
  if max = 0 || 12 < max then (b, .now (badField 0xFF))
  else
    let taken := b.queue.records.take max
    let b1 := collect max b
    (b1, .now ([Result.ok.code, byteOf taken.length, byteOf b1.depth] ++ taken.flatMap Record.bytes))

end Sys2Proof.Machine
end

