-- ==== Sys2Proof/Machine/UnitRequests.lean ====
section
/-! DEFINITION. The unit requests (R124 to R130), the guard requests (R149 to R151) and PEEK and POKE (R111). -/

namespace Sys2Proof.Machine

/-! ### Unit requests -/

/-- The reply to a unit request: a result and the unit's state (section 6.4). -/
def unitReply (r : Result) (u : UnitId) (b : Blocks) : List Byte := [r.code, (b.unit u).state.code]

/-- A request that names one unit: a number of 8 or more is refused (R124 to R130). -/
def onUnit (payload : List Byte) (b : Blocks) (f : UnitId → Blocks × Answer) : Blocks × Answer :=
  match indexOf? 8 (fieldAt payload 0 1) with
  | none => (b, .now (badField 0xFF))
  | some u => f u

/-- Refused with no change, with the unchanged state. -/
def refuseUnit (r : Result) (u : UnitId) (b : Blocks) : Blocks × Answer := (b, .now (unitReply r u b))

/-- Carried out: the reply shows the unit at the end of the step. -/
def answerUnit (u : UnitId) (b : Blocks) : Blocks × Answer := (b, .now (unitReply .ok u b))

/-- The fields of UNIT SET pass checks 3 to 5 of R124. -/
def unitFieldsOk (w : Window) (timeout : Nat) : Bool :=
  isWindowSize w.size && w.base % w.size == 0 && w.base + w.size ≤ Config.slotBusBytes && timeout != 0

/-- UNIT SET (R124, R125). -/
def requestUnitSet (payload : List Byte) (b : Blocks) : Blocks × Answer :=
  onUnit payload b fun u =>
    let w : Window := ⟨fieldAt payload 1 3, fieldAt payload 4 3⟩
    let timeout := fieldAt payload 7 1
    if (b.unit u).state = .empty || (b.unit u).state = .active then refuseUnit .unitState u b
    else if !unitFieldsOk w timeout then (b, .now (badField 0xFF))
    else if (b.unit u).state = .fenced && overlapsInUse u w b then refuseUnit .overlap u b
    else answerUnit u (b.updUnit u fun e => { e with window := some w, timeout := timeout })

/-- UNIT ACTIVATE (R126). -/
def requestUnitActivate (payload : List Byte) (b : Blocks) : Blocks × Answer :=
  onUnit payload b fun u =>
    match (b.unit u).state with
    | .empty => refuseUnit .unitState u b
    | .active => answerUnit u b
    | .fenced => answerUnit u (b.updUnit u fun e => { e with state := .active })
    | .present =>
      match (b.unit u).window with
      | none => refuseUnit .notConfigured u b
      | some w =>
        if overlapsInUse u w b then refuseUnit .overlap u b
        else answerUnit u (b.updUnit u fun e => { e with state := .active, slotEnable := true, latch := false })

/-- UNIT DEACTIVATE (R127 to R129). -/
def requestUnitDeactivate (payload : List Byte) (b : Blocks) : Blocks × Answer :=
  onUnit payload b fun u =>
    match flagOf? (fieldAt payload 1 1) with
    | none => (b, .now (badField 0xFF))
    | some force =>
      match (b.unit u).state with
      | .empty => refuseUnit .unitState u b
      | .present => answerUnit u b
      | .active | .fenced =>
        if force then
          if b.unitAccessed u then (b.updUnit u fun e => { e with deactPending := true }, .deferred)
          else answerUnit u (deactivate u b)
        else if unitInUse u b then refuseUnit .unitBusy u b
        else answerUnit u (releaseUnit u b)

/-- The four waiter positions of a UNIT QUERY reply (R203). -/
def waiterBytes (waiters : List ChanId) : List Byte :=
  (waiters.map (fun c : ChanId => byteOf c.val) ++ List.replicate 4 0xFF).take 4

/-- UNIT QUERY (R130). -/
def requestUnitQuery (payload : List Byte) (b : Blocks) : Blocks × Answer :=
  onUnit payload b fun u =>
    let e := b.unit u
    (b,
     .now ([Result.ok.code, flagByte e.presence, e.state.code, flagByte e.window.isSome]
       ++ optBytes 3 (e.window.map Window.base) ++ optBytes 3 (e.window.map Window.size)
       ++ [byteOf e.timeout, flagByte e.slotEnable, flagByte e.latch, byteOf e.waiters.length] ++ waiterBytes e.waiters))

/-! ### Guard requests -/

/-- The reply to GUARD SET: result, index and the entry as it stands (R149, R203). -/
def guardReply (r : Result) (i : GuardId) (b : Blocks) : List Byte :=
  [r.code, byteOf i.val] ++ guardBytes b.guards.entries[i]

/-- The entry that GUARD SET asks for, when its fields pass checks 3 to 6 of R149. -/
def guardEntry (bufferSize enabled base limit mode agents : Nat) : Option (Option GuardRange) :=
  match flagOf? enabled with
  | none => none
  | some false => if base = 0 && limit = 0 && mode = 0 && agents = 0 then some none else none
  | some true =>
    match GuardMode.ofCode mode, GuardAgents.ofCode agents with
    | some m, some a =>
      if base % 64 = 0 && limit % 64 = 0 && base < limit && limit ≤ bufferSize then some (some ⟨base, limit, m, a⟩) else none
    | _, _ => none

/-- GUARD SET (R149). -/
def requestGuardSet (payload : List Byte) (b : Blocks) : Blocks × Answer :=
  match indexOf? 8 (fieldAt payload 0 1) with
  | none => (b, .now (badField 0xFF))
  | some i =>
    if b.guards.frozen then (b, .now (guardReply .guardFrozen i b))
    else
      match guardEntry b.bufferSize (fieldAt payload 1 1) (fieldAt payload 2 4) (fieldAt payload 6 4) (fieldAt payload 10 1)
          (fieldAt payload 11 1) with
      | none => (b, .now (badField 0xFF))
      | some entry =>
        let b1 := { b with guards := { b.guards with entries := b.guards.entries.set i.val entry } }
        (b1, .now (guardReply .ok i b1))

/-- GUARD FREEZE (R150). -/
def requestGuardFreeze (b : Blocks) : Blocks × Answer :=
  ({ b with guards := { b.guards with frozen := true } }, .now [Result.ok.code, 1])

/-- GUARD QUERY (R151). -/
def requestGuardQuery (payload : List Byte) (b : Blocks) : Blocks × Answer :=
  match flagOf? (fieldAt payload 0 1) with
  | none => (b, .now (badField 0xFF))
  | some clear =>
    let reply := [Result.ok.code, flagByte b.guards.frozen]
      ++ allGuards.flatMap fun i => guardBytes b.guards.entries[i] ++ beBytes 2 b.guards.hits[i]
    (if clear then { b with guards := { b.guards with hits := Vector.replicate 8 0 } } else b, .now reply)

/-! ### PEEK and POKE -/

/-- A refused PEEK or POKE: result, detail, and a count of 0 (R111, R203). -/
def agentRefusal (r : Result) (detail : Byte) : Answer := .now [r.code, detail, 0]

/-- The checks of R111 from order 3 on, and the beginning of the operation (R112). -/
def beginAgent (o : AgentOp) (b : Blocks) : Blocks × Answer :=
  let accepted (b : Blocks) : Blocks × Answer := (settle (request .link { b with agent := some o }), .deferred)
  match o.space with
  | .buf =>
    if b.bufferSize < o.offset + o.count then (b, agentRefusal .range 0xFF)
    else
      match rangeCheck o.offset o.count (match o.kind with | .peek => .read | .poke => .write) .link b with
      | (b1, some i) => (b1, agentRefusal .guardRefused (byteOf i.val))
      | (b1, none) => accepted b1
  | .unit u =>
    match (b.unit u).state, (b.unit u).window with
    | .active, some w =>
      if w.size < o.offset + o.count then (b, agentRefusal .range 0xFF) else accepted b
    | .active, none => (b, agentRefusal .range 0xFF)
    | _, _ => (b, agentRefusal .unitState (byteOf u.val))

/-- PEEK (R111). -/
def requestPeek (payload : List Byte) (b : Blocks) : Blocks × Answer :=
  let count := fieldAt payload 5 1
  match Space.ofCode (byteOf (fieldAt payload 0 1)) with
  | none => (b, .now (badField 0xFF))
  | some space =>
    if count = 0 || 128 < count then (b, .now (badField 0xFF))
    else beginAgent { kind := .peek, space := space, offset := fieldAt payload 1 4, count := count, done := 0, data := [] } b

/-- POKE (R111). -/
def requestPoke (payload : List Byte) (b : Blocks) : Blocks × Answer :=
  let data := payload.drop 5
  match Space.ofCode (byteOf (fieldAt payload 0 1)) with
  | none => (b, .now (badField 0xFF))
  | some space =>
    beginAgent { kind := .poke, space := space, offset := fieldAt payload 1 4, count := data.length, done := 0, data := data } b

end Sys2Proof.Machine
end

