-- ==== Sys2Proof/Machine/Device.lean ====
section
/-! DEFINITION. The requests of the device, the link and the notice unit (R156, R182, R192 to R194), the WORK and FULL reset values
(R196), and the dispatch of a request by its kind (R186). -/

namespace Sys2Proof.Machine

/-! ### HELLO and STATUS (R192, R193, R206) -/

/-- The HELLO reply (R192, R206). -/
def helloReply (baudCode : BitVec 2) (b : Blocks) : List Byte :=
  [Result.ok.code] ++ beBytes 2 0x3A71 ++ beBytes 2 0x4620 ++ [0x01, 0x01] ++ beBytes 2 512 ++ [32, 4, 64, 8, 8]
    ++ [b.mszCode.setWidth 8, baudCode.setWidth 8, b.resetCause.code]

/-- The number of FREE chain table entries (R11). -/
def freeChains (b : Blocks) : Nat := (allHandles.filter fun h => (b.chain h).state == .free).length

/-- The STATUS reply (R193, R206). -/
def statusReply (b : Blocks) : List Byte :=
  [Result.ok.code] ++ allChans.map (fun c => (b.chan c).state.code) ++ [byteOf b.depth] ++ poolBytes b ++ [byteOf (freeChains b)]
    ++ allUnits.map (fun u => (b.unit u).state.code) ++ beBytes 2 b.notice.summary.toNat
    ++ [b.notice.sender.code, flagByte b.guards.frozen, b.resetCause.code]

/-! ### NOTICE MASK and LINK TALLY (R156, R182) -/

/-- The mask is replaced, and what it excludes leaves the summary and the later set (R156). -/
def setMask (mask : SourceSet) (n : NoticeUnit) : NoticeUnit :=
  { n with
    mask := mask
    summary := n.summary &&& mask
    sender := match n.sender with
      | .awaiting f => .awaiting { f with later := f.later &&& mask }
      | other => other }

/-- NOTICE MASK (R156, R208): the RESET flag must be set and bits 12 to 15 clear. -/
def requestNoticeMask (payload : List Byte) (b : Blocks) : Blocks × Answer :=
  let mask := fieldAt payload 0 2
  if mask % 2 = 0 || 4096 ≤ mask then (b, .now (badField 0xFF))
  else
    let b1 := { b with notice := setMask (BitVec.ofNat 16 mask) b.notice }
    (b1, .now ([Result.ok.code] ++ beBytes 2 b1.notice.mask.toNat ++ beBytes 2 b1.notice.summary.toNat))

/-- The seven counts in their order (R182). -/
def Tally.counts (t : Tally) : List Nat := [t.lenErr, t.gapErr, t.checkErr, t.overrun, t.breaks, t.replays, t.staleAcks]

/-- LINK TALLY: the tally after it and the reply (R182). -/
def requestLinkTally (payload : List Byte) (t : Tally) : Tally × List Byte :=
  match flagOf? (fieldAt payload 0 1) with
  | none => (t, badField 0xFF)
  | some clear => (if clear then {} else t, Result.ok.code :: t.counts.flatMap (beBytes 2))

/-! ### The reset values of WORK and FULL (R196) -/

/-- The sources a WORK reset removes: RECORDS, QUEUE_HIGH, FAULT0 to FAULT3, HELD and STARVED (R165). -/
def workSources : SourceSet := 0x01FE

/-- A unit entry after a reset (R143). -/
def resetUnit (scope : Scope) (e : UnitEntry) : UnitEntry :=
  match scope with
  | .work => { e with latch := false, waiters := [], deactPending := false }
  | .full =>
    { presence := e.presence
      state := if e.presence then .present else .empty
      line := e.line
      debounceDue := e.debounceDue }

/-- The guard unit after a reset (R153). -/
def resetGuards (scope : Scope) (g : GuardUnit) : GuardUnit :=
  match scope with
  | .work => g
  | .full => if g.frozen then { g with hits := Vector.replicate 8 0 } else {}

/-- The notice unit after a WORK reset (R165). -/
def workNotice (n : NoticeUnit) : NoticeUnit :=
  { n with
    summary := n.summary &&& ~~~workSources
    sender := match n.sender with
      | .awaiting f => .awaiting { f with later := f.later &&& ~~~workSources }
      | other => other }

/-- The notice unit after a reset; FULL abandons the notice in flight (R165, R166). -/
def resetNotice (scope : Scope) (b : Blocks) : Blocks :=
  match scope with
  | .work => { b with notice := workNotice b.notice }
  | .full =>
    let b1 := dropNotice b
    { b1 with notice := { b1.notice with summary := 0, mask := 0x0FFF } }

/-- An arbiter after a reset: requests withdrawn, unbarred, last granted unchanged (R106). -/
def resetArbiter (a : Arbiter) : Arbiter := { lastGranted := a.lastGranted }

/-- The completion queue after a reset (R100). -/
def resetQueue (scope : Scope) (q : Queue) : Queue :=
  match scope with
  | .work => { nextSeq := q.nextSeq }
  | .full => {}

/-- The reset cause a scope sets (R198). -/
def Scope.cause : Scope → ResetCause
  | .work => .work
  | .full => .full

/-- The blocks after a WORK or FULL reset has taken effect, with the RESET reply handed over (R24, R58, R84, R100, R106, R143, R153,
R165, R196, R198). -/
def resetBlocks (scope : Scope) (b : Blocks) : Blocks :=
  let b1 := resetNotice scope b
  { b1 with
    resetCause := scope.cause
    chains := Vector.replicate 32 {}
    pool := List.range Config.slotCount
    chans := Vector.replicate 4 {}
    queue := resetQueue scope b.queue
    bufPort := resetArbiter b.bufPort
    slotPort := resetArbiter b.slotPort
    units := b.units.map (resetUnit scope)
    guards := resetGuards scope b.guards
    handover := some (.reset scope) }

/-- Both arbiters are barred (R106, R194). -/
def barPorts (b : Blocks) : Blocks :=
  { b with bufPort := { b.bufPort with barred := true }, slotPort := { b.slotPort with barred := true } }

/-! ### The dispatch of a request (R186) -/

/-- A request that touches the blocks alone. -/
def onBlocks (t : Tally) (x : Blocks × Answer) : Executed := { blocks := x.1, tally := t, answer := x.2 }

/-- RESET: the scope it asks for, or a refusal (R194). -/
def requestReset (payload : List Byte) (t : Tally) (b : Blocks) : Executed :=
  match Scope.ofCode (fieldAt payload 0 1) with
  | none => { blocks := b, tally := t, answer := .now (badField 0xFF) }
  | some scope => { blocks := barPorts b, tally := t, reset := some scope, answer := .deferred }

/-- A request of a known kind and a fitting length is executed by its owner (R186). -/
def executeKind (baudCode : BitVec 2) (t : Tally) (b : Blocks) (payload : List Byte) : RequestKind → Executed
  | .hello => onBlocks t (b, .now (helloReply baudCode b))
  | .status => onBlocks t (b, .now (statusReply b))
  | .reset => requestReset payload t b
  | .linkTally =>
    { blocks := b, tally := (requestLinkTally payload t).1, answer := .now (requestLinkTally payload t).2 }
  | .noticeMask => onBlocks t (requestNoticeMask payload b)
  | .chainNew => onBlocks t (requestChainNew payload b)
  | .chainAppend => onBlocks t (requestChainAppend payload b)
  | .chainClose => onBlocks t (requestChainClose payload b)
  | .chainDrop => onBlocks t (requestChainDrop payload b)
  | .chainQuery => onBlocks t (requestChainQuery payload b)
  | .slotRead => onBlocks t (requestSlotRead payload b)
  | .channelStart => onBlocks t (requestStart payload b)
  | .channelHold => onBlocks t (requestHold payload b)
  | .channelResume => onBlocks t (requestResume payload b)
  | .channelStop => onBlocks t (requestStop payload b)
  | .channelRetry => onBlocks t (requestRetry payload b)
  | .channelSkip => onBlocks t (requestSkip payload b)
  | .channelClear => onBlocks t (requestClear payload b)
  | .channelQuery => onBlocks t (requestChannelQuery payload b)
  | .collect => onBlocks t (requestCollect payload b)
  | .unitSet => onBlocks t (requestUnitSet payload b)
  | .unitActivate => onBlocks t (requestUnitActivate payload b)
  | .unitDeactivate => onBlocks t (requestUnitDeactivate payload b)
  | .unitQuery => onBlocks t (requestUnitQuery payload b)
  | .guardSet => onBlocks t (requestGuardSet payload b)
  | .guardFreeze => onBlocks t (requestGuardFreeze b)
  | .guardQuery => onBlocks t (requestGuardQuery payload b)
  | .peek => onBlocks t (requestPeek payload b)
  | .poke => onBlocks t (requestPoke payload b)

/-- A taken frame that reply memory does not match: its kind, then its length are checked, then it is executed (R186). -/
def executeFrame (baudCode : BitVec 2) (t : Tally) (b : Blocks) (kind : Byte) (payload : List Byte) : Executed :=
  match RequestKind.ofCode kind with
  | none => { blocks := b, tally := t, answer := .now [Result.unknownKind.code] }
  | some k =>
    if k.lengthFits payload.length then executeKind baudCode t b payload k
    else { blocks := b, tally := t, answer := .now [Result.badLength.code] }

end Sys2Proof.Machine
end

