-- ==== Sys2Proof/WellFormed.lean ====
section
/-! DEFINITION. Which commands the outside world can really send: operand lists fit a frame or an access, and a command named
after one frame outcome carries a frame of that outcome. The meanings are total: an ill-formed command has a meaning too. -/

namespace Sys2Proof

/-- The 29 request kind codes (R186, R202). -/
def requestCodes : List Byte :=
  [0x01, 0x02, 0x03, 0x04, 0x05, 0x10, 0x11, 0x12, 0x13, 0x14, 0x15, 0x20, 0x21, 0x22, 0x23, 0x24, 0x25, 0x26, 0x27, 0x2C,
   0x30, 0x31, 0x32, 0x33, 0x38, 0x39, 0x3A, 0x3C, 0x3D]

/-- The acknowledgement kind (R169). -/
def ackCode : Byte := 0x40

/-- A frame's payload holds at most 240 bytes (R169). -/
def payloadFits (payload : List Byte) : Bool := payload.length ≤ 240

/-- The checks of each command's operands; a command not named here has none. -/
def WellFormed : Instr → Bool
  | .chainNew _ _ entries => entries.length ≤ 11
  | .chainAppend _ _ entries => 1 ≤ entries.length && entries.length ≤ 11
  | .poke _ _ _ data => 1 ≤ data.length && data.length ≤ 128
  | .unknownKind _ kind payload => !requestCodes.contains kind && kind != ackCode && payloadFits payload
  | .goodFrame _ kind payload => kind != ackCode && payloadFits payload
  | .noticeAck _ payload => payloadFits payload
  | .lenErr length => length.toNat < 2 || 242 < length.toNat
  | .doneAnswer _ data => data.length ≤ 64
  | .hello _ | .status _ | .reset _ _ | .linkTally _ _ | .noticeMask _ _ | .chainClose _ _ | .chainDrop _ _
  | .chainQuery _ _ _ | .slotRead _ _ | .channelStart _ _ _ | .channelHold _ _ | .channelResume _ _ | .channelStop _ _
  | .channelRetry _ _ | .channelSkip _ _ | .channelClear _ _ | .channelQuery _ _ | .collect _ _ | .unitSet _ _ _ _ _
  | .unitActivate _ _ | .unitDeactivate _ _ _ | .unitQuery _ _ | .guardSet _ _ _ _ _ _ _ | .guardFreeze _
  | .guardQuery _ _ | .peek _ _ _ _ | .checkErr | .gapErr | .lineBreak | .frameTaken | .replyEnd | .noticeSent
  | .resendTimerExpiry | .arbiterGrant _ | .bufferAccessEnd | .errorAnswer _ | .accessTimeout | .presenceLineChange _ _
  | .cardDetected _ | .cardLost _ | .requestEdge _ | .deadlineExpiry _ | .blockedPosterServed | .resetTakesEffect
  | .resetNLow | .resetNRelease _ _ _ | .startUpEnd | .characterReceived _ => true

end Sys2Proof
end

