-- ==== Sys2Proof/Machine/Link.lean ====
section
/-! DEFINITION. The transmitter, the request handler with reply memory, the receiver and the LINK reset (chapters 9 and 10). -/

namespace Sys2Proof.Machine

/-! ### The transmitter (R178, R179) -/

/-- The instant a frame taken now has left the line (R179; log 21). -/
def State.frameDue (s : State) (f : Frame) : Nat := s.blocks.now + lineTime s.link.baudCode f

/-- The transmitter takes the reply, if the slot holds one (R178). -/
def takeReply (s : State) : State :=
  match s.link.replySlot with
  | some f => { s with link := { s.link with replySlot := none, line := .reply f (s.frameDue f) } }
  | none => s

/-- The send phase becomes ON_LINE (R159, R179). -/
def noticeOnLine (n : NoticeUnit) : NoticeUnit :=
  match n.sender with
  | .awaiting f => { n with sender := .awaiting { f with phase := .onLine } }
  | _ => n

/-- The transmitter takes the notice, if the slot holds one (R178). -/
def takeNotice (s : State) : State :=
  match s.blocks.noticeSlot with
  | some f =>
    { s with
      blocks := { s.blocks with noticeSlot := none, notice := noticeOnLine s.blocks.notice }
      link := { s.link with line := .notice f (s.frameDue f) } }
  | none => s

/-- The transmitter takes its next frame as the line becomes idle, the reply first (R178). -/
def takeFrame (s : State) : State := if s.link.replySlot.isSome then takeReply s else takeNotice s

/-- At the end of a step an idle line takes what the step has placed. A reply and a notice placed together: either goes first, by the
free choice of log 8 (R178). DESIGN CHOICE, log 31 (unsafe): the taking comes after everything else in the step, so a notice that the
step builds on an idle line, and that a FULL reset taking effect in the same step abandons, is withdrawn and not sent; R178 and R180
let it be taken first as well. -/
def settleLine (s : State) : State :=
  if s.link.line = .idle then
    if s.link.replySlot.isSome && s.blocks.noticeSlot.isSome then
      let s1 := { s with freeCount := s.freeCount + 1 }
      if Config.noticeFirst s.freeCount then takeNotice s1 else takeReply s1
    else takeFrame s
  else s

/-! ### Reply memory (R185, R188) -/

/-- An entry matches a taken frame (R185). -/
def ReplyEntry.matchesFrame (e : ReplyEntry) (r : RxFrame) : Bool := e.tag == r.tag && e.kind == r.kind && e.check == r.check

/-- A reply is stored: the entry with its tag leaves, then the oldest while four remain, and the new one is the newest (R188). -/
def remember (e : ReplyEntry) (memory : List ReplyEntry) : List ReplyEntry :=
  let kept := memory.filter fun x => x.tag != e.tag
  kept.drop (kept.length + 1 - Config.replyMemoryCapacity) ++ [e]

/-- A reply is built, stored, and placed in the reply slot; under silent reply it is stored alone and its end is reported in the
same step (R177, R187, R188). -/
def sendReply (r : RxFrame) (payload : List Byte) (s : State) : State :=
  let reply : Frame := ⟨r.tag, replyKind r.kind, payload⟩
  let memory := remember ⟨r.tag, r.kind, r.check, reply⟩ s.link.replyMemory
  if s.link.silent then { s with link := { s.link with replyMemory := memory, silent := false }, handler := .free }
  else { s with link := { s.link with replyMemory := memory, replySlot := some reply }, handler := .sending r }

/-! ### WORK and FULL (R183, R196) -/

/-- The link controller's FULL values (R183). -/
def resetLink (scope : Scope) (l : Link) : Link :=
  match scope with
  | .work => l
  | .full => { l with replyMemory := [], tally := {} }

/-- A WORK or FULL reset takes effect (R196). -/
def resetNow (scope : Scope) (s : State) : State :=
  { s with blocks := resetBlocks scope s.blocks, link := resetLink scope s.link, pendingReset := none }

/-- An accepted RESET: at once when no access is in flight, else it waits (R194). -/
def askReset (scope : Scope) (s : State) : State :=
  if s.blocks.anyInFlight then { s with pendingReset := some scope } else resetNow scope s

/-! ### The request handler (R184 to R187, R190) -/

/-- The reply payload of a request whose deferral ends, built at the end of the step (R190; log 7). -/
def handoverReply (b : Blocks) : Handover → List Byte
  | .channel c => channelReply .ok c b
  | .unit gone u => unitReply (if gone then .unitState else .ok) u b
  | .agent payload => payload
  | .reset scope => [Result.ok.code, scope.code] ++ beBytes 2 b.queue.nextSeq.toNat

/-- What an owning block has handed over reaches the handler (R190). -/
def deliver (s : State) : State :=
  match s.blocks.handover with
  | none => s
  | some h =>
    let s1 := { s with blocks := { s.blocks with handover := none } }
    match s.handler with
    | .deferred r => sendReply r (handoverReply s.blocks h) s1
    | _ => s1

/-- A taken frame is executed as a new request (R186, R187, R194). -/
def executeNew (r : RxFrame) (s : State) : State :=
  let e := executeFrame s.link.baudCode s.link.tally s.blocks r.kind r.payload
  let s1 := { s with blocks := e.blocks, link := { s.link with tally := e.tally } }
  let s2 := match e.reset with
    | some scope => askReset scope s1
    | none => s1
  match e.answer with
  | .now payload => sendReply r payload s2
  | .deferred => { s2 with handler := .deferred r }

/-- A taken frame that reply memory matches is answered from it (R185). -/
def replay (r : RxFrame) (e : ReplyEntry) (s : State) : State :=
  { s with
    link := { s.link with replySlot := some e.reply, tally := { s.link.tally with replays := countUp s.link.tally.replays } }
    handler := .sending r }

/-- The handler deals with the frame it has taken (R185, R186). -/
def handle (r : RxFrame) (s : State) : State :=
  match s.link.replyMemory.find? fun e => e.matchesFrame r with
  | some e => replay r e s
  | none => executeNew r s

/-- A FREE handler takes the oldest frame of the receive queue (R184). -/
def takeRequest (s : State) : State :=
  match s.handler, s.link.rxQueue with
  | .free, r :: rest => handle r { s with link := { s.link with rxQueue := rest } }
  | _, _ => s

/-- What every step does once its event has been taken: a deferral that has ended is answered, a FREE handler takes its next frame, and
an idle line takes what has been placed (R178, R184, R190). -/
def endStep (s : State) : State := settleLine (deliver (takeRequest (deliver s)))

/-! ### Good frames (R160 to R162, R173) -/

/-- A NOTICE ACK that is not accepted (R161). -/
def staleAck (s : State) : State :=
  { s with link := { s.link with tally := { s.link.tally with staleAcks := countUp s.link.tally.staleAcks } } }

/-- An accepted NOTICE ACK: the snapshot's sources that were not raised again leave the summary, the notice is given up, and a new
one is built for what is left (R160). -/
def acceptAck (n : NoticeInFlight) (b : Blocks) : Blocks :=
  buildNotice (dropNotice
    { b with notice := { b.notice with summary := b.notice.summary &&& ~~~(n.snapshot &&& ~~~n.later) } })

/-- A NOTICE ACK reaches the notice unit (R160, R161). -/
def takeAck (tag : Byte) (s : State) : State :=
  match s.blocks.notice.sender with
  | .awaiting n => if tag = s.blocks.notice.tag then { s with blocks := acceptAck n s.blocks } else staleAck s
  | _ => staleAck s

/-- A MUTED sender becomes QUIET, and builds a notice if the summary is not empty (R162). -/
def unmute (b : Blocks) : Blocks :=
  match b.notice.sender with
  | .muted => buildNotice { b with notice := { b.notice with sender := .quiet } }
  | _ => b

/-- An event of the tally that raises LINK (R181). -/
def countError (f : Tally → Tally) (s : State) : State :=
  { s with link := { s.link with tally := f s.link.tally }, blocks := raise .link s.blocks }

/-- A frame joins the receive queue, or is discarded with OVERRUN (R173, R174). -/
def appendFrame (r : RxFrame) (s : State) : State :=
  if s.link.rxQueue.length < Config.rxQueueCapacity then { s with link := { s.link with rxQueue := s.link.rxQueue ++ [r] } }
  else countError (fun t => { t with overrun := countUp t.overrun }) s

/-- The receiver stands in HUNT, any frame in progress discarded (R171). -/
def hunt (s : State) : State := { s with link := { s.link with receiver := .hunt } }

/-- A good frame (R173). -/
def goodFrame (r : RxFrame) (s : State) : State :=
  let s1 := hunt s
  let isAck := r.kind = ackCode
  let s2 := if isAck then takeAck r.tag s1 else s1
  let s3 := { s2 with blocks := unmute s2.blocks }
  if isAck then s3 else appendFrame r s3

/-- A frame as the receiver hands it on, with the check value it carried (R170, R174). -/
def frameOf (tag kind : Byte) (payload : List Byte) : RxFrame := ⟨tag, kind, payload, frameCheck tag kind payload⟩

/-! ### Damaged frames and characters (R168, R171, R172) -/

/-- LEN_ERR: the frame in progress is discarded and counted (R171, R181). -/
def lengthError (s : State) : State := countError (fun t => { t with lenErr := countUp t.lenErr }) (hunt s)

/-- CHECK_ERR (R171, R181). -/
def checkError (s : State) : State := countError (fun t => { t with checkErr := countUp t.checkErr }) (hunt s)

/-- GAP_ERR (R172, R181). -/
def gapError (s : State) : State := countError (fun t => { t with gapErr := countUp t.gapErr }) (hunt s)

/-- A length byte in 2 to 242 (R169). -/
def lengthOk (b : Byte) : Bool := 2 ≤ b.toNat && b.toNat ≤ 242

/-- The frame in progress with a body byte kept (R171). -/
def Partial.keep (p : Partial) (b : Byte) : Partial := { p with taken := p.taken ++ [b], crc := crc16Byte p.crc b }

/-- The receiver takes a byte in its current state (R168, R171); each byte kept restarts the gap timer (R172). -/
def receiveByte (b : Byte) (s : State) : State :=
  let due := s.blocks.now + Config.gapLimit
  let enter (r : Receiver) : State := { s with link := { s.link with receiver := r } }
  match s.link.receiver with
  | .hunt => if b = 0xC3 then enter (.length due) else s
  | .length _ =>
    if lengthOk b then enter (.body { length := b.toNat, taken := [], crc := crc16Byte crc16Start b } due) else lengthError s
  | .body p _ =>
    let q := p.keep b
    if q.taken.length = q.length then enter (.check q none due) else enter (.body q due)
  | .check p none _ => enter (.check p (some b) due)
  | .check p (some hi) _ =>
    if hi ++ b = p.crc then
      goodFrame ⟨p.taken.getD 0 0, p.taken.getD 1 0, p.taken.drop 2, p.crc⟩ s
    else checkError s

/-! ### The LINK reset (R176, R177) -/

/-- What a LINK reset keeps of reply memory: the built reply of the request in progress (R176, R177). -/
def keptReplies (h : HandlerPhase) (memory : List ReplyEntry) : List ReplyEntry :=
  match h with
  | .sending r => memory.filter fun e => e.matchesFrame r
  | _ => []

/-- A frame on the line is cut: the character being sent is finished (R176). -/
def Line.cutOff : Line → Line
  | .idle => .idle
  | _ => .cut

/-- The link controller after a break (R176 steps 1 to 5, R177). -/
def breakLink (h : HandlerPhase) (l : Link) : Link :=
  { l with
    receiver := .hunt
    rxQueue := []
    replyMemory := keptReplies h l.replyMemory
    silent := l.silent || match h with | .deferred _ => true | _ => false
    replySlot := none
    line := l.line.cutOff
    tally := { l.tally with breaks := countUp l.tally.breaks } }

/-- The notice unit after a break: the notice in flight is abandoned, RESET is added, the reset cause is LINK and a new notice is
built (R165, R166, R176, R198). -/
def breakNotice (b : Blocks) : Blocks :=
  let b1 := dropNotice b
  buildNotice
    { b1 with noticeSlot := none, resetCause := .link, notice := { b1.notice with summary := b1.notice.summary ||| Source.reset.set } }

/-- The end of a reply that a LINK reset withdraws or cuts is reported (R177, R184). -/
def HandlerPhase.afterBreak : HandlerPhase → HandlerPhase
  | .sending _ => .free
  | h => h

/-- A break: the LINK reset (R175 to R177). -/
def linkReset (s : State) : State :=
  { s with
    link := breakLink s.handler s.link
    blocks := breakNotice s.blocks
    handler := s.handler.afterBreak }

end Sys2Proof.Machine
end

