-- ==== Sys2Proof/Machine/Requests.lean ====
section
/-! DEFINITION. The meanings of the request commands: each is the arrival of its good frame (R173, R186, R202; log 7). -/

namespace Sys2Proof.Machine

/-- An event that is taken only while the part runs: before start-up has ended and under RESET_N no block takes an event (R168, R199,
R200; log 22). An event that cannot occur as things stand changes nothing (log 26). -/
def onRunning (s : State) (effect : Option State) : Out :=
  if s.power = .running then
    match effect with
    | some t => .next (endStep t)
    | none => .next s
  else .next s

/-- A good frame arrives (R173). -/
def arrive (r : RxFrame) (s : State) : Out := onRunning s (some (goodFrame r s))

/-! ### Device, link and notice unit -/

/-- HELLO (R192). -/
def execHello (tag : Byte) (s : State) : Out := arrive (frameOf tag RequestKind.hello.code []) s

/-- STATUS (R193). -/
def execStatus (tag : Byte) (s : State) : Out := arrive (frameOf tag RequestKind.status.code []) s

/-- RESET (R194). -/
def execReset (tag scope : Byte) (s : State) : Out := arrive (frameOf tag RequestKind.reset.code [scope]) s

/-- LINK TALLY (R182). -/
def execLinkTally (tag clear : Byte) (s : State) : Out := arrive (frameOf tag RequestKind.linkTally.code [clear]) s

/-- NOTICE MASK (R156). -/
def execNoticeMask (tag : Byte) (mask : BitVec 16) (s : State) : Out :=
  arrive (frameOf tag RequestKind.noticeMask.code (beBytes 2 mask.toNat)) s

/-! ### Descriptor store -/

/-- CHAIN NEW (R16, R17). -/
def execChainNew (tag openByte : Byte) (entries : List DescForm) (s : State) : Out :=
  arrive (frameOf tag RequestKind.chainNew.code (formsPayload openByte entries)) s

/-- CHAIN APPEND (R18, R19). -/
def execChainAppend (tag handle : Byte) (entries : List DescForm) (s : State) : Out :=
  arrive (frameOf tag RequestKind.chainAppend.code (formsPayload handle entries)) s

/-- CHAIN CLOSE (R20). -/
def execChainClose (tag handle : Byte) (s : State) : Out := arrive (frameOf tag RequestKind.chainClose.code [handle]) s

/-- CHAIN DROP (R21). -/
def execChainDrop (tag handle : Byte) (s : State) : Out := arrive (frameOf tag RequestKind.chainDrop.code [handle]) s

/-- CHAIN QUERY (R22). -/
def execChainQuery (tag handle : Byte) (start : BitVec 16) (s : State) : Out :=
  arrive (frameOf tag RequestKind.chainQuery.code (handle :: beBytes 2 start.toNat)) s

/-- SLOT READ (R23). -/
def execSlotRead (tag : Byte) (slot : BitVec 16) (s : State) : Out :=
  arrive (frameOf tag RequestKind.slotRead.code (beBytes 2 slot.toNat)) s

/-! ### Channels and completion queue -/

/-- CHANNEL START (R31). -/
def execChannelStart (tag channel handle : Byte) (s : State) : Out :=
  arrive (frameOf tag RequestKind.channelStart.code [channel, handle]) s

/-- CHANNEL HOLD (R42 to R44). -/
def execChannelHold (tag channel : Byte) (s : State) : Out := arrive (frameOf tag RequestKind.channelHold.code [channel]) s

/-- CHANNEL RESUME (R45, R46). -/
def execChannelResume (tag channel : Byte) (s : State) : Out := arrive (frameOf tag RequestKind.channelResume.code [channel]) s

/-- CHANNEL STOP (R48 to R50). -/
def execChannelStop (tag channel : Byte) (s : State) : Out := arrive (frameOf tag RequestKind.channelStop.code [channel]) s

/-- CHANNEL RETRY (R51). -/
def execChannelRetry (tag channel : Byte) (s : State) : Out := arrive (frameOf tag RequestKind.channelRetry.code [channel]) s

/-- CHANNEL SKIP (R52). -/
def execChannelSkip (tag channel : Byte) (s : State) : Out := arrive (frameOf tag RequestKind.channelSkip.code [channel]) s

/-- CHANNEL CLEAR (R53). -/
def execChannelClear (tag channel : Byte) (s : State) : Out := arrive (frameOf tag RequestKind.channelClear.code [channel]) s

/-- CHANNEL QUERY (R56). -/
def execChannelQuery (tag channel : Byte) (s : State) : Out := arrive (frameOf tag RequestKind.channelQuery.code [channel]) s

/-- COLLECT (R96). -/
def execCollect (tag max : Byte) (s : State) : Out := arrive (frameOf tag RequestKind.collect.code [max]) s

/-! ### Units -/

/-- UNIT SET (R124). -/
def execUnitSet (tag unit : Byte) (base size : BitVec 24) (timeout : Byte) (s : State) : Out :=
  arrive (frameOf tag RequestKind.unitSet.code (unit :: beBytes 3 base.toNat ++ beBytes 3 size.toNat ++ [timeout])) s

/-- UNIT ACTIVATE (R126). -/
def execUnitActivate (tag unit : Byte) (s : State) : Out := arrive (frameOf tag RequestKind.unitActivate.code [unit]) s

/-- UNIT DEACTIVATE (R127 to R129). -/
def execUnitDeactivate (tag unit force : Byte) (s : State) : Out :=
  arrive (frameOf tag RequestKind.unitDeactivate.code [unit, force]) s

/-- UNIT QUERY (R130). -/
def execUnitQuery (tag unit : Byte) (s : State) : Out := arrive (frameOf tag RequestKind.unitQuery.code [unit]) s

/-! ### Guards, PEEK and POKE -/

/-- GUARD SET (R149). -/
def execGuardSet (tag index enabled : Byte) (base limit : Word) (mode agents : Byte) (s : State) : Out :=
  arrive (frameOf tag RequestKind.guardSet.code
    ([index, enabled] ++ beBytes 4 base.toNat ++ beBytes 4 limit.toNat ++ [mode, agents])) s

/-- GUARD FREEZE (R150). -/
def execGuardFreeze (tag : Byte) (s : State) : Out := arrive (frameOf tag RequestKind.guardFreeze.code []) s

/-- GUARD QUERY (R151). -/
def execGuardQuery (tag clear : Byte) (s : State) : Out := arrive (frameOf tag RequestKind.guardQuery.code [clear]) s

/-- PEEK (R111). -/
def execPeek (tag space : Byte) (offset : Word) (count : Byte) (s : State) : Out :=
  arrive (frameOf tag RequestKind.peek.code (space :: beBytes 4 offset.toNat ++ [count])) s

/-- POKE (R111). -/
def execPoke (tag space : Byte) (offset : Word) (data : List Byte) (s : State) : Out :=
  arrive (frameOf tag RequestKind.poke.code (space :: beBytes 4 offset.toNat ++ data)) s

/-! ### Frames of any kind -/

/-- A good frame whose kind names no request (R186). -/
def execUnknownKind (tag kind : Byte) (payload : List Byte) (s : State) : Out := arrive (frameOf tag kind payload) s

/-- A good frame of any kind (R173). -/
def execGoodFrame (tag kind : Byte) (payload : List Byte) (s : State) : Out := arrive (frameOf tag kind payload) s

/-- A good NOTICE ACK frame (R160, R161, R173); its payload is ignored. -/
def execNoticeAck (tag : Byte) (payload : List Byte) (s : State) : Out := arrive (frameOf tag ackCode payload) s

end Sys2Proof.Machine
end

