-- ==== Sys2Proof/Machine/Events.lean ====
section
/-! DEFINITION. The meanings of the event commands: link, transmitter, ports, cards, timers and resets. -/

namespace Sys2Proof.Machine

/-- A change of the blocks alone. -/
def onBlock (s : State) (f : Blocks → Blocks) : State := { s with blocks := f s.blocks }

/-- The clock has reached the instant of a timer that a command reports (log 2). -/
def atTime (due : Nat) (s : State) : State := onBlock s (Blocks.reachTime · due)

/-! ### The receiver (R168 to R175) -/

/-- LEN_ERR: a length byte outside 2 to 242 (R171); another length byte is no such event (log 26). -/
def execLenErr (length : Byte) (s : State) : Out := onRunning s (if lengthOk length then none else some (lengthError s))

/-- CHECK_ERR: the check of a frame does not match (R171). -/
def execCheckErr (s : State) : Out := onRunning s (some (checkError s))

/-- The instant the gap timer expires; none in HUNT (R172). -/
def Receiver.gapDue : Receiver → Option Nat
  | .hunt => none
  | .length due => some due
  | .body _ due => some due
  | .check _ _ due => some due

/-- GAP_ERR: the gap timer expires inside a frame (R172). -/
def execGapErr (s : State) : Out :=
  onRunning s (s.link.receiver.gapDue.map fun due => gapError (atTime due s))

/-- BREAK: LRX has been low for 1 ms (R175, R176). -/
def execLineBreak (s : State) : Out := onRunning s (some (linkReset s))

/-- CHARACTER_RECEIVED: a character gives one byte (R168, R171). -/
def execCharacterReceived (byte : Byte) (s : State) : Out := onRunning s (some (receiveByte byte s))

/-! ### The transmitter (R159, R178, R179) -/

/-- The line has become idle. -/
def idleLine (s : State) : State := { s with link := { s.link with line := .idle } }

/-- Whether the transmitter can take a frame: a slot holds one and the line is idle, or the character of a cut frame is all it still
sends (R176, R178). The end of that character is reported even when no frame waits (log 17). -/
def canTake (s : State) : Bool :=
  s.link.line == .cut || s.link.line == .idle && (s.link.replySlot.isSome || s.blocks.noticeSlot.isSome)

/-- FRAME_TAKEN: the transmitter takes its next frame, the reply first (R178). An idle line takes what a step has placed at the end of
that step (log 16), so between steps a frame is left for it only where the last character of a cut frame has still to end (R176;
log 17). -/
def execFrameTaken (s : State) : Out := onRunning s (if canTake s then some (takeFrame (idleLine s)) else none)

/-- REPLY_END: the reply on the line has ended; the transmitter takes its next frame, then the handler is FREE (R178, R179, R184). -/
def execReplyEnd (s : State) : Out :=
  onRunning s
    (match s.link.line with
      | .reply _ due => some { takeFrame (idleLine (atTime due s)) with handler := .free }
      | _ => none)

/-- The send phase of the notice whose frame has ended becomes TIMING (R159); a notice that has been given up starts no timer (R180). -/
def noticeTiming (now : Nat) (n : NoticeUnit) : NoticeUnit :=
  match n.sender with
  | .awaiting f => if f.phase = .onLine then { n with sender := .awaiting { f with phase := .timing (now + Config.resendTime) } } else n
  | _ => n

/-- NOTICE_SENT: the notice on the line has ended (R159, R179). -/
def execNoticeSent (s : State) : Out :=
  onRunning s
    (match s.link.line with
      | .notice _ due =>
        some (takeFrame (idleLine (onBlock (atTime due s) fun b => { b with notice := noticeTiming b.now b.notice })))
      | _ => none)

/-- The resend timer of a notice has expired: the frame is handed over again, or the sender is MUTED after the fourth send (R159). -/
def resend (f : NoticeInFlight) (b : Blocks) : Blocks :=
  if f.sends < Config.maxSends then
    { b with
      notice := { b.notice with sender := .awaiting { f with sends := f.sends + 1, phase := .waiting } }
      noticeSlot := some f.frame }
  else { b with notice := { b.notice with sender := .muted } }

/-- RESEND_TIMER_EXPIRY (R159). -/
def execResendTimerExpiry (s : State) : Out :=
  onRunning s
    (match s.blocks.notice.sender with
      | .awaiting f =>
        match f.phase with
        | .timing due => some (onBlock (atTime due s) (resend f))
        | _ => none
      | _ => none)

/-! ### The ports (R102, R103, R107) -/

/-- ARBITER_GRANT: a free port's arbiter grants the next waiting requester (R103). Grants are made inside the steps that cause them
(log 16), so between steps there is none left to make. -/
def execArbiterGrant (port : Port) (s : State) : Out :=
  onRunning s (if (s.blocks.arb port).next.isSome then some (onBlock s settle) else none)

/-- The end of an access, its effect on the unit already taken: the port is free. The outcome of the last access that a pending reset
waits for is not handed over, and the reset takes effect (R107, R195). -/
def endAccess (p : Port) (a : Access) (e : Ending) (s : State) : State :=
  let s1 := onBlock s fun b => b.updArb p fun x => { x with inFlight := none }
  match s.pendingReset with
  | none => onBlock s1 (handEnd a e)
  | some scope => if s1.blocks.anyInFlight then onBlock s1 (handEnd a e) else resetNow scope s1

/-- Buffer memory after a buffer access has ended (R109). -/
def memoryAfter (a : Access) (m : Memory) : Memory :=
  match a.dir with
  | .read => m
  | .write => m.writeBytes a.addr a.data

/-- BUFFER_ACCESS_END: the buffer access in flight ends done (R109). An access outside buffer memory does not arise (R108); the model
stops there (log 12). -/
def execBufferAccessEnd (s : State) : Out :=
  match s.blocks.bufPort.inFlight with
  | none => .next s
  | some a =>
    if s.power = .running ∧ s.blocks.bufferSize < a.addr + a.count then .fault .bufferAddressAbsent
    else
      onRunning s (some (endAccess .buffer a (.done (s.mem.readBytes a.addr a.count))
        { s with mem := memoryAfter a s.mem }))

/-- The slot bus access in flight, when it is one to the unit (R137). -/
def accessTo (u : UnitId) (s : State) : Option Access := if s.blocks.unitAccessed u then s.blocks.slotPort.inFlight else none

/-- A slot bus access ends at the unit, then at the port (R129, R132). -/
def endCardAccess (u : UnitId) (a : Access) (e : Ending) (s : State) : State :=
  endAccess .slot a e (onBlock s (unitEffect u e))

/-- The bytes handed to the owner of a read: those the card placed, in ascending order; at a position for which the answer brings no
byte, a free value (R133; log 9). -/
def answeredBytes (k : Nat) (a : Access) (data : List Byte) : List Byte :=
  match a.dir with
  | .read => (List.range a.count).map fun i => data.getD i (Config.undrivenByte k i)
  | .write => []

/-- DONE_ANSWER: the card answers done (R133); with no access of its unit in flight the answer is ignored (R137). -/
def execDoneAnswer (u : UnitId) (data : List Byte) (s : State) : Out :=
  onRunning s ((accessTo u s).map fun a =>
    endCardAccess u a (.done (answeredBytes s.freeCount a data)) { s with freeCount := s.freeCount + 1 })

/-- ERROR_ANSWER: the card answers with error (R134, R137). -/
def execErrorAnswer (u : UnitId) (s : State) : Out :=
  onRunning s ((accessTo u s).map fun a => endCardAccess u a (.failed .unitError u) s)

/-- ACCESS_TIMEOUT: the timer of the slot bus access in flight expires (R135). -/
def execAccessTimeout (s : State) : Out :=
  onRunning s
    (match s.blocks.slotPort.inFlight with
      | some a => a.card.map fun t => endCardAccess t.unit a (.failed .unitTimeout t.unit) (atTime t.due s)
      | none => none)

/-! ### The cards (R119 to R121, R138) -/

/-- The level of a presence line changes: the debounce timer starts afresh, or stops when the line is back at the presence field's
level (R119). -/
def changeLine (u : UnitId) (level : Bool) (b : Blocks) : Blocks :=
  b.updUnit u fun e =>
    { e with line := level, debounceDue := if level = e.presence then none else some (b.now + Config.debounceTime) }

/-- PRESENCE_LINE_CHANGE (R119); the lines are watched from the sampling at start-up on (R200). -/
def execPresenceLineChange (u : UnitId) (level : Bool) (s : State) : Out :=
  if s.power = .heldLow ∨ (s.blocks.unit u).line = level then .next s else .next (onBlock s (changeLine u level))

/-- The clock has reached the end of a unit's debounce, when its timer runs (log 2, log 15). -/
def atDebounce (u : UnitId) (s : State) : State :=
  match (s.blocks.unit u).debounceDue with
  | some due => atTime due s
  | none => s

/-- CARD_DETECTED (R119, R120). -/
def execCardDetected (u : UnitId) (s : State) : Out :=
  onRunning s (if (s.blocks.unit u).presence then none else some (onBlock (atDebounce u s) (detectCard u)))

/-- Whether the access in flight to a unit is the last access that a pending reset waits for (R195). -/
def lastBeforeReset (u : UnitId) (s : State) : Bool :=
  s.pendingReset.isSome && s.blocks.unitAccessed u && s.blocks.bufPort.inFlight.isNone

/-- CARD_LOST (R119, R121). A loss that ends the last access a reset waits for makes no FAULT record, and none is posted in that step:
the waiters leave by the reset, without a fault (R100, R143, R195; log 30). -/
def execCardLost (u : UnitId) (s : State) : Out :=
  onRunning s
    (if (s.blocks.unit u).presence then
      let s1 := onBlock (atDebounce u s) (if lastBeforeReset u s then emptyUnit u else loseCard u)
      match accessTo u s with
      | some a => some (endAccess .slot a (.failed .unitGone u) s1)
      | none => some s1
    else none)

/-- REQUEST_EDGE (R138 to R140). -/
def execRequestEdge (u : UnitId) (s : State) : Out := onRunning s (some (onBlock s (takeEdge u)))

/-! ### Channel and queue events -/

/-- DEADLINE_EXPIRY (R78). -/
def execDeadlineExpiry (c : ChanId) (s : State) : Out :=
  onRunning s
    (if (s.blocks.chan c).state = .pending then (s.blocks.chan c).deadline.map fun due => onBlock (atTime due s) (expireWait c)
    else none)

/-- BLOCKED_POSTER_SERVED: the blocked posters post into free space (R97). COLLECT serves them in its own step (log 16), so between
steps there is none left to serve. -/
def execBlockedPosterServed (s : State) : Out :=
  onRunning s
    (if s.blocks.queue.blocked ≠ [] ∧ s.blocks.depth < Config.queueCapacity then some (onBlock s serveBlocked) else none)

/-! ### Resets (R196, R199, R200) -/

/-- RESET_TAKES_EFFECT (R196). A pending reset takes effect inside the step that ends the last access (log 16). -/
def execResetTakesEffect (s : State) : Out :=
  onRunning s
    (match s.pendingReset with
      | some scope => if s.blocks.anyInFlight then none else some (resetNow scope s)
      | none => none)

/-- Buffer memory when RESET_N cuts a buffer write: the bytes of that access are unknown (R199; log 10). -/
def memoryCut (s : State) : Memory :=
  match s.blocks.bufPort.inFlight with
  | none => s.mem
  | some a =>
    match a.dir with
    | .read => s.mem
    | .write => if a.addr + a.count ≤ s.blocks.bufferSize then s.mem.writeBytes a.addr (cutBytes s.freeCount a.data) else s.mem

/-- The blocks as RESET_N goes low: accesses abandoned, slot enables released (R199). -/
def cutBlocks (b : Blocks) : Blocks :=
  { b with
    bufPort := { b.bufPort with inFlight := none }
    slotPort := { b.slotPort with inFlight := none }
    units := b.units.map fun e => { e with slotEnable := false } }

/-- RESET_N_LOW: a COLD reset begins (R199). The rest of the state stays until the release (log 23). -/
def execResetNLow (s : State) : Out :=
  if s.power = .heldLow then .next s
  else
    .next
      { s with
        mem := memoryCut s
        blocks := cutBlocks s.blocks
        link := { s.link with receiver := .hunt, line := .idle }
        pendingReset := none
        power := .heldLow
        freeCount := s.freeCount + 1 }

/-- A unit entry from the sampled level of its presence line (R119, R143). -/
def coldUnit (level : Bool) : UnitEntry :=
  { presence := level, state := if level then .present else .empty, line := level }

/-- RESET_N_RELEASE: straps and presence lines are sampled, every block takes its COLD values, buffer memory is written with 00h, and
start-up is in progress (R200 steps 1 to 3). -/
def execResetNRelease (baud msz : BitVec 2) (presence : BitVec 8) (s : State) : Out :=
  if s.power = .heldLow then
    .next
      { blocks :=
          { now := s.blocks.now
            resetCause := s.blocks.resetCause
            mszCode := msz
            units := Vector.ofFn fun u : UnitId => coldUnit (presence.getLsbD u.val) }
        link := { baudCode := baud }
        power := .startUp (s.blocks.now + Config.startUpTime)
        freeCount := s.freeCount
        pending := s.pending }
  else .next s

/-- START_UP_END: the receiver is in HUNT, the reset cause becomes COLD and the first notice is built (R198, R200). -/
def execStartUpEnd (s : State) : Out :=
  match s.power with
  | .startUp _ =>
    .next (endStep (onBlock { hunt s with power := .running } fun b => buildNotice { b with resetCause := .cold }))
  | _ => .next s

end Sys2Proof.Machine
end

