-- ==== Sys2Proof/Machine/Clock.lean ====
section
/-! DEFINITION. The model's clock (log 1): what the part does on a step for which no command waits. -/

namespace Sys2Proof.Machine

/-- A command that reports a timer, when the timer's instant has been reached. -/
def whenDue (now : Nat) (due : Option Nat) (c : Instr) : Option Instr :=
  match due with
  | some t => if t ≤ now then some c else none
  | none => none

/-- The instant by which start-up has ended (R200; log 27). -/
def Power.due : Power → Option Nat
  | .startUp due => some due
  | _ => none

/-- The frame on the line that has ended, or the cut character (R176, R179). -/
def lineDue (now : Nat) : Line → Option Instr
  | .idle => none
  | .cut => some .frameTaken
  | .reply _ due => whenDue now (some due) .replyEnd
  | .notice _ due => whenDue now (some due) .noticeSent

/-- The instant the resend timer expires, when it runs (R159). -/
def resendDue (n : NoticeUnit) : Option Nat :=
  match n.sender with
  | .awaiting f => match f.phase with | .timing due => some due | _ => none
  | _ => none

/-- The instant the timer of the slot bus access in flight expires (R131). -/
def accessDue (b : Blocks) : Option Nat := (b.slotPort.inFlight.bind Access.card).map CardTiming.due

/-- A unit's debounce that has ended, with the event it gives (R119). -/
def debounceEvent (b : Blocks) (u : UnitId) : Option Instr :=
  whenDue b.now (b.unit u).debounceDue (if (b.unit u).line then .cardDetected u else .cardLost u)

/-- A WAIT's deadline that has been reached (R78). -/
def deadlineEvent (b : Blocks) (c : ChanId) : Option Instr := whenDue b.now (b.chan c).deadline (.deadlineExpiry c)

/-- The instant from which on the gap timer has expired whatever the next character brings: a character that has begun by the
timer's expiry stops the timer, and gives its byte one character time later at most (R168, R172; log 20). -/
def gapOver (l : Link) : Option Nat := l.receiver.gapDue.map (· + characterTime l.baudCode)

/-- The timer event that is due first in the model's order (log 3), if any is due. -/
def dueCommand (s : State) : Option Instr :=
  let now := s.blocks.now
  match s.power with
  | .heldLow => none
  | .startUp due => whenDue now (some due) .startUpEnd
  | .running =>
    ([lineDue now s.link.line, whenDue now (gapOver s.link) .gapErr,
      whenDue now (resendDue s.blocks.notice) .resendTimerExpiry, whenDue now (accessDue s.blocks) .accessTimeout]
      ++ allUnits.map (debounceEvent s.blocks) ++ allChans.map (deadlineEvent s.blocks)).findSome? id

/-- A step with no command waiting: a due timer event is put into the queue; else the clock advances by one microsecond; under RESET_N
no timer runs (R199; log 1). -/
def idle (s : State) : State :=
  match dueCommand s with
  | some c => { s with pending := [c] }
  | none => if s.power = .heldLow then s else onBlock s fun b => { b with now := b.now + 1 }

end Sys2Proof.Machine
end

