-- ==== Sys2Proof/Machine/Dispatch.lean ====
section
/-! DEFINITION. The meaning of every command, one arm per constructor. -/

namespace Sys2Proof.Machine

/-- The effect of a command on everything but the queue. -/
def exec (i : Instr) (s : State) : Host.Outcome State Fault Refusal :=
  match i with
  | .hello tag => Sys2Proof.Machine.execHello tag s
  | .status tag => Sys2Proof.Machine.execStatus tag s
  | .reset tag scope => Sys2Proof.Machine.execReset tag scope s
  | .linkTally tag clear => Sys2Proof.Machine.execLinkTally tag clear s
  | .noticeMask tag mask => Sys2Proof.Machine.execNoticeMask tag mask s
  | .chainNew tag openByte entries => Sys2Proof.Machine.execChainNew tag openByte entries s
  | .chainAppend tag handle entries => Sys2Proof.Machine.execChainAppend tag handle entries s
  | .chainClose tag handle => Sys2Proof.Machine.execChainClose tag handle s
  | .chainDrop tag handle => Sys2Proof.Machine.execChainDrop tag handle s
  | .chainQuery tag handle start => Sys2Proof.Machine.execChainQuery tag handle start s
  | .slotRead tag slot => Sys2Proof.Machine.execSlotRead tag slot s
  | .channelStart tag channel handle => Sys2Proof.Machine.execChannelStart tag channel handle s
  | .channelHold tag channel => Sys2Proof.Machine.execChannelHold tag channel s
  | .channelResume tag channel => Sys2Proof.Machine.execChannelResume tag channel s
  | .channelStop tag channel => Sys2Proof.Machine.execChannelStop tag channel s
  | .channelRetry tag channel => Sys2Proof.Machine.execChannelRetry tag channel s
  | .channelSkip tag channel => Sys2Proof.Machine.execChannelSkip tag channel s
  | .channelClear tag channel => Sys2Proof.Machine.execChannelClear tag channel s
  | .channelQuery tag channel => Sys2Proof.Machine.execChannelQuery tag channel s
  | .collect tag max => Sys2Proof.Machine.execCollect tag max s
  | .unitSet tag unit base size timeout => Sys2Proof.Machine.execUnitSet tag unit base size timeout s
  | .unitActivate tag unit => Sys2Proof.Machine.execUnitActivate tag unit s
  | .unitDeactivate tag unit force => Sys2Proof.Machine.execUnitDeactivate tag unit force s
  | .unitQuery tag unit => Sys2Proof.Machine.execUnitQuery tag unit s
  | .guardSet tag index enabled base limit mode agents => Sys2Proof.Machine.execGuardSet tag index enabled base limit mode agents s
  | .guardFreeze tag => Sys2Proof.Machine.execGuardFreeze tag s
  | .guardQuery tag clear => Sys2Proof.Machine.execGuardQuery tag clear s
  | .peek tag space offset count => Sys2Proof.Machine.execPeek tag space offset count s
  | .poke tag space offset data => Sys2Proof.Machine.execPoke tag space offset data s
  | .unknownKind tag kind payload => Sys2Proof.Machine.execUnknownKind tag kind payload s
  | .goodFrame tag kind payload => Sys2Proof.Machine.execGoodFrame tag kind payload s
  | .noticeAck tag payload => Sys2Proof.Machine.execNoticeAck tag payload s
  | .lenErr length => Sys2Proof.Machine.execLenErr length s
  | .checkErr => Sys2Proof.Machine.execCheckErr s
  | .gapErr => Sys2Proof.Machine.execGapErr s
  | .lineBreak => Sys2Proof.Machine.execLineBreak s
  | .frameTaken => Sys2Proof.Machine.execFrameTaken s
  | .replyEnd => Sys2Proof.Machine.execReplyEnd s
  | .noticeSent => Sys2Proof.Machine.execNoticeSent s
  | .resendTimerExpiry => Sys2Proof.Machine.execResendTimerExpiry s
  | .arbiterGrant port => Sys2Proof.Machine.execArbiterGrant port s
  | .bufferAccessEnd => Sys2Proof.Machine.execBufferAccessEnd s
  | .doneAnswer unit data => Sys2Proof.Machine.execDoneAnswer unit data s
  | .errorAnswer unit => Sys2Proof.Machine.execErrorAnswer unit s
  | .accessTimeout => Sys2Proof.Machine.execAccessTimeout s
  | .presenceLineChange unit level => Sys2Proof.Machine.execPresenceLineChange unit level s
  | .cardDetected unit => Sys2Proof.Machine.execCardDetected unit s
  | .cardLost unit => Sys2Proof.Machine.execCardLost unit s
  | .requestEdge unit => Sys2Proof.Machine.execRequestEdge unit s
  | .deadlineExpiry channel => Sys2Proof.Machine.execDeadlineExpiry channel s
  | .blockedPosterServed => Sys2Proof.Machine.execBlockedPosterServed s
  | .resetTakesEffect => Sys2Proof.Machine.execResetTakesEffect s
  | .resetNLow => Sys2Proof.Machine.execResetNLow s
  | .resetNRelease baud msz presence => Sys2Proof.Machine.execResetNRelease baud msz presence s
  | .startUpEnd => Sys2Proof.Machine.execStartUpEnd s
  | .characterReceived byte => Sys2Proof.Machine.execCharacterReceived byte s

end Sys2Proof.Machine
end

