-- ==== Sys2Proof/Machine/Step.lean ====
section
/-! DEFINITION. One step of the machine: the command at the front of the queue, or, when none waits, the model's clock. -/

namespace Sys2Proof.Machine

/-- One step: the command at the front leaves the queue and is executed; with an empty queue the clock acts (log 1). -/
def step (s : State) : Host.Outcome State Fault Refusal :=
  match s.pending with
  | [] => .next (idle s)
  | c :: rest => exec c { s with pending := rest }

/-- The state with the command a table word spells put at the front of its queue; no word spells one, so the state is unchanged. -/
def State.withFetchWord (s : State) (nbits w : Nat) : State :=
  match decodeTableWord nbits w with
  | some c => { s with pending := c :: s.pending }
  | none => s

end Sys2Proof.Machine
end

