-- ==== Sys2Proof/Safety.lean ====
section
/-! DEFINITION. The conditions and invariants the claims speak of, and the states a request leaves. -/

namespace Sys2Proof.Safety

open Sys2Proof.Machine

/-! ### States between steps -/

/-- Nothing is left to do: no hand-over stands, a FREE handler has no frame to take, an idle line has none to send (R178, R184, R190). -/
def settled (s : State) : Bool :=
  s.blocks.handover == none && (s.handler != .free || s.link.rxQueue == [])
    && (s.link.line != .idle || (s.link.replySlot == none && s.blocks.noticeSlot == none))

/-- The part runs, its handler is FREE with no frame waiting, the link agent holds nothing, no reply is to be silent and the notice
sender is not MUTED: a request that arrives is taken in its own step (R162, R177, R184). -/
def ready (s : State) : Bool :=
  s.power == .running && s.handler == .free && s.link.rxQueue == [] && !s.link.silent && s.blocks.handover == none
    && s.blocks.agent == none && s.blocks.notice.sender != .muted

/-- No entry of reply memory matches a frame, so it is executed (R185, R186). -/
def fresh (s : State) (r : RxFrame) : Bool := s.link.replyMemory.all fun e => !e.matchesFrame r

/-- The state a ready part is in after a request that answers at once: the blocks and the tally as the request leaves them, the reply
stored and handed to the transmitter (R187, R188). Everything else is as it was, but for the receiver, which hunts. -/
def answered (s : State) (r : RxFrame) (b : Blocks) (t : Tally) (payload : List Byte) : State :=
  settleLine (sendReply r payload { s with blocks := b, link := { s.link with receiver := .hunt, tally := t } })

/-- The state a ready part is in after a request whose reply is deferred (R190). -/
def deferring (s : State) (r : RxFrame) (b : Blocks) : State :=
  settleLine { s with blocks := b, link := { s.link with receiver := .hunt }, handler := .deferred r }

/-- Between steps no arbiter has a grant left to make (R103). -/
def rested (b : Blocks) : Bool := b.bufPort.next == none && b.slotPort.next == none

/-- The frame of a request (R202). -/
def requestFrame (tag : Byte) (k : RequestKind) (payload : List Byte) : RxFrame := frameOf tag k.code payload

/-- A frame reaches a part that is ready for it, and it is not a retransmission. -/
def taken (s : State) (r : RxFrame) : Bool := ready s && fresh s r

/-- The state after a request that changed nothing but the handler's own bookkeeping: a refusal, or a query (R189). -/
def unchanged (s : State) (r : RxFrame) (payload : List Byte) : State := answered s r s.blocks s.link.tally payload

/-! ### Invariants -/

/-- The records are numbered: at most 64, each numbered one more than the one before it, the newest one less than the next number
(R85, R89). -/
def QueueOk (q : Queue) : Prop :=
  q.records.length ≤ Config.queueCapacity ∧
    q.records.map Record.seq
      = (List.range q.records.length).map fun i => some (q.nextSeq - BitVec.ofNat 16 (q.records.length - i))

/-- The slots of the pool and of all chains, in one list. -/
def allSlots (b : Blocks) : List Nat := b.pool ++ allHandles.flatMap fun h => (b.chain h).members.map Member.slot

/-- Every slot from 0 to 511 is in the pool or a member of exactly one chain, once (R1), and a FREE entry holds nothing (R11). -/
structure SlotsOk (b : Blocks) : Prop where
  once : (allSlots b).Perm (List.range Config.slotCount)
  free : ∀ h, (b.chain h).state = .free → b.chain h = {}

/-- The request latch is set only while the waiter list is empty (R140). -/
def LatchOk (e : UnitEntry) : Prop := e.latch = true → e.waiters = []

/-- A window as UNIT SET admits it: a power of two from 4,096 to 1,048,576 bytes, at a multiple of its size, inside the 16 MiB of the
slot bus (R117, R124). -/
def WindowOk (w : Window) : Prop := isWindowSize w.size = true ∧ w.base % w.size = 0 ∧ w.base + w.size ≤ 16777216

/-- A unit that is ACTIVE or FENCED (R118). -/
def InUse (e : UnitEntry) : Prop := e.state = .active ∨ e.state = .fenced

/-- What R117, R118, R128 and R140 ask of a unit entry by its state. -/
structure UnitOk (e : UnitEntry) : Prop where
  seated : e.state = .empty ↔ e.presence = false
  enable : e.slotEnable = true ↔ InUse e
  configured : InUse e → e.window.isSome
  unconfigured : e.state = .empty → e.window = none
  window : ∀ w, e.window = some w → WindowOk w
  timeout : 1 ≤ e.timeout ∧ e.timeout ≤ 255
  latch : LatchOk e
  deactivation : e.deactPending = true → InUse e

/-- No two units in use have overlapping windows (R123). -/
def WindowsApart (b : Blocks) : Prop :=
  ∀ u v, u ≠ v → InUse (b.unit u) → InUse (b.unit v) → ∀ w x, (b.unit u).window = some w → (b.unit v).window = some x →
    w.base + w.size ≤ x.base ∨ x.base + x.size ≤ w.base

/-- The unit table's law while RESET_N is not low: every entry is as `UnitOk` asks. -/
def UnitsOk (s : State) : Prop := s.power ≠ .heldLow → ∀ u, UnitOk (s.blocks.unit u)

/-- A chain and the channel that runs it name each other, a chain is BOUND exactly when it names a channel, and a channel is IDLE exactly
when it names no chain; a continuation stands exactly in BLOCKED (R14, R25). -/
structure BoundOk (b : Blocks) : Prop where
  both : ∀ c h, (b.chan c).handle = some h ↔ (b.chain h).boundTo = some c
  bound : ∀ h, (b.chain h).state = .bound ↔ (b.chain h).boundTo.isSome
  idle : ∀ c, (b.chan c).state = .idle ↔ (b.chan c).handle = none
  blocked : ∀ c, (b.chan c).state = .blocked ↔ (b.chan c).continuation.isSome

/-- The bounds of the link: at most 4 frames in the receive queue, at most 4 replies in reply memory, no two of the same tag
(R174, R188). -/
def LinkOk (l : Link) : Prop :=
  l.rxQueue.length ≤ 4 ∧ l.replyMemory.length ≤ 4 ∧ (l.replyMemory.map ReplyEntry.tag).Nodup

end Sys2Proof.Safety
end

