-- ==== Sys2Proof/Certificates/Slice0/Obligations.lean ====
section
/-! DEFINITION. The statements for the provers. A request reaches a ready part (`Safety.taken`) as the good frame `requestFrame`; the
state it leaves is `answered`, `unchanged` (`answered` with the blocks as they were) or `deferring`, and O2 says what these are
field by field. An event leaves `endStep` of the state its rule gives, and O3 says what `endStep` does. -/

open Sys2Proof Sys2Proof.Machine Sys2Proof.Safety

/-! ### The machine's step -/

/-- A step takes the command at the front of the queue and executes it on the rest. -/
def Obligations.StepRunsFrontCommand : Prop :=
  ∀ (c : Instr) (rest : List Instr) (s : State), step { s with pending := c :: rest } = exec c { s with pending := rest }

/-- What `answered` and `deferring` are. Answered: the reply is stored as the newest entry of reply memory and is in the reply slot or on the
line, and the handler is SENDING. Deferring: the request is in progress with its reply to come. In both the blocks are those the request
left but for a notice taken by the idle line, and nothing else has changed but the receiver, which hunts. -/
def Obligations.RequestLeavesTheseStates : Prop :=
  ∀ (s : State) (r : RxFrame) (b : Blocks) (t : Tally) (payload : List Byte), ready s = true →
    let rest (a : State) : Prop :=
      a.mem = s.mem ∧ a.pendingReset = s.pendingReset ∧ a.power = s.power ∧ a.pending = s.pending ∧
      a.link.rxQueue = s.link.rxQueue ∧ a.link.receiver = .hunt ∧ a.link.silent = s.link.silent ∧
      a.link.baudCode = s.link.baudCode ∧
      { a.blocks with noticeSlot := none, notice := { a.blocks.notice with sender := .quiet } }
        = { b with noticeSlot := none, notice := { b.notice with sender := .quiet } }
    let reply : Frame := ⟨r.tag, replyKind r.kind, payload⟩
    (∃ a, answered s r b t payload = a ∧ rest a ∧ a.handler = .sending r ∧ a.link.tally = t ∧
      a.link.replyMemory = remember ⟨r.tag, r.kind, r.check, reply⟩ s.link.replyMemory ∧
      (a.link.replySlot = some reply ∨ a.link.line = .reply reply (b.now + lineTime s.link.baudCode reply))) ∧
    (∃ a, deferring s r b = a ∧ rest a ∧ a.handler = .deferred r ∧ a.link.tally = s.link.tally ∧
      a.link.replyMemory = s.link.replyMemory)

/-- What `endStep` does: it answers a request whose deferral has ended, lets a FREE handler take the oldest frame (from reply memory when an
entry matches), and leaves a state with nothing left to do as it is. At its end (log 31) an idle line takes a waiting frame: with one slot
filled that one, with none it stays idle; which of two frames placed together goes first is left open (log 8), and the other waits. A reply is
stored and placed in the reply slot; under silent reply it is stored alone, silent reply is cleared, and the handler is FREE in the same
step. The bytes of every reply whose deferral ends are given. -/
def Obligations.EndOfStepTakesWaitingFrames : Prop :=
  (∀ s, settled s = true → endStep s = s) ∧
    (∀ s, s.blocks.handover = none → s.link.rxQueue = [] → endStep s = settleLine s) ∧
    (∀ s r h, s.blocks.handover = some h → s.handler = .deferred r → s.link.silent = false →
      endStep s = settleLine (sendReply r (handoverReply s.blocks h) { s with blocks := { s.blocks with handover := none } })) ∧
    (∀ s r h, s.blocks.handover = some h → s.handler = .deferred r → s.link.silent = true →
      endStep s = endStep (sendReply r (handoverReply s.blocks h) { s with blocks := { s.blocks with handover := none } })) ∧
    (∀ s r rest e, s.blocks.handover = none → s.handler = .free → s.link.rxQueue = r :: rest →
      (s.link.replyMemory.find? fun x => x.tag == r.tag && x.kind == r.kind && x.check == r.check) = some e →
      endStep s = settleLine
        { s with
          link := { s.link with
            rxQueue := rest
            replySlot := some e.reply
            tally := { s.link.tally with replays := countUp s.link.tally.replays } }
          handler := .sending r }) ∧
    (∀ s r rest, s.blocks.handover = none → s.handler = .free → s.link.rxQueue = r :: rest → fresh s r = true →
      endStep s = settleLine (deliver (executeNew r { s with link := { s.link with rxQueue := rest } }))) ∧
  (∀ (s : State) (r : RxFrame) (payload : List Byte),
    let reply : Frame := ⟨r.tag, replyKind r.kind, payload⟩
    let memory := remember ⟨r.tag, r.kind, r.check, reply⟩ s.link.replyMemory
    (s.link.silent = false →
      sendReply r payload s
        = { s with link := { s.link with replyMemory := memory, replySlot := some reply }, handler := .sending r }) ∧
    (s.link.silent = true →
      sendReply r payload s = { s with link := { s.link with replyMemory := memory, silent := false }, handler := .free })) ∧
  (∀ b : Blocks,
    (∀ c, handoverReply b (.channel c)
      = [0x00, (b.chan c).state.code, match (b.chan c).continuation with | some k => k.code | none => 0xFF]) ∧
    (∀ u, handoverReply b (.unit false u) = [0x00, (b.unit u).state.code] ∧
      handoverReply b (.unit true u) = [0x0B, (b.unit u).state.code]) ∧
    (∀ payload, handoverReply b (.agent payload) = payload) ∧
    handoverReply b (.reset .work) = [0x00, 0x00] ++ beBytes 2 b.queue.nextSeq.toNat ∧
    handoverReply b (.reset .full) = [0x00, 0x01] ++ beBytes 2 b.queue.nextSeq.toNat) ∧
  (∀ s : State,
    (s.link.line ≠ .idle → settleLine s = s) ∧
    (s.link.replySlot = none → s.blocks.noticeSlot = none → settleLine s = s) ∧
    (∀ f, s.link.line = .idle → s.link.replySlot = some f → s.blocks.noticeSlot = none →
      settleLine s
        = { s with link := { s.link with replySlot := none, line := .reply f (s.blocks.now + lineTime s.link.baudCode f) } }) ∧
    (∀ f, s.link.line = .idle → s.link.replySlot = none → s.blocks.noticeSlot = some f →
      settleLine s
        = { s with
            blocks := { s.blocks with noticeSlot := none, notice := noticeOnLine s.blocks.notice }
            link := { s.link with line := .notice f (s.blocks.now + lineTime s.link.baudCode f) } }) ∧
    (∀ f g, s.link.line = .idle → s.link.replySlot = some f → s.blocks.noticeSlot = some g →
      settleLine s
          = { s with
              freeCount := s.freeCount + 1
              link := { s.link with replySlot := none, line := .reply f (s.blocks.now + lineTime s.link.baudCode f) } } ∨
        settleLine s
          = { s with
              freeCount := s.freeCount + 1
              blocks := { s.blocks with noticeSlot := none, notice := noticeOnLine s.blocks.notice }
              link := { s.link with line := .notice g (s.blocks.now + lineTime s.link.baudCode g) } }))

/-- Only the end of a buffer access that lies outside buffer memory stops the model; every other command, in every state, completes. -/
def Obligations.EveryOtherCommandCompletes : Prop :=
  ∀ (c : Instr) (s : State),
    (∃ t, exec c s = .next t) ∨
      (c = .bufferAccessEnd ∧ exec c s = .fault .bufferAddressAbsent ∧
        ∃ a, s.blocks.bufPort.inFlight = some a ∧ s.power = .running ∧ memorySize s.blocks.mszCode < a.addr + a.count)

/-! ### Device, link and notice requests -/

/-- HELLO and STATUS change nothing and reply the identification and the headline states, byte for byte. LINK TALLY replies the seven counts and, with clear flag 1, sets every counter to 0; NOTICE MASK stores the mask and takes what it
excludes out of the summary. Any other flag, a mask without RESET or with a reserved bit, is refused. -/
def Obligations.DeviceLinkAndMaskRequests : Prop :=
  (∀ (tag : Byte) (s : State),
    (taken s (requestFrame tag .hello []) = true →
      exec (.hello tag) s = .next (unchanged s (requestFrame tag .hello [])
        [0x00, 0x3A, 0x71, 0x46, 0x20, 0x01, 0x01, 0x02, 0x00, 32, 4, 64, 8, 8, s.blocks.mszCode.setWidth 8,
         s.link.baudCode.setWidth 8, s.blocks.resetCause.code])) ∧
    (taken s (requestFrame tag .status []) = true →
      exec (.status tag) s = .next (unchanged s (requestFrame tag .status [])
        ([0x00, (s.blocks.chan 0).state.code, (s.blocks.chan 1).state.code, (s.blocks.chan 2).state.code,
          (s.blocks.chan 3).state.code, byteOf s.blocks.queue.records.length]
         ++ beBytes 2 s.blocks.pool.length ++ [byteOf (allHandles.filter fun h => (s.blocks.chain h).state == .free).length]
         ++ [(s.blocks.unit 0).state.code, (s.blocks.unit 1).state.code, (s.blocks.unit 2).state.code,
             (s.blocks.unit 3).state.code, (s.blocks.unit 4).state.code, (s.blocks.unit 5).state.code,
             (s.blocks.unit 6).state.code, (s.blocks.unit 7).state.code]
         ++ beBytes 2 s.blocks.notice.summary.toNat
         ++ [s.blocks.notice.sender.code, flagByte s.blocks.guards.frozen, s.blocks.resetCause.code])))) ∧
  (∀ (tag clear : Byte) (s : State), taken s (requestFrame tag .linkTally [clear]) = true →
    let t := s.link.tally
    let reply := 0x00 :: (beBytes 2 t.lenErr ++ beBytes 2 t.gapErr ++ beBytes 2 t.checkErr ++ beBytes 2 t.overrun
      ++ beBytes 2 t.breaks ++ beBytes 2 t.replays ++ beBytes 2 t.staleAcks)
    exec (.linkTally tag clear) s = .next
      (if clear = 0 then unchanged s (requestFrame tag .linkTally [clear]) reply
       else if clear = 1 then answered s (requestFrame tag .linkTally [clear]) s.blocks {} reply
       else unchanged s (requestFrame tag .linkTally [clear]) [0x03, 0xFF])) ∧
  (∀ (tag : Byte) (mask : BitVec 16) (s : State), taken s (requestFrame tag .noticeMask (beBytes 2 mask.toNat)) = true →
    let n := s.blocks.notice
    let n' : NoticeUnit :=
      { n with
        mask := mask
        summary := n.summary &&& mask
        sender := match n.sender with | .awaiting f => .awaiting { f with later := f.later &&& mask } | x => x }
    exec (.noticeMask tag mask) s = .next
      (if mask.getLsbD 0 = true ∧ mask.toNat < 4096 then
         answered s (requestFrame tag .noticeMask (beBytes 2 mask.toNat)) { s.blocks with notice := n' } s.link.tally
           (0x00 :: (beBytes 2 mask.toNat ++ beBytes 2 (n.summary &&& mask).toNat))
       else unchanged s (requestFrame tag .noticeMask (beBytes 2 mask.toNat)) [0x03, 0xFF]))

/-- RESET takes effect at once when no access is in flight: every block takes its values (`resetBlocks`, O7), FULL also empties reply
memory and clears the tally, and the reply carries the next sequence number. With an access in flight both arbiters are barred and the
reset waits with its reply deferred. Another scope is refused. -/
def Obligations.ResetRequestTakesEffectOrWaits : Prop :=
  ∀ (tag scope : Byte) (s : State), taken s (requestFrame tag .reset [scope]) = true → s.pendingReset = none →
    let r := requestFrame tag .reset [scope]
    let after (x : Scope) : Blocks := { resetBlocks x s.blocks with handover := none }
    let barred : Blocks :=
      { s.blocks with
        bufPort := { s.blocks.bufPort with barred := true }
        slotPort := { s.blocks.slotPort with barred := true } }
    (scope = 0 → s.blocks.bufPort.inFlight = none → s.blocks.slotPort.inFlight = none →
      exec (.reset tag scope) s = .next (answered s r (after .work) s.link.tally (0x00 :: 0x00 :: beBytes 2 s.blocks.queue.nextSeq.toNat))) ∧
    (scope = 1 → s.blocks.bufPort.inFlight = none → s.blocks.slotPort.inFlight = none →
      exec (.reset tag scope) s
        = .next (answered { s with link := { s.link with replyMemory := [] } } r (after .full) {} [0x00, 0x01, 0x00, 0x00])) ∧
    (scope = 0 → s.blocks.bufPort.inFlight.isSome ∨ s.blocks.slotPort.inFlight.isSome →
      exec (.reset tag scope) s = .next (deferring { s with pendingReset := some .work } r barred)) ∧
    (scope = 1 → s.blocks.bufPort.inFlight.isSome ∨ s.blocks.slotPort.inFlight.isSome →
      exec (.reset tag scope) s = .next (deferring { s with pendingReset := some .full } r barred)) ∧
    (scope ≠ 0 → scope ≠ 1 → exec (.reset tag scope) s = .next (unchanged s r [0x03, 0xFF]))

/-- What a WORK or FULL reset leaves in every block, the notice in flight and its slot among them, and that it leaves buffer memory, line
rate, buffer memory size and presence alone; its reply is handed to the handler. -/
def Obligations.WorkAndFullResetValues : Prop :=
  ∀ (s : State) (x : Scope),
    let b := s.blocks
    let t := resetNow x s
    let b' := t.blocks
    t.mem = s.mem ∧ t.pendingReset = none ∧ t.handler = s.handler ∧ t.power = s.power ∧ t.pending = s.pending ∧
    t.link = (match x with | .work => s.link | .full => { s.link with replyMemory := [], tally := {} }) ∧
    b'.handover = some (.reset x) ∧
    (∀ h, b'.chain h = {}) ∧ b'.pool = List.range 512 ∧ (∀ c, b'.chan c = {}) ∧
    b'.queue.records = [] ∧ b'.queue.blocked = [] ∧ b'.queue.nextSeq = (match x with | .work => b.queue.nextSeq | .full => 0) ∧
    b'.bufPort = { lastGranted := b.bufPort.lastGranted } ∧ b'.slotPort = { lastGranted := b.slotPort.lastGranted } ∧
    (∀ u, (b'.unit u).presence = (b.unit u).presence ∧ (b'.unit u).latch = false ∧ (b'.unit u).waiters = [] ∧
      (b'.unit u).deactPending = false ∧ (b'.unit u).line = (b.unit u).line ∧ (b'.unit u).debounceDue = (b.unit u).debounceDue ∧
      (match x with
        | .work => (b'.unit u).state = (b.unit u).state ∧ (b'.unit u).window = (b.unit u).window ∧
          (b'.unit u).timeout = (b.unit u).timeout ∧ (b'.unit u).slotEnable = (b.unit u).slotEnable
        | .full => (b'.unit u).state = (if (b.unit u).presence then .present else .empty) ∧ (b'.unit u).window = none ∧
          (b'.unit u).timeout = 32 ∧ (b'.unit u).slotEnable = false)) ∧
    (match x with
      | .work => b'.guards = b.guards
      | .full => b'.guards.frozen = b.guards.frozen ∧ b'.guards.hits = Vector.replicate 8 0 ∧
        b'.guards.entries = (if b.guards.frozen then b.guards.entries else Vector.replicate 8 none)) ∧
    (match x with
      | .work => b'.noticeSlot = b.noticeSlot ∧
        b'.notice = { b.notice with
          summary := b.notice.summary &&& 0xFE01
          sender := match b.notice.sender with | .awaiting f => .awaiting { f with later := f.later &&& 0xFE01 } | y => y }
      | .full => b'.notice = { summary := 0, mask := 0x0FFF, sender := .quiet, tag := b.notice.tag } ∧
        (∀ f, b.notice.sender = .awaiting f → f.phase = .waiting → b'.noticeSlot = none) ∧
        ((∀ f, b.notice.sender = .awaiting f → f.phase ≠ .waiting) → b'.noticeSlot = b.noticeSlot)) ∧
    b'.resetCause = (match x with | .work => .work | .full => .full) ∧
    b'.mszCode = b.mszCode ∧ b'.now = b.now ∧ b'.agent = b.agent

/-- A kind that names no request is refused with UNKNOWN_KIND, a known kind with another payload length with BAD_LENGTH; a good frame
is answered from reply memory, without being executed, when an entry matches; and while a request is in progress it joins the receive
queue, or is discarded with OVERRUN counted and LINK raised when the queue holds four. In every state each request command is GOOD_FRAME
of its kind code and payload, so all this, and what O9 says of a MUTED sender, is said of every request (log 7). -/
def Obligations.FramesOfAnyKind : Prop :=
  (∀ (tag : Byte) (s : State),
    let is (i : Instr) (code : Byte) (payload : List Byte) : Prop := exec i s = exec (.goodFrame tag code payload) s
    let form (f : DescForm) : List Byte :=
      [f.kind, f.flags, f.src, f.dst] ++ beBytes 4 f.srcOff.toNat ++ beBytes 4 f.dstOff.toNat ++ beBytes 4 f.length.toNat
        ++ beBytes 4 f.operand.toNat
    is (.hello tag) 0x01 [] ∧ is (.status tag) 0x02 [] ∧ (∀ x, is (.reset tag x) 0x03 [x]) ∧
    (∀ x, is (.linkTally tag x) 0x04 [x]) ∧ (∀ mask, is (.noticeMask tag mask) 0x05 (beBytes 2 mask.toNat)) ∧
    (∀ x entries, is (.chainNew tag x entries) 0x10 (x :: entries.flatMap form)) ∧
    (∀ h entries, is (.chainAppend tag h entries) 0x11 (h :: entries.flatMap form)) ∧
    (∀ h, is (.chainClose tag h) 0x12 [h]) ∧ (∀ h, is (.chainDrop tag h) 0x13 [h]) ∧
    (∀ h n, is (.chainQuery tag h n) 0x14 (h :: beBytes 2 n.toNat)) ∧ (∀ n, is (.slotRead tag n) 0x15 (beBytes 2 n.toNat)) ∧
    (∀ c h, is (.channelStart tag c h) 0x20 [c, h]) ∧ (∀ c, is (.channelHold tag c) 0x21 [c]) ∧
    (∀ c, is (.channelResume tag c) 0x22 [c]) ∧ (∀ c, is (.channelStop tag c) 0x23 [c]) ∧
    (∀ c, is (.channelRetry tag c) 0x24 [c]) ∧ (∀ c, is (.channelSkip tag c) 0x25 [c]) ∧
    (∀ c, is (.channelClear tag c) 0x26 [c]) ∧ (∀ c, is (.channelQuery tag c) 0x27 [c]) ∧ (∀ n, is (.collect tag n) 0x2C [n]) ∧
    (∀ u base size t, is (.unitSet tag u base size t) 0x30 (u :: beBytes 3 base.toNat ++ beBytes 3 size.toNat ++ [t])) ∧
    (∀ u, is (.unitActivate tag u) 0x31 [u]) ∧ (∀ u f, is (.unitDeactivate tag u f) 0x32 [u, f]) ∧
    (∀ u, is (.unitQuery tag u) 0x33 [u]) ∧
    (∀ i e base limit m a,
      is (.guardSet tag i e base limit m a) 0x38 ([i, e] ++ beBytes 4 base.toNat ++ beBytes 4 limit.toNat ++ [m, a])) ∧
    is (.guardFreeze tag) 0x39 [] ∧ (∀ x, is (.guardQuery tag x) 0x3A [x]) ∧
    (∀ space offset n, is (.peek tag space offset n) 0x3C (space :: beBytes 4 offset.toNat ++ [n])) ∧
    (∀ space offset data, is (.poke tag space offset data) 0x3D (space :: beBytes 4 offset.toNat ++ data)) ∧
    (∀ kind payload, is (.unknownKind tag kind payload) kind payload)) ∧
  (∀ (tag kind : Byte) (payload : List Byte) (s : State), taken s (frameOf tag kind payload) = true → kind ≠ 0x40 →
    kind ∉ requestCodes →
    exec (.unknownKind tag kind payload) s = .next (unchanged s (frameOf tag kind payload) [0x01]) ∧
      exec (.goodFrame tag kind payload) s = .next (unchanged s (frameOf tag kind payload) [0x01])) ∧
  (∀ (tag : Byte) (k : RequestKind) (payload : List Byte) (s : State), taken s (requestFrame tag k payload) = true →
    k.lengthFits payload.length = false →
    exec (.goodFrame tag k.code payload) s = .next (unchanged s (requestFrame tag k payload) [0x02])) ∧
  (∀ (tag kind : Byte) (payload : List Byte) (s : State) (e : ReplyEntry), ready s = true → kind ≠ 0x40 →
    (s.link.replyMemory.find? fun x => x.tag == tag && x.kind == kind && x.check == frameCheck tag kind payload) = some e →
    exec (.goodFrame tag kind payload) s = .next (settleLine
      { s with
        link := { s.link with
          receiver := .hunt
          replySlot := some e.reply
          tally := { s.link.tally with replays := countUp s.link.tally.replays } }
        handler := .sending (frameOf tag kind payload) })) ∧
  (∀ (tag kind : Byte) (payload : List Byte) (s : State), s.power = .running → s.handler ≠ .free → settled s = true →
    s.blocks.notice.sender ≠ .muted → kind ≠ 0x40 →
    (s.link.rxQueue.length < 4 →
      exec (.goodFrame tag kind payload) s = .next
        { s with link := { s.link with receiver := .hunt, rxQueue := s.link.rxQueue ++ [frameOf tag kind payload] } }) ∧
    (4 ≤ s.link.rxQueue.length →
      exec (.goodFrame tag kind payload) s = .next (settleLine
        { s with
          link := { s.link with receiver := .hunt, tally := { s.link.tally with overrun := countUp s.link.tally.overrun } }
          blocks := raise .link s.blocks })))

/-- An ACK with the notice tag, taken in AWAITING, removes the snapshot's sources that were not raised again and gives the notice up, and a
new notice is built for what is left; any other ACK counts STALE_ACKS and changes nothing else. The payload is ignored. A good frame takes a
MUTED sender to QUIET, and a new notice names what the summary holds; an ACK does so too, and is stale, and so does a frame that finds
the receive queue full, which counts OVERRUN and raises LINK. -/
def Obligations.NoticeAckAndUnmuting : Prop :=
  ∀ (tag kind : Byte) (payload : List Byte) (s : State), s.power = .running →
    let stale : Link :=
      { s.link with receiver := .hunt, tally := { s.link.tally with staleAcks := countUp s.link.tally.staleAcks } }
    let unmuted := buildNotice { s.blocks with notice := { s.blocks.notice with sender := .quiet } }
    (∀ n, s.blocks.notice.sender = .awaiting n → tag = s.blocks.notice.tag →
      exec (.noticeAck tag payload) s = .next (endStep
        { s with
          link := { s.link with receiver := .hunt }
          blocks := buildNotice
            { s.blocks with
              notice := { s.blocks.notice with
                summary := s.blocks.notice.summary &&& ~~~(n.snapshot &&& ~~~n.later)
                sender := .quiet }
              noticeSlot := if n.phase = .waiting then none else s.blocks.noticeSlot } })) ∧
    (s.blocks.notice.sender = .quiet ∨ (∃ n, s.blocks.notice.sender = .awaiting n) ∧ tag ≠ s.blocks.notice.tag →
      exec (.noticeAck tag payload) s = .next (endStep { s with link := stale })) ∧
    (s.blocks.notice.sender = .muted →
      exec (.noticeAck tag payload) s = .next (endStep { s with blocks := unmuted, link := stale })) ∧
    (s.blocks.notice.sender = .muted → kind ≠ 0x40 → s.link.rxQueue.length < 4 →
      exec (.goodFrame tag kind payload) s = .next (endStep
        { s with
          blocks := unmuted
          link := { s.link with receiver := .hunt, rxQueue := s.link.rxQueue ++ [frameOf tag kind payload] } })) ∧
    (s.blocks.notice.sender = .muted → kind ≠ 0x40 → 4 ≤ s.link.rxQueue.length →
      exec (.goodFrame tag kind payload) s = .next (endStep
        { s with
          blocks := raise .link unmuted
          link := { s.link with receiver := .hunt, tally := { s.link.tally with overrun := countUp s.link.tally.overrun } } }))

/-! ### Chain requests -/

/-- CHAIN NEW: its checks in order, each refusal changing nothing, and the chain an accepted one builds in the lowest FREE entry from the
slots at the head of the pool. What static validation accepts, of CHAIN NEW and CHAIN APPEND alike: an entry that spells a record (kind,
flags, spaces, offsets, length and operand) which keeps the zero forms, the length and operand ranges and the range sums of its kind, and
of a COPY within buffer memory has ranges that share no byte; that record is stored. The first entry that fails gives the index. -/
def Obligations.ChainNewChecksThenBuilds : Prop :=
  (∀ (size : Nat) (f : DescForm) (d : Descriptor),
    let spells := f =
      { kind := match d.kind with | .copy => 0x01 | .fill => 0x02 | .check => 0x03 | .mark => 0x04 | .wait => 0x05
        flags := BitVec.ofNat 8 ((if d.record then 1 else 0) + (if d.haltAfter then 2 else 0) + (if d.cont then 4 else 0))
        src := match d.src with | .buf => 0x00 | .unit u => BitVec.ofNat 8 (16 + u.val)
        dst := match d.dst with | .buf => 0x00 | .unit u => BitVec.ofNat 8 (16 + u.val)
        srcOff := d.srcOff, dstOff := d.dstOff, length := d.length, operand := d.operand }
    let n := d.length.toNat
    let moved := 1 ≤ n ∧ n ≤ 16777216
    let fits (space : Space) (offset : Word) : Prop :=
      match space with
      | .buf => offset.toNat + n ≤ size
      | .unit _ => offset.toNat + n ≤ 1048576
    let noSource := d.src = .buf ∧ d.srcOff = 0
    let noDest := d.dst = .buf ∧ d.dstOff = 0
    let shareByte := ∃ x, d.srcOff.toNat ≤ x ∧ x < d.srcOff.toNat + n ∧ d.dstOff.toNat ≤ x ∧ x < d.dstOff.toNat + n
    let legal : Prop :=
      match d.kind with
      | .copy => moved ∧ d.operand = 0 ∧ fits d.src d.srcOff ∧ fits d.dst d.dstOff ∧ ¬ (d.src = .buf ∧ d.dst = .buf ∧ shareByte)
      | .fill => noSource ∧ moved ∧ fits d.dst d.dstOff
      | .check => noDest ∧ moved ∧ fits d.src d.srcOff
      | .mark => noSource ∧ n = 4 ∧ fits d.dst d.dstOff ∧ d.dstOff.toNat % 4 = 0
      | .wait => noDest ∧ (∃ u, d.src = .unit u) ∧ d.srcOff = 0 ∧ n = 0 ∧ d.operand.toNat ≤ 16777215
    validate size f = some d ↔ spells ∧ legal) ∧
  (∀ (size : Nat) (forms : List DescForm) (ds : List Descriptor),
    validateAll size 0 forms = .ok ds ↔ forms.map (validate size) = ds.map some) ∧
  (∀ (size : Nat) (forms : List DescForm) (i : Nat),
    validateAll size 0 forms = .error i ↔
      (∃ f, forms[i]? = some f ∧ validate size f = none) ∧ ∀ j f, j < i → forms[j]? = some f → validate size f ≠ none) ∧
  ∀ (tag openByte : Byte) (entries : List DescForm) (s : State), WellFormed (.chainNew tag openByte entries) = true →
    taken s (requestFrame tag .chainNew (formsPayload openByte entries)) = true →
    let r := requestFrame tag .chainNew (formsPayload openByte entries)
    let go := exec (.chainNew tag openByte entries) s
    let fieldsOk := openByte = 1 ∨ openByte = 0 ∧ entries ≠ []
    (¬ fieldsOk → go = .next (unchanged s r [0x03, 0xFF])) ∧
    (∀ i, fieldsOk → validateAll (memorySize s.blocks.mszCode) 0 entries = .error i → go = .next (unchanged s r [0x03, byteOf i])) ∧
    (∀ ds, fieldsOk → validateAll (memorySize s.blocks.mszCode) 0 entries = .ok ds → (∀ h, (s.blocks.chain h).state ≠ .free) →
      go = .next (unchanged s r [0x05])) ∧
    (∀ ds h, fieldsOk → validateAll (memorySize s.blocks.mszCode) 0 entries = .ok ds → (s.blocks.chain h).state = .free →
      (∀ k : Handle, k < h → (s.blocks.chain k).state ≠ .free) →
      (s.blocks.pool.length < ds.length → go = .next (unchanged s r (0x04 :: beBytes 2 s.blocks.pool.length))) ∧
      (ds.length ≤ s.blocks.pool.length →
        go = .next (answered s r
          { s.blocks with
            chains := s.blocks.chains.set h.val
              { state := .staged
                isOpen := openByte == 1
                members := (s.blocks.pool.zip ds).map fun x => ⟨x.1, x.2⟩
                boundTo := none }
            pool := s.blocks.pool.drop ds.length }
          s.link.tally
          ([0x00, byteOf h.val, byteOf ds.length] ++ (s.blocks.pool.take ds.length).flatMap (beBytes 2)))))

/-- CHAIN APPEND: its checks in order, each refusal changing nothing; the new slots of an accepted one follow the old tail; a bound channel
whose cursor is absent receives the first new slot, and a STARVED one takes the proceed step there. -/
def Obligations.ChainAppendChecksThenExtends : Prop :=
  ∀ (tag handle : Byte) (entries : List DescForm) (s : State), WellFormed (.chainAppend tag handle entries) = true →
    taken s (requestFrame tag .chainAppend (formsPayload handle entries)) = true →
    let r := requestFrame tag .chainAppend (formsPayload handle entries)
    let go := exec (.chainAppend tag handle entries) s
    (32 ≤ handle.toNat → go = .next (unchanged s r [0x06])) ∧
    ∀ h : Handle, handle.toNat = h.val →
      ((s.blocks.chain h).state = .free → go = .next (unchanged s r [0x06])) ∧
      ((s.blocks.chain h).state ≠ .free → (s.blocks.chain h).isOpen = false →
        go = .next (unchanged s r ([0x08, (s.blocks.chain h).state.code] ++ beBytes 2 (s.blocks.chain h).members.length))) ∧
      ((s.blocks.chain h).state ≠ .free → (s.blocks.chain h).isOpen = true →
        (∀ i, validateAll (memorySize s.blocks.mszCode) 0 entries = .error i → go = .next (unchanged s r [0x03, byteOf i])) ∧
        (∀ ds, validateAll (memorySize s.blocks.mszCode) 0 entries = .ok ds →
          (s.blocks.pool.length < ds.length → go = .next (unchanged s r (0x04 :: beBytes 2 s.blocks.pool.length))) ∧
          (ds.length ≤ s.blocks.pool.length →
            let members := (s.blocks.chain h).members ++ (s.blocks.pool.zip ds).map fun x => (⟨x.1, x.2⟩ : Member)
            let longer : Blocks :=
              { s.blocks with
                chains := s.blocks.chains.set h.val { s.blocks.chain h with members := members }
                pool := s.blocks.pool.drop ds.length }
            let slots := s.blocks.pool.take ds.length
            let reply := [0x00, byteOf h.val] ++ beBytes 2 members.length ++ [byteOf ds.length] ++ slots.flatMap (beBytes 2)
            let pointed (c : ChanId) := longer.updChan c fun ch => { ch with cursor := some (slots.headD 0) }
            ((s.blocks.chain h).boundTo = none → go = .next (answered s r longer s.link.tally reply)) ∧
            (∀ c, (s.blocks.chain h).boundTo = some c → (s.blocks.chan c).cursor.isSome →
              go = .next (answered s r longer s.link.tally reply)) ∧
            (∀ c, (s.blocks.chain h).boundTo = some c → (s.blocks.chan c).cursor = none → (s.blocks.chan c).state ≠ .starved →
              go = .next (answered s r (pointed c) s.link.tally reply)) ∧
            (∀ c, (s.blocks.chain h).boundTo = some c → (s.blocks.chan c).cursor = none → (s.blocks.chan c).state = .starved →
              go = .next (answered s r (settle (proceed c (pointed c))) s.link.tally reply)))))

/-- CHAIN CLOSE clears the open flag, and a STARVED channel takes the proceed step again; CHAIN DROP returns the chain's slots to the pool's
tail in chain order and frees the entry, unless the chain is BOUND. A handle out of range or FREE is refused. -/
def Obligations.ChainCloseAndDrop : Prop :=
  ∀ (tag handle : Byte) (s : State),
    (taken s (requestFrame tag .chainClose [handle]) = true →
      let r := requestFrame tag .chainClose [handle]
      let go := exec (.chainClose tag handle) s
      (32 ≤ handle.toNat → go = .next (unchanged s r [0x06])) ∧
      ∀ h : Handle, handle.toNat = h.val →
        let closed := s.blocks.updChain h fun x => { x with isOpen := false }
        let reply (b : Blocks) := [0x00, (b.chain h).state.code] ++ beBytes 2 (b.chain h).members.length
        ((s.blocks.chain h).state = .free → go = .next (unchanged s r [0x06])) ∧
        ((s.blocks.chain h).state ≠ .free →
          (∀ c, (s.blocks.chain h).boundTo = some c → (s.blocks.chan c).state ≠ .starved) →
          go = .next (answered s r closed s.link.tally (reply closed))) ∧
        (∀ c, (s.blocks.chain h).state ≠ .free → (s.blocks.chain h).boundTo = some c → (s.blocks.chan c).state = .starved →
          go = .next (answered s r (settle (proceed c closed)) s.link.tally (reply (settle (proceed c closed)))))) ∧
    (taken s (requestFrame tag .chainDrop [handle]) = true →
      let r := requestFrame tag .chainDrop [handle]
      let go := exec (.chainDrop tag handle) s
      (32 ≤ handle.toNat → go = .next (unchanged s r [0x06])) ∧
      ∀ h : Handle, handle.toNat = h.val →
        let x := s.blocks.chain h
        (x.state = .free → go = .next (unchanged s r [0x06])) ∧
        (x.state = .bound → go = .next (unchanged s r ([0x07, 0x02] ++ beBytes 2 x.members.length))) ∧
        (x.state = .staged ∨ x.state = .spent →
          go = .next (answered s r
            { s.blocks with chains := s.blocks.chains.set h.val {}, pool := s.blocks.pool ++ x.members.map Member.slot }
            s.link.tally
            (0x00 :: (beBytes 2 x.members.length ++ beBytes 2 (s.blocks.pool.length + x.members.length))))))

/-- CHAIN QUERY and SLOT READ change nothing, and reply the chain entry with up to 100 slot numbers, and the slot's membership with its
record. -/
def Obligations.ChainQueryAndSlotReadReply : Prop :=
  ∀ (tag : Byte) (s : State),
    (∀ (handle : Byte) (start : BitVec 16), taken s (requestFrame tag .chainQuery (handle :: beBytes 2 start.toNat)) = true →
      let r := requestFrame tag .chainQuery (handle :: beBytes 2 start.toNat)
      (32 ≤ handle.toNat → exec (.chainQuery tag handle start) s = .next (unchanged s r [0x06])) ∧
      ∀ h : Handle, handle.toNat = h.val →
        let x := s.blocks.chain h
        let slots := x.members.map Member.slot
        let listed := (slots.drop start.toNat).take 100
        exec (.chainQuery tag handle start) s = .next (unchanged s r
          ([0x00, handle, x.state.code, flagByte x.isOpen] ++ beBytes 2 slots.length
            ++ (match slots.head? with | some n => beBytes 2 n | none => [0xFF, 0xFF])
            ++ (match slots.getLast? with | some n => beBytes 2 n | none => [0xFF, 0xFF])
            ++ [match x.boundTo with | some c => byteOf c.val | none => 0xFF]
            ++ [byteOf listed.length] ++ listed.flatMap (beBytes 2)))) ∧
    (∀ slot : BitVec 16, taken s (requestFrame tag .slotRead (beBytes 2 slot.toNat)) = true →
      let r := requestFrame tag .slotRead (beBytes 2 slot.toNat)
      let go := exec (.slotRead tag slot) s
      (512 ≤ slot.toNat → go = .next (unchanged s r [0x03, 0xFF])) ∧
      (slot.toNat < 512 → (∀ h, ∀ m ∈ (s.blocks.chain h).members, m.slot ≠ slot.toNat) →
        go = .next (unchanged s r [0x00, 0x00, 0xFF, 0xFF, 0xFF])) ∧
      (∀ (h : Handle) (before after : List Member) (m : Member), slot.toNat < 512 →
        (s.blocks.chain h).members = before ++ m :: after → m.slot = slot.toNat → (∀ x ∈ before, x.slot ≠ slot.toNat) →
        (∀ k : Handle, k < h → ∀ x ∈ (s.blocks.chain k).members, x.slot ≠ slot.toNat) →
        go = .next (unchanged s r
          ([0x00, 0x01, byteOf h.val] ++ beBytes 2 before.length ++ [m.desc.kind.code, m.desc.flags, m.desc.src.code, m.desc.dst.code]
            ++ beBytes 4 m.desc.srcOff.toNat ++ beBytes 4 m.desc.dstOff.toNat ++ beBytes 4 m.desc.length.toNat
            ++ beBytes 4 m.desc.operand.toNat))))

/-! ### Channel requests -/

/-- A channel number of 4 or more is refused with BAD_FIELD by every channel request, with no change. -/
def Obligations.ChannelNumberTooLarge : Prop :=
  ∀ (tag channel handle : Byte) (s : State), 4 ≤ channel.toNat →
    (taken s (requestFrame tag .channelStart [channel, handle]) = true →
      exec (.channelStart tag channel handle) s = .next (unchanged s (requestFrame tag .channelStart [channel, handle]) [0x03, 0xFF])) ∧
    (taken s (requestFrame tag .channelHold [channel]) = true →
      exec (.channelHold tag channel) s = .next (unchanged s (requestFrame tag .channelHold [channel]) [0x03, 0xFF])) ∧
    (taken s (requestFrame tag .channelResume [channel]) = true →
      exec (.channelResume tag channel) s = .next (unchanged s (requestFrame tag .channelResume [channel]) [0x03, 0xFF])) ∧
    (taken s (requestFrame tag .channelStop [channel]) = true →
      exec (.channelStop tag channel) s = .next (unchanged s (requestFrame tag .channelStop [channel]) [0x03, 0xFF])) ∧
    (taken s (requestFrame tag .channelRetry [channel]) = true →
      exec (.channelRetry tag channel) s = .next (unchanged s (requestFrame tag .channelRetry [channel]) [0x03, 0xFF])) ∧
    (taken s (requestFrame tag .channelSkip [channel]) = true →
      exec (.channelSkip tag channel) s = .next (unchanged s (requestFrame tag .channelSkip [channel]) [0x03, 0xFF])) ∧
    (taken s (requestFrame tag .channelClear [channel]) = true →
      exec (.channelClear tag channel) s = .next (unchanged s (requestFrame tag .channelClear [channel]) [0x03, 0xFF])) ∧
    (taken s (requestFrame tag .channelQuery [channel]) = true →
      exec (.channelQuery tag channel) s = .next (unchanged s (requestFrame tag .channelQuery [channel]) [0x03, 0xFF]))

/-- CHANNEL START: its refusals in order, with the unchanged state; accepted, the chain is BOUND to the channel, the channel stands at the
chain's head with its IDLE values, the proceed step follows (O47), and the arbiters take the requests raised. -/
def Obligations.ChannelStartChecksThenBinds : Prop :=
  ∀ (tag channel handle : Byte) (c : ChanId) (s : State), channel.toNat = c.val →
    taken s (requestFrame tag .channelStart [channel, handle]) = true →
    let r := requestFrame tag .channelStart [channel, handle]
    let go := exec (.channelStart tag channel handle) s
    let state (b : Blocks) := [(b.chan c).state.code, ((b.chan c).continuation.map Continuation.code).getD 0xFF]
    (32 ≤ handle.toNat → go = .next (unchanged s r (0x06 :: state s.blocks))) ∧
    ∀ h : Handle, handle.toNat = h.val →
      ((s.blocks.chain h).state = .free → go = .next (unchanged s r (0x06 :: state s.blocks))) ∧
      ((s.blocks.chain h).state ≠ .free → (s.blocks.chan c).state ≠ .idle → go = .next (unchanged s r (0x09 :: state s.blocks))) ∧
      ((s.blocks.chain h).state = .bound → (s.blocks.chan c).state = .idle → go = .next (unchanged s r (0x07 :: state s.blocks))) ∧
      ((s.blocks.chain h).state = .staged ∨ (s.blocks.chain h).state = .spent → (s.blocks.chan c).state = .idle →
        let bound : Blocks :=
          { s.blocks with
            chains := s.blocks.chains.set h.val { s.blocks.chain h with state := .bound, boundTo := some c }
            chans := s.blocks.chans.set c.val
              { handle := some h, cursor := ((s.blocks.chain h).members.head?).map Member.slot } }
        let b := settle (proceed c bound)
        go = .next (answered s r b s.link.tally (0x00 :: state b)))

/-- CHANNEL HOLD in a state where the channel stops at once: RUNNING awaiting a grant gives its request and staged bytes up, PENDING leaves
the waiter list, STARVED stays where it is; the channel is HELD and HELD is raised. With an access in flight it is deferred. -/
def Obligations.HoldStopsWaitingChannel : Prop :=
  ∀ (tag channel : Byte) (c : ChanId) (s : State), channel.toNat = c.val →
    taken s (requestFrame tag .channelHold [channel]) = true → rested s.blocks = true →
    let r := requestFrame tag .channelHold [channel]
    let go := exec (.channelHold tag channel) s
    let held (b : Blocks) := raise .held (b.updChan c fun ch => { ch with state := .held, continuation := none })
    ((s.blocks.chan c).state = .running → s.blocks.bufPort.owner ≠ some (.chan c) → s.blocks.slotPort.owner ≠ some (.chan c) →
      go = .next (answered s r
        (held ({ s.blocks with
          bufPort := { s.blocks.bufPort with requests := s.blocks.bufPort.requests.filter fun x => x != Requester.chan c }
          slotPort := { s.blocks.slotPort with requests := s.blocks.slotPort.requests.filter fun x => x != Requester.chan c } }.updChan c
            fun ch => { ch with staging := [] }))
        s.link.tally [0x00, 0x04, 0xFF])) ∧
    ((s.blocks.chan c).state = .running → s.blocks.bufPort.owner = some (.chan c) ∨ s.blocks.slotPort.owner = some (.chan c) →
      go = .next (deferring s r (s.blocks.updChan c fun ch => { ch with holdRequested := true }))) ∧
    (∀ d u, (s.blocks.chan c).state = .pending → s.blocks.current c = some d → d.src = .unit u →
      go = .next (answered s r
        (held ((s.blocks.updUnit u fun e => { e with waiters := e.waiters.filter (· != c) }).updChan c
          fun ch => { ch with deadline := none, started := false }))
        s.link.tally [0x00, 0x04, 0xFF])) ∧
    ((s.blocks.chan c).state = .starved → go = .next (answered s r (held s.blocks) s.link.tally [0x00, 0x04, 0xFF]))

/-- CHANNEL HOLD in the remaining states acts as the table of R44 says. -/
def Obligations.HoldInRemainingStates : Prop :=
  ∀ (tag channel : Byte) (c : ChanId) (s : State), channel.toNat = c.val →
    taken s (requestFrame tag .channelHold [channel]) = true → rested s.blocks = true →
    let r := requestFrame tag .channelHold [channel]
    let go := exec (.channelHold tag channel) s
    ((s.blocks.chan c).state = .blocked → (s.blocks.chan c).continuation = some .proceed →
      go = .next (answered s r (s.blocks.updChan c fun ch => { ch with continuation := some .held }) s.link.tally [0x00, 0x05, 0x02])) ∧
    ((s.blocks.chan c).state = .blocked → (s.blocks.chan c).continuation = some .held →
      go = .next (unchanged s r [0x00, 0x05, 0x02])) ∧
    ((s.blocks.chan c).state = .blocked → (s.blocks.chan c).continuation = some .faulted →
      go = .next (unchanged s r [0x0A, 0x05, 0x03])) ∧
    ((s.blocks.chan c).state = .blocked → (s.blocks.chan c).continuation = some .idle →
      go = .next (unchanged s r [0x0A, 0x05, 0x04])) ∧
    ((s.blocks.chan c).state = .held → (s.blocks.chan c).continuation = none → go = .next (unchanged s r [0x00, 0x04, 0xFF])) ∧
    ((s.blocks.chan c).state = .idle → (s.blocks.chan c).continuation = none → go = .next (unchanged s r [0x0A, 0x00, 0xFF])) ∧
    ((s.blocks.chan c).state = .faulted → (s.blocks.chan c).continuation = none → go = .next (unchanged s r [0x0A, 0x06, 0xFF])) ∧
    (∀ b : Blocks, (b.chan c).state = .blocked → (b.chan c).continuation = some .held →
      (actOnContinuation c b) = enterHeld c { b with queue := { b.queue with blocked := b.queue.blocked.filter (· != c) } })

/-- CHANNEL RESUME of a HELD channel goes on from its place: the next access of a started descriptor is requested, a descriptor not started
takes the proceed step, and so does a channel past the tail. -/
def Obligations.ResumeGoesOnFromPlaceHeld : Prop :=
  ∀ (tag channel : Byte) (c : ChanId) (s : State), channel.toNat = c.val →
    taken s (requestFrame tag .channelResume [channel]) = true → (s.blocks.chan c).state = .held →
    let r := requestFrame tag .channelResume [channel]
    let go := exec (.channelResume tag channel) s
    let state (b : Blocks) := [(b.chan c).state.code, ((b.chan c).continuation.map Continuation.code).getD 0xFF]
    ((s.blocks.chan c).cursor.isSome → (s.blocks.chan c).started = true →
      let b := settle (request (.chan c) (s.blocks.updChan c fun ch => { ch with state := .running }))
      go = .next (answered s r b s.link.tally (0x00 :: state b))) ∧
    ((s.blocks.chan c).cursor = none ∨ (s.blocks.chan c).started = false →
      let b := settle (proceed c s.blocks)
      go = .next (answered s r b s.link.tally (0x00 :: state b)))

/-- CHANNEL RESUME of a channel BLOCKED with continuation HELD turns it to PROCEED, with which the proceed step is taken when the outbox has
drained; in every other state and continuation RESUME is refused with no change. -/
def Obligations.ResumeOfBlockedChannel : Prop :=
  ∀ (tag channel : Byte) (c : ChanId) (s : State), channel.toNat = c.val →
    taken s (requestFrame tag .channelResume [channel]) = true → rested s.blocks = true →
    let r := requestFrame tag .channelResume [channel]
    let go := exec (.channelResume tag channel) s
    ((s.blocks.chan c).state = .blocked → (s.blocks.chan c).continuation = some .held →
      go = .next (answered s r (s.blocks.updChan c fun ch => { ch with continuation := some .proceed }) s.link.tally
        [0x00, 0x05, 0x01])) ∧
    (∀ k, (s.blocks.chan c).state = .blocked → (s.blocks.chan c).continuation = some k → k ≠ .held →
      go = .next (unchanged s r [0x0A, 0x05, k.code])) ∧
    ((s.blocks.chan c).state ≠ .blocked → (s.blocks.chan c).state ≠ .held → (s.blocks.chan c).continuation = none →
      go = .next (unchanged s r [0x0A, (s.blocks.chan c).state.code, 0xFF])) ∧
    (∀ b : Blocks, (b.chan c).state = .blocked → (b.chan c).continuation = some .proceed →
      actOnContinuation c b = proceed c { b with queue := { b.queue with blocked := b.queue.blocked.filter (· != c) } })

/-- CHANNEL STOP of a channel that is not BLOCKED: refused in IDLE, deferred with an access in flight, and in every other state the claim or
the place on the waiter list is given up and a STOPPED record with the cursor slot and bytes done enters the outbox, with which the
channel goes to IDLE (`stopRun`, O50). -/
def Obligations.StopEndsRun : Prop :=
  ∀ (tag channel : Byte) (c : ChanId) (s : State), channel.toNat = c.val →
    taken s (requestFrame tag .channelStop [channel]) = true → rested s.blocks = true →
    let r := requestFrame tag .channelStop [channel]
    let go := exec (.channelStop tag channel) s
    let ch := s.blocks.chan c
    let state (b : Blocks) := [(b.chan c).state.code, ((b.chan c).continuation.map Continuation.code).getD 0xFF]
    let stopped (b : Blocks) := go = .next (answered s r (stopRun c b) s.link.tally (0x00 :: state (stopRun c b)))
    (ch.state = .idle → go = .next (unchanged s r (0x0A :: state s.blocks))) ∧
    (ch.state = .running → s.blocks.bufPort.owner = some (.chan c) ∨ s.blocks.slotPort.owner = some (.chan c) →
      go = .next (deferring s r (s.blocks.updChan c fun x => { x with stopRequested := true }))) ∧
    (ch.state = .running → s.blocks.bufPort.owner ≠ some (.chan c) → s.blocks.slotPort.owner ≠ some (.chan c) →
      stopped
        { s.blocks with
          bufPort := { s.blocks.bufPort with requests := s.blocks.bufPort.requests.filter fun x => x != Requester.chan c }
          slotPort := { s.blocks.slotPort with requests := s.blocks.slotPort.requests.filter fun x => x != Requester.chan c } }) ∧
    (∀ d u, ch.state = .pending → s.blocks.current c = some d → d.src = .unit u →
      stopped ((s.blocks.updUnit u fun e => { e with waiters := e.waiters.filter (· != c) }).updChan c
        fun x => { x with deadline := none })) ∧
    (ch.state = .starved ∨ ch.state = .held ∨ ch.state = .faulted → stopped s.blocks)

/-- CHANNEL STOP of a BLOCKED channel answers at once: STOPPED is appended behind the record that waits and the continuation becomes IDLE; a
channel that is BLOCKED with continuation IDLE already is not changed. -/
def Obligations.StopOfBlockedChannel : Prop :=
  ∀ (tag channel : Byte) (c : ChanId) (s : State), channel.toNat = c.val →
    taken s (requestFrame tag .channelStop [channel]) = true → rested s.blocks = true → (s.blocks.chan c).state = .blocked →
    let r := requestFrame tag .channelStop [channel]
    let go := exec (.channelStop tag channel) s
    let ch := s.blocks.chan c
    (ch.continuation = some .proceed ∨ ch.continuation = some .held ∨ ch.continuation = some .faulted →
      go = .next (answered s r
        (s.blocks.updChan c fun x =>
          { x with
            outbox := x.outbox
              ++ [{ kind := .stopped, channel := c, handle := x.handle, slot := x.cursor, amount := x.bytesDone }]
            continuation := some .idle
            fault := none })
        s.link.tally [0x00, 0x05, 0x04])) ∧
    (ch.continuation = some .idle → go = .next (unchanged s r [0x00, 0x05, 0x04]))

/-- CHANNEL RETRY and SKIP of a FAULTED channel: the descriptor is begun afresh by the proceed step; the cursor moves past it and the
proceed step follows. In any other state each is refused with no change. -/
def Obligations.RetryAndSkipOfFaultedChannel : Prop :=
  ∀ (tag channel : Byte) (c : ChanId) (s : State), channel.toNat = c.val →
    let ch := s.blocks.chan c
    let state (b : Blocks) := [(b.chan c).state.code, ((b.chan c).continuation.map Continuation.code).getD 0xFF]
    let retried := settle (proceed c (s.blocks.updChan c fun x => { x with fault := none, bytesDone := 0, started := false, crc := none }))
    let rest := (s.blocks.ahead c).drop 1
    let skipped := settle (run c rest (s.blocks.updChan c fun x =>
      { x with
        fault := none
        cursor := rest.head?.map Member.slot
        bytesDone := 0
        started := false
        crc := none
        deadline := none
        staging := [] }))
    (taken s (requestFrame tag .channelRetry [channel]) = true →
      (ch.state = .faulted → exec (.channelRetry tag channel) s
        = .next (answered s (requestFrame tag .channelRetry [channel]) retried s.link.tally (0x00 :: state retried))) ∧
      (ch.state ≠ .faulted → exec (.channelRetry tag channel) s
        = .next (unchanged s (requestFrame tag .channelRetry [channel]) (0x0A :: state s.blocks)))) ∧
    (taken s (requestFrame tag .channelSkip [channel]) = true →
      (ch.state = .faulted → exec (.channelSkip tag channel) s
        = .next (answered s (requestFrame tag .channelSkip [channel]) skipped s.link.tally (0x00 :: state skipped))) ∧
      (ch.state ≠ .faulted → exec (.channelSkip tag channel) s
        = .next (unchanged s (requestFrame tag .channelSkip [channel]) (0x0A :: state s.blocks))))

/-- CHANNEL CLEAR of a FAULTED channel returns it to IDLE at once with its IDLE values, makes no record, and leaves its chain SPENT; in any
other state it is refused with no change. -/
def Obligations.ClearReturnsFaultedChannelToIdle : Prop :=
  ∀ (tag channel : Byte) (c : ChanId) (s : State), channel.toNat = c.val → rested s.blocks = true →
    taken s (requestFrame tag .channelClear [channel]) = true →
    (∀ h, (s.blocks.chan c).state = .faulted → (s.blocks.chan c).handle = some h →
      exec (.channelClear tag channel) s = .next (answered s (requestFrame tag .channelClear [channel])
        { s.blocks with
          chains := s.blocks.chains.set h.val { s.blocks.chain h with state := .spent, boundTo := none }
          chans := s.blocks.chans.set c.val {} }
        s.link.tally [0x00, 0x00, 0xFF])) ∧
    ((s.blocks.chan c).state ≠ .faulted →
      exec (.channelClear tag channel) s = .next (unchanged s (requestFrame tag .channelClear [channel])
        [0x0A, (s.blocks.chan c).state.code, ((s.blocks.chan c).continuation.map Continuation.code).getD 0xFF]))

/-- COLLECT removes the k oldest records, k the lesser of max and the depth, and replies them oldest first with the depth at the end of the
step; when it has removed any, the blocked posters are served. A max of 0 or above 12 is refused. Each record takes the 18 bytes of its
kind, with the presence mask of its fields and 0 for those that are absent. -/
def Obligations.CollectRemovesOldestRecords : Prop :=
  (∀ (n : BitVec 16) (c : ChanId) (h : Handle) (slot amount : Nat) (v : Word) (f : FaultInfo),
    let head (kind mask : Byte) : List Byte := beBytes 2 n.toNat ++ [kind, byteOf c.val, byteOf h.val, mask]
    let x : Record := { seq := some n, kind := .done, channel := c, handle := some h, amount := amount }
    Record.bytes { x with slot := some slot }
      = head 0x01 0x01 ++ beBytes 2 slot ++ [0, 0] ++ beBytes 4 amount ++ [0, 0, 0, 0] ∧
    Record.bytes { x with slot := some slot, check := some v }
      = head 0x01 0x09 ++ beBytes 2 slot ++ [0, 0] ++ beBytes 4 amount ++ beBytes 4 v.toNat ∧
    Record.bytes { x with kind := .runEnd }
      = head 0x02 0x00 ++ [0, 0] ++ [0, 0] ++ beBytes 4 amount ++ [0, 0, 0, 0] ∧
    Record.bytes { x with kind := .fault, slot := some slot, fault := some f }
      = head 0x03 0x07 ++ beBytes 2 slot ++ [f.code.code, byteOf f.detail.val] ++ beBytes 4 amount ++ [0, 0, 0, 0] ∧
    Record.bytes { x with kind := .stopped, slot := some slot }
      = head 0x04 0x01 ++ beBytes 2 slot ++ [0, 0] ++ beBytes 4 amount ++ [0, 0, 0, 0] ∧
    Record.bytes { x with kind := .stopped }
      = head 0x04 0x00 ++ [0, 0] ++ [0, 0] ++ beBytes 4 amount ++ [0, 0, 0, 0]) ∧
  (∀ x : Record, x.bytes.length = 18) ∧
  ∀ (tag max : Byte) (s : State), taken s (requestFrame tag .collect [max]) = true →
    let r := requestFrame tag .collect [max]
    let go := exec (.collect tag max) s
    let taken := s.blocks.queue.records.take max.toNat
    let fewer : Blocks := { s.blocks with queue := { s.blocks.queue with records := s.blocks.queue.records.drop max.toNat } }
    let reply (b : Blocks) := [0x00, byteOf taken.length, byteOf b.queue.records.length] ++ taken.flatMap Record.bytes
    (max = 0 ∨ 12 < max.toNat → go = .next (unchanged s r [0x03, 0xFF])) ∧
    (1 ≤ max.toNat → max.toNat ≤ 12 → s.blocks.queue.records = [] → go = .next (unchanged s r [0x00, 0x00, 0x00])) ∧
    (1 ≤ max.toNat → max.toNat ≤ 12 → s.blocks.queue.records ≠ [] →
      go = .next (answered s r (serve s.blocks.queue.blocked fewer) s.link.tally (reply (serve s.blocks.queue.blocked fewer))))

/-! ### Unit requests -/

/-- UNIT SET: its checks in order, each refusal changing nothing; an accepted one stores window and timeout and leaves the rest of the entry
and every other entry as they were. -/
def Obligations.UnitSetChecksThenStores : Prop :=
  ∀ (tag unit : Byte) (base size : BitVec 24) (timeout : Byte) (s : State),
    let payload := unit :: beBytes 3 base.toNat ++ beBytes 3 size.toNat ++ [timeout]
    taken s (requestFrame tag .unitSet payload) = true →
    let r := requestFrame tag .unitSet payload
    let go := exec (.unitSet tag unit base size timeout) s
    (8 ≤ unit.toNat → go = .next (unchanged s r [0x03, 0xFF])) ∧
    ∀ u : UnitId, unit.toNat = u.val →
      let e := s.blocks.unit u
      let fieldsOk := isWindowSize size.toNat = true ∧ base.toNat % size.toNat = 0 ∧ base.toNat + size.toNat ≤ 16777216 ∧ timeout ≠ 0
      let overlap := ∃ v w, v ≠ u ∧ InUse (s.blocks.unit v) ∧ (s.blocks.unit v).window = some w ∧
        base.toNat < w.base + w.size ∧ w.base < base.toNat + size.toNat
      (e.state = .empty ∨ e.state = .active → go = .next (unchanged s r [0x0B, e.state.code])) ∧
      (e.state = .present ∨ e.state = .fenced → ¬ fieldsOk → go = .next (unchanged s r [0x03, 0xFF])) ∧
      (e.state = .fenced → fieldsOk → overlap → go = .next (unchanged s r [0x0D, 0x03])) ∧
      (e.state = .present ∨ (e.state = .fenced ∧ ¬ overlap) → fieldsOk →
        go = .next (answered s r
          { s.blocks with
            units := s.blocks.units.set u.val { e with window := some ⟨base.toNat, size.toNat⟩, timeout := timeout.toNat } }
          s.link.tally [0x00, e.state.code]))

/-- UNIT ACTIVATE: the checks in order, and the two accepted transitions: from PRESENT the slot enable is driven and the latch cleared, from
FENCED only the state changes. -/
def Obligations.UnitActivateChecksThenEnters : Prop :=
  ∀ (tag unit : Byte) (s : State), taken s (requestFrame tag .unitActivate [unit]) = true →
    let r := requestFrame tag .unitActivate [unit]
    let go := exec (.unitActivate tag unit) s
    (8 ≤ unit.toNat → go = .next (unchanged s r [0x03, 0xFF])) ∧
    ∀ u : UnitId, unit.toNat = u.val →
      let e := s.blocks.unit u
      let becomes (e' : UnitEntry) := go = .next (answered s r { s.blocks with units := s.blocks.units.set u.val e' } s.link.tally [0x00, 0x02])
      let overlap (w : Window) := ∃ v x, v ≠ u ∧ InUse (s.blocks.unit v) ∧ (s.blocks.unit v).window = some x ∧
        w.base < x.base + x.size ∧ x.base < w.base + w.size
      (e.state = .empty → go = .next (unchanged s r [0x0B, 0x00])) ∧
      (e.state = .active → go = .next (unchanged s r [0x00, 0x02])) ∧
      (e.state = .fenced → becomes { e with state := .active }) ∧
      (e.state = .present → e.window = none → go = .next (unchanged s r [0x0C, 0x01])) ∧
      (∀ w, e.state = .present → e.window = some w → overlap w → go = .next (unchanged s r [0x0D, 0x01])) ∧
      (∀ w, e.state = .present → e.window = some w → ¬ overlap w →
        becomes { e with state := .active, slotEnable := true, latch := false })

/-- UNIT DEACTIVATE: the checks in order; an accepted one takes the unit to PRESENT with enable released and latch clear, and with force the
waiters fault UNIT_STATE in list order; with force during an access to the unit it is deferred. -/
def Obligations.UnitDeactivateChecksThenReleases : Prop :=
  ∀ (tag unit force : Byte) (s : State), taken s (requestFrame tag .unitDeactivate [unit, force]) = true →
    let r := requestFrame tag .unitDeactivate [unit, force]
    let go := exec (.unitDeactivate tag unit force) s
    (8 ≤ unit.toNat ∨ force ≠ 0 ∧ force ≠ 1 → go = .next (unchanged s r [0x03, 0xFF])) ∧
    ∀ u : UnitId, unit.toNat = u.val → force = 0 ∨ force = 1 →
      let e := s.blocks.unit u
      let inUse := ∃ c d, (s.blocks.chan c).state ≠ .idle ∧ s.blocks.current c = some d ∧ (d.src = .unit u ∨ d.dst = .unit u)
      let accessed := ∃ a t, s.blocks.slotPort.inFlight = some a ∧ a.card = some t ∧ t.unit = u
      let released : Blocks :=
        { s.blocks with
          units := s.blocks.units.set u.val { e with state := .present, slotEnable := false, latch := false, deactPending := false } }
      (e.state = .empty → go = .next (unchanged s r [0x0B, 0x00])) ∧
      (e.state = .present → go = .next (unchanged s r [0x00, 0x01])) ∧
      (InUse e → force = 0 → inUse → go = .next (unchanged s r [0x0E, e.state.code])) ∧
      (InUse e → force = 0 → ¬ inUse → go = .next (answered s r released s.link.tally [0x00, 0x01])) ∧
      (InUse e → force = 1 → accessed →
        go = .next (deferring s r { s.blocks with units := s.blocks.units.set u.val { e with deactPending := true } })) ∧
      (InUse e → force = 1 → ¬ accessed →
        let emptied := released.updUnit u fun x => { x with waiters := [] }
        go = .next (answered s r
          (e.waiters.foldl (fun b c => settle (fault c ⟨.unitState, u⟩ false b)) emptied) s.link.tally [0x00, 0x01]))

/-- CHANNEL QUERY and UNIT QUERY change nothing and reply the channel record and the unit entry, field by field, absent fields and free
positions in their absent form. The time remaining is counted on the model's clock (log 24). -/
def Obligations.ChannelAndUnitQueryReply : Prop :=
  (∀ (tag channel : Byte) (c : ChanId) (s : State), channel.toNat = c.val →
    taken s (requestFrame tag .channelQuery [channel]) = true →
    let ch := s.blocks.chan c
    exec (.channelQuery tag channel) s = .next (unchanged s (requestFrame tag .channelQuery [channel])
      ([0x00, ch.state.code, match ch.continuation with | some k => k.code | none => 0xFF,
        match ch.handle with | some h => byteOf h.val | none => 0xFF]
       ++ (match ch.cursor with | some n => beBytes 2 n | none => [0xFF, 0xFF])
       ++ [flagByte ch.started] ++ beBytes 4 ch.bytesDone ++ beBytes 2 ch.completed
       ++ [byteOf ((if ch.crc.isSome then 1 else 0) + (if ch.deadline.isSome then 2 else 0))]
       ++ beBytes 4 (match ch.crc with | some x => x.toNat | none => 0)
       ++ beBytes 3 (match ch.deadline with | some due => timeRemaining s.blocks.now due | none => 0)
       ++ [byteOf ch.outbox.length] ++ ((ch.outbox.map fun x : Record => x.kind.code) ++ [0xFF, 0xFF]).take 2
       ++ (match ch.fault with | some f => [f.code.code, byteOf f.detail.val] | none => [0xFF, 0xFF])))) ∧
  (∀ (tag unit : Byte) (s : State), taken s (requestFrame tag .unitQuery [unit]) = true →
    let r := requestFrame tag .unitQuery [unit]
    (8 ≤ unit.toNat → exec (.unitQuery tag unit) s = .next (unchanged s r [0x03, 0xFF])) ∧
    ∀ u : UnitId, unit.toNat = u.val →
      let e := s.blocks.unit u
      exec (.unitQuery tag unit) s = .next (unchanged s r
        ([0x00, flagByte e.presence, e.state.code, flagByte e.window.isSome]
          ++ (match e.window with
              | some w => beBytes 3 w.base ++ beBytes 3 w.size
              | none => [0xFF, 0xFF, 0xFF, 0xFF, 0xFF, 0xFF])
          ++ [byteOf e.timeout, flagByte e.slotEnable, flagByte e.latch, byteOf e.waiters.length]
          ++ ((e.waiters.map fun c : ChanId => byteOf c.val) ++ [0xFF, 0xFF, 0xFF, 0xFF]).take 4)))

/-! ### Guard unit -/

/-- GUARD SET: the checks in order, each refusal changing nothing; an accepted one replaces the entry at the index and touches no hit count
and no other entry. -/
def Obligations.GuardSetChecksThenReplaces : Prop :=
  ∀ (tag index enabled : Byte) (base limit : Word) (mode agents : Byte) (s : State),
    let payload := [index, enabled] ++ beBytes 4 base.toNat ++ beBytes 4 limit.toNat ++ [mode, agents]
    taken s (requestFrame tag .guardSet payload) = true →
    let r := requestFrame tag .guardSet payload
    let go := exec (.guardSet tag index enabled base limit mode agents) s
    let g := s.blocks.guards
    let clears := enabled = 0 ∧ base = 0 ∧ limit = 0 ∧ mode = 0 ∧ agents = 0
    let rangeOk := base.toNat % 64 = 0 ∧ limit.toNat % 64 = 0 ∧ base.toNat < limit.toNat ∧ limit.toNat ≤ memorySize s.blocks.mszCode
    let store (i : GuardId) (x : Option GuardRange) : Blocks := { s.blocks with guards := { g with entries := g.entries.set i.val x } }
    (8 ≤ index.toNat → go = .next (unchanged s r [0x03, 0xFF])) ∧
    ∀ i : GuardId, index.toNat = i.val →
      (g.frozen = true → go = .next (unchanged s r ([0x0F, index] ++ guardBytes g.entries[i]))) ∧
      (g.frozen = false → clears →
        go = .next (answered s r (store i none) s.link.tally [0x00, index, 0, 0, 0, 0, 0, 0, 0, 0, 0, 0, 0])) ∧
      (∀ m a, g.frozen = false → enabled = 1 → GuardMode.code m = mode → GuardAgents.code a = agents → rangeOk →
        go = .next (answered s r (store i (some ⟨base.toNat, limit.toNat, m, a⟩)) s.link.tally
          ([0x00, index, 0x01] ++ beBytes 4 base.toNat ++ beBytes 4 limit.toNat ++ [mode, agents]))) ∧
      (g.frozen = false → ¬ clears →
        ¬ (enabled = 1 ∧ (∃ m, GuardMode.code m = mode) ∧ (∃ a, GuardAgents.code a = agents) ∧ rangeOk) →
        go = .next (unchanged s r [0x03, 0xFF]))

/-- GUARD FREEZE sets the frozen flag and nothing else; GUARD QUERY replies the flag, the eight entries and the eight hit counts, and with
clear flag 1 sets the counts to 0. -/
def Obligations.GuardFreezeAndQuery : Prop :=
  ∀ (tag : Byte) (s : State),
    let g := s.blocks.guards
    (taken s (requestFrame tag .guardFreeze []) = true →
      exec (.guardFreeze tag) s = .next (answered s (requestFrame tag .guardFreeze [])
        { s.blocks with guards := { g with frozen := true } } s.link.tally [0x00, 0x01])) ∧
    (∀ clear : Byte, taken s (requestFrame tag .guardQuery [clear]) = true →
      let r := requestFrame tag .guardQuery [clear]
      let item (i : GuardId) := guardBytes g.entries[i] ++ beBytes 2 g.hits[i]
      let reply := [0x00, flagByte g.frozen] ++ item 0 ++ item 1 ++ item 2 ++ item 3 ++ item 4 ++ item 5 ++ item 6 ++ item 7
      exec (.guardQuery tag clear) s = .next
        (if clear = 0 then unchanged s r reply
         else if clear = 1 then answered s r { s.blocks with guards := { g with hits := Vector.replicate 8 0 } } s.link.tally reply
         else unchanged s r [0x03, 0xFF]))

/-- A range check refuses exactly when an enabled entry shares a byte with the range, its mode refuses the direction and its agents cover
the agent; when it passes it changes nothing. -/
def Obligations.RangeCheckRefusesExactly : Prop :=
  ∀ (offset length : Nat) (dir : Dir) (agent : Agent) (b : Blocks),
    let refusesDir (m : GuardMode) : Prop :=
      match m, dir with
      | .noWrite, .write => True
      | .noRead, .read => True
      | .noAccess, _ => True
      | _, _ => False
    let coversAgent (a : GuardAgents) : Prop :=
      match a, agent with
      | .channels, .channels => True
      | .link, .link => True
      | .both, _ => True
      | _, _ => False
    let refuses (i : GuardId) := ∃ g, b.guards.entries[i] = some g ∧ offset < g.limit ∧ g.base < offset + length ∧ refusesDir g.mode ∧
      coversAgent g.agents
    ((rangeCheck offset length dir agent b).2.isSome ↔ ∃ i, refuses i) ∧
    ((∀ i, ¬ refuses i) → rangeCheck offset length dir agent b = (b, none))

/-- A refused check is charged to the lowest refusing entry alone: its hit count grows by one, staying at 65535, and GUARD is raised. -/
def Obligations.RefusalChargedToLowestEntry : Prop :=
  ∀ (offset length : Nat) (dir : Dir) (agent : Agent) (b : Blocks) (i : GuardId),
    let refuses (j : GuardId) := ∃ g, b.guards.entries[j] = some g ∧ g.refuses offset length dir agent = true
    refuses i → (∀ j, j < i → ¬ refuses j) →
    rangeCheck offset length dir agent b
      = (raise .guard { b with guards := { b.guards with
          hits := b.guards.hits.set i.val (if b.guards.hits[i] < 65535 then b.guards.hits[i] + 1 else b.guards.hits[i]) } }, some i)

/-! ### PEEK and POKE -/

/-- PEEK and POKE: refused with BAD_FIELD, RANGE, GUARD_REFUSED (charged) or UNIT_STATE, they move no byte and report a count of 0; passing
their checks, the link agent holds the operation and its first access is granted at once on a free port, or its request waits on a busy
or barred one, and the reply is deferred. Each access that ends done counts its bytes; the next access takes the bytes up to the next
64-byte boundary of the space, and the last one ends the operation with OK, the count and, for PEEK, the bytes read. A failed access, and
a grant given back, end it with their result, the unit number and what was moved before. -/
def Obligations.PeekAndPokeCheckThenBegin : Prop :=
  (∀ (tag space : Byte) (offset : Word) (s : State) (i : Instr) (r : RxFrame) (count : Nat) (dir : Dir),
    (∃ n : Byte, i = .peek tag space offset n ∧ r = requestFrame tag .peek (space :: beBytes 4 offset.toNat ++ [n]) ∧ count = n.toNat ∧
      dir = .read) ∨
    (∃ data, 1 ≤ data.length ∧ data.length ≤ 128 ∧ i = .poke tag space offset data ∧
      r = requestFrame tag .poke (space :: beBytes 4 offset.toNat ++ data) ∧ count = data.length ∧ dir = .write) →
    taken s r = true →
    (count = 0 ∨ 128 < count ∨ (space ≠ 0 ∧ ∀ u : UnitId, space.toNat ≠ 16 + u.val) →
      exec i s = .next (unchanged s r [0x03, 0xFF])) ∧
    (1 ≤ count → count ≤ 128 → space = 0 →
      (memorySize s.blocks.mszCode < offset.toNat + count → exec i s = .next (unchanged s r [0x14, 0xFF, 0x00])) ∧
      (∀ b g, offset.toNat + count ≤ memorySize s.blocks.mszCode → rangeCheck offset.toNat count dir .link s.blocks = (b, some g) →
        exec i s = .next (answered s r b s.link.tally [0x10, byteOf g.val, 0x00]))) ∧
    (∀ u : UnitId, 1 ≤ count → count ≤ 128 → space.toNat = 16 + u.val →
      ((s.blocks.unit u).state ≠ .active → exec i s = .next (unchanged s r [0x0B, byteOf u.val, 0x00])) ∧
      (∀ w, (s.blocks.unit u).state = .active → (s.blocks.unit u).window = some w → w.size < offset.toNat + count →
        exec i s = .next (unchanged s r [0x14, 0xFF, 0x00])))) ∧
  (∀ (tag space : Byte) (offset : Word) (s : State) (i : Instr) (r : RxFrame) (o : AgentOp),
    (∃ n : Byte, i = .peek tag space offset n ∧ r = requestFrame tag .peek (space :: beBytes 4 offset.toNat ++ [n]) ∧
      o.kind = .peek ∧ o.count = n.toNat ∧ o.data = []) ∨
    (∃ data, i = .poke tag space offset data ∧ r = requestFrame tag .poke (space :: beBytes 4 offset.toNat ++ data) ∧
      o.kind = .poke ∧ o.count = data.length ∧ o.data = data) →
    taken s r = true → rested s.blocks = true → 1 ≤ o.count → o.count ≤ 128 → o.offset = offset.toNat → o.done = 0 →
    let n := min o.count (64 - o.offset % 64)
    let dir : Dir := match o.kind with | .peek => .read | .poke => .write
    let bytes := match o.kind with | .peek => [] | .poke => o.data.take n
    let joined (a : Arbiter) : Arbiter := { a with requests := requesterOrder.filter fun x => x == .link || a.requests.contains x }
    let held : Blocks := { s.blocks with agent := some o }
    (o.space = .buf → space = 0 → o.offset + o.count ≤ memorySize s.blocks.mszCode →
      rangeCheck o.offset o.count dir .link s.blocks = (s.blocks, none) →
      (s.blocks.bufPort.barred = true ∨ s.blocks.bufPort.inFlight.isSome →
        exec i s = .next (deferring s r { held with bufPort := joined s.blocks.bufPort })) ∧
      (s.blocks.bufPort.barred = false → s.blocks.bufPort.inFlight = none → s.blocks.bufPort.requests = [] →
        exec i s = .next (deferring s r
          { held with
            bufPort := { s.blocks.bufPort with
              lastGranted := .link
              inFlight := some
                { requester := .link, dir := dir, addr := o.offset, count := n, data := bytes, card := none } } }))) ∧
    (∀ u w, o.space = .unit u → space.toNat = 16 + u.val → (s.blocks.unit u).state = .active → (s.blocks.unit u).window = some w →
      o.offset + o.count ≤ w.size →
      (s.blocks.slotPort.barred = true ∨ s.blocks.slotPort.inFlight.isSome →
        exec i s = .next (deferring s r { held with slotPort := joined s.blocks.slotPort })) ∧
      (s.blocks.slotPort.barred = false → s.blocks.slotPort.inFlight = none → s.blocks.slotPort.requests = [] →
        exec i s = .next (deferring s r
          { held with
            slotPort := { s.blocks.slotPort with
              lastGranted := .link
              inFlight := some
                { requester := .link, dir := dir, addr := w.base + o.offset, count := n, data := bytes
                  card := some ⟨u, s.blocks.now + (s.blocks.unit u).timeout⟩ } } })))) ∧
  (∀ (b : Blocks) (o : AgentOp) (a : Access), b.agent = some o →
    let n := min (o.count - o.done) (64 - (o.offset + o.done) % 64)
    let moved := o.done + a.count
    let taken (data : List Byte) := match o.kind with | .peek => o.data ++ data | .poke => o.data
    let replies (result detail : Byte) (k : Nat) (bytes : List Byte) : Blocks :=
      { b with agent := none, handover := some (.agent ([result, detail, byteOf k] ++ bytes)) }
    let fails (result : Byte) (u : UnitId) : Blocks :=
      replies result (byteOf u.val) o.done (match o.kind with | .peek => o.data | .poke => [])
    b.plan .link = some (match o.kind with
      | .peek => ⟨o.space, o.offset + o.done, .read, n, []⟩
      | .poke => ⟨o.space, o.offset + o.done, .write, n, (o.data.drop o.done).take n⟩) ∧
    (∀ data, moved = o.count → o.kind = .peek → endOfAgent a (.done data) b = replies 0x00 0xFF moved (o.data ++ data)) ∧
    (∀ data, moved = o.count → o.kind = .poke → endOfAgent a (.done data) b = replies 0x00 0xFF moved []) ∧
    (∀ data, moved ≠ o.count →
      endOfAgent a (.done data) b = request .link { b with agent := some { o with done := moved, data := taken data } }) ∧
    (∀ u, endOfAgent a (.failed .unitTimeout u) b = fails 0x11 u ∧ endOfAgent a (.failed .unitError u) b = fails 0x12 u ∧
      endOfAgent a (.failed .unitGone u) b = fails 0x13 u ∧ giveBack b (.link, ⟨.unitState, u⟩) = fails 0x0B u ∧
      giveBack b (.link, ⟨.unitGone, u⟩) = fails 0x13 u))

/-! ### Link events -/

/-- The receiver takes a byte in its four states as the table of R171 gives. The instant of the gap timer is the model's (log 20). -/
def Obligations.ReceiverTakesByte : Prop :=
  ∀ (b : Byte) (s : State), s.power = .running → settled s = true →
    let go := exec (.characterReceived b) s
    let due := s.blocks.now + 2001
    let enters (x : Receiver) := go = .next { s with link := { s.link with receiver := x } }
    (s.link.receiver = .hunt → b = 0xC3 → enters (.length due)) ∧
    (s.link.receiver = .hunt → b ≠ 0xC3 → go = .next s) ∧
    (∀ d, s.link.receiver = .length d → 2 ≤ b.toNat → b.toNat ≤ 242 →
      enters (.body { length := b.toNat, taken := [], crc := crc16Byte 0xFFFF b } due)) ∧
    (∀ d, s.link.receiver = .length d → b.toNat < 2 ∨ 242 < b.toNat → go = exec (.lenErr b) s) ∧
    (∀ p d, s.link.receiver = .body p d → p.taken.length + 1 ≠ p.length →
      enters (.body { p with taken := p.taken ++ [b], crc := crc16Byte p.crc b } due)) ∧
    (∀ p d, s.link.receiver = .body p d → p.taken.length + 1 = p.length →
      enters (.check { p with taken := p.taken ++ [b], crc := crc16Byte p.crc b } none due)) ∧
    (∀ p d, s.link.receiver = .check p none d → enters (.check p (some b) due)) ∧
    (∀ p hi d, s.link.receiver = .check p (some hi) d → hi ++ b ≠ p.crc → go = exec .checkErr s) ∧
    (∀ tag kind payload p hi d, s.link.receiver = .check p (some hi) d → p.taken = tag :: kind :: payload →
      p.crc = frameCheck tag kind payload → hi ++ b = p.crc → go = exec (.goodFrame tag kind payload) s)

/-- LEN_ERR, CHECK_ERR and GAP_ERR discard the frame in progress, count once and raise LINK; a length byte in 2 to 242 and a gap in HUNT are
no such event (log 26), and the clock stands no earlier than the gap timer's expiry (log 2). -/
def Obligations.DamagedFrameCountsAndRaisesLink : Prop :=
  ∀ s : State, s.power = .running →
    let counted (t : Tally) (b : Blocks) : Out :=
      .next (endStep { s with link := { s.link with receiver := .hunt, tally := t }, blocks := raise .link b })
    (∀ l : Byte, l.toNat < 2 ∨ 242 < l.toNat →
      exec (.lenErr l) s = counted { s.link.tally with lenErr := countUp s.link.tally.lenErr } s.blocks) ∧
    (∀ l : Byte, 2 ≤ l.toNat → l.toNat ≤ 242 → exec (.lenErr l) s = .next s) ∧
    exec .checkErr s = counted { s.link.tally with checkErr := countUp s.link.tally.checkErr } s.blocks ∧
    (∀ due, s.link.receiver.gapDue = some due →
      exec .gapErr s
        = counted { s.link.tally with gapErr := countUp s.link.tally.gapErr } { s.blocks with now := max s.blocks.now due }) ∧
    (s.link.receiver = .hunt → exec .gapErr s = .next s)

/-- A break is a LINK reset: the receiver hunts, the receive queue is emptied, reply memory keeps the built reply of the request in progress
alone, a reply not yet built becomes silent, both slots are emptied and the frame on the line is cut, BREAKS counts, and a new notice with
RESET is built; nothing else changes. -/
def Obligations.BreakResetsLinkAlone : Prop :=
  ∀ s : State, s.power = .running →
    exec .lineBreak s = .next (endStep
      { s with
        link := { s.link with
          receiver := .hunt
          rxQueue := []
          replyMemory := match s.handler with
            | .sending r => s.link.replyMemory.filter fun e => e.tag == r.tag && e.kind == r.kind && e.check == r.check
            | _ => []
          silent := match s.handler with | .deferred _ => true | _ => s.link.silent
          replySlot := none
          line := match s.link.line with | .idle => .idle | _ => .cut
          tally := { s.link.tally with breaks := countUp s.link.tally.breaks } }
        blocks := buildNotice
          { s.blocks with
            noticeSlot := none
            resetCause := .link
            notice := { s.blocks.notice with summary := s.blocks.notice.summary ||| 1, sender := .quiet } }
        handler := match s.handler with | .sending _ => .free | x => x })

/-- The events of the transmitter. The end of a reply frees the handler, that of a notice starts the resend timer, and at each, and at the
end of a cut character, the transmitter takes its next frame, the reply first. FRAME_TAKEN is that end, or the taking of a waiting frame
by an idle line (log 16, log 17). The resend timer hands the notice over again up to its
fourth send, and mutes the sender after it. Where no such frame or timer stands nothing changes (log 26). -/
def Obligations.TransmitterEvents : Prop :=
  ∀ s : State, s.power = .running →
    let idle (b : Blocks) : State := { s with blocks := b, link := { s.link with line := .idle } }
    let at' (due : Nat) : Blocks := { s.blocks with now := max s.blocks.now due }
    let next (x : State) : State :=
      match x.link.replySlot, x.blocks.noticeSlot with
      | some f, _ =>
        { x with link := { x.link with replySlot := none, line := .reply f (x.blocks.now + lineTime x.link.baudCode f) } }
      | none, some f =>
        { x with
          blocks := { x.blocks with noticeSlot := none, notice := noticeOnLine x.blocks.notice }
          link := { x.link with line := .notice f (x.blocks.now + lineTime x.link.baudCode f) } }
      | none, none => x
    (s.link.line = .cut → exec .frameTaken s = .next (endStep (next (idle s.blocks)))) ∧
    (s.link.line = .idle → s.link.replySlot.isSome ∨ s.blocks.noticeSlot.isSome → exec .frameTaken s = .next (endStep (next s))) ∧
    (s.link.line = .idle → s.link.replySlot = none → s.blocks.noticeSlot = none → exec .frameTaken s = .next s) ∧
    (∀ f due, s.link.line = .reply f due ∨ s.link.line = .notice f due → exec .frameTaken s = .next s) ∧
    (∀ f due, s.link.line = .reply f due →
      exec .replyEnd s = .next (endStep { next (idle (at' due)) with handler := .free })) ∧
    ((∀ f due, s.link.line ≠ .reply f due) → exec .replyEnd s = .next s) ∧
    (∀ f due n, s.link.line = .notice f due → s.blocks.notice.sender = .awaiting n → n.phase = .onLine →
      exec .noticeSent s = .next (endStep (next (idle { at' due with notice := { s.blocks.notice with
        sender := .awaiting { n with phase := .timing (max s.blocks.now due + 25000) } } })))) ∧
    (∀ f due, s.link.line = .notice f due → (∀ n, s.blocks.notice.sender = .awaiting n → n.phase ≠ .onLine) →
      exec .noticeSent s = .next (endStep (next (idle (at' due))))) ∧
    ((∀ f due, s.link.line ≠ .notice f due) → exec .noticeSent s = .next s) ∧
    (∀ n due, s.blocks.notice.sender = .awaiting n → n.phase = .timing due → n.sends < 4 →
      exec .resendTimerExpiry s = .next (endStep { s with blocks := { at' due with
        notice := { s.blocks.notice with sender := .awaiting { n with sends := n.sends + 1, phase := .waiting } }
        noticeSlot := some n.frame } })) ∧
    (∀ n due, s.blocks.notice.sender = .awaiting n → n.phase = .timing due → 4 ≤ n.sends →
      exec .resendTimerExpiry s
        = .next (endStep { s with blocks := { at' due with notice := { s.blocks.notice with sender := .muted } } })) ∧
    ((∀ n due, s.blocks.notice.sender = .awaiting n → n.phase ≠ .timing due) → exec .resendTimerExpiry s = .next s)

/-! ### Ports -/

/-- The end of a buffer access: a write stores its bytes at its addresses and at no other, a read changes no byte and hands its bytes over; the
outcome is handed to the owner (`endAccess`, O39). With no access in flight nothing changes (log 26). -/
def Obligations.BufferAccessEndMovesBytes : Prop :=
  ∀ s : State, s.power = .running → s.mem.wf = true →
    (s.blocks.bufPort.inFlight = none → exec .bufferAccessEnd s = .next s) ∧
    (∀ a, s.blocks.bufPort.inFlight = some a → a.addr + a.count ≤ memorySize s.blocks.mszCode →
      ∃ t m, exec .bufferAccessEnd s = .next t ∧ t.mem = m ∧
        (∀ x, m.read x = if a.dir = .write ∧ a.addr ≤ x ∧ x < a.addr + a.data.length then a.data.getD (x - a.addr) 0 else s.mem.read x) ∧
        t = endStep (endAccess .buffer a (.done (s.mem.readBytes a.addr a.count)) { s with mem := m }) ∧
        (∀ i, i < a.count → (s.mem.readBytes a.addr a.count).getD i 0 = s.mem.read (a.addr + i)))

/-- What `endAccess` does: the port is freed, the arbiters grant the requesters that wait, what is given back reaches its requester, and the
outcome is handed to the owner, which may raise a new request at once (log 13, log 29); with no other requester to grant, the outcome goes
to the owner alone. So it is with no reset pending, and while an access is left that a pending reset waits for; of the last of them, the
outcome is not handed over, and the reset takes effect; a FULL one withdraws a notice that the step has built before (log 31). -/
def Obligations.EndOfAccessFreesPortAndHandsOutcome : Prop :=
  ∀ (p : Port) (a : Access) (e : Ending) (s : State),
    let freed : Blocks := s.blocks.updArb p fun x => { x with inFlight := none }
    let handed (b : Blocks) : Blocks := match a.requester with
      | .chan c => endOfChannel c a e b
      | .link => endOfAgent a e b
    let goesOn := s.pendingReset = none ∨ freed.bufPort.inFlight.isSome ∨ freed.slotPort.inFlight.isSome
    (goesOn → rested freed = true → endAccess p a e s = { s with blocks := settle (handed freed) }) ∧
    (∀ b, goesOn → grants freed = (b, []) → endAccess p a e s = { s with blocks := settle (handed b) }) ∧
    (∀ b back, goesOn → grants freed = (b, back) →
      endAccess p a e s = { s with blocks := settle (handed (back.foldl giveBack b)) }) ∧
    (∀ x, s.pendingReset = some x → freed.bufPort.inFlight = none → freed.slotPort.inFlight = none →
      endAccess p a e s
        = { s with
            blocks := resetBlocks x s.blocks
            link := (match x with | .work => s.link | .full => { s.link with replyMemory := [], tally := {} })
            pendingReset := none })

/-- The answers of a card and the access timer. A done answer hands over the bytes of a read (one that brings fewer leaves the rest open,
log 9), an error answer fails the access, the timer's expiry fences an ACTIVE unit and raises UNIT. A forced deactivation that waits on
the unit is carried out between that and the freeing of the port, and its reply is handed over. Buffer memory is not touched. An answer
with no access of its unit in flight is ignored (R137), and so is an expiry with no access in flight (log 26). The clock stands no earlier
than the timer's expiry (log 2). -/
def Obligations.CardAnswersEndAccess : Prop :=
  ∀ (u : UnitId) (data : List Byte) (s : State), s.power = .running →
    (s.blocks.unitAccessed u = false → exec (.doneAnswer u data) s = .next s ∧ exec (.errorAnswer u) s = .next s) ∧
    (s.blocks.slotPort.inFlight = none → exec .accessTimeout s = .next s) ∧
    ∀ a due, s.blocks.slotPort.inFlight = some a → a.card = some ⟨u, due⟩ →
      let deactivated (b : Blocks) : Blocks :=
        if (s.blocks.unit u).deactPending then
          { ((s.blocks.unit u).waiters.foldl (fun x c => settle (fault c ⟨.unitState, u⟩ false x)) (b.updUnit u fun e =>
              { e with state := .present, slotEnable := false, latch := false, deactPending := false, waiters := [] })) with
            handover := some (.unit false u) }
        else b
      let fenced : Blocks := raise .unit (Blocks.updUnit { s.blocks with now := max s.blocks.now due } u
        fun e => if e.state = .active then { e with state := .fenced } else e)
      let ends (i : Instr) (e : Ending) (b : Blocks) (k : Nat) : Prop :=
        ∃ t, exec i s = .next t ∧ t.mem = s.mem ∧ t = endStep (endAccess .slot a e { s with blocks := b, freeCount := k })
      (a.dir = .write → ends (.doneAnswer u data) (.done []) (deactivated s.blocks) (s.freeCount + 1)) ∧
      (a.dir = .read → data.length = a.count → ends (.doneAnswer u data) (.done data) (deactivated s.blocks) (s.freeCount + 1)) ∧
      (a.dir = .read → ∃ bytes : List Byte, bytes.length = a.count ∧ (∀ i, i < a.count → i < data.length → bytes[i]? = data[i]?) ∧
        ends (.doneAnswer u data) (.done bytes) (deactivated s.blocks) (s.freeCount + 1)) ∧
      ends (.errorAnswer u) (.failed .unitError u) (deactivated s.blocks) s.freeCount ∧
      ends .accessTimeout (.failed .unitTimeout u) (deactivated fenced) s.freeCount

/-- The arbiter's choice is the waiting requester that comes first in the cyclic order after last granted, none when the port is busy or
barred; a buffer grant puts its access in flight. A slot bus grant does so at the window base with the unit's timeout when the unit is ACTIVE
and its window holds the bytes, and is given back with the fault of R65's table otherwise: the requester is last granted, and the search
goes on. A request joins the set of the port its access needs, and `settle` grants until nothing is given back (log 19, log 29). Grants
are made inside the steps that cause them, so ARBITER_GRANT finds one only in a state no step leaves (log 16). -/
def Obligations.ArbiterGrantsInCyclicOrder : Prop :=
  let place (r : Requester) : Nat := match r with | .chan c => c.val | .link => 4
  (∀ a : Arbiter, a.barred = true ∨ a.inFlight.isSome → a.next = none) ∧
  (∀ (a : Arbiter) (r : Requester), a.barred = false → a.inFlight = none →
    let after (x : Requester) : Nat := (place x + 4 - place a.lastGranted) % 5
    (a.next = some r ↔ r ∈ a.requests ∧ ∀ x ∈ a.requests, after r ≤ after x)) ∧
  (∀ (b : Blocks) (r : Requester) (q : Plan), b.bufPort.next = some r → b.plan r = some q →
    (grantBuffer b).bufPort
      = { b.bufPort with
          requests := b.bufPort.requests.filter (· != r)
          lastGranted := r
          inFlight := some { requester := r, dir := q.dir, addr := q.offset, count := q.count, data := q.data, card := none } }) ∧
  (∀ (p : Port) (s : State), s.power = .running →
    ((s.blocks.arb p).next = none → exec (.arbiterGrant p) s = .next s) ∧
    ((s.blocks.arb p).next.isSome → exec (.arbiterGrant p) s = .next (endStep { s with blocks := settle s.blocks }))) ∧
  (∀ (b : Blocks) (r : Requester) (q : Plan) (u : UnitId), q.space = .unit u →
    let e := b.unit u
    (∀ w, e.state = .active → e.window = some w → q.offset + q.count ≤ w.size →
      slotAccess b r q
        = .ok { requester := r, dir := q.dir, addr := w.base + q.offset, count := q.count, data := q.data
                card := some ⟨u, b.now + e.timeout⟩ }) ∧
    (∀ w, e.state = .active → e.window = some w → w.size < q.offset + q.count → slotAccess b r q = .error ⟨.windowRange, u⟩) ∧
    (e.state = .present ∨ e.state = .fenced → slotAccess b r q = .error ⟨.unitState, u⟩) ∧
    (e.state = .empty → slotAccess b r q = .error ⟨.unitGone, u⟩)) ∧
  (∀ (b : Blocks) (r : Requester) (q : Plan), b.plan r = some q →
    let joined (a : Arbiter) : Arbiter := { a with requests := requesterOrder.filter fun x => x == r || a.requests.contains x }
    (q.space = .buf → request r b = { b with bufPort := joined b.bufPort }) ∧
    (∀ u, q.space = .unit u → request r b = { b with slotPort := joined b.slotPort })) ∧
  (∀ b : Blocks, b.bufPort.next = none → grantBuffer b = b) ∧
  (∀ (k : Nat) (b : Blocks),
    let granted (r : Requester) (x : Option Access) : Blocks :=
      { b with slotPort := { b.slotPort with
          requests := b.slotPort.requests.filter (· != r), lastGranted := r, inFlight := x } }
    (b.slotPort.next = none → grantSlot k b = (b, [])) ∧
    (∀ r q a, b.slotPort.next = some r → b.plan r = some q → slotAccess b r q = .ok a →
      grantSlot (k + 1) b = (granted r (some a), [])) ∧
    (∀ r q f, b.slotPort.next = some r → b.plan r = some q → slotAccess b r q = .error f →
      grantSlot (k + 1) b
        = ((grantSlot k (granted r none)).1, (r, f) :: (grantSlot k (granted r none)).2))) ∧
  (∀ b : Blocks, grants b = grantSlot 5 (grantBuffer b)) ∧
  (∀ (k : Nat) (b b1 : Blocks), grants b = (b1, []) → settleRounds (k + 1) b = b1) ∧
  (∀ (k : Nat) (b b1 : Blocks) (x : Requester × FaultInfo) (back : List (Requester × FaultInfo)), grants b = (b1, x :: back) →
    settleRounds (k + 1) b = settleRounds k ((x :: back).foldl giveBack b1)) ∧
  (∀ b : Blocks, settle b = settleRounds 8 b) ∧
  (∀ (b : Blocks) (c : ChanId) (f : FaultInfo), giveBack b (.chan c, f) = fault c f false b)

/-! ### Cards and their requests -/

/-- A change of level starts the debounce afresh, or stops it at the presence field's level; a card detected makes its unit PRESENT; a card lost
makes it EMPTY, unconfigured, with enable and latch clear; both raise UNIT. The loss then faults the waiters with UNIT_GONE in list order,
hands over the reply of a forced deactivation that waited, and ends the access in flight to the unit; where that is the last access a
reset waits for, no waiter faults and the reset takes effect (R195, log 30), and a FULL one withdraws the notice that the raise has built
in that step (log 31). Where the level or the presence field has that value already
nothing changes (log 15, log 26); the clock stands no earlier than a debounce that runs (log 2). -/
def Obligations.PresenceLinesAndCards : Prop :=
  ∀ (u : UnitId) (level : Bool) (s : State),
    let e := s.blocks.unit u
    let now := match e.debounceDue with | some due => max s.blocks.now due | none => s.blocks.now
    let gone : UnitEntry :=
      { e with
        presence := false, state := .empty, debounceDue := none, line := false, window := none, timeout := 32
        slotEnable := false, latch := false, deactPending := false }
    let emptied : Blocks := raise .unit (Blocks.updUnit { s.blocks with now := now } u fun _ => gone)
    let faulted : Blocks := e.waiters.foldl (fun b c => settle (fault c ⟨.unitGone, u⟩ false b))
      (emptied.updUnit u fun x => { x with waiters := [] })
    let lost : Blocks := if e.deactPending then { faulted with handover := some (.unit true u) } else faulted
    (s.power ≠ .heldLow → e.line ≠ level →
      exec (.presenceLineChange u level) s = .next { s with blocks := s.blocks.updUnit u fun e =>
        { e with line := level, debounceDue := if level = e.presence then none else some (s.blocks.now + 10000) } }) ∧
    (e.line = level → exec (.presenceLineChange u level) s = .next s) ∧
    (s.power = .running → e.presence = true → exec (.cardDetected u) s = .next s) ∧
    (s.power = .running → e.presence = false →
      exec (.cardDetected u) s = .next (endStep { s with blocks := raise .unit (Blocks.updUnit { s.blocks with now := now } u
        fun e => { e with presence := true, state := .present, debounceDue := none, line := true }) })) ∧
    (s.power = .running → e.presence = false → exec (.cardLost u) s = .next s) ∧
    (s.power = .running → e.presence = true → s.blocks.unitAccessed u = false →
      exec (.cardLost u) s = .next (endStep { s with blocks := lost })) ∧
    (∀ a due, s.power = .running → e.presence = true → s.blocks.slotPort.inFlight = some a → a.card = some ⟨u, due⟩ →
      (s.pendingReset = none ∨ s.blocks.bufPort.inFlight.isSome →
        exec (.cardLost u) s = .next (endStep (endAccess .slot a (.failed .unitGone u) { s with blocks := lost }))) ∧
      (∀ x, s.pendingReset = some x → s.blocks.bufPort.inFlight = none →
        exec (.cardLost u) s = .next (endStep
          { s with
            blocks := resetBlocks x emptied
            link := (match x with | .work => s.link | .full => { s.link with replyMemory := [], tally := {} })
            pendingReset := none }))) ∧
    (s.power = .running → e.presence = true → e.waiters = [] → e.deactPending = false → s.blocks.unitAccessed u = false →
      ∃ b, exec (.cardLost u) s = .next (endStep { s with blocks := b }) ∧ b.unit u = gone ∧
        (∀ v, v ≠ u → b.unit v = s.blocks.unit v) ∧ (∀ c, b.chan c = s.blocks.chan c) ∧ b.now = now ∧
        b.notice.summary = (if SourceSet.has s.blocks.notice.mask .unit then s.blocks.notice.summary ||| 0x0200
          else s.blocks.notice.summary)) ∧
    (s.power = .running → e.presence = true → s.pendingReset = none → s.link.rxQueue = [] →
      ∃ t, exec (.cardLost u) s = .next t ∧ t.mem = s.mem ∧ (t.blocks.unit u).state = .empty ∧ (t.blocks.unit u).presence = false ∧
        (t.blocks.unit u).window = none ∧ (t.blocks.unit u).timeout = 32 ∧ (t.blocks.unit u).slotEnable = false ∧
        (t.blocks.unit u).deactPending = false)

/-- A request edge is ignored in EMPTY and PRESENT, sets the latch of a unit in use without waiters, and completes the WAIT of the head waiter
otherwise; a deadline's expiry faults its WAIT with WAIT_TIMEOUT, and of a channel that is not PENDING changes nothing (log 26). That the
clock then stands at the deadline or later is the model's choice (log 2). -/
def Obligations.RequestEdgesAndDeadlines : Prop :=
  ∀ (u : UnitId) (c : ChanId) (s : State), s.power = .running →
    let e := s.blocks.unit u
    let left (b : Blocks) := (b.updUnit u fun e => { e with waiters := e.waiters.filter (· != c) }).updChan c
      fun ch => { ch with deadline := none }
    (¬ InUse e → exec (.requestEdge u) s = .next (endStep s)) ∧
    (InUse e → e.waiters = [] →
      exec (.requestEdge u) s = .next (endStep { s with blocks := s.blocks.updUnit u fun e => { e with latch := true } })) ∧
    (∀ rest, InUse e → e.waiters = c :: rest →
      exec (.requestEdge u) s = .next (endStep { s with blocks := settle (complete c false (left s.blocks)) })) ∧
    ((s.blocks.chan c).state ≠ .pending → exec (.deadlineExpiry c) s = .next s) ∧
    (∀ d due, (s.blocks.chan c).state = .pending → (s.blocks.chan c).deadline = some due → s.blocks.current c = some d → d.src = .unit u →
      let faulted := settle (fault c ⟨.waitTimeout, u⟩ false (left { s.blocks with now := max s.blocks.now due }))
      exec (.deadlineExpiry c) s = .next (endStep { s with blocks := faulted }))

/-! ### Queue service and resets -/

/-- The blocked posters are served from the head while the queue has space: the head channel's records are posted, oldest first; once its outbox
is empty it acts on its continuation before the next is served; serving stops when the queue is full. The command of that name, and the
one by which a reset takes effect, act in a state that no step leaves (log 16), and else change nothing. -/
def Obligations.BlockedPostersAndWaitingReset : Prop :=
  (∀ b, serve [] b = b) ∧
  (∀ c cs b, 64 ≤ b.queue.records.length → serve (c :: cs) b = b) ∧
  (∀ c cs b, b.queue.records.length < 64 → ((postOutbox c b).chan c).outbox ≠ [] → serve (c :: cs) b = postOutbox c b) ∧
  (∀ c cs b, b.queue.records.length < 64 → ((postOutbox c b).chan c).outbox = [] →
    serve (c :: cs) b = serve cs (settle (actOnContinuation c (postOutbox c b)))) ∧
  (∀ s : State, s.power = .running →
    (s.blocks.queue.blocked = [] ∨ 64 ≤ s.blocks.queue.records.length → exec .blockedPosterServed s = .next s) ∧
    (s.blocks.queue.blocked ≠ [] → s.blocks.queue.records.length < 64 →
      exec .blockedPosterServed s = .next (endStep { s with blocks := serve s.blocks.queue.blocked s.blocks })) ∧
    (s.pendingReset = none ∨ s.blocks.bufPort.inFlight.isSome ∨ s.blocks.slotPort.inFlight.isSome →
      exec .resetTakesEffect s = .next s) ∧
    (∀ x, s.pendingReset = some x → s.blocks.bufPort.inFlight = none → s.blocks.slotPort.inFlight = none →
      exec .resetTakesEffect s = .next (endStep
        { s with
          blocks := resetBlocks x s.blocks
          link := (match x with | .work => s.link | .full => { s.link with replyMemory := [], tally := {} })
          pendingReset := none })))

/-- RESET_N low abandons the accesses, releases every slot enable and takes no other event; its release samples straps and presence lines,
gives every block its COLD values and writes buffer memory with 00h; the end of start-up sets the cause COLD and builds the first
notice. Each acts only in its phase (log 22, log 26); what stays while RESET_N is low is log 23. -/
def Obligations.ColdResetSequence : Prop :=
  ∀ s : State,
    (s.power ≠ .heldLow → ∃ t, exec .resetNLow s = .next t ∧ t.power = .heldLow ∧ t.blocks.bufPort.inFlight = none ∧
      t.blocks.slotPort.inFlight = none ∧ (∀ u, t.blocks.unit u = { s.blocks.unit u with slotEnable := false }) ∧
      t.link = { s.link with receiver := .hunt, line := .idle } ∧ t.pendingReset = none ∧
      ((∀ a, s.blocks.bufPort.inFlight = some a → a.dir = .read) → t.mem = s.mem)) ∧
    (s.power = .heldLow → exec .resetNLow s = .next s) ∧
    (∀ baud msz presence, s.power = .heldLow →
      ∃ t, exec (.resetNRelease baud msz presence) s = .next t ∧ t.mem = [] ∧ t.handler = .free ∧ t.pendingReset = none ∧
        t.link = { baudCode := baud } ∧ t.power = .startUp (s.blocks.now + Config.startUpTime) ∧ t.pending = s.pending ∧
        t.blocks = { (State.reset).blocks with
          now := s.blocks.now
          resetCause := s.blocks.resetCause
          mszCode := msz
          units := Vector.ofFn fun u : UnitId =>
            { presence := presence.getLsbD u.val
              state := if presence.getLsbD u.val then .present else .empty
              line := presence.getLsbD u.val } }) ∧
    (∀ baud msz presence, s.power ≠ .heldLow → exec (.resetNRelease baud msz presence) s = .next s) ∧
    (∀ due, s.power = .startUp due →
      exec .startUpEnd s = .next (endStep
        { s with
          power := .running
          link := { s.link with receiver := .hunt }
          blocks := buildNotice { s.blocks with resetCause := .cold } })) ∧
    ((∀ due, s.power ≠ .startUp due) → exec .startUpEnd s = .next s)

/-- With no command waiting the model's clock acts (log 1, log 3): a timer event that is due enters the queue, else the clock advances by one
microsecond, and under RESET_N nothing happens. -/
def Obligations.IdleStepIsClockTick : Prop :=
  ∀ s : State, s.pending = [] →
    (∀ c, dueCommand s = some c → step s = .next { s with pending := [c] }) ∧
    (dueCommand s = none → s.power ≠ .heldLow → step s = .next { s with blocks := { s.blocks with now := s.blocks.now + 1 } }) ∧
    (s.power = .heldLow → step s = .next s)

/-! ### The channel engine -/

/-- The proceed step of a channel: past the tail it enters STARVED or makes END; else descriptor start is taken: a failing check is a fault,
a kind that moves bytes is RUNNING with its first access requested, a WAIT consumes a set latch or joins the waiter list with its
deadline. -/
def Obligations.ProceedStepOutcomes : Prop :=
  ∀ (c : ChanId) (b : Blocks),
    (b.ahead c = [] → b.boundOpen c = true →
      proceed c b = raise .starved (b.updChan c fun ch => { ch with state := .starved, continuation := none })) ∧
    (b.ahead c = [] → b.boundOpen c = false → proceed c b = endRun c b) ∧
    (∀ m rest b1, b.ahead c = m :: rest → checkStart m.desc b = (b1, none) → m.desc.kind ≠ .wait →
      proceed c b = request (.chan c) (b1.updChan c fun ch =>
        { ch with
          state := .running, continuation := none, started := true, staging := []
          crc := if m.desc.kind = .check then some m.desc.operand else none })) ∧
    (∀ m rest b1 u, b.ahead c = m :: rest → checkStart m.desc b = (b1, none) → m.desc.kind = .wait → m.desc.src = .unit u →
      ((b1.unit u).latch = false →
        proceed c b = (b1.updUnit u fun e => { e with waiters := e.waiters ++ [c] }).updChan c fun ch =>
          { ch with
            state := .pending, continuation := none, started := true
            deadline := if m.desc.operand = 0 then none else some (b1.now + m.desc.operand.toNat * 100) }) ∧
      ((b1.unit u).latch = true →
        let b2 := finish c m rest (if m.desc.haltAfter then .held else .proceed) (b1.updUnit u fun e => { e with latch := false })
        proceed c b = if (b2.chan c).outbox ≠ [] then b2 else if m.desc.haltAfter then enterHeld c b2 else run c rest b2)) ∧
    (∀ m rest b1 f, b.ahead c = m :: rest → checkStart m.desc b = (b1, some f) →
      let b2 := takeFault c m rest f .proceed b1
      proceed c b = if m.desc.cont = true ∧ (b2.chan c).outbox = [] then run c rest b2 else b2)

/-- The checks of descriptor start in their order: the state of the source unit, that of the destination unit, the source window, the
destination window, then the guard checks, each for the kinds it applies to; the first that fails gives the fault. -/
def Obligations.DescriptorStartChecksInOrder : Prop :=
  ∀ (d : Descriptor) (b : Blocks),
    let hasSrc := d.kind = .copy ∨ d.kind = .check
    let hasDst := d.kind = .copy ∨ d.kind = .fill ∨ d.kind = .mark
    let inactive (s : Space) (f : FaultInfo) := ∃ u, s = .unit u ∧ (b.unit u).state ≠ .active ∧ f = ⟨.unitState, u⟩
    let outside (s : Space) (offset : Word) (f : FaultInfo) := ∃ u, s = .unit u ∧ f = ⟨.windowRange, u⟩ ∧
      ∀ w, (b.unit u).window = some w → w.size < offset.toNat + d.length.toNat
    let fault1 (f : FaultInfo) := (hasSrc ∨ d.kind = .wait) ∧ inactive d.src f
    let fault2 (f : FaultInfo) := hasDst ∧ inactive d.dst f
    let fault3 (f : FaultInfo) := hasSrc ∧ outside d.src d.srcOff f
    let fault4 (f : FaultInfo) := hasDst ∧ outside d.dst d.dstOff f
    let none1 := ∀ f, ¬ fault1 f
    let none2 := ∀ f, ¬ fault2 f
    let none3 := ∀ f, ¬ fault3 f
    let none4 := ∀ f, ¬ fault4 f
    let read := rangeCheck d.srcOff.toNat d.length.toNat .read .channels b
    let write := rangeCheck d.dstOff.toNat d.length.toNat .write .channels b
    let readRefused := hasSrc ∧ d.src = .buf ∧ read.2.isSome
    let writeRefused := hasDst ∧ d.dst = .buf ∧ write.2.isSome
    (∀ f, fault1 f → checkStart d b = (b, some f)) ∧
    (∀ f, none1 → fault2 f → checkStart d b = (b, some f)) ∧
    (∀ f, none1 → none2 → fault3 f → checkStart d b = (b, some f)) ∧
    (∀ f, none1 → none2 → none3 → fault4 f → checkStart d b = (b, some f)) ∧
    (∀ i, none1 → none2 → none3 → none4 → readRefused → read.2 = some i → checkStart d b = (read.1, some ⟨.guard, i⟩)) ∧
    (∀ i, none1 → none2 → none3 → none4 → ¬ readRefused → writeRefused → write.2 = some i →
      checkStart d b = (write.1, some ⟨.guard, i⟩)) ∧
    (none1 → none2 → none3 → none4 → ¬ readRefused → ¬ writeRefused → checkStart d b = (b, none))

/-- The sizes and places of accesses and the bytes a FILL or MARK writes: a burst ends at the next 64-byte boundary of the reference offset or
at the end of the range; byte i of a range receives byte i mod 4 of the pattern, the most significant first. -/
def Obligations.BurstsAndPatterns : Prop :=
  ∀ (d : Descriptor) (done : Nat) (staging : List Byte),
    let size (ref : Word) := min (d.length.toNat - done) (64 - (ref.toNat + done) % 64)
    let pattern (i : Nat) : Byte :=
      if i % 4 = 0 then d.operand.extractLsb' 24 8 else if i % 4 = 1 then d.operand.extractLsb' 16 8
      else if i % 4 = 2 then d.operand.extractLsb' 8 8 else d.operand.extractLsb' 0 8
    (d.kind = .copy → staging = [] →
      d.plan done staging = some ⟨d.src, d.srcOff.toNat + done, .read, size d.srcOff, []⟩) ∧
    (d.kind = .copy → staging ≠ [] →
      d.plan done staging = some ⟨d.dst, d.dstOff.toNat + done, .write, staging.length, staging⟩) ∧
    (d.kind = .fill →
      d.plan done staging = some ⟨d.dst, d.dstOff.toNat + done, .write, size d.dstOff,
        (List.range (size d.dstOff)).map fun j => pattern (done + j)⟩) ∧
    (d.kind = .check → d.plan done staging = some ⟨d.src, d.srcOff.toNat + done, .read, size d.srcOff, []⟩) ∧
    (d.kind = .mark →
      d.plan done staging = some ⟨d.dst, d.dstOff.toNat, .write, 4, [pattern 0, pattern 1, pattern 2, pattern 3]⟩) ∧
    (d.kind = .wait → d.plan done staging = none)

/-- Completion, faults and posting. A completion makes DONE when it is due, counts, and moves the cursor on; the channel then goes to HELD,
when a HOLD waited or HALT_AFTER is set, or takes the proceed step, at once or, BLOCKED, with that continuation. A fault makes FAULT and,
without CONTINUE, leaves cursor, bytes done and started; with CONTINUE the cursor moves on, uncounted, and the channel goes to HELD, when
a HOLD waited, or takes the proceed step. A record enters a queue with space under the next sequence number, raising RECORDS, and
QUEUE_HIGH at depth 48; with the queue full the channel is BLOCKED at the tail of the list with the continuation given. -/
def Obligations.RecordsAndPosting : Prop :=
  (∀ (c : ChanId) (m : Member) (rest : List Member) (k : Continuation) (b : Blocks),
    finish c m rest k b = postOrBlock c k (b.updChan c fun ch =>
      { ch with
        outbox := ch.outbox ++ (if m.desc.record = true ∨ m.desc.kind = .check then
          [{ kind := .done, channel := c, handle := ch.handle, slot := some m.slot, amount := ch.bytesDone
             check := if m.desc.kind = .check then ch.crc.map (· ^^^ 0xFFFFFFFF) else none }] else [])
        completed := ch.completed + 1, cursor := rest.head?.map Member.slot, bytesDone := 0, started := false, crc := none
        deadline := none, staging := [] })) ∧
  (∀ (c : ChanId) (m : Member) (rest : List Member) (f : FaultInfo) (hold : Bool) (b : Blocks), b.ahead c = m :: rest →
    m.desc.cont = false →
    let noted := b.updChan c fun ch =>
      { ch with
        outbox := ch.outbox ++ [{ kind := .fault, channel := c, handle := ch.handle, slot := some m.slot, fault := some f
                                  amount := ch.bytesDone }]
        deadline := none, staging := [], fault := some f }
    let posted := postOrBlock c .faulted noted
    fault c f hold b
      = if (posted.chan c).outbox ≠ [] then posted
        else raise (.fault c) (posted.updChan c fun ch => { ch with state := .faulted, continuation := none })) ∧
  (∀ (c : ChanId) (m : Member) (rest : List Member) (hold : Bool) (b : Blocks), b.ahead c = m :: rest →
    let halts := hold = true ∨ m.desc.haltAfter = true
    let done := finish c m rest (if halts then .held else .proceed) b
    complete c hold b
      = if (done.chan c).outbox ≠ [] then done
        else if halts then raise .held (done.updChan c fun ch => { ch with state := .held, continuation := none })
        else run c rest done) ∧
  (∀ (c : ChanId) (m : Member) (rest : List Member) (f : FaultInfo) (b : Blocks), m.desc.cont = true →
    let passed (k : Continuation) : Blocks := postOrBlock c k (b.updChan c fun ch =>
      { ch with
        outbox := ch.outbox ++ [{ kind := .fault, channel := c, handle := ch.handle, slot := some m.slot, fault := some f
                                  amount := ch.bytesDone }]
        cursor := rest.head?.map Member.slot, bytesDone := 0, started := false, crc := none, deadline := none, staging := [] })
    (∀ k, takeFault c m rest f k b = passed k) ∧
    (b.ahead c = m :: rest →
      fault c f false b = (if ((passed .proceed).chan c).outbox ≠ [] then passed .proceed else run c rest (passed .proceed)) ∧
      fault c f true b
        = if ((passed .held).chan c).outbox ≠ [] then passed .held
          else raise .held ((passed .held).updChan c fun ch => { ch with state := .held, continuation := none }))) ∧
  (∀ (c : ChanId) (m : Member) (rest : List Member) (f : FaultInfo) (k : Continuation) (b : Blocks), m.desc.cont = false →
    let posted := postOrBlock c .faulted (b.updChan c fun ch =>
      { ch with
        outbox := ch.outbox ++ [{ kind := .fault, channel := c, handle := ch.handle, slot := some m.slot, fault := some f
                                  amount := ch.bytesDone }]
        staging := [], fault := some f })
    takeFault c m rest f k b
      = if (posted.chan c).outbox ≠ [] then posted
        else raise (.fault c) (posted.updChan c fun ch => { ch with state := .faulted, continuation := none })) ∧
  (∀ (c : ChanId) (x y : Record) (b : Blocks), (b.chan c).outbox = [x, y] →
    (b.queue.records.length < 63 →
      postOutbox c b = (acceptRecord y (acceptRecord x b)).updChan c fun ch => { ch with outbox := [] }) ∧
    (b.queue.records.length = 63 → postOutbox c b = (acceptRecord x b).updChan c fun ch => { ch with outbox := [y] }) ∧
    (64 ≤ b.queue.records.length → postOutbox c b = b)) ∧
  (∀ (c : ChanId) (x : Record) (b : Blocks), (b.chan c).outbox = [x] →
    (b.queue.records.length < 64 → postOutbox c b = (acceptRecord x b).updChan c fun ch => { ch with outbox := [] }) ∧
    (64 ≤ b.queue.records.length → postOutbox c b = b)) ∧
  (∀ (c : ChanId) (k : Continuation) (x : Record) (b : Blocks), (b.chan c).outbox = [x] →
    (b.queue.records.length < 64 →
      postOrBlock c k b = (acceptRecord x b).updChan c fun ch => { ch with outbox := [] }) ∧
    (64 ≤ b.queue.records.length →
      postOrBlock c k b
        = { b.updChan c fun ch => { ch with state := .blocked, continuation := some k } with
            queue := { b.queue with blocked := b.queue.blocked ++ [c] } })) ∧
  (∀ (x : Record) (b : Blocks),
    let longer := raise .records { b with queue := { b.queue with
      records := b.queue.records ++ [{ x with seq := some b.queue.nextSeq }], nextSeq := b.queue.nextSeq + 1 } }
    acceptRecord x b = if b.queue.records.length = 47 then raise .queueHigh longer else longer) ∧
  (∀ (c : ChanId) (b : Blocks),
    let ended := postOrBlock c .idle (b.updChan c fun ch =>
      { ch with outbox := ch.outbox ++ [{ kind := .runEnd, channel := c, handle := ch.handle, amount := ch.completed }] })
    let stopped := postOrBlock c .idle (b.updChan c fun ch =>
      { ch with
        outbox := ch.outbox ++ [{ kind := .stopped, channel := c, handle := ch.handle, slot := ch.cursor, amount := ch.bytesDone }]
        staging := [], fault := none })
    endRun c b = (if (ended.chan c).outbox ≠ [] then ended else enterIdle c ended) ∧
      stopRun c b = (if (stopped.chan c).outbox ≠ [] then stopped else enterIdle c stopped))

/-- What the end of an access does to its channel: without a flag it goes on or faults; with hold requested it ends HELD or on the fault and
never starts the next descriptor; with stop requested it counts the burst, makes no fault, and stops. The deferred reply is handed over
and both flags are cleared. -/
def Obligations.AccessEndAtChannel : Prop :=
  ∀ (c : ChanId) (a : Access) (d : Descriptor) (b : Blocks), b.current c = some d →
    let hands (x : Blocks) : Blocks :=
      { x.updChan c fun ch => { ch with holdRequested := false, stopRequested := false } with handover := some (.channel c) }
    let counted (data : List Byte) : Blocks := b.updChan c fun ch =>
      if d.kind = .copy ∧ a.dir = .read then { ch with staging := data }
      else if d.kind = .check then
        { ch with crc := ch.crc.map fun r => crc32Bytes r data, bytesDone := ch.bytesDone + a.count }
      else { ch with staging := [], bytesDone := ch.bytesDone + a.count }
    let full (data : List Byte) : Prop := ((counted data).chan c).bytesDone = d.length.toNat
    ((b.chan c).stopRequested = true →
      (∀ data, endOfChannel c a (.done data) b = hands (stopRun c (counted data))) ∧
      (∀ code u, endOfChannel c a (.failed code u) b = hands (stopRun c b))) ∧
    ((b.chan c).stopRequested = false → (b.chan c).holdRequested = true →
      (∀ data, full data → endOfChannel c a (.done data) b = hands (complete c true (counted data))) ∧
      (∀ data, ¬ full data →
        endOfChannel c a (.done data) b = hands (enterHeld c ((counted data).updChan c fun ch => { ch with staging := [] }))) ∧
      (∀ code u, endOfChannel c a (.failed code u) b = hands (fault c ⟨code, u⟩ true b))) ∧
    ((b.chan c).stopRequested = false → (b.chan c).holdRequested = false →
      (∀ data, full data → endOfChannel c a (.done data) b = complete c false (counted data)) ∧
      (∀ data, ¬ full data → endOfChannel c a (.done data) b = request (.chan c) (counted data)) ∧
      (∀ code u, endOfChannel c a (.failed code u) b = fault c ⟨code, u⟩ false b))

/-- A raise of a masked source is discarded; another enters the summary, and the later set in AWAITING, and a QUIET sender builds a notice in
the same step: the next tag, the summary as snapshot, its frame in the notice slot. -/
def Obligations.RaiseEntersSummaryAndBuildsNotice : Prop :=
  ∀ (x : Source) (b : Blocks),
    let n := b.notice
    let bit : SourceSet := 1#16 <<< x.bit
    let frame : Frame :=
      { tag := n.tag + 1
        kind := 0xC0
        payload := beBytes 2 (n.summary ||| bit).toNat
          ++ [byteOf b.queue.records.length, (b.chan 0).state.code, (b.chan 1).state.code, (b.chan 2).state.code, (b.chan 3).state.code,
              b.resetCause.code] }
    (n.mask &&& bit = 0 → raise x b = b) ∧
    (n.mask &&& bit ≠ 0 → n.sender = .muted → raise x b = { b with notice := { n with summary := n.summary ||| bit } }) ∧
    (∀ f, n.mask &&& bit ≠ 0 → n.sender = .awaiting f →
      raise x b = { b with notice := { n with
        summary := n.summary ||| bit, sender := .awaiting { f with later := f.later ||| bit } } }) ∧
    (n.mask &&& bit ≠ 0 → n.sender = .quiet →
      raise x b = { b with
        notice := { n with
          summary := n.summary ||| bit
          tag := n.tag + 1
          sender := .awaiting { snapshot := n.summary ||| bit, later := 0, frame := frame, sends := 1, phase := .waiting } }
        noticeSlot := some frame })

/-! ### Invariants and headline statements -/

/-- Right after reset every invariant below holds. -/
def Obligations.InvariantsHoldAtReset : Prop :=
  State.reset.mem.wf = true ∧ SlotsOk State.reset.blocks ∧ QueueOk State.reset.blocks.queue ∧ LinkOk State.reset.link ∧
    UnitsOk State.reset ∧ WindowsApart State.reset.blocks ∧ BoundOk State.reset.blocks

/-- Every step keeps buffer memory in its canonical form. -/
def Obligations.MemoryStaysCanonical : Prop :=
  ∀ s t : State, s.mem.wf = true → step s = .next t → t.mem.wf = true

/-- Every step keeps every slot in the pool or in exactly one chain, once. -/
def Obligations.SlotsAreNeitherLostNorShared : Prop :=
  ∀ s t : State, SlotsOk s.blocks → step s = .next t → SlotsOk t.blocks

/-- Every step keeps the completion queue at 64 records or fewer with consecutive sequence numbers up to the next number, and the receive queue
and reply memory within their bounds with distinct tags. -/
def Obligations.QueuesStayNumberedAndBounded : Prop :=
  ∀ s t : State, QueueOk s.blocks.queue → LinkOk s.link → step s = .next t → QueueOk t.blocks.queue ∧ LinkOk t.link

/-- Every step keeps every unit's presence, configuration, enable, latch and timeout as its state asks, and the windows of units in use apart. -/
def Obligations.UnitTableLawKept : Prop :=
  ∀ s t : State, UnitsOk s → WindowsApart s.blocks → step s = .next t → UnitsOk t ∧ WindowsApart t.blocks

/-- Every step keeps the law of bound chains: a chain is BOUND exactly when one channel that is not IDLE names it. -/
def Obligations.BoundChainLawKept : Prop :=
  ∀ s t : State, BoundOk s.blocks → step s = .next t → BoundOk t.blocks

/-- Once frozen, no guard entry changes and the flag stays set, whatever step is taken, but for the release of RESET_N of a COLD reset. -/
def Obligations.FrozenGuardTableStays : Prop :=
  ∀ s t : State, s.blocks.guards.frozen = true → step s = .next t →
    (∀ baud msz presence rest, s.pending ≠ .resetNRelease baud msz presence :: rest) →
    t.blocks.guards.frozen = true ∧ t.blocks.guards.entries = s.blocks.guards.entries

/-- A frame sent byte by byte is the good frame: the receiver, fed the bytes that the transmitter would put on the line for any tag, kind and
payload of at most 240 bytes, ends in the state that GOOD_FRAME leaves. -/
def Obligations.FrameSentByteByByteIsReceived : Prop :=
  ∀ (tag kind : Byte) (payload : List Byte) (s : State), s.power = .running → settled s = true → s.link.receiver = .hunt →
    payload.length ≤ 240 →
    ∃ t, exec (.goodFrame tag kind payload) s = .next t ∧
      (Frame.wire ⟨tag, kind, payload⟩).foldl
          (fun o b => match o with | .next x => exec (.characterReceived b) x | o => o) (Host.Outcome.next s)
        = .next t
end

