-- ==== Sys2Proof/Laws/State.lean ====
section
/-! SUPPORT. One lemma per field per update of the blocks, all true by rfl, and reading back what an accessor has written. -/

namespace Sys2Proof.Laws

open Sys2Proof.Machine

/-! ### updChan -/

@[simp] theorem updChan_now (b : Blocks) (c : ChanId) (f : Channel → Channel) : (b.updChan c f).now = b.now := rfl
@[simp] theorem updChan_resetCause (b : Blocks) (c : ChanId) (f : Channel → Channel) : (b.updChan c f).resetCause = b.resetCause := rfl
@[simp] theorem updChan_mszCode (b : Blocks) (c : ChanId) (f : Channel → Channel) : (b.updChan c f).mszCode = b.mszCode := rfl
@[simp] theorem updChan_chains (b : Blocks) (c : ChanId) (f : Channel → Channel) : (b.updChan c f).chains = b.chains := rfl
@[simp] theorem updChan_pool (b : Blocks) (c : ChanId) (f : Channel → Channel) : (b.updChan c f).pool = b.pool := rfl
@[simp] theorem updChan_queue (b : Blocks) (c : ChanId) (f : Channel → Channel) : (b.updChan c f).queue = b.queue := rfl
@[simp] theorem updChan_bufPort (b : Blocks) (c : ChanId) (f : Channel → Channel) : (b.updChan c f).bufPort = b.bufPort := rfl
@[simp] theorem updChan_slotPort (b : Blocks) (c : ChanId) (f : Channel → Channel) : (b.updChan c f).slotPort = b.slotPort := rfl
@[simp] theorem updChan_agent (b : Blocks) (c : ChanId) (f : Channel → Channel) : (b.updChan c f).agent = b.agent := rfl
@[simp] theorem updChan_units (b : Blocks) (c : ChanId) (f : Channel → Channel) : (b.updChan c f).units = b.units := rfl
@[simp] theorem updChan_guards (b : Blocks) (c : ChanId) (f : Channel → Channel) : (b.updChan c f).guards = b.guards := rfl
@[simp] theorem updChan_notice (b : Blocks) (c : ChanId) (f : Channel → Channel) : (b.updChan c f).notice = b.notice := rfl
@[simp] theorem updChan_noticeSlot (b : Blocks) (c : ChanId) (f : Channel → Channel) : (b.updChan c f).noticeSlot = b.noticeSlot := rfl
@[simp] theorem updChan_handover (b : Blocks) (c : ChanId) (f : Channel → Channel) : (b.updChan c f).handover = b.handover := rfl

/-! ### updChain -/

@[simp] theorem updChain_now (b : Blocks) (h : Handle) (f : Chain → Chain) : (b.updChain h f).now = b.now := rfl
@[simp] theorem updChain_resetCause (b : Blocks) (h : Handle) (f : Chain → Chain) : (b.updChain h f).resetCause = b.resetCause := rfl
@[simp] theorem updChain_mszCode (b : Blocks) (h : Handle) (f : Chain → Chain) : (b.updChain h f).mszCode = b.mszCode := rfl
@[simp] theorem updChain_pool (b : Blocks) (h : Handle) (f : Chain → Chain) : (b.updChain h f).pool = b.pool := rfl
@[simp] theorem updChain_chans (b : Blocks) (h : Handle) (f : Chain → Chain) : (b.updChain h f).chans = b.chans := rfl
@[simp] theorem updChain_queue (b : Blocks) (h : Handle) (f : Chain → Chain) : (b.updChain h f).queue = b.queue := rfl
@[simp] theorem updChain_bufPort (b : Blocks) (h : Handle) (f : Chain → Chain) : (b.updChain h f).bufPort = b.bufPort := rfl
@[simp] theorem updChain_slotPort (b : Blocks) (h : Handle) (f : Chain → Chain) : (b.updChain h f).slotPort = b.slotPort := rfl
@[simp] theorem updChain_agent (b : Blocks) (h : Handle) (f : Chain → Chain) : (b.updChain h f).agent = b.agent := rfl
@[simp] theorem updChain_units (b : Blocks) (h : Handle) (f : Chain → Chain) : (b.updChain h f).units = b.units := rfl
@[simp] theorem updChain_guards (b : Blocks) (h : Handle) (f : Chain → Chain) : (b.updChain h f).guards = b.guards := rfl
@[simp] theorem updChain_notice (b : Blocks) (h : Handle) (f : Chain → Chain) : (b.updChain h f).notice = b.notice := rfl
@[simp] theorem updChain_noticeSlot (b : Blocks) (h : Handle) (f : Chain → Chain) : (b.updChain h f).noticeSlot = b.noticeSlot := rfl
@[simp] theorem updChain_handover (b : Blocks) (h : Handle) (f : Chain → Chain) : (b.updChain h f).handover = b.handover := rfl

/-! ### updUnit -/

@[simp] theorem updUnit_now (b : Blocks) (u : UnitId) (f : UnitEntry → UnitEntry) : (b.updUnit u f).now = b.now := rfl
@[simp] theorem updUnit_resetCause (b : Blocks) (u : UnitId) (f : UnitEntry → UnitEntry) : (b.updUnit u f).resetCause = b.resetCause := rfl
@[simp] theorem updUnit_mszCode (b : Blocks) (u : UnitId) (f : UnitEntry → UnitEntry) : (b.updUnit u f).mszCode = b.mszCode := rfl
@[simp] theorem updUnit_chains (b : Blocks) (u : UnitId) (f : UnitEntry → UnitEntry) : (b.updUnit u f).chains = b.chains := rfl
@[simp] theorem updUnit_pool (b : Blocks) (u : UnitId) (f : UnitEntry → UnitEntry) : (b.updUnit u f).pool = b.pool := rfl
@[simp] theorem updUnit_chans (b : Blocks) (u : UnitId) (f : UnitEntry → UnitEntry) : (b.updUnit u f).chans = b.chans := rfl
@[simp] theorem updUnit_queue (b : Blocks) (u : UnitId) (f : UnitEntry → UnitEntry) : (b.updUnit u f).queue = b.queue := rfl
@[simp] theorem updUnit_bufPort (b : Blocks) (u : UnitId) (f : UnitEntry → UnitEntry) : (b.updUnit u f).bufPort = b.bufPort := rfl
@[simp] theorem updUnit_slotPort (b : Blocks) (u : UnitId) (f : UnitEntry → UnitEntry) : (b.updUnit u f).slotPort = b.slotPort := rfl
@[simp] theorem updUnit_agent (b : Blocks) (u : UnitId) (f : UnitEntry → UnitEntry) : (b.updUnit u f).agent = b.agent := rfl
@[simp] theorem updUnit_guards (b : Blocks) (u : UnitId) (f : UnitEntry → UnitEntry) : (b.updUnit u f).guards = b.guards := rfl
@[simp] theorem updUnit_notice (b : Blocks) (u : UnitId) (f : UnitEntry → UnitEntry) : (b.updUnit u f).notice = b.notice := rfl
@[simp] theorem updUnit_noticeSlot (b : Blocks) (u : UnitId) (f : UnitEntry → UnitEntry) : (b.updUnit u f).noticeSlot = b.noticeSlot := rfl
@[simp] theorem updUnit_handover (b : Blocks) (u : UnitId) (f : UnitEntry → UnitEntry) : (b.updUnit u f).handover = b.handover := rfl

/-! ### updArb -/

@[simp] theorem updArb_now (b : Blocks) (p : Port) (f : Arbiter → Arbiter) : (b.updArb p f).now = b.now := by
  cases p <;> rfl
@[simp] theorem updArb_resetCause (b : Blocks) (p : Port) (f : Arbiter → Arbiter) : (b.updArb p f).resetCause = b.resetCause := by
  cases p <;> rfl
@[simp] theorem updArb_mszCode (b : Blocks) (p : Port) (f : Arbiter → Arbiter) : (b.updArb p f).mszCode = b.mszCode := by
  cases p <;> rfl
@[simp] theorem updArb_chains (b : Blocks) (p : Port) (f : Arbiter → Arbiter) : (b.updArb p f).chains = b.chains := by
  cases p <;> rfl
@[simp] theorem updArb_pool (b : Blocks) (p : Port) (f : Arbiter → Arbiter) : (b.updArb p f).pool = b.pool := by
  cases p <;> rfl
@[simp] theorem updArb_chans (b : Blocks) (p : Port) (f : Arbiter → Arbiter) : (b.updArb p f).chans = b.chans := by
  cases p <;> rfl
@[simp] theorem updArb_queue (b : Blocks) (p : Port) (f : Arbiter → Arbiter) : (b.updArb p f).queue = b.queue := by
  cases p <;> rfl
@[simp] theorem updArb_agent (b : Blocks) (p : Port) (f : Arbiter → Arbiter) : (b.updArb p f).agent = b.agent := by
  cases p <;> rfl
@[simp] theorem updArb_units (b : Blocks) (p : Port) (f : Arbiter → Arbiter) : (b.updArb p f).units = b.units := by
  cases p <;> rfl
@[simp] theorem updArb_guards (b : Blocks) (p : Port) (f : Arbiter → Arbiter) : (b.updArb p f).guards = b.guards := by
  cases p <;> rfl
@[simp] theorem updArb_notice (b : Blocks) (p : Port) (f : Arbiter → Arbiter) : (b.updArb p f).notice = b.notice := by
  cases p <;> rfl
@[simp] theorem updArb_noticeSlot (b : Blocks) (p : Port) (f : Arbiter → Arbiter) : (b.updArb p f).noticeSlot = b.noticeSlot := by
  cases p <;> rfl
@[simp] theorem updArb_handover (b : Blocks) (p : Port) (f : Arbiter → Arbiter) : (b.updArb p f).handover = b.handover := by
  cases p <;> rfl

/-! ### Reading back -/

@[simp] theorem chan_updChan_self (b : Blocks) (c : ChanId) (f : Channel → Channel) : (b.updChan c f).chan c = f (b.chan c) := by
  simp [Blocks.chan, Blocks.updChan]

/-- Two updates of one channel are one. -/
theorem updChan_updChan (b : Blocks) (c : ChanId) (f g : Channel → Channel) :
    (b.updChan c f).updChan c g = b.updChan c fun x => g (f x) := by
  simp [Blocks.updChan, Blocks.chan]

/-- An update depends only on what it makes of the channel as it stands. -/
theorem updChan_congr {b : Blocks} {c : ChanId} {f g : Channel → Channel} (h : f (b.chan c) = g (b.chan c)) :
    b.updChan c f = b.updChan c g := by
  unfold Blocks.updChan; rw [h]

/-- An update that leaves the channel as it stands leaves the blocks. -/
theorem updChan_same {b : Blocks} {c : ChanId} {f : Channel → Channel} (h : f (b.chan c) = b.chan c) : b.updChan c f = b := by
  unfold Blocks.updChan; rw [h]; simp [Blocks.chan]

theorem chan_updChan_ne {b : Blocks} {c d : ChanId} (f : Channel → Channel) (h : d ≠ c) : (b.updChan c f).chan d = b.chan d := by
  have : c.val ≠ d.val := fun e => h (Fin.ext e.symm)
  simp [Blocks.chan, Blocks.updChan, this]

@[simp] theorem chan_updChain (b : Blocks) (h : Handle) (f : Chain → Chain) (c : ChanId) : (b.updChain h f).chan c = b.chan c := rfl
@[simp] theorem chan_updUnit (b : Blocks) (u : UnitId) (f : UnitEntry → UnitEntry) (c : ChanId) : (b.updUnit u f).chan c = b.chan c := rfl

@[simp] theorem chan_updArb (b : Blocks) (p : Port) (f : Arbiter → Arbiter) (c : ChanId) : (b.updArb p f).chan c = b.chan c := by
  cases p <;> rfl

@[simp] theorem chain_updChain_self (b : Blocks) (h : Handle) (f : Chain → Chain) : (b.updChain h f).chain h = f (b.chain h) := by
  simp [Blocks.chain, Blocks.updChain]

theorem chain_updChain_ne {b : Blocks} {h k : Handle} (f : Chain → Chain) (hk : k ≠ h) : (b.updChain h f).chain k = b.chain k := by
  have : h.val ≠ k.val := fun e => hk (Fin.ext e.symm)
  simp [Blocks.chain, Blocks.updChain, this]

@[simp] theorem chain_updChan (b : Blocks) (c : ChanId) (f : Channel → Channel) (h : Handle) : (b.updChan c f).chain h = b.chain h := rfl
@[simp] theorem chain_updUnit (b : Blocks) (u : UnitId) (f : UnitEntry → UnitEntry) (h : Handle) : (b.updUnit u f).chain h = b.chain h := rfl

@[simp] theorem chain_updArb (b : Blocks) (p : Port) (f : Arbiter → Arbiter) (h : Handle) : (b.updArb p f).chain h = b.chain h := by
  cases p <;> rfl

@[simp] theorem unit_updUnit_self (b : Blocks) (u : UnitId) (f : UnitEntry → UnitEntry) : (b.updUnit u f).unit u = f (b.unit u) := by
  simp [Blocks.unit, Blocks.updUnit]

theorem unit_updUnit_ne {b : Blocks} {u v : UnitId} (f : UnitEntry → UnitEntry) (h : v ≠ u) : (b.updUnit u f).unit v = b.unit v := by
  have : u.val ≠ v.val := fun e => h (Fin.ext e.symm)
  simp [Blocks.unit, Blocks.updUnit, this]

/-- Two updates of one unit's entry are one. -/
theorem updUnit_updUnit (u : UnitId) (f g : UnitEntry → UnitEntry) (b : Blocks) :
    (b.updUnit u f).updUnit u g = b.updUnit u fun e => g (f e) := by
  have h := unit_updUnit_self b u f
  simp only [Blocks.updUnit] at h ⊢
  congr 1
  ext i hi
  simp only [Vector.getElem_set]
  split
  · rw [h]
  · rfl

@[simp] theorem unit_updChan (b : Blocks) (c : ChanId) (f : Channel → Channel) (u : UnitId) : (b.updChan c f).unit u = b.unit u := rfl
@[simp] theorem unit_updChain (b : Blocks) (h : Handle) (f : Chain → Chain) (u : UnitId) : (b.updChain h f).unit u = b.unit u := rfl

@[simp] theorem unit_updArb (b : Blocks) (p : Port) (f : Arbiter → Arbiter) (u : UnitId) : (b.updArb p f).unit u = b.unit u := by
  cases p <;> rfl

@[simp] theorem onBlock_blocks (s : State) (f : Blocks → Blocks) : (onBlock s f).blocks = f s.blocks := rfl
@[simp] theorem onBlock_mem (s : State) (f : Blocks → Blocks) : (onBlock s f).mem = s.mem := rfl
@[simp] theorem onBlock_link (s : State) (f : Blocks → Blocks) : (onBlock s f).link = s.link := rfl
@[simp] theorem onBlock_handler (s : State) (f : Blocks → Blocks) : (onBlock s f).handler = s.handler := rfl
@[simp] theorem onBlock_pendingReset (s : State) (f : Blocks → Blocks) : (onBlock s f).pendingReset = s.pendingReset := rfl
@[simp] theorem onBlock_power (s : State) (f : Blocks → Blocks) : (onBlock s f).power = s.power := rfl
@[simp] theorem onBlock_freeCount (s : State) (f : Blocks → Blocks) : (onBlock s f).freeCount = s.freeCount := rfl
@[simp] theorem onBlock_pending (s : State) (f : Blocks → Blocks) : (onBlock s f).pending = s.pending := rfl

@[simp] theorem hunt_blocks (s : State) : (hunt s).blocks = s.blocks := rfl
@[simp] theorem hunt_mem (s : State) : (hunt s).mem = s.mem := rfl
@[simp] theorem hunt_handler (s : State) : (hunt s).handler = s.handler := rfl
@[simp] theorem hunt_pendingReset (s : State) : (hunt s).pendingReset = s.pendingReset := rfl
@[simp] theorem hunt_power (s : State) : (hunt s).power = s.power := rfl
@[simp] theorem hunt_freeCount (s : State) : (hunt s).freeCount = s.freeCount := rfl
@[simp] theorem hunt_pending (s : State) : (hunt s).pending = s.pending := rfl

end Sys2Proof.Laws
end

