-- ==== Sys2Proof/Laws/Memory.lean ====
section
/-! SUPPORT. Buffer memory: every operation keeps the canonical form, and a write is read back. -/

namespace Sys2Proof.Laws

open Sys2Proof.Machine

theorem wfFrom_mono {m : Memory} {low low' : Nat} (h : low' ≤ low) (hm : Memory.wfFrom low m = true) : Memory.wfFrom low' m = true := by
  cases m with
  | nil => rfl
  | cons x rest =>
    obtain ⟨a, v⟩ := x
    simp only [Memory.wfFrom, Bool.and_eq_true, decide_eq_true_eq] at hm ⊢
    exact ⟨⟨by omega, hm.1.2⟩, hm.2⟩

theorem wfFrom_write {m : Memory} {low x : Nat} (b : Byte) (hx : low ≤ x) (hm : Memory.wfFrom low m = true) :
    Memory.wfFrom low (m.write x b) = true := by
  induction m generalizing low with
  | nil =>
    unfold Memory.write
    split
    · rfl
    · simp_all [Memory.wfFrom]
  | cons y rest ih =>
    obtain ⟨a, v⟩ := y
    simp only [Memory.wfFrom, Bool.and_eq_true, decide_eq_true_eq] at hm
    obtain ⟨⟨ha, hv⟩, hr⟩ := hm
    unfold Memory.write
    split
    · split
      · simp_all [Memory.wfFrom]
      · simp_all [Memory.wfFrom]
    · split
      · split
        · exact wfFrom_mono (by omega) hr
        · simp_all [Memory.wfFrom]
      · simp only [Memory.wfFrom, Bool.and_eq_true, decide_eq_true_eq]
        exact ⟨⟨ha, hv⟩, ih (by omega) hr⟩

/-- A write keeps the canonical form. -/
theorem wf_write {m : Memory} (x : Nat) (b : Byte) (hm : m.wf = true) : (m.write x b).wf = true :=
  wfFrom_write b (Nat.zero_le x) hm

/-- Writing bytes keeps the canonical form. -/
theorem wf_writeBytes {m : Memory} (a : Nat) (bs : List Byte) (hm : m.wf = true) : (m.writeBytes a bs).wf = true := by
  induction bs generalizing m a with
  | nil => exact hm
  | cons b bs ih => exact ih (a + 1) (wf_write a b hm)

theorem wf_memoryAfter {m : Memory} (a : Access) (hm : m.wf = true) : (memoryAfter a m).wf = true := by
  unfold memoryAfter
  split
  · exact hm
  · exact wf_writeBytes _ _ hm

theorem wf_memoryCut {s : State} (hm : s.mem.wf = true) : (memoryCut s).wf = true := by
  unfold memoryCut
  split
  · exact hm
  · split
    · exact hm
    · split
      · exact wf_writeBytes _ _ hm
      · exact hm

/-- An address below every listed one reads as unlisted. -/
theorem read_below {m : Memory} {low x : Nat} (hm : Memory.wfFrom low m = true) (hx : x < low) : m.read x = 0 := by
  induction m generalizing low with
  | nil => rfl
  | cons y rest ih =>
    obtain ⟨a, v⟩ := y
    simp only [Memory.wfFrom, Bool.and_eq_true, decide_eq_true_eq] at hm
    obtain ⟨⟨ha, _⟩, hr⟩ := hm
    unfold Memory.read
    rw [if_neg (by omega)]
    exact ih hr (by omega)

theorem read_write_from {m : Memory} {low : Nat} (x : Nat) (b : Byte) (hm : Memory.wfFrom low m = true) (y : Nat) :
    (m.write x b).read y = if y = x then b else m.read y := by
  induction m generalizing low with
  | nil =>
    unfold Memory.write
    split
    · simp_all [Memory.read]
    · simp [Memory.read]
  | cons z rest ih =>
    obtain ⟨a, v⟩ := z
    have hm' := hm
    simp only [Memory.wfFrom, Bool.and_eq_true, decide_eq_true_eq] at hm
    obtain ⟨⟨_, _⟩, hr⟩ := hm
    have low : ∀ w, w ≤ a → Memory.read rest w = 0 := fun w hw => read_below hr (by omega)
    unfold Memory.write
    split
    · rename_i hxa
      split
      · by_cases h : y = x
        · subst h
          have : y ≠ a := by omega
          simp_all [Memory.read, low y (by omega)]
        · simp [h]
      · simp [Memory.read]
    · split
      · rename_i h1 h2
        subst h2
        split
        · by_cases h : y = x
          · subst h
            simp_all
          · simp [Memory.read, h]
        · simp [Memory.read]
          split <;> rfl
      · by_cases h : y = a
        · subst h
          have : ¬ y = x := fun e => by simp_all
          simp [Memory.read, this]
        · simp [Memory.read, h, ih hr]

/-- A byte written is read back, and no other address reads otherwise than before. -/
theorem read_write {m : Memory} (x : Nat) (b : Byte) (hm : m.wf = true) (y : Nat) :
    (m.write x b).read y = if y = x then b else m.read y := read_write_from x b hm y

/-- Bytes written are read back at their addresses, and every other address reads as before. -/
theorem read_writeBytes {m : Memory} (a : Nat) (bs : List Byte) (hm : m.wf = true) (y : Nat) :
    (m.writeBytes a bs).read y = if a ≤ y ∧ y < a + bs.length then bs.getD (y - a) 0 else m.read y := by
  induction bs generalizing m a with
  | nil =>
    have : ¬ (a ≤ y ∧ y < a) := by omega
    simp [Memory.writeBytes, this]
  | cons b bs ih =>
    rw [Memory.writeBytes, ih (a + 1) (wf_write a b hm), read_write a b hm]
    by_cases h : a + 1 ≤ y ∧ y < a + 1 + bs.length
    · have h2 : a ≤ y ∧ y < a + (b :: bs).length := by simp; omega
      have h3 : y - a = (y - (a + 1)) + 1 := by omega
      rw [if_pos h, if_pos h2, h3]
      simp
    · rw [if_neg h]
      by_cases h1 : y = a
      · subst h1
        simp
      · have h2 : ¬ (a ≤ y ∧ y < a + (b :: bs).length) := by simp; omega
        rw [if_neg h1, if_neg h2]

end Sys2Proof.Laws
end

