-- ==== Sys2Proof/Laws/Kept.lean ====
section
/-! SUPPORT. What the actions of channels, arbiters, link agent and notice unit leave alone, said once per shared operation: the
pool, the members of every chain, the guard entries, the units' configuration, the numbering of the records. -/

namespace Sys2Proof.Laws

open Sys2Proof.Machine Sys2Proof.Safety

/-! ### The relation -/

/-- A unit entry of which at most the latch and the waiter list have changed. -/
structure UnitKept (e e' : UnitEntry) : Prop where
  presence : e'.presence = e.presence
  state : e'.state = e.state
  window : e'.window = e.window
  timeout : e'.timeout = e.timeout
  slotEnable : e'.slotEnable = e.slotEnable
  deactPending : e'.deactPending = e.deactPending
  line : e'.line = e.line
  debounceDue : e'.debounceDue = e.debounceDue
  latchOk : LatchOk e → LatchOk e'

/-- What every action of a channel, an arbiter, the link agent or the notice unit leaves alone. -/
structure Kept (b b' : Blocks) : Prop where
  now : b'.now = b.now
  resetCause : b'.resetCause = b.resetCause
  mszCode : b'.mszCode = b.mszCode
  pool : b'.pool = b.pool
  members : ∀ h, (b'.chain h).members = (b.chain h).members
  isOpen : ∀ h, (b'.chain h).isOpen = (b.chain h).isOpen
  freed : ∀ h, (b'.chain h).state = .free → b'.chain h = b.chain h
  entries : b'.guards.entries = b.guards.entries
  frozen : b'.guards.frozen = b.guards.frozen
  mask : b'.notice.mask = b.notice.mask
  unit : ∀ u, UnitKept (b.unit u) (b'.unit u)
  agent : b.agent = none → b'.agent = none ∧ b'.handover = b.handover
  queue : QueueOk b.queue → QueueOk b'.queue

theorem UnitKept.refl (e : UnitEntry) : UnitKept e e := ⟨rfl, rfl, rfl, rfl, rfl, rfl, rfl, rfl, id⟩

theorem UnitKept.trans {x y z : UnitEntry} (h : UnitKept x y) (k : UnitKept y z) : UnitKept x z :=
  ⟨k.1.trans h.1, k.2.trans h.2, k.3.trans h.3, k.4.trans h.4, k.5.trans h.5, k.6.trans h.6, k.7.trans h.7, k.8.trans h.8,
   fun l => k.9 (h.9 l)⟩

theorem Kept.refl (b : Blocks) : Kept b b :=
  ⟨rfl, rfl, rfl, rfl, fun _ => rfl, fun _ => rfl, fun _ _ => rfl, rfl, rfl, rfl, fun _ => .refl _, fun h => ⟨h, rfl⟩, id⟩

theorem Kept.trans {x y z : Blocks} (h : Kept x y) (k : Kept y z) : Kept x z where
  now := k.now.trans h.now
  resetCause := k.resetCause.trans h.resetCause
  mszCode := k.mszCode.trans h.mszCode
  pool := k.pool.trans h.pool
  members := fun i => (k.members i).trans (h.members i)
  isOpen := fun i => (k.isOpen i).trans (h.isOpen i)
  freed := fun i e => (k.freed i e).trans (h.freed i (by rw [← k.freed i e]; exact e))
  entries := k.entries.trans h.entries
  frozen := k.frozen.trans h.frozen
  mask := k.mask.trans h.mask
  unit := fun u => (h.unit u).trans (k.unit u)
  agent := fun a => ⟨(k.agent (h.agent a).1).1, (k.agent (h.agent a).1).2.trans (h.agent a).2⟩
  queue := fun q => k.queue (h.queue q)

/-! ### The updates -/

theorem kept_updChan (b : Blocks) (c : ChanId) (f : Channel → Channel) : Kept b (b.updChan c f) :=
  ⟨rfl, rfl, rfl, rfl, fun _ => rfl, fun _ => rfl, fun _ _ => rfl, rfl, rfl, rfl, fun _ => .refl _, fun h => ⟨h, rfl⟩, id⟩

theorem kept_updUnit (b : Blocks) (u : UnitId) (f : UnitEntry → UnitEntry) (k : UnitKept (b.unit u) (f (b.unit u))) :
    Kept b (b.updUnit u f) where
  now := rfl
  resetCause := rfl
  mszCode := rfl
  pool := rfl
  members := fun _ => rfl
  isOpen := fun _ => rfl
  freed := fun _ _ => rfl
  entries := rfl
  frozen := rfl
  mask := rfl
  unit := fun v => by
    by_cases h : v = u
    · subst h
      simpa using k
    · rw [unit_updUnit_ne f h]
      exact .refl _
  agent := fun h => ⟨h, rfl⟩
  queue := id

theorem kept_updChain (b : Blocks) (h : Handle) (f : Chain → Chain) (hm : (f (b.chain h)).members = (b.chain h).members)
    (ho : (f (b.chain h)).isOpen = (b.chain h).isOpen) (hf : (f (b.chain h)).state ≠ .free) : Kept b (b.updChain h f) where
  now := rfl
  resetCause := rfl
  mszCode := rfl
  pool := rfl
  members := fun k => by
    by_cases e : k = h
    · subst e
      simpa using hm
    · rw [chain_updChain_ne f e]
  isOpen := fun k => by
    by_cases e : k = h
    · subst e
      simpa using ho
    · rw [chain_updChain_ne f e]
  freed := fun k hk => by
    by_cases e : k = h
    · subst e
      exact absurd (by simpa using hk) hf
    · rw [chain_updChain_ne f e]
  entries := rfl
  frozen := rfl
  mask := rfl
  unit := fun _ => .refl _
  agent := fun h => ⟨h, rfl⟩
  queue := id

theorem kept_updArb (b : Blocks) (p : Port) (f : Arbiter → Arbiter) : Kept b (b.updArb p f) := by
  cases p <;>
    exact ⟨rfl, rfl, rfl, rfl, fun _ => rfl, fun _ => rfl, fun _ _ => rfl, rfl, rfl, rfl, fun _ => .refl _, fun h => ⟨h, rfl⟩, id⟩

theorem kept_bufPort (b : Blocks) (a : Arbiter) : Kept b { b with bufPort := a } :=
  ⟨rfl, rfl, rfl, rfl, fun _ => rfl, fun _ => rfl, fun _ _ => rfl, rfl, rfl, rfl, fun _ => .refl _, fun h => ⟨h, rfl⟩, id⟩

theorem kept_slotPort (b : Blocks) (a : Arbiter) : Kept b { b with slotPort := a } :=
  ⟨rfl, rfl, rfl, rfl, fun _ => rfl, fun _ => rfl, fun _ _ => rfl, rfl, rfl, rfl, fun _ => .refl _, fun h => ⟨h, rfl⟩, id⟩

theorem kept_blocked (b : Blocks) (l : List ChanId) : Kept b { b with queue := { b.queue with blocked := l } } :=
  ⟨rfl, rfl, rfl, rfl, fun _ => rfl, fun _ => rfl, fun _ _ => rfl, rfl, rfl, rfl, fun _ => .refl _, fun h => ⟨h, rfl⟩, id⟩

theorem kept_notice (b : Blocks) (n : NoticeUnit) (f : Option Frame) (h : n.mask = b.notice.mask) :
    Kept b { b with notice := n, noticeSlot := f } :=
  ⟨rfl, rfl, rfl, rfl, fun _ => rfl, fun _ => rfl, fun _ _ => rfl, rfl, rfl, h, fun _ => .refl _, fun h => ⟨h, rfl⟩, id⟩

theorem kept_hits (b : Blocks) (hits : Vector Nat 8) : Kept b { b with guards := { b.guards with hits := hits } } :=
  ⟨rfl, rfl, rfl, rfl, fun _ => rfl, fun _ => rfl, fun _ _ => rfl, rfl, rfl, rfl, fun _ => .refl _, fun h => ⟨h, rfl⟩, id⟩

/-! ### Notices and guards -/

theorem kept_buildNotice (b : Blocks) : Kept b (buildNotice b) := by
  unfold buildNotice
  split
  · split
    · exact .refl b
    · exact kept_notice b _ _ rfl
  · exact .refl b

theorem kept_raise (x : Source) (b : Blocks) : Kept b (raise x b) := by
  unfold raise
  split
  · exact (kept_notice b (addSource b.notice x.set) b.noticeSlot rfl).trans (kept_buildNotice _)
  · exact .refl b

theorem kept_dropNotice (b : Blocks) : Kept b (dropNotice b) := by
  unfold dropNotice
  split
  · exact kept_notice b _ _ rfl
  · exact kept_notice b _ b.noticeSlot rfl

theorem kept_rangeCheck (offset length : Nat) (dir : Dir) (agent : Agent) (b : Blocks) :
    Kept b (rangeCheck offset length dir agent b).1 := by
  unfold rangeCheck
  split
  · exact (kept_hits b _).trans (kept_raise _ _)
  · exact .refl b

/-! ### The completion queue -/

/-- An accepted record keeps the numbering (R85, R89). -/
theorem queueOk_accept {q : Queue} (r : Record) (hq : QueueOk q) (hd : q.records.length < Config.queueCapacity) :
    QueueOk { q with records := q.records ++ [{ r with seq := some q.nextSeq }], nextSeq := q.nextSeq + 1 } := by
  obtain ⟨_, hs⟩ := hq
  refine ⟨by simpa using hd, ?_⟩
  simp only [List.map_append, List.length_append, List.length_cons, List.length_nil, List.range_succ, hs, List.map_cons, List.map_nil]
  congr 1
  · apply List.map_congr_left
    intro i hi
    rw [List.mem_range] at hi
    congr 1
    have : q.records.length + 1 - i = (q.records.length - i) + 1 := by omega
    rw [Nat.zero_add, this, BitVec.ofNat_add]
    bv_omega
  · have : q.records.length + (0 + 1) - q.records.length = 1 := by omega
    rw [this]
    simp

theorem kept_acceptRecord {b : Blocks} (r : Record) (hd : b.depth < Config.queueCapacity) : Kept b (acceptRecord r b) := by
  have h1 : Kept b { b with
      queue := { b.queue with records := b.queue.records ++ [{ r with seq := some b.queue.nextSeq }], nextSeq := b.queue.nextSeq + 1 } } :=
    ⟨rfl, rfl, rfl, rfl, fun _ => rfl, fun _ => rfl, fun _ _ => rfl, rfl, rfl, rfl, fun _ => .refl _, fun h => ⟨h, rfl⟩,
     fun hq => queueOk_accept r hq hd⟩
  unfold acceptRecord
  dsimp only
  split
  · exact (h1.trans (kept_raise _ _)).trans (kept_raise _ _)
  · exact h1.trans (kept_raise _ _)

theorem kept_offerAll (c : ChanId) (rs : List Record) (b : Blocks) : Kept b (offerAll c rs b) := by
  induction rs generalizing b with
  | nil => exact kept_updChan _ _ _
  | cons r rs ih =>
    unfold offerAll
    split
    · exact (kept_acceptRecord r ‹_›).trans (ih _)
    · exact kept_updChan _ _ _

theorem kept_postOutbox (c : ChanId) (b : Blocks) : Kept b (postOutbox c b) := kept_offerAll _ _ _

theorem kept_block (c : ChanId) (k : Continuation) (b : Blocks) : Kept b (block c k b) :=
  ⟨rfl, rfl, rfl, rfl, fun _ => rfl, fun _ => rfl, fun _ _ => rfl, rfl, rfl, rfl, fun _ => .refl _, fun h => ⟨h, rfl⟩, id⟩

theorem kept_postOrBlock (c : ChanId) (k : Continuation) (b : Blocks) : Kept b (postOrBlock c k b) := by
  unfold postOrBlock
  dsimp only
  split
  · exact kept_postOutbox _ _
  · exact (kept_postOutbox _ _).trans (kept_block _ _ _)

theorem kept_pushRecord (c : ChanId) (r : Record) (b : Blocks) : Kept b (pushRecord c r b) := kept_updChan _ _ _

/-! ### Entering the states a channel rests in -/

theorem kept_enterHeld (c : ChanId) (b : Blocks) : Kept b (enterHeld c b) := (kept_updChan _ _ _).trans (kept_raise _ _)

theorem kept_enterFaulted (c : ChanId) (b : Blocks) : Kept b (enterFaulted c b) := (kept_updChan _ _ _).trans (kept_raise _ _)

theorem kept_enterStarved (c : ChanId) (b : Blocks) : Kept b (enterStarved c b) := (kept_updChan _ _ _).trans (kept_raise _ _)

theorem kept_unbind (h : Option Handle) (b : Blocks) : Kept b (unbind h b) := by
  unfold unbind
  split
  · exact kept_updChain _ _ _ rfl rfl (by simp)
  · exact .refl b

theorem kept_enterIdle (c : ChanId) (b : Blocks) : Kept b (enterIdle c b) := (kept_unbind _ _).trans (kept_updChan _ _ _)

theorem kept_endRun (c : ChanId) (b : Blocks) : Kept b (endRun c b) := by
  unfold endRun
  dsimp only
  split
  · exact ((kept_pushRecord _ _ _).trans (kept_postOrBlock _ _ _)).trans (kept_enterIdle _ _)
  · exact (kept_pushRecord _ _ _).trans (kept_postOrBlock _ _ _)

theorem kept_stopRun (c : ChanId) (b : Blocks) : Kept b (stopRun c b) := by
  unfold stopRun
  dsimp only
  split
  · exact (((kept_updChan _ _ _).trans (kept_pushRecord _ _ _)).trans (kept_postOrBlock _ _ _)).trans (kept_enterIdle _ _)
  · exact ((kept_updChan _ _ _).trans (kept_pushRecord _ _ _)).trans (kept_postOrBlock _ _ _)

theorem kept_stopOnFault (c : ChanId) (f : FaultInfo) (b : Blocks) : Kept b (stopOnFault c f b) := by
  unfold stopOnFault
  dsimp only
  split
  · exact ((kept_updChan _ _ _).trans (kept_postOrBlock _ _ _)).trans (kept_enterFaulted _ _)
  · exact (kept_updChan _ _ _).trans (kept_postOrBlock _ _ _)

/-! ### The channel engine -/

theorem kept_guardFault (offset length : Nat) (dir : Dir) (b : Blocks) (s : Space) : Kept b (guardFault offset length dir b s).1 := by
  unfold guardFault
  split
  · have h := kept_rangeCheck offset length dir .channels b
    split <;> simp_all
  · exact .refl b

theorem kept_checkStart (d : Descriptor) (b : Blocks) : Kept b (checkStart d b).1 := by
  unfold checkStart
  split
  · exact .refl b
  · have h1 : Kept b (if d.kind.hasSource then guardFault d.srcOff.toNat d.length.toNat .read b d.src else (b, none)).1 := by
      split
      · exact kept_guardFault _ _ _ _ _
      · exact .refl b
    split
    · simp_all
    · rename_i b1 heq
      rw [heq] at h1
      split
      · exact h1.trans (kept_guardFault _ _ _ _ _)
      · exact h1

theorem kept_raiseRequest (b : Blocks) (r : Requester) (p : Port) : Kept b (b.raiseRequest r p) := kept_updArb _ _ _

theorem kept_request (r : Requester) (b : Blocks) : Kept b (request r b) := by
  unfold request
  split
  · exact kept_raiseRequest _ _ _
  · exact .refl b

theorem kept_withdrawRequest (b : Blocks) (r : Requester) : Kept b (b.withdrawRequest r) :=
  ⟨rfl, rfl, rfl, rfl, fun _ => rfl, fun _ => rfl, fun _ _ => rfl, rfl, rfl, rfl, fun _ => .refl _, fun h => ⟨h, rfl⟩, id⟩

theorem kept_moveCursor (c : ChanId) (rest : List Member) (b : Blocks) : Kept b (moveCursor c rest b) := kept_updChan _ _ _

theorem kept_finish (c : ChanId) (m : Member) (rest : List Member) (k : Continuation) (b : Blocks) : Kept b (finish c m rest k b) := by
  unfold finish
  dsimp only
  split
  · exact (((kept_pushRecord _ _ _).trans (kept_updChan _ _ _)).trans (kept_moveCursor _ _ _)).trans (kept_postOrBlock _ _ _)
  · exact ((kept_updChan _ _ _).trans (kept_moveCursor _ _ _)).trans (kept_postOrBlock _ _ _)

theorem kept_takeFault (c : ChanId) (m : Member) (rest : List Member) (f : FaultInfo) (k : Continuation) (b : Blocks) :
    Kept b (takeFault c m rest f k b) := by
  unfold takeFault
  dsimp only
  split
  · exact ((kept_pushRecord _ _ _).trans (kept_moveCursor _ _ _)).trans (kept_postOrBlock _ _ _)
  · exact (kept_pushRecord _ _ _).trans (kept_stopOnFault _ _ _)

theorem kept_startMoving (c : ChanId) (d : Descriptor) (b : Blocks) : Kept b (startMoving c d b) :=
  (kept_updChan _ _ _).trans (kept_request _ _)

theorem unitKept_waiters (e : UnitEntry) (w : List ChanId) (h : LatchOk e → LatchOk { e with waiters := w }) :
    UnitKept e { e with waiters := w } := ⟨rfl, rfl, rfl, rfl, rfl, rfl, rfl, rfl, h⟩

theorem unitKept_latchClear (e : UnitEntry) : UnitKept e { e with latch := false } :=
  ⟨rfl, rfl, rfl, rfl, rfl, rfl, rfl, rfl, fun _ h => by cases h⟩

theorem kept_startWaiting (c : ChanId) (u : UnitId) (d : Descriptor) (b : Blocks) (h : (b.unit u).latch = false) :
    Kept b (startWaiting c u d b) := by
  refine (kept_updUnit b u _ (unitKept_waiters _ _ ?_)).trans (kept_updChan _ _ _)
  intro _ hl
  simp_all

theorem kept_ite {p : Prop} [Decidable p] {b x y : Blocks} (hx : Kept b x) (hy : Kept b y) : Kept b (if p then x else y) := by
  split
  · exact hx
  · exact hy

/-- What follows a completion: HELD, or the proceed step, once the record has been posted. -/
theorem kept_onward {b x : Blocks} (hx : Kept b x) (c : ChanId) (rest : List Member) (ih : ∀ y, Kept y (run c rest y)) (hold : Bool)
    (on : Bool) : Kept b (if on = true then (if hold = true then enterHeld c x else run c rest x) else x) :=
  kept_ite (kept_ite (hx.trans (kept_enterHeld c x)) (hx.trans (ih x))) hx

theorem kept_run (c : ChanId) (ms : List Member) (b : Blocks) : Kept b (run c ms b) := by
  induction ms generalizing b with
  | nil => exact kept_ite (kept_enterStarved c b) (kept_endRun c b)
  | cons m rest ih =>
    unfold run
    have h1 := kept_checkStart m.desc b
    split
    · rename_i b1 f heq
      rw [heq] at h1
      have h2 := h1.trans (kept_takeFault c m rest f .proceed b1)
      exact kept_ite (h2.trans (ih _)) h2
    · rename_i b1 heq
      rw [heq] at h1
      split
      · rename_i u _ _
        have h2 := h1.trans (kept_updUnit b1 u (fun e => { e with latch := false }) (unitKept_latchClear _))
        by_cases hl : (b1.unit u).latch = true
        · rw [if_pos hl]
          exact kept_onward (h2.trans (kept_finish c m rest _ _)) c rest ih m.desc.haltAfter _
        · rw [if_neg hl]
          exact h1.trans (kept_startWaiting c u m.desc b1 (by simpa using hl))
      · exact h1.trans (kept_startMoving _ _ _)

theorem kept_proceed (c : ChanId) (b : Blocks) : Kept b (proceed c b) := kept_run _ _ _

theorem kept_complete (c : ChanId) (hold : Bool) (b : Blocks) : Kept b (complete c hold b) := by
  unfold complete
  split
  · exact .refl b
  · rename_i m rest _
    exact kept_onward (kept_finish c m rest _ b) c rest (kept_run c rest) (hold || m.desc.haltAfter) _

theorem kept_fault (c : ChanId) (f : FaultInfo) (hold : Bool) (b : Blocks) : Kept b (fault c f hold b) := by
  unfold fault
  split
  · exact .refl b
  · rename_i m rest _
    exact kept_onward ((kept_updChan b c _).trans (kept_takeFault c m rest f _ _)) c rest (kept_run c rest) hold _

theorem kept_leaveWaiters (b : Blocks) (u : UnitId) (c : ChanId) : Kept b (b.leaveWaiters u c) := by
  refine (kept_updUnit b u _ (unitKept_waiters _ _ ?_)).trans (kept_updChan _ _ _)
  intro h hl
  have := h hl
  simp [this]

theorem kept_leaveWait (b : Blocks) (c : ChanId) : Kept b (b.leaveWait c) := by
  unfold Blocks.leaveWait
  split
  · exact kept_leaveWaiters _ _ _
  · exact kept_updChan _ _ _

/-! ### Grants and their consequences -/

theorem kept_grantBuffer (b : Blocks) : Kept b (grantBuffer b) := by
  unfold grantBuffer
  split
  · exact .refl b
  · exact kept_bufPort _ _

theorem kept_grantSlot (k : Nat) (b : Blocks) : Kept b (grantSlot k b).1 := by
  induction k generalizing b with
  | zero => exact .refl b
  | succ k ih =>
    unfold grantSlot
    split
    · exact .refl b
    · split
      · exact (kept_slotPort _ _).trans (ih _)
      · split
        · exact kept_slotPort _ _
        · exact (kept_slotPort _ _).trans (ih _)

theorem kept_grants (b : Blocks) : Kept b (grants b).1 := (kept_grantBuffer b).trans (kept_grantSlot _ _)

theorem kept_giveBack (b : Blocks) (x : Requester × FaultInfo) : Kept b (giveBack b x) := by
  unfold giveBack
  split
  · exact kept_fault _ _ _ _
  · split
    · rename_i o ho
      exact ⟨rfl, rfl, rfl, rfl, fun _ => rfl, fun _ => rfl, fun _ _ => rfl, rfl, rfl, rfl, fun _ => .refl _, fun h => by simp [ho] at h, id⟩
    · exact .refl b

theorem kept_foldl {α : Type} (f : Blocks → α → Blocks) (hf : ∀ b x, Kept b (f b x)) (l : List α) (b : Blocks) :
    Kept b (l.foldl f b) := by
  induction l generalizing b with
  | nil => exact .refl b
  | cons x l ih => exact (hf b x).trans (ih _)

theorem kept_settleRounds (k : Nat) (b : Blocks) : Kept b (settleRounds k b) := by
  induction k generalizing b with
  | zero => exact .refl b
  | succ k ih =>
    unfold settleRounds
    have h := kept_grants b
    split
    · simp_all
    · rename_i b1 back _ heq
      rw [heq] at h
      exact (h.trans (kept_foldl giveBack kept_giveBack _ _)).trans (ih _)

theorem kept_settle (b : Blocks) : Kept b (settle b) := kept_settleRounds _ _

theorem kept_actOnContinuation (c : ChanId) (b : Blocks) : Kept b (actOnContinuation c b) := by
  unfold actOnContinuation
  have h := kept_blocked b (b.queue.blocked.filter (· != c))
  dsimp only
  split
  · exact h.trans (kept_proceed _ _)
  · exact h.trans (kept_enterHeld _ _)
  · exact h.trans (kept_enterFaulted _ _)
  · exact h.trans (kept_enterIdle _ _)
  · exact h

theorem kept_serve (cs : List ChanId) (b : Blocks) : Kept b (serve cs b) := by
  induction cs generalizing b with
  | nil => exact .refl b
  | cons c cs ih =>
    unfold serve
    split
    · dsimp only
      split
      · exact (((kept_postOutbox _ _).trans (kept_actOnContinuation _ _)).trans (kept_settle _)).trans (ih _)
      · exact kept_postOutbox _ _
    · exact .refl b

theorem kept_serveBlocked (b : Blocks) : Kept b (serveBlocked b) := kept_serve _ _

theorem kept_faultWaiters (u : UnitId) (code : FaultCode) (b : Blocks) : Kept b (faultWaiters u code b) := by
  unfold faultWaiters
  refine (kept_updUnit b u (fun e => { e with waiters := [] }) (unitKept_waiters _ _ fun _ _ => rfl)).trans ?_
  exact kept_foldl _ (fun b c => (kept_fault c ⟨code, u⟩ false b).trans (kept_settle _)) _ _

theorem kept_takeEdge (u : UnitId) (b : Blocks) : Kept b (takeEdge u b) := by
  unfold takeEdge
  split
  · split
    · rename_i h
      exact kept_updUnit _ _ _ ⟨rfl, rfl, rfl, rfl, rfl, rfl, rfl, rfl, fun _ _ => h⟩
    · exact ((kept_leaveWaiters _ _ _).trans (kept_complete _ _ _)).trans (kept_settle _)
  · exact .refl b

theorem kept_expireWait (c : ChanId) (b : Blocks) : Kept b (expireWait c b) := by
  unfold expireWait
  split
  · exact ((kept_leaveWaiters _ _ _).trans (kept_fault _ _ _ _)).trans (kept_settle _)
  · exact .refl b

end Sys2Proof.Laws
end

