-- ==== Sys2Proof/Laws/Handler.lean ====
section
/-! SUPPORT. What a good frame does to a part that is ready for it, said once for every request. -/

namespace Sys2Proof.Laws

open Sys2Proof.Machine Sys2Proof.Safety

/-! ### The conditions, taken apart -/

/-- The conditions of `ready`, one by one. -/
structure Ready (s : State) : Prop where
  power : s.power = .running
  handler : s.handler = .free
  rxQueue : s.link.rxQueue = []
  silent : s.link.silent = false
  handover : s.blocks.handover = none
  agent : s.blocks.agent = none
  sender : s.blocks.notice.sender ≠ .muted

theorem ready_iff (s : State) : ready s = true ↔ Ready s := by
  constructor
  · intro h
    simp only [ready, Bool.and_eq_true, beq_iff_eq, bne_iff_ne, Bool.not_eq_true'] at h
    obtain ⟨⟨⟨⟨⟨⟨h1, h2⟩, h3⟩, h4⟩, h5⟩, h6⟩, h7⟩ := h
    exact ⟨h1, h2, h3, h4, h5, h6, h7⟩
  · intro h
    simp [ready, h.power, h.handler, h.rxQueue, h.silent, h.handover, h.agent, h.sender]

theorem find_fresh {s : State} {r : RxFrame} (h : fresh s r = true) : (s.link.replyMemory.find? fun e => e.matchesFrame r) = none := by
  rw [List.find?_eq_none]
  simpa [fresh] using h

theorem unmute_of_ne {b : Blocks} (h : b.notice.sender ≠ .muted) : unmute b = b := by
  unfold unmute
  split
  · contradiction
  · rfl

theorem deliver_none {s : State} (h : s.blocks.handover = none) : deliver s = s := by
  unfold deliver
  rw [h]

/-! ### The arrival of a frame -/

/-- The state with a frame alone in the receive queue and the receiver in HUNT. -/
def received (r : RxFrame) (s : State) : State := { s with link := { s.link with receiver := .hunt, rxQueue := [r] } }

theorem goodFrame_ready {s : State} {r : RxFrame} (h : Ready s) (hk : r.kind ≠ ackCode) : goodFrame r s = received r s := by
  simp [goodFrame, hk, unmute_of_ne h.sender, appendFrame, hunt, h.rxQueue, Config.rxQueueCapacity, received]

/-- A FREE handler takes the oldest frame of the receive queue. -/
theorem takeRequest_free {s : State} {r : RxFrame} {rest : List RxFrame} (hh : s.handler = .free) (hq : s.link.rxQueue = r :: rest) :
    takeRequest s = handle r { s with link := { s.link with rxQueue := rest } } := by
  unfold takeRequest
  split
  · rename_i r' rest' _ h
    rw [hq] at h
    injection h with h1 h2
    subst h1 h2
    rfl
  · rename_i h
    exact absurd hq (h r rest hh)

theorem takeRequest_received {s : State} {r : RxFrame} (h : Ready s) (hf : fresh s r = true) :
    takeRequest (received r s) = executeNew r (hunt s) := by
  have h1 : { received r s with link := { (received r s).link with rxQueue := [] } } = hunt s := by
    simp [received, hunt, h.rxQueue]
  rw [takeRequest_free (s := received r s) h.handler rfl, h1]
  unfold handle
  have : (hunt s).link.replyMemory = s.link.replyMemory := rfl
  rw [this, find_fresh hf]

/-- A good frame that reaches a ready part is executed in its own step. -/
theorem arrive_ready {s : State} {r : RxFrame} (h : Ready s) (hf : fresh s r = true) (hk : r.kind ≠ ackCode) :
    arrive r s = .next (settleLine (deliver (executeNew r (hunt s)))) := by
  unfold arrive onRunning
  rw [if_pos h.power]
  simp only
  have h1 : (received r s).blocks.handover = none := h.handover
  rw [goodFrame_ready h hk, endStep, deliver_none h1, takeRequest_received h hf]

/-- A request answered at once. -/
theorem arrive_now {s : State} {r : RxFrame} {b : Blocks} {t : Tally} {payload : List Byte} (h : Ready s) (hf : fresh s r = true)
    (hk : r.kind ≠ ackCode) (hb : b.handover = none)
    (he : executeFrame s.link.baudCode s.link.tally s.blocks r.kind r.payload = { blocks := b, tally := t, answer := .now payload }) :
    arrive r s = .next (answered s r b t payload) := by
  rw [arrive_ready h hf hk]
  congr 1
  unfold answered
  congr 1
  simp only [executeNew, hunt, he]
  rw [deliver_none]
  simp [sendReply, h.silent, hb]

/-- A request whose reply is deferred. -/
theorem arrive_deferred {s : State} {r : RxFrame} {b : Blocks} (h : Ready s) (hf : fresh s r = true)
    (hk : r.kind ≠ ackCode) (hb : b.handover = none)
    (he : executeFrame s.link.baudCode s.link.tally s.blocks r.kind r.payload
      = { blocks := b, tally := s.link.tally, answer := .deferred }) :
    arrive r s = .next (deferring s r b) := by
  rw [arrive_ready h hf hk]
  congr 1
  unfold deferring
  congr 1
  simp only [executeNew, hunt, he]
  rw [deliver_none (by simpa using hb)]

/-! ### The end of a step -/

/-- The reply in the slot goes on the line. -/
def replyTaken (s : State) (f : Frame) (k : Nat) : State :=
  { s with freeCount := k, link := { s.link with replySlot := none, line := .reply f (s.frameDue f) } }

/-- The notice in the slot goes on the line. -/
def noticeTaken (s : State) (f : Frame) (k : Nat) : State :=
  { s with
    freeCount := k
    blocks := { s.blocks with noticeSlot := none, notice := noticeOnLine s.blocks.notice }
    link := { s.link with line := .notice f (s.frameDue f) } }

/-- All that the transmitter can do at the end of a step. -/
theorem settleLine_cases (s : State) :
    settleLine s = s ∨ (∃ f k, s.link.replySlot = some f ∧ settleLine s = replyTaken s f k) ∨
      (∃ f k, s.blocks.noticeSlot = some f ∧ settleLine s = noticeTaken s f k) := by
  unfold settleLine takeFrame
  rcases hr : s.link.replySlot with _ | f <;> rcases hn : s.blocks.noticeSlot with _ | g
  · exact .inl (by simp [takeNotice, hn])
  · refine if hl : s.link.line = .idle then .inr (.inr ⟨g, s.freeCount, rfl, ?_⟩) else .inl (by simp [hl])
    simp [takeNotice, hn, hl, noticeTaken]
  · refine if hl : s.link.line = .idle then .inr (.inl ⟨f, s.freeCount, rfl, ?_⟩) else .inl (by simp [hl])
    simp [takeReply, hr, hl, replyTaken]
  · by_cases hl : s.link.line = .idle
    · by_cases hc : Config.noticeFirst s.freeCount = true
      · exact .inr (.inr ⟨g, s.freeCount + 1, rfl, by simp [takeNotice, hn, hl, hc, noticeTaken, State.frameDue]⟩)
      · exact .inr (.inl ⟨f, s.freeCount + 1, rfl, by simp [takeReply, hr, hl, hc, replyTaken, State.frameDue]⟩)
    · exact .inl (by simp [hl])

theorem settleLine_busy {s : State} (h : s.link.line ≠ .idle) : settleLine s = s := by
  simp [settleLine, h]

theorem settleLine_none {s : State} (h1 : s.link.replySlot = none) (h2 : s.blocks.noticeSlot = none) : settleLine s = s := by
  simp [settleLine, takeFrame, takeNotice, h1, h2]

theorem takeRequest_busy {s : State} (h : s.handler ≠ .free ∨ s.link.rxQueue = []) : takeRequest s = s := by
  unfold takeRequest
  split
  · simp_all
  · rfl

/-- With no request to take and nothing handed over, a step ends at the line. -/
theorem endStep_busy {s : State} (h0 : s.blocks.handover = none) (h : s.handler ≠ .free ∨ s.link.rxQueue = []) :
    endStep s = settleLine s := by
  rw [endStep, deliver_none h0, takeRequest_busy h, deliver_none h0]

/-- A settled state is left as it is. -/
theorem endStep_settled {s : State} (h : settled s = true) : endStep s = s := by
  simp [settled] at h
  obtain ⟨⟨h1, h2⟩, h3⟩ := h
  rw [endStep_busy h1 h2]
  rcases h3 with h3 | h3
  · exact settleLine_busy h3
  · exact settleLine_none h3.1 h3.2

theorem onRunning_next (s : State) (e : Option State) : ∃ t, onRunning s e = .next t := by
  unfold onRunning
  repeat' split
  all_goals exact ⟨_, rfl⟩

theorem onRunning_some {s : State} (h : s.power = .running) (t : State) : onRunning s (some t) = .next (endStep t) := by
  simp [onRunning, h]

theorem onRunning_none (s : State) : onRunning s none = .next s := by
  simp [onRunning]

/-! ### Requests -/

theorem ofCode_code (k : RequestKind) : RequestKind.ofCode k.code = some k := by
  cases k <;> rfl

theorem code_ne_ack (k : RequestKind) : k.code ≠ ackCode := by
  cases k <;> decide

/-- A frame of a known kind and a fitting length is executed as its request. -/
theorem executeFrame_code (bc : BitVec 2) (t : Tally) (b : Blocks) (k : RequestKind) (payload : List Byte)
    (h : k.lengthFits payload.length = true) : executeFrame bc t b k.code payload = executeKind bc t b payload k := by
  simp [executeFrame, ofCode_code, h]

/-- A request frame answered at once. -/
theorem request_now {s : State} {tag : Byte} {k : RequestKind} {payload reply : List Byte} {b : Blocks} {t : Tally}
    (h : ready s = true) (hf : fresh s (frameOf tag k.code payload) = true) (hl : k.lengthFits payload.length = true)
    (hb : b.handover = none)
    (he : executeKind s.link.baudCode s.link.tally s.blocks payload k = { blocks := b, tally := t, answer := .now reply }) :
    arrive (frameOf tag k.code payload) s = .next (answered s (frameOf tag k.code payload) b t reply) :=
  arrive_now ((ready_iff s).1 h) hf (code_ne_ack k) hb (by rw [← he]; exact executeFrame_code _ _ _ _ _ hl)

/-- A request frame whose reply is deferred. -/
theorem request_deferred {s : State} {tag : Byte} {k : RequestKind} {payload : List Byte} {b : Blocks}
    (h : ready s = true) (hf : fresh s (frameOf tag k.code payload) = true) (hl : k.lengthFits payload.length = true)
    (hb : b.handover = none)
    (he : executeKind s.link.baudCode s.link.tally s.blocks payload k
      = { blocks := b, tally := s.link.tally, answer := .deferred }) :
    arrive (frameOf tag k.code payload) s = .next (deferring s (frameOf tag k.code payload) b) :=
  arrive_deferred ((ready_iff s).1 h) hf (code_ne_ack k) hb (by rw [← he]; exact executeFrame_code _ _ _ _ _ hl)

theorem taken_iff {s : State} {r : RxFrame} : taken s r = true ↔ ready s = true ∧ fresh s r = true := by
  simp [taken]

/-- A request that leaves the blocks `b` and answers at once. -/
theorem request_answered {s : State} {tag : Byte} {k : RequestKind} {payload reply : List Byte} {b : Blocks}
    (h : taken s (requestFrame tag k payload) = true) (hl : k.lengthFits payload.length = true) (hb : b.handover = none)
    (he : executeKind s.link.baudCode s.link.tally s.blocks payload k = onBlocks s.link.tally (b, .now reply)) :
    arrive (frameOf tag k.code payload) s = .next (answered s (requestFrame tag k payload) b s.link.tally reply) :=
  request_now (taken_iff.1 h).1 (taken_iff.1 h).2 hl hb he

/-- A request that changes nothing. -/
theorem request_unchanged {s : State} {tag : Byte} {k : RequestKind} {payload reply : List Byte}
    (h : taken s (requestFrame tag k payload) = true) (hl : k.lengthFits payload.length = true)
    (he : executeKind s.link.baudCode s.link.tally s.blocks payload k = onBlocks s.link.tally (s.blocks, .now reply)) :
    arrive (frameOf tag k.code payload) s = .next (unchanged s (requestFrame tag k payload) reply) :=
  request_answered h hl ((ready_iff s).1 (taken_iff.1 h).1).handover he

/-- A request that leaves the blocks `b` and defers its reply. -/
theorem request_deferring {s : State} {tag : Byte} {k : RequestKind} {payload : List Byte} {b : Blocks}
    (h : taken s (requestFrame tag k payload) = true) (hl : k.lengthFits payload.length = true) (hb : b.handover = none)
    (he : executeKind s.link.baudCode s.link.tally s.blocks payload k = onBlocks s.link.tally (b, .deferred)) :
    arrive (frameOf tag k.code payload) s = .next (deferring s (requestFrame tag k payload) b) :=
  request_deferred (taken_iff.1 h).1 (taken_iff.1 h).2 hl hb he

end Sys2Proof.Laws
end

