-- ==== Sys2Proof/Laws/Ports.lean ====
section
/-! SUPPORT. What leaves the arbiters alone, when there is nothing to grant, and the reset values of the tables. -/

namespace Sys2Proof.Laws

open Sys2Proof.Machine Sys2Proof.Safety

/-! ### What raising a source can change -/

theorem buildNotice_eq (b : Blocks) :
    buildNotice b = { b with notice := (buildNotice b).notice, noticeSlot := (buildNotice b).noticeSlot } := by
  unfold buildNotice
  split
  · split <;> rfl
  · rfl

theorem raise_eq (x : Source) (b : Blocks) : raise x b = { b with notice := (raise x b).notice, noticeSlot := (raise x b).noticeSlot } := by
  unfold raise
  split
  · rw [buildNotice_eq]
  · rfl

@[simp] theorem handover_raise (x : Source) (b : Blocks) : (raise x b).handover = b.handover := by rw [raise_eq]
@[simp] theorem now_raise (x : Source) (b : Blocks) : (raise x b).now = b.now := by rw [raise_eq]
@[simp] theorem bufPort_raise (x : Source) (b : Blocks) : (raise x b).bufPort = b.bufPort := by rw [raise_eq]
@[simp] theorem slotPort_raise (x : Source) (b : Blocks) : (raise x b).slotPort = b.slotPort := by rw [raise_eq]
@[simp] theorem queue_raise (x : Source) (b : Blocks) : (raise x b).queue = b.queue := by rw [raise_eq]
@[simp] theorem agent_raise (x : Source) (b : Blocks) : (raise x b).agent = b.agent := by rw [raise_eq]
@[simp] theorem guards_raise (x : Source) (b : Blocks) : (raise x b).guards = b.guards := by rw [raise_eq]
@[simp] theorem pool_raise (x : Source) (b : Blocks) : (raise x b).pool = b.pool := by rw [raise_eq]
@[simp] theorem chan_raise (x : Source) (b : Blocks) (c : ChanId) : (raise x b).chan c = b.chan c := by rw [raise_eq]; rfl
@[simp] theorem chain_raise (x : Source) (b : Blocks) (h : Handle) : (raise x b).chain h = b.chain h := by rw [raise_eq]; rfl
@[simp] theorem unit_raise (x : Source) (b : Blocks) (u : UnitId) : (raise x b).unit u = b.unit u := by rw [raise_eq]; rfl

/-! ### The arbiters as they were -/

/-- Both arbiters are as they were. -/
def SamePorts (b b' : Blocks) : Prop := b'.bufPort = b.bufPort ∧ b'.slotPort = b.slotPort

theorem SamePorts.refl (b : Blocks) : SamePorts b b := ⟨rfl, rfl⟩

theorem SamePorts.trans {x y z : Blocks} (h : SamePorts x y) (k : SamePorts y z) : SamePorts x z :=
  ⟨k.1.trans h.1, k.2.trans h.2⟩

theorem samePorts_raise (x : Source) (b : Blocks) : SamePorts b (raise x b) := ⟨by simp, by simp⟩

theorem samePorts_acceptRecord (r : Record) (b : Blocks) : SamePorts b (acceptRecord r b) := by
  unfold acceptRecord
  dsimp only
  split <;> exact ⟨by simp, by simp⟩

theorem samePorts_offerAll (c : ChanId) (rs : List Record) (b : Blocks) : SamePorts b (offerAll c rs b) := by
  induction rs generalizing b with
  | nil => exact .refl b
  | cons r rs ih =>
    unfold offerAll
    split
    · exact (samePorts_acceptRecord r b).trans (ih _)
    · exact .refl b

theorem samePorts_postOrBlock (c : ChanId) (k : Continuation) (b : Blocks) : SamePorts b (postOrBlock c k b) := by
  unfold postOrBlock
  dsimp only
  split <;> exact samePorts_offerAll _ _ _

theorem samePorts_enterIdle (c : ChanId) (b : Blocks) : SamePorts b (enterIdle c b) := by
  unfold enterIdle unbind
  split <;> exact .refl b

theorem samePorts_endRun (c : ChanId) (b : Blocks) : SamePorts b (endRun c b) := by
  unfold endRun
  dsimp only
  have h := samePorts_postOrBlock c .idle (pushRecord c (endRecord c (b.chan c)) b)
  split
  · exact h.trans (samePorts_enterIdle _ _)
  · exact h

theorem samePorts_stopRun (c : ChanId) (b : Blocks) : SamePorts b (stopRun c b) := by
  unfold stopRun
  dsimp only
  generalize e : pushRecord c _ _ = x
  have h0 : SamePorts b x := e ▸ .refl b
  have h := h0.trans (samePorts_postOrBlock c .idle x)
  split
  · exact h.trans (samePorts_enterIdle _ _)
  · exact h

/-! ### Nothing to grant -/

/-- With no arbiter able to grant, the end of a step changes nothing at the ports. -/
theorem settle_rested {b : Blocks} (h : rested b = true) : settle b = b := by
  simp only [rested, Bool.and_eq_true, beq_iff_eq] at h
  have hb : grantBuffer b = b := by
    unfold grantBuffer
    rw [h.1]
  have hg : grants b = (b, []) := by
    unfold grants grantSlot
    simp [hb, h.2]
  unfold settle settleRounds
  rw [hg]

theorem rested_same {b b' : Blocks} (k : SamePorts b b') (h : rested b = true) : rested b' = true := by
  unfold rested at *
  rw [k.1, k.2]
  exact h

/-- A withdrawal gives an arbiter nothing to grant. -/
theorem next_withdraw {a : Arbiter} (r : Requester) (h : a.next = none) : (a.withdraw r).next = none := by
  unfold Arbiter.next Arbiter.withdraw at *
  dsimp only
  split
  · rfl
  · rename_i hb
    rw [if_neg hb] at h
    rw [List.find?_eq_none] at h ⊢
    intro x hx
    have := h x hx
    simp_all

theorem rested_withdraw {b : Blocks} (r : Requester) (h : rested b = true) : rested (b.withdrawRequest r) = true := by
  simp only [rested, Bool.and_eq_true, beq_iff_eq] at *
  exact ⟨next_withdraw r h.1, next_withdraw r h.2⟩

theorem handover_settleProceed (c : ChanId) {b : Blocks} (h : b.agent = none) : (settle (proceed c b)).handover = b.handover :=
  (((kept_proceed c b).trans (kept_settle _)).agent h).2

/-! ### The tables after a reset -/

theorem chain_resetBlocks (x : Scope) (b : Blocks) (h : Handle) : (resetBlocks x b).chain h = {} := Vector.getElem_replicate _

theorem chan_resetBlocks (x : Scope) (b : Blocks) (c : ChanId) : (resetBlocks x b).chan c = {} := Vector.getElem_replicate _

theorem unit_resetBlocks (x : Scope) (b : Blocks) (u : UnitId) : (resetBlocks x b).unit u = resetUnit x (b.unit u) :=
  Vector.getElem_map _ _

/-! ### Numbers that name an entry of a table -/

theorem indexOf_ge {size n : Nat} (h : size ≤ n) : indexOf? size n = none := by
  unfold indexOf?
  rw [dif_neg]
  omega

theorem indexOf_val {size : Nat} (i : Fin size) : indexOf? size i.val = some i := by
  unfold indexOf?
  rw [dif_pos i.isLt]

theorem validHandle_ge {b : Blocks} {n : Nat} (h : 32 ≤ n) : validHandle b n = none := by
  simp [validHandle, indexOf_ge h]

theorem validHandle_val {b : Blocks} {n : Nat} {h : Handle} (e : n = h.val) :
    validHandle b n = if (b.chain h).state = .free then none else some h := by
  subst e
  simp [validHandle, indexOf_val]

/-- The lowest index with a property. -/
theorem find_finRange {n : Nat} {p : Fin n → Bool} {h : Fin n} (hp : p h = true) (hl : ∀ k, k < h → p k = false) :
    (List.finRange n).find? p = some h := by
  rw [List.find?_eq_some_iff_getElem]
  refine ⟨hp, h.val, by simp, by simp, ?_⟩
  intro j hj
  have := hl ⟨j, by omega⟩ (by simpa [Fin.lt_def] using hj)
  simpa using this

theorem find_finRange_none {n : Nat} {p : Fin n → Bool} (hl : ∀ k, p k = false) : (List.finRange n).find? p = none := by
  simp [hl]

theorem flagOf_cases (x : Byte) : flagOf? x.toNat = if x = 0 then some false else if x = 1 then some true else none := by
  have e0 : x.toNat = 0 ↔ x = 0 := ⟨fun h => BitVec.eq_of_toNat_eq h, fun h => by rw [h]; rfl⟩
  have e1 : x.toNat = 1 ↔ x = 1 := ⟨fun h => BitVec.eq_of_toNat_eq h, fun h => by rw [h]; rfl⟩
  simp only [flagOf?, e0, e1]

theorem ofCode_none : ∀ kind : Byte, kind ∉ requestCodes → RequestKind.ofCode kind = none := by
  decide +kernel

end Sys2Proof.Laws
end

