-- ==== Sys2Proof/Laws/Steps.lean ====
section
/-! SUPPORT. Every step, taken apart once: a property of the blocks that each block operation keeps is kept by every step. -/

namespace Sys2Proof.Laws

open Sys2Proof.Machine Sys2Proof.Safety

/-! ### The frames of the link's operations -/

/-- Two block states that differ at most in the clock, the reset cause, the notice unit and the hand-over. -/
def Aside (b b' : Blocks) : Prop :=
  b' = { b with now := b'.now, resetCause := b'.resetCause, notice := b'.notice, noticeSlot := b'.noticeSlot, handover := b'.handover }

theorem Aside.refl (b : Blocks) : Aside b b := rfl

theorem Aside.trans {x y z : Blocks} (h : Aside x y) (k : Aside y z) : Aside x z := by
  unfold Aside at *
  rw [k, h]

theorem aside_buildNotice (b : Blocks) : Aside b (buildNotice b) := by
  rw [buildNotice_eq]
  rfl

theorem aside_raise (x : Source) (b : Blocks) : Aside b (raise x b) := by
  rw [raise_eq]
  rfl

theorem aside_dropNotice (b : Blocks) : Aside b (dropNotice b) := by
  unfold dropNotice
  split <;> rfl

theorem aside_unmute (b : Blocks) : Aside b (unmute b) := by
  unfold unmute
  split
  · exact Aside.trans (y := { b with notice := { b.notice with sender := .quiet } }) rfl (aside_buildNotice _)
  · rfl

theorem aside_acceptAck (n : NoticeInFlight) (b : Blocks) : Aside b (acceptAck n b) :=
  (Aside.trans (y := { b with notice := { b.notice with summary := b.notice.summary &&& ~~~(n.snapshot &&& ~~~n.later) } }) rfl
    (aside_dropNotice _)).trans (aside_buildNotice _)

theorem aside_breakNotice (b : Blocks) : Aside b (breakNotice b) := by
  refine ((aside_dropNotice b).trans ?_).trans (aside_buildNotice _)
  rfl

theorem aside_resend (f : NoticeInFlight) (b : Blocks) : Aside b (resend f b) := by
  unfold resend
  split <;> rfl

theorem sendReply_blocks (r : RxFrame) (p : List Byte) (s : State) : (sendReply r p s).blocks = s.blocks := by
  unfold sendReply
  split <;> rfl

theorem aside_deliver (s : State) : Aside s.blocks (deliver s).blocks := by
  unfold deliver
  split
  · rfl
  · dsimp only
    split
    · rw [sendReply_blocks]
      rfl
    · rfl

theorem aside_takeNotice (s : State) : Aside s.blocks (takeNotice s).blocks := by
  unfold takeNotice
  split <;> rfl

theorem aside_takeFrame (s : State) : Aside s.blocks (takeFrame s).blocks := by
  unfold takeFrame
  split
  · unfold takeReply
    split <;> rfl
  · exact aside_takeNotice s

theorem aside_settleLine (s : State) : Aside s.blocks (settleLine s).blocks := by
  rcases settleLine_cases s with h | ⟨f, k, _, h⟩ | ⟨f, k, _, h⟩ <;> rw [h] <;> rfl

theorem aside_goodFrame (r : RxFrame) (s : State) : Aside s.blocks (goodFrame r s).blocks := by
  have ack : Aside s.blocks (takeAck r.tag (hunt s)).blocks := by
    unfold takeAck
    split
    · split
      · exact aside_acceptAck _ _
      · rfl
    · rfl
  have app : ∀ x : State, Aside x.blocks (appendFrame r x).blocks := by
    intro x
    unfold appendFrame
    split
    · rfl
    · exact aside_raise _ _
  unfold goodFrame
  dsimp only
  split
  · exact ack.trans (aside_unmute _)
  · exact (aside_unmute s.blocks).trans (app _)

theorem aside_receiveByte (x : Byte) (s : State) : Aside s.blocks (receiveByte x s).blocks := by
  unfold receiveByte
  dsimp only
  repeat' split
  all_goals first | exact aside_raise _ _ | exact aside_goodFrame _ _ | rfl

/-! ### Properties of the blocks that every step keeps -/

/-- Every operation on the blocks keeps a property. -/
structure Closed (P : Blocks → Prop) : Prop where
  aside : ∀ b b', Aside b b' → P b → P b'
  execute : ∀ bc t b kind payload, P b → P (executeFrame bc t b kind payload).blocks
  reset : ∀ x b, P b → P (resetBlocks x b)
  settle : ∀ b, P b → P (settle b)
  edge : ∀ u b, P b → P (takeEdge u b)
  deadline : ∀ c b, P b → P (expireWait c b)
  serve : ∀ b, P b → P (serveBlocked b)
  detect : ∀ u b, (b.unit u).presence = false → P b → P (detectCard u b)
  vacate : ∀ u b, P b → P (emptyUnit u b)
  lose : ∀ u b, P b → P (loseCard u b)
  line : ∀ u level b, P b → P (changeLine u level b)
  freed : ∀ p b, P b → P (b.updArb p fun x => { x with inFlight := none })
  ended : ∀ a e b, P b → P (handEnd a e b)
  affected : ∀ u e b, P b → P (unitEffect u e b)

variable {P : Blocks → Prop}

theorem Closed.askReset (h : Closed P) (x : Scope) (s : State) (hp : P s.blocks) : P (Machine.askReset x s).blocks := by
  unfold Machine.askReset
  split
  · exact hp
  · exact h.reset x _ hp

theorem Closed.executeNew (h : Closed P) (r : RxFrame) (s : State) (hp : P s.blocks) : P (Machine.executeNew r s).blocks := by
  have he := h.execute s.link.baudCode s.link.tally s.blocks r.kind r.payload hp
  unfold Machine.executeNew
  dsimp only
  generalize executeFrame s.link.baudCode s.link.tally s.blocks r.kind r.payload = e at he
  rcases e.reset with _ | x <;> rcases e.answer with p | _ <;> dsimp only
  · rw [sendReply_blocks]
    exact he
  · exact he
  · rw [sendReply_blocks]
    exact h.askReset x _ he
  · exact h.askReset x _ he

theorem Closed.takeRequest (h : Closed P) (s : State) (hp : P s.blocks) : P (Machine.takeRequest s).blocks := by
  unfold Machine.takeRequest
  split
  · unfold handle
    split
    · exact hp
    · exact h.executeNew _ _ hp
  · exact hp

theorem Closed.endStep (h : Closed P) (s : State) (hp : P s.blocks) : P (Machine.endStep s).blocks :=
  h.aside _ _ (aside_settleLine _)
    (h.aside _ _ (aside_deliver _) (h.takeRequest _ (h.aside _ _ (aside_deliver _) hp)))

theorem Closed.onRunning (h : Closed P) {s t : State} {e : Option State} (hp : P s.blocks) (he : ∀ x, e = some x → P x.blocks)
    (ht : Machine.onRunning s e = .next t) : P t.blocks := by
  unfold Machine.onRunning at ht
  split at ht
  · split at ht
    · injection ht with ht
      subst ht
      exact h.endStep _ (he _ rfl)
    · injection ht with ht
      subst ht
      exact hp
  · injection ht with ht
    subst ht
    exact hp

theorem Closed.onSome (h : Closed P) {s t : State} (x : State) (hp : P s.blocks) (ht : Machine.onRunning s (some x) = .next t)
    (hx : P x.blocks) : P t.blocks := h.onRunning hp (fun _ e => by injection e with e; subst e; exact hx) ht

theorem Closed.arrive (h : Closed P) {s t : State} {r : RxFrame} (hp : P s.blocks) (ht : Machine.arrive r s = .next t) : P t.blocks :=
  h.onSome (goodFrame r s) hp ht (h.aside _ _ (aside_goodFrame _ _) hp)

theorem aside_now (b : Blocks) (n : Nat) : Aside b { b with now := n } := rfl

theorem Closed.atTime (h : Closed P) (due : Nat) (s : State) (hp : P s.blocks) : P (Machine.atTime due s).blocks :=
  h.aside _ _ (aside_now _ _) hp

theorem Closed.endAccess (h : Closed P) (p : Port) (a : Access) (e : Ending) (s : State) (hp : P s.blocks) :
    P (Machine.endAccess p a e s).blocks := by
  have hf := h.freed p _ hp
  unfold Machine.endAccess
  dsimp only
  split
  · exact h.ended a e _ hf
  · split
    · exact h.ended a e _ hf
    · exact h.reset _ _ hf

theorem Closed.endCardAccess (h : Closed P) (u : UnitId) (a : Access) (e : Ending) (s : State) (hp : P s.blocks) :
    P (Machine.endCardAccess u a e s).blocks := h.endAccess _ _ _ _ (h.affected u e _ hp)

theorem Closed.atDebounce (h : Closed P) (u : UnitId) (s : State) (hp : P s.blocks) : P (Machine.atDebounce u s).blocks := by
  unfold Machine.atDebounce
  split
  · exact h.atTime _ _ hp
  · exact hp

theorem unit_atDebounce (u v : UnitId) (s : State) : (Machine.atDebounce u s).blocks.unit v = s.blocks.unit v := by
  unfold Machine.atDebounce
  split <;> rfl

/-- Every command but the two of RESET_N keeps what every block operation keeps. -/
theorem Closed.exec (h : Closed P) {c : Instr} {s t : State} (hp : P s.blocks) (hl : c ≠ .resetNLow)
    (hr : ∀ baud msz presence, c ≠ .resetNRelease baud msz presence) (ht : Machine.exec c s = .next t) : P t.blocks := by
  cases c
  case lenErr l =>
    refine h.onRunning hp (fun x e => ?_) ht
    split at e
    · cases e
    · injection e with e
      subst e
      exact h.aside _ _ (aside_raise _ _) hp
  case checkErr => exact h.onSome (checkError s) hp ht (h.aside _ _ (aside_raise _ _) hp)
  case gapErr =>
    refine h.onRunning hp (fun x e => ?_) ht
    rw [Option.map_eq_some_iff] at e
    obtain ⟨due, _, e⟩ := e
    subst e
    exact h.aside _ _ (aside_raise _ _) (h.atTime due _ hp)
  case lineBreak => exact h.onSome (linkReset s) hp ht (h.aside _ _ (aside_breakNotice _) hp)
  case frameTaken =>
    refine h.onRunning hp (fun x e => ?_) ht
    split at e
    · injection e with e
      subst e
      exact h.aside _ _ (aside_takeFrame _) hp
    · cases e
  case replyEnd =>
    refine h.onRunning hp (fun x e => ?_) ht
    split at e
    · injection e with e
      subst e
      exact h.aside _ _ (aside_takeFrame _) (h.atTime _ _ hp)
    · cases e
  case noticeSent =>
    refine h.onRunning hp (fun x e => ?_) ht
    split at e
    · injection e with e
      subst e
      exact h.aside _ _ (aside_takeFrame _) (h.aside (Machine.atTime _ s).blocks _ rfl (h.atTime _ _ hp))
    · cases e
  case resendTimerExpiry =>
    refine h.onRunning hp (fun x e => ?_) ht
    split at e
    · split at e
      · injection e with e
        subst e
        exact h.aside _ _ (aside_resend _ _) (h.atTime _ _ hp)
      · cases e
    · cases e
  case arbiterGrant p =>
    refine h.onRunning hp (fun x e => ?_) ht
    split at e
    · injection e with e
      subst e
      exact h.settle _ hp
    · cases e
  case bufferAccessEnd =>
    change execBufferAccessEnd s = _ at ht
    unfold execBufferAccessEnd at ht
    split at ht
    · injection ht with ht
      subst ht
      exact hp
    · split at ht
      · cases ht
      · exact h.onRunning hp (fun x e => by injection e with e; subst e; exact h.endAccess _ _ _ _ hp) ht
  case doneAnswer u data =>
    refine h.onRunning hp (fun x e => ?_) ht
    rw [Option.map_eq_some_iff] at e
    obtain ⟨a, _, e⟩ := e
    subst e
    exact h.endCardAccess _ _ _ _ hp
  case errorAnswer u =>
    refine h.onRunning hp (fun x e => ?_) ht
    rw [Option.map_eq_some_iff] at e
    obtain ⟨a, _, e⟩ := e
    subst e
    exact h.endCardAccess _ _ _ _ hp
  case accessTimeout =>
    refine h.onRunning hp (fun x e => ?_) ht
    split at e
    · rw [Option.map_eq_some_iff] at e
      obtain ⟨a, _, e⟩ := e
      subst e
      exact h.endCardAccess _ _ _ _ (h.atTime _ _ hp)
    · cases e
  case presenceLineChange u level =>
    change execPresenceLineChange u level s = _ at ht
    unfold execPresenceLineChange at ht
    split at ht <;> injection ht with ht <;> subst ht
    · exact hp
    · exact h.line _ _ _ hp
  case cardDetected u =>
    refine h.onRunning hp (fun x e => ?_) ht
    split at e
    · cases e
    · rename_i hd
      injection e with e
      subst e
      exact h.detect _ _ (by rw [unit_atDebounce]; simpa using hd) (h.atDebounce _ _ hp)
  case cardLost u =>
    refine h.onRunning hp (fun x e => ?_) ht
    have ha := h.atDebounce u _ hp
    have hx : P (onBlock (Machine.atDebounce u s) (if lastBeforeReset u s then emptyUnit u else loseCard u)).blocks := by
      split
      · exact h.vacate u _ ha
      · exact h.lose u _ ha
    split at e
    · dsimp only at e
      split at e <;> injection e with e <;> subst e
      · exact h.endAccess _ _ _ _ hx
      · exact hx
    · cases e
  case requestEdge u => exact h.onSome (onBlock s (takeEdge u)) hp ht (h.edge _ _ hp)
  case deadlineExpiry c =>
    refine h.onRunning hp (fun x e => ?_) ht
    split at e
    · rw [Option.map_eq_some_iff] at e
      obtain ⟨a, _, e⟩ := e
      subst e
      exact h.deadline _ _ (h.atTime _ _ hp)
    · cases e
  case blockedPosterServed =>
    refine h.onRunning hp (fun x e => ?_) ht
    split at e
    · injection e with e
      subst e
      exact h.serve _ hp
    · cases e
  case resetTakesEffect =>
    refine h.onRunning hp (fun x e => ?_) ht
    split at e
    · split at e
      · cases e
      · injection e with e
        subst e
        exact h.reset _ _ hp
    · cases e
  case resetNLow => exact absurd rfl hl
  case resetNRelease baud msz presence => exact absurd rfl (hr baud msz presence)
  case startUpEnd =>
    change execStartUpEnd s = _ at ht
    unfold execStartUpEnd at ht
    split at ht <;> injection ht with ht <;> subst ht
    · refine h.endStep _ (h.aside _ _ (aside_buildNotice _) (h.aside s.blocks _ ?_ hp))
      rfl
    · exact hp
  case characterReceived x => exact h.onSome (receiveByte x s) hp ht (h.aside _ _ (aside_receiveByte _ _) hp)
  all_goals exact h.arrive hp ht

/-- A step is a tick of the clock or the command at the front. -/
theorem step_cases {s t : State} (h : Machine.step s = .next t) :
    (s.pending = [] ∧ t = Machine.idle s) ∨ ∃ c rest, s.pending = c :: rest ∧ Machine.exec c { s with pending := rest } = .next t := by
  unfold Machine.step at h
  split at h
  · rename_i e; injection h with h; exact .inl ⟨e, h.symm⟩
  · rename_i c rest e; exact .inr ⟨c, rest, e, h⟩

theorem aside_idle (s : State) : Aside s.blocks (Machine.idle s).blocks := by
  unfold Machine.idle
  split
  · rfl
  · split
    · rfl
    · exact aside_now _ _

/-- Every step keeps what every block operation keeps, when the two commands of RESET_N do. -/
theorem Closed.step (h : Closed P) {s t : State} (hp : P s.blocks) (hlow : P (cutBlocks s.blocks))
   (hcold : ∀ s' t' baud msz presence, s'.blocks = s.blocks → execResetNRelease baud msz presence s' = .next t' → P t'.blocks)
   (ht : Machine.step s = .next t) : P t.blocks := by
  rcases step_cases ht with ⟨_, rfl⟩ | ⟨c, rest, _, hx⟩
  · exact h.aside _ _ (aside_idle s) hp
  · by_cases h1 : c = .resetNLow
    · subst h1
      change execResetNLow _ = _ at hx
      unfold execResetNLow at hx
      split at hx <;> injection hx with hx <;> subst hx
      · exact hp
      · exact hlow
    · by_cases h2 : ∃ baud msz presence, c = .resetNRelease baud msz presence
      · obtain ⟨baud, msz, presence, rfl⟩ := h2
        exact hcold { s with pending := rest } t baud msz presence rfl hx
      · exact h.exec (s := { s with pending := rest }) hp h1 (fun a b c' e => h2 ⟨a, b, c', e⟩) hx

end Sys2Proof.Laws
end

