-- ==== Sys2Proof/Laws/Basic.lean ====
section
/-! SUPPORT. A property of the blocks that says nothing about channels, arbiters and notices is kept by every block operation as soon
as the few operations that write the other tables keep it. -/

namespace Sys2Proof.Laws

open Sys2Proof.Machine Sys2Proof.Safety

/-! ### What the actions move -/

/-- The blocks without the link agent and the hand-over. -/
def bare (b : Blocks) : Blocks := { b with agent := none, handover := none }

/-- What an action that may also use the link agent or hand over leaves alone. -/
def Moved (b b' : Blocks) : Prop := Kept (bare b) (bare b')

theorem Kept.moved {b b' : Blocks} (h : Kept b b') : Moved b b' :=
  ⟨h.now, h.resetCause, h.mszCode, h.pool, h.members, h.isOpen, h.freed, h.entries, h.frozen, h.mask, h.unit, fun _ => ⟨rfl, rfl⟩,
   h.queue⟩

theorem Moved.trans {x y z : Blocks} (h : Moved x y) (k : Moved y z) : Moved x z := Kept.trans h k

theorem moved_agent (b : Blocks) (o : Option AgentOp) (x : Option Handover) : Moved b { b with agent := o, handover := x } :=
  Kept.refl (bare b)

theorem moved_countAccess (c : ChanId) (kind : DescKind) (a : Access) (data : List Byte) (b : Blocks) :
    Kept b (b.updChan c (countAccess kind a data)) := kept_updChan _ _ _

theorem moved_handChannel (c : ChanId) (b : Blocks) : Moved b (handChannel c b) :=
  ((kept_updChan b c _).moved).trans (moved_agent _ (b.updChan c _).agent _)

theorem kept_endStopped (c : ChanId) (a : Access) (e : Ending) (d : Descriptor) (b : Blocks) : Kept b (endStopped c a e d b) := by
  unfold endStopped
  split
  · exact (kept_updChan _ _ _).trans (kept_stopRun _ _)
  · exact kept_stopRun _ _

theorem kept_endHeld (c : ChanId) (a : Access) (e : Ending) (d : Descriptor) (b : Blocks) : Kept b (endHeld c a e d b) := by
  unfold endHeld
  split
  · dsimp only
    split
    · exact (kept_updChan b c _).trans (kept_complete _ _ _)
    · exact ((kept_updChan b c _).trans (kept_updChan _ c _)).trans (kept_enterHeld _ _)
  · exact kept_fault _ _ _ _

theorem kept_endGoing (c : ChanId) (a : Access) (e : Ending) (d : Descriptor) (b : Blocks) : Kept b (endGoing c a e d b) := by
  unfold endGoing
  split
  · dsimp only
    split
    · exact (kept_updChan b c _).trans (kept_complete _ _ _)
    · exact (kept_updChan b c _).trans (kept_request _ _)
  · exact kept_fault _ _ _ _

theorem moved_endOfChannel (c : ChanId) (a : Access) (e : Ending) (b : Blocks) : Moved b (endOfChannel c a e b) := by
  unfold endOfChannel
  split
  · exact Kept.refl _
  · split
    · exact (kept_endStopped c a e _ b).moved.trans (moved_handChannel _ _)
    · split
      · exact (kept_endHeld c a e _ b).moved.trans (moved_handChannel _ _)
      · exact (kept_endGoing c a e _ b).moved

theorem moved_endOfAgent (a : Access) (e : Ending) (b : Blocks) : Moved b (endOfAgent a e b) := by
  unfold endOfAgent
  split
  · exact Kept.refl _
  · dsimp only
    split
    · exact moved_agent b none _
    · exact (moved_agent b _ b.handover).trans (kept_request _ _).moved
  · exact moved_agent b none _

theorem moved_endOfOwner (a : Access) (e : Ending) (b : Blocks) : Moved b (endOfOwner a e b) := by
  unfold endOfOwner
  split
  · exact moved_endOfChannel _ _ _ _
  · exact moved_endOfAgent _ _ _

theorem moved_handEnd (a : Access) (e : Ending) (b : Blocks) : Moved b (handEnd a e b) :=
  (((kept_grants b).trans (kept_foldl giveBack kept_giveBack _ _)).moved.trans (moved_endOfOwner a e _)).trans (kept_settle _).moved

/-! ### The requests that act on channels -/

theorem kept_bindChain (c : ChanId) (h : Handle) (b : Blocks) : Kept b (bindChain c h b) :=
  (kept_updChain b h _ rfl rfl (by simp)).trans (kept_updChan _ _ _)

theorem kept_answerChannel (c : ChanId) {b x : Blocks} (h : Kept b x) : Kept b (answerChannel c x).1 := h.trans (kept_settle x)

theorem kept_onChannel (payload : List Byte) (b : Blocks) (f : ChanId → Blocks × Answer) (h : ∀ c, Kept b (f c).1) :
    Kept b (onChannel payload b f).1 := by
  unfold onChannel
  split
  · exact .refl b
  · exact h _

theorem kept_requestStart (payload : List Byte) (b : Blocks) : Kept b (requestStart payload b).1 := by
  refine kept_onChannel _ _ _ fun c => ?_
  split
  · exact .refl b
  · split
    · exact .refl b
    · split
      · exact .refl b
      · exact kept_answerChannel c ((kept_bindChain _ _ _).trans (kept_proceed _ _))

theorem kept_requestHold (payload : List Byte) (b : Blocks) : Kept b (requestHold payload b).1 := by
  refine kept_onChannel _ _ _ fun c => ?_
  split
  · split
    · exact kept_updChan b c fun ch => { ch with holdRequested := true }
    · exact kept_answerChannel c (((kept_withdrawRequest _ _).trans (kept_updChan _ _ _)).trans (kept_enterHeld _ _))
  · exact kept_answerChannel c (((kept_leaveWait _ _).trans (kept_updChan _ _ _)).trans (kept_enterHeld _ _))
  · exact kept_answerChannel c (kept_enterHeld _ _)
  · exact kept_answerChannel c (.refl b)
  · split
    · exact kept_answerChannel c (kept_updChan _ _ _)
    · exact kept_answerChannel c (kept_updChan _ _ _)
    · exact .refl b
  · exact .refl b
  · exact .refl b

theorem kept_requestResume (payload : List Byte) (b : Blocks) : Kept b (requestResume payload b).1 := by
  refine kept_onChannel _ _ _ fun c => ?_
  split
  · split
    · exact kept_answerChannel c ((kept_updChan _ _ _).trans (kept_request _ _))
    · exact kept_answerChannel c (kept_proceed _ _)
  · split
    · exact kept_answerChannel c (kept_updChan _ _ _)
    · exact .refl b
  · exact .refl b

theorem kept_stopBlocked (c : ChanId) (b : Blocks) : Kept b (stopBlocked c b) := by
  unfold stopBlocked
  split
  · exact .refl b
  · exact (kept_pushRecord _ _ _).trans (kept_updChan _ _ _)

theorem kept_requestStop (payload : List Byte) (b : Blocks) : Kept b (requestStop payload b).1 := by
  refine kept_onChannel _ _ _ fun c => ?_
  split
  · exact .refl b
  · split
    · exact kept_updChan b c fun ch => { ch with stopRequested := true }
    · exact kept_answerChannel c ((kept_withdrawRequest _ _).trans (kept_stopRun _ _))
  · exact kept_answerChannel c ((kept_leaveWait _ _).trans (kept_stopRun _ _))
  · exact kept_answerChannel c (kept_stopBlocked _ _)
  all_goals exact kept_answerChannel c (kept_stopRun _ _)

theorem kept_onFaulted (payload : List Byte) (b : Blocks) (f : ChanId → Blocks) (h : ∀ c, Kept b (f c)) :
    Kept b (onFaulted payload b f).1 := by
  refine kept_onChannel _ _ _ fun c => ?_
  split
  · exact kept_answerChannel c (h c)
  · exact .refl b

theorem kept_requestRetry (payload : List Byte) (b : Blocks) : Kept b (requestRetry payload b).1 :=
  kept_onFaulted _ _ _ fun _ => (kept_updChan _ _ _).trans (kept_proceed _ _)

theorem kept_requestSkip (payload : List Byte) (b : Blocks) : Kept b (requestSkip payload b).1 :=
  kept_onFaulted _ _ _ fun _ => ((kept_updChan _ _ _).trans (kept_moveCursor _ _ _)).trans (kept_run _ _ _)

theorem kept_requestClear (payload : List Byte) (b : Blocks) : Kept b (requestClear payload b).1 :=
  kept_onFaulted _ _ _ fun _ => kept_enterIdle _ _

theorem kept_endStarved (h : Handle) (b : Blocks) : Kept b (endStarved h b) := by
  unfold endStarved
  split
  · exact .refl b
  · split
    · exact (kept_proceed _ _).trans (kept_settle _)
    · exact .refl b

theorem kept_wakeBound (h : Handle) (first : Nat) (b : Blocks) : Kept b (wakeBound h first b) := by
  unfold wakeBound
  split
  · exact .refl b
  · split
    · dsimp only
      split
      · exact ((kept_updChan _ _ _).trans (kept_proceed _ _)).trans (kept_settle _)
      · exact kept_updChan _ _ _
    · exact .refl b

theorem moved_beginAgent (o : AgentOp) (b : Blocks) : Moved b (beginAgent o b).1 := by
  have acc : ∀ x, Kept b x → Moved b (settle (request .link { x with agent := some o })) := fun x h =>
    (h.moved.trans (moved_agent x _ x.handover)).trans ((kept_request _ _).trans (kept_settle _)).moved
  have hr := fun dir => kept_rangeCheck o.offset o.count dir .link b
  unfold beginAgent
  dsimp only
  split
  · split
    · exact Kept.refl _
    · split
      · rename_i heq
        have e := congrArg Prod.fst heq
        dsimp only at e
        exact (e ▸ hr _).moved
      · rename_i heq
        have e := congrArg Prod.fst heq
        dsimp only at e
        exact acc _ (e ▸ hr _)
  · split
    · split
      · exact Kept.refl _
      · exact acc _ (.refl b)
    · exact Kept.refl _
    · exact Kept.refl _

/-! ### Properties of the other tables -/

/-- The entry of a unit whose card has gone (R121). -/
def goneUnit (e : UnitEntry) : UnitEntry :=
  { e with
    presence := false, state := .empty, debounceDue := none, line := false, window := none, timeout := Config.defaultTimeout
    slotEnable := false, latch := false, deactPending := false }

/-- A unit that becomes EMPTY changes its entry, and UNIT is raised (R121). -/
theorem emptyUnit_eq (u : UnitId) (b : Blocks) : emptyUnit u b = raise .unit (b.updUnit u goneUnit) := rfl

/-- The entry of a unit whose card has been detected (R120). -/
def seenUnit (e : UnitEntry) : UnitEntry := { e with presence := true, state := .present, debounceDue := none, line := true }

theorem kept_barPorts (b : Blocks) : Kept b (barPorts b) :=
  (kept_bufPort b { b.bufPort with barred := true }).trans (kept_slotPort _ { b.slotPort with barred := true })

theorem validHandle_ne {b : Blocks} {n : Nat} {h : Handle} (e : validHandle b n = some h) : (b.chain h).state ≠ .free := by
  unfold validHandle at e
  rw [Option.bind_eq_some_iff] at e
  obtain ⟨k, _, e⟩ := e
  split at e
  · cases e
  · injection e with e
    subst e
    assumption

/-- The operations that write the chains' members, the pool, the guard entries, the units' configuration or the records keep a
property that no other action can touch. -/
structure Basic (P : Blocks → Prop) : Prop where
  aside : ∀ b b', Aside b b' → P b → P b'
  moved : ∀ b b', Moved b b' → P b → P b'
  reset : ∀ x b, P b → P (resetBlocks x b)
  build : ∀ h isOpen ds b, (b.chain h).state = .free → ds.length ≤ b.pool.length → P b → P (buildChain h isOpen ds b)
  extend : ∀ h ds b, (b.chain h).state ≠ .free → ds.length ≤ b.pool.length → P b → P (extendChain h ds b)
  close : ∀ h b, (b.chain h).state ≠ .free → P b → P (b.updChain h fun x => { x with isOpen := false })
  drop : ∀ h b, (b.chain h).state ≠ .bound → P b → P (dropChain h b)
  collect : ∀ k b, P b → P { b with queue := { b.queue with records := b.queue.records.drop k } }
  guard : ∀ (i : GuardId) x b, b.guards.frozen = false → P b →
    P { b with guards := { b.guards with entries := b.guards.entries.set i.val x } }
  freeze : ∀ b, P b → P { b with guards := { b.guards with frozen := true } }
  set : ∀ u w timeout b, unitFieldsOk w timeout = true → timeout < 256 → P b →
    (b.unit u).state = .present ∨ (b.unit u).state = .fenced ∧ overlapsInUse u w b = false →
    P (b.updUnit u fun e => { e with window := some w, timeout := timeout })
  unfence : ∀ u b, (b.unit u).state = .fenced → P b → P (b.updUnit u fun e => { e with state := .active })
  activate : ∀ u w b, (b.unit u).state = .present → (b.unit u).window = some w → overlapsInUse u w b = false → P b →
    P (b.updUnit u fun e => { e with state := .active, slotEnable := true, latch := false })
  defer : ∀ u b, InUse (b.unit u) → P b → P (b.updUnit u fun e => { e with deactPending := true })
  release : ∀ u b, InUse (b.unit u) ∨ (b.unit u).deactPending = true → P b → P (releaseUnit u b)
  fence : ∀ u b, P b → P (b.updUnit u fence)
  seen : ∀ u b, (b.unit u).presence = false → P b → P (b.updUnit u seenUnit)
  gone : ∀ u b, P b → P (b.updUnit u goneUnit)
  line : ∀ u level b, P b → P (changeLine u level b)

variable {P : Blocks → Prop}

theorem Basic.kept (h : Basic P) {b b' : Blocks} (k : Kept b b') (hp : P b) : P b' := h.moved b b' k.moved hp

theorem Basic.requestChainNew (h : Basic P) (payload : List Byte) (b : Blocks) (hp : P b) : P (Machine.requestChainNew payload b).1 := by
  unfold Machine.requestChainNew
  dsimp only
  split
  · exact hp
  · split
    · exact hp
    · split
      · exact hp
      · split
        · exact hp
        · rename_i hl
          split
          · exact hp
          · refine h.build _ _ _ _ ?_ (by omega) hp
            simpa using List.find?_some hl

theorem Basic.requestChainAppend (h : Basic P) (payload : List Byte) (b : Blocks) (hp : P b) :
    P (Machine.requestChainAppend payload b).1 := by
  unfold Machine.requestChainAppend
  dsimp only
  split
  · exact hp
  · rename_i hv
    split
    · exact hp
    · split
      · exact hp
      · split
        · exact hp
        · refine h.kept (kept_wakeBound _ _ _) (h.extend _ _ _ ?_ (by omega) hp)
          exact validHandle_ne hv

theorem Basic.deactivate (h : Basic P) (u : UnitId) (b : Blocks) (hu : InUse (b.unit u) ∨ (b.unit u).deactPending = true) (hp : P b) :
    P (Machine.deactivate u b) := h.kept (kept_faultWaiters _ _ _) (h.release u b hu hp)

theorem onUnit_keeps (payload : List Byte) (b : Blocks) (f : UnitId → Blocks × Answer) (hp : P b)
    (hf : ∀ u, P (f u).1) : P (Machine.onUnit payload b f).1 := by
  unfold Machine.onUnit
  split
  · exact hp
  · exact hf _

theorem fieldAt_byte_lt (payload : List Byte) (p : Nat) : fieldAt payload p 1 < 256 := by
  unfold fieldAt
  rcases payload.drop p with _ | ⟨x, l⟩
  · simp [beNat]
  · simpa [beNat] using x.isLt

theorem Basic.requestUnitSet (h : Basic P) (payload : List Byte) (b : Blocks) (hp : P b) : P (Machine.requestUnitSet payload b).1 := by
  refine onUnit_keeps _ _ _ hp fun u => ?_
  split
  · exact hp
  · rename_i hs
    dsimp only
    split
    · exact hp
    · rename_i hok
      split
      · exact hp
      · rename_i ho
        refine h.set _ _ _ _ (by simpa using hok) (fieldAt_byte_lt _ _) hp ?_
        rcases hst : (b.unit u).state <;> simp_all

theorem Basic.requestUnitActivate (h : Basic P) (payload : List Byte) (b : Blocks) (hp : P b) :
    P (Machine.requestUnitActivate payload b).1 := by
  refine onUnit_keeps _ _ _ hp fun u => ?_
  split
  · exact hp
  · exact hp
  · exact h.unfence _ _ (by assumption) hp
  · split
    · exact hp
    · split
      · exact hp
      · rename_i ho
        exact h.activate _ _ _ (by assumption) (by assumption) (by simpa using ho) hp

theorem Basic.requestUnitDeactivate (h : Basic P) (payload : List Byte) (b : Blocks) (hp : P b) :
    P (Machine.requestUnitDeactivate payload b).1 := by
  refine onUnit_keeps _ _ _ hp fun u => ?_
  have go : InUse (b.unit u) → ∀ force : Bool, P (if force = true then
      if b.unitAccessed u = true then (b.updUnit u fun e => { e with deactPending := true }, Answer.deferred)
      else answerUnit u (Machine.deactivate u b)
    else if unitInUse u b = true then refuseUnit .unitBusy u b else answerUnit u (releaseUnit u b)).1 := by
    intro hu force
    split
    · split
      · exact h.defer _ _ hu hp
      · exact h.deactivate _ _ (.inl hu) hp
    · split
      · exact hp
      · exact h.release _ _ (.inl hu) hp
  split
  · exact hp
  · split
    · exact hp
    · exact hp
    · exact go (.inl (by assumption)) _
    · exact go (.inr (by assumption)) _

theorem Basic.executeKind (h : Basic P) (bc : BitVec 2) (t : Tally) (b : Blocks) (payload : List Byte) (k : RequestKind) (hp : P b) :
    P (Machine.executeKind bc t b payload k).blocks := by
  cases k
  case hello => exact hp
  case status => exact hp
  case reset =>
    change P (requestReset payload t b).blocks
    unfold requestReset
    split
    · exact hp
    · exact h.kept (kept_barPorts b) hp
  case linkTally => exact hp
  case noticeMask =>
    change P (requestNoticeMask payload b).1
    unfold requestNoticeMask
    dsimp only
    split
    · exact hp
    · exact h.aside _ _ rfl hp
  case chainNew => exact h.requestChainNew _ _ hp
  case chainAppend => exact h.requestChainAppend _ _ hp
  case chainClose =>
    change P (requestChainClose payload b).1
    unfold requestChainClose
    split
    · exact hp
    · rename_i hv
      exact h.kept (kept_endStarved _ _) (h.close _ _ (validHandle_ne hv) hp)
  case chainDrop =>
    change P (requestChainDrop payload b).1
    unfold requestChainDrop
    split
    · exact hp
    · dsimp only
      split
      · exact hp
      · exact h.drop _ _ (by assumption) hp
  case chainQuery =>
    change P (requestChainQuery payload b).1
    unfold requestChainQuery
    split <;> exact hp
  case slotRead =>
    change P (requestSlotRead payload b).1
    unfold requestSlotRead
    dsimp only
    split
    · exact hp
    · split <;> exact hp
  case channelStart => exact h.kept (kept_requestStart _ _) hp
  case channelHold => exact h.kept (kept_requestHold _ _) hp
  case channelResume => exact h.kept (kept_requestResume _ _) hp
  case channelStop => exact h.kept (kept_requestStop _ _) hp
  case channelRetry => exact h.kept (kept_requestRetry _ _) hp
  case channelSkip => exact h.kept (kept_requestSkip _ _) hp
  case channelClear => exact h.kept (kept_requestClear _ _) hp
  case channelQuery =>
    refine h.kept (kept_onChannel payload b _ fun c => ?_) hp
    exact .refl b
  case collect =>
    change P (requestCollect payload b).1
    unfold requestCollect Machine.collect
    dsimp only
    split
    · exact hp
    · split
      · exact h.collect _ _ hp
      · exact h.kept (kept_serveBlocked _) (h.collect _ _ hp)
  case unitSet => exact h.requestUnitSet _ _ hp
  case unitActivate => exact h.requestUnitActivate _ _ hp
  case unitDeactivate => exact h.requestUnitDeactivate _ _ hp
  case unitQuery => exact onUnit_keeps _ _ _ hp fun _ => hp
  case guardSet =>
    change P (requestGuardSet payload b).1
    unfold requestGuardSet
    split
    · exact hp
    · split
      · exact hp
      · rename_i hf
        split
        · exact hp
        · exact h.guard _ _ _ (by simpa using hf) hp
  case guardFreeze => exact h.freeze _ hp
  case guardQuery =>
    change P (requestGuardQuery payload b).1
    unfold requestGuardQuery
    split
    · exact hp
    · dsimp only
      split
      · exact h.kept (kept_hits b _) hp
      · exact hp
  case peek =>
    change P (requestPeek payload b).1
    unfold requestPeek
    dsimp only
    split
    · exact hp
    · split
      · exact hp
      · exact h.moved _ _ (moved_beginAgent _ _) hp
  case poke =>
    change P (requestPoke payload b).1
    unfold requestPoke
    dsimp only
    split
    · exact hp
    · exact h.moved _ _ (moved_beginAgent _ _) hp

theorem Basic.deactivatePending (h : Basic P) (u : UnitId) (b : Blocks) (hp : P b) : P (Machine.deactivatePending u b) := by
  unfold Machine.deactivatePending
  split
  · exact h.aside (Machine.deactivate u b) _ rfl (h.deactivate _ _ (.inr (by assumption)) hp)
  · exact hp

/-- What the operations on the other tables keep, every block operation keeps. -/
theorem Basic.closed (h : Basic P) : Closed P where
  aside := h.aside
  execute := fun bc t b kind payload hp => by
    unfold executeFrame
    split
    · exact hp
    · split
      · exact h.executeKind _ _ _ _ _ hp
      · exact hp
  reset := h.reset
  settle := fun _ => h.kept (kept_settle _)
  edge := fun _ _ => h.kept (kept_takeEdge _ _)
  deadline := fun _ _ => h.kept (kept_expireWait _ _)
  serve := fun _ => h.kept (kept_serveBlocked _)
  detect := fun u b hd hp => h.aside _ _ (aside_raise _ _) (h.seen u b hd hp)
  vacate := fun u b hp => h.aside _ _ (aside_raise .unit _) (h.gone u b hp)
  lose := fun u b hp => by
    have hx := h.kept (kept_faultWaiters u .unitGone _) (h.aside _ _ (aside_raise .unit _) (h.gone u b hp))
    unfold loseCard
    dsimp only
    split
    · exact h.aside _ _ rfl hx
    · exact hx
  line := h.line
  freed := fun p b => h.kept (kept_updArb b p _)
  ended := fun a e b => h.moved _ _ (moved_handEnd a e b)
  affected := fun u e b hp => by
    unfold unitEffect
    split
    · exact h.deactivatePending _ _ (h.aside _ _ (aside_raise _ _) (h.fence u b hp))
    · exact h.deactivatePending _ _ hp

end Sys2Proof.Laws
end

