-- ==== Sys2Proof/Laws/Bound.lean ====
section
/-! SUPPORT. The law of bound chains: a channel in mid-action satisfies it but for its own state (`Loose`), and each action ends with the
law in force again. -/

namespace Sys2Proof.Laws

open Sys2Proof.Machine Sys2Proof.Safety

/-! ### Chains and channels as they were -/

/-- The chains, and what the law reads of every channel, are as they were. -/
structure Same (b b' : Blocks) : Prop where
  chain : ∀ h, b'.chain h = b.chain h
  state : ∀ c, (b'.chan c).state = (b.chan c).state
  handle : ∀ c, (b'.chan c).handle = (b.chan c).handle
  continuation : ∀ c, (b'.chan c).continuation = (b.chan c).continuation

theorem Same.refl (b : Blocks) : Same b b := ⟨fun _ => rfl, fun _ => rfl, fun _ => rfl, fun _ => rfl⟩

theorem Same.trans {x y z : Blocks} (h : Same x y) (k : Same y z) : Same x z :=
  ⟨fun i => (k.chain i).trans (h.chain i), fun i => (k.state i).trans (h.state i), fun i => (k.handle i).trans (h.handle i),
   fun i => (k.continuation i).trans (h.continuation i)⟩

/-- The tables of chains and channels are untouched. -/
theorem Same.of {b b' : Blocks} (h : b'.chains = b.chains) (k : b'.chans = b.chans) : Same b b' := by
  have e : ∀ c, b'.chan c = b.chan c := fun c => by unfold Blocks.chan; rw [k]
  exact ⟨fun i => by unfold Blocks.chain; rw [h], fun c => by rw [e], fun c => by rw [e], fun c => by rw [e]⟩

theorem Same.after {b b' x : Blocks} (s : Same b' x) (h : b'.chains = b.chains) (k : b'.chans = b.chans) : Same b x :=
  (Same.of h k).trans s

/-- An update of a channel that writes none of the three fields. -/
theorem same_updChan (b : Blocks) (c : ChanId) (f : Channel → Channel) (h1 : (f (b.chan c)).state = (b.chan c).state)
    (h2 : (f (b.chan c)).handle = (b.chan c).handle) (h3 : (f (b.chan c)).continuation = (b.chan c).continuation) :
    Same b (b.updChan c f) := by
  have e : ∀ d, d = c ∨ (b.updChan c f).chan d = b.chan d := fun d => by
    by_cases hd : d = c
    · exact .inl hd
    · exact .inr (chan_updChan_ne f hd)
  refine ⟨fun _ => rfl, fun d => ?_, fun d => ?_, fun d => ?_⟩ <;> rcases e d with rfl | e' <;> simp_all

theorem same_raise (x : Source) (b : Blocks) : Same b (raise x b) := by
  rw [raise_eq]
  exact Same.of rfl rfl

theorem same_acceptRecord (r : Record) (b : Blocks) : Same b (acceptRecord r b) := by
  unfold acceptRecord
  dsimp only
  have h : Same b (raise .records { b with queue := { b.queue with
      records := b.queue.records ++ [{ r with seq := some b.queue.nextSeq }], nextSeq := b.queue.nextSeq + 1 } }) :=
    Same.after (same_raise _ _) rfl rfl
  split
  · exact h.trans (same_raise _ _)
  · exact h

theorem same_offerAll (c : ChanId) (rs : List Record) (b : Blocks) : Same b (offerAll c rs b) := by
  induction rs generalizing b with
  | nil => exact same_updChan b c _ rfl rfl rfl
  | cons r rs ih =>
    unfold offerAll
    split
    · exact (same_acceptRecord r b).trans (ih _)
    · exact same_updChan b c _ rfl rfl rfl

theorem same_postOutbox (c : ChanId) (b : Blocks) : Same b (postOutbox c b) := same_offerAll _ _ _

theorem same_pushRecord (c : ChanId) (r : Record) (b : Blocks) : Same b (pushRecord c r b) := same_updChan b c _ rfl rfl rfl

theorem same_moveCursor (c : ChanId) (rest : List Member) (b : Blocks) : Same b (moveCursor c rest b) := same_updChan b c _ rfl rfl rfl

theorem same_updUnit (b : Blocks) (u : UnitId) (f : UnitEntry → UnitEntry) : Same b (b.updUnit u f) := Same.of rfl rfl

theorem same_emptyUnit (u : UnitId) (b : Blocks) : Same b (emptyUnit u b) :=
  (same_updUnit b u _).trans (same_raise .unit _)

theorem same_updArb (b : Blocks) (p : Port) (f : Arbiter → Arbiter) : Same b (b.updArb p f) := by
  cases p <;> exact Same.of rfl rfl

theorem same_request (r : Requester) (b : Blocks) : Same b (request r b) := by
  unfold request
  split
  · exact same_updArb _ _ _
  · exact .refl b

theorem same_rangeCheck (o l : Nat) (dir : Dir) (agent : Agent) (b : Blocks) : Same b (rangeCheck o l dir agent b).1 := by
  unfold rangeCheck
  split
  · unfold chargeGuard
    exact Same.after (same_raise _ _) rfl rfl
  · exact .refl b

theorem same_guardFault (o l : Nat) (dir : Dir) (b : Blocks) (s : Space) : Same b (guardFault o l dir b s).1 := by
  unfold guardFault
  split
  · have h := same_rangeCheck o l dir .channels b
    split <;> simp_all
  · exact .refl b

theorem same_checkStart (d : Descriptor) (b : Blocks) : Same b (checkStart d b).1 := by
  unfold checkStart
  split
  · exact .refl b
  · have h1 : Same b (if d.kind.hasSource then guardFault d.srcOff.toNat d.length.toNat .read b d.src else (b, none)).1 := by
      split
      · exact same_guardFault _ _ _ _ _
      · exact .refl b
    split
    · simp_all
    · rename_i b1 heq
      rw [heq] at h1
      split
      · exact h1.trans (same_guardFault _ _ _ _ _)
      · exact h1

theorem same_leaveWaiters (b : Blocks) (u : UnitId) (c : ChanId) : Same b (b.leaveWaiters u c) :=
  (same_updUnit b u _).trans (same_updChan _ c _ rfl rfl rfl)

theorem same_withdrawRequest (b : Blocks) (r : Requester) : Same b (b.withdrawRequest r) := Same.of rfl rfl

theorem same_leaveWait (b : Blocks) (c : ChanId) : Same b (b.leaveWait c) := by
  unfold Blocks.leaveWait
  split
  · exact same_leaveWaiters _ _ _
  · exact same_updChan b c _ rfl rfl rfl

theorem same_grantBuffer (b : Blocks) : Same b (grantBuffer b) := by
  unfold grantBuffer
  split
  · exact .refl b
  · exact Same.of rfl rfl

theorem same_grantSlot (k : Nat) (b : Blocks) : Same b (grantSlot k b).1 := by
  induction k generalizing b with
  | zero => exact .refl b
  | succ k ih =>
    unfold grantSlot
    split
    · exact .refl b
    · split
      · exact Same.after (ih _) rfl rfl
      · split
        · exact Same.of rfl rfl
        · exact Same.after (ih _) rfl rfl

theorem same_grants (b : Blocks) : Same b (grants b).1 := (same_grantBuffer b).trans (same_grantSlot _ _)

/-! ### The law while a channel acts -/

/-- The law but for the state and the continuation of one channel, which is in a run. -/
structure Loose (c : ChanId) (b : Blocks) : Prop where
  both : ∀ d h, (b.chan d).handle = some h ↔ (b.chain h).boundTo = some d
  bound : ∀ h, (b.chain h).state = .bound ↔ (b.chain h).boundTo.isSome
  idle : ∀ d, d ≠ c → ((b.chan d).state = .idle ↔ (b.chan d).handle = none)
  blocked : ∀ d, d ≠ c → ((b.chan d).state = .blocked ↔ (b.chan d).continuation.isSome)
  runs : (b.chan c).handle ≠ none

end Sys2Proof.Laws

namespace Sys2Proof.Safety

open Sys2Proof.Machine Sys2Proof.Laws

theorem BoundOk.same {b b' : Blocks} (h : BoundOk b) (s : Same b b') : BoundOk b' :=
  ⟨fun c i => by rw [s.handle, s.chain]; exact h.both c i, fun i => by rw [s.chain]; exact h.bound i,
   fun c => by rw [s.state, s.handle]; exact h.idle c, fun c => by rw [s.state, s.continuation]; exact h.blocked c⟩

end Sys2Proof.Safety

namespace Sys2Proof.Laws

open Sys2Proof.Machine Sys2Proof.Safety

theorem Loose.same {c : ChanId} {b b' : Blocks} (h : Loose c b) (s : Same b b') : Loose c b' :=
  ⟨fun d i => by rw [s.handle, s.chain]; exact h.both d i, fun i => by rw [s.chain]; exact h.bound i,
   fun d e => by rw [s.state, s.handle]; exact h.idle d e, fun d e => by rw [s.state, s.continuation]; exact h.blocked d e,
   by rw [s.handle]; exact h.runs⟩

end Sys2Proof.Laws

namespace Sys2Proof.Safety

open Sys2Proof.Machine Sys2Proof.Laws

theorem BoundOk.loose {b : Blocks} (h : BoundOk b) {c : ChanId} (hr : (b.chan c).handle ≠ none) : Loose c b :=
  ⟨h.both, h.bound, fun d _ => h.idle d, fun d _ => h.blocked d, hr⟩

theorem BoundOk.loose_of_state {b : Blocks} (h : BoundOk b) {c : ChanId} (hr : (b.chan c).state ≠ .idle) : Loose c b :=
  h.loose fun e => hr ((h.idle c).2 e)

end Sys2Proof.Safety

namespace Sys2Proof.Laws

open Sys2Proof.Machine Sys2Proof.Safety

/-- An update that keeps the handle leaves the law loose. -/
theorem Loose.upd {c : ChanId} {b : Blocks} (h : Loose c b) (f : Channel → Channel) (h1 : (f (b.chan c)).handle = (b.chan c).handle) :
    Loose c (b.updChan c f) := by
  refine ⟨fun d i => ?_, h.bound, fun d e => ?_, fun d e => ?_, ?_⟩
  · by_cases e : d = c
    · subst e
      rw [chan_updChan_self, h1]
      exact h.both d i
    · rw [chan_updChan_ne f e]
      exact h.both d i
  · rw [chan_updChan_ne f e]
    exact h.idle d e
  · rw [chan_updChan_ne f e]
    exact h.blocked d e
  · rw [chan_updChan_self, h1]
    exact h.runs

/-- A channel that enters a state of a run puts the law in force again. -/
theorem Loose.close {c : ChanId} {b : Blocks} (h : Loose c b) (h1 : (b.chan c).state ≠ .idle)
    (h2 : (b.chan c).state = .blocked ↔ (b.chan c).continuation.isSome) : BoundOk b := by
  refine ⟨h.both, h.bound, fun d => ?_, fun d => ?_⟩
  · by_cases e : d = c
    · subst e
      exact ⟨fun x => absurd x h1, fun x => absurd x h.runs⟩
    · exact h.idle d e
  · by_cases e : d = c
    · subst e
      exact h2
    · exact h.blocked d e

theorem Loose.enter {c : ChanId} {b : Blocks} (h : Loose c b) (f : Channel → Channel) (h1 : (f (b.chan c)).handle = (b.chan c).handle)
    (h2 : (f (b.chan c)).state ≠ .idle) (h3 : (f (b.chan c)).state = .blocked ↔ (f (b.chan c)).continuation.isSome) :
    BoundOk (b.updChan c f) :=
  (h.upd f h1).close (by rw [chan_updChan_self]; exact h2) (by rw [chan_updChan_self]; exact h3)

theorem Loose.enterHeld {c : ChanId} {b : Blocks} (h : Loose c b) : BoundOk (Machine.enterHeld c b) :=
  (h.enter _ rfl (by simp) (by simp)).same (same_raise _ _)

theorem Loose.enterFaulted {c : ChanId} {b : Blocks} (h : Loose c b) : BoundOk (Machine.enterFaulted c b) :=
  (h.enter _ rfl (by simp) (by simp)).same (same_raise _ _)

theorem Loose.enterStarved {c : ChanId} {b : Blocks} (h : Loose c b) : BoundOk (Machine.enterStarved c b) :=
  (h.enter _ rfl (by simp) (by simp)).same (same_raise _ _)

/-- IDLE: the chain is released with the channel (R14). -/
theorem Loose.enterIdle {c : ChanId} {b : Blocks} (h : Loose c b) : BoundOk (Machine.enterIdle c b) := by
  rcases hh : (b.chan c).handle with _ | k
  · exact absurd hh h.runs
  have hk : (b.chain k).boundTo = some c := (h.both c k).1 hh
  have e : Machine.enterIdle c b = (b.updChain k fun x => { x with state := .spent, boundTo := none }).updChan c fun _ => {} := by
    unfold Machine.enterIdle unbind
    rw [hh]
  rw [e]
  have hc : ∀ i, i ≠ k → (b.updChain k fun x => { x with state := .spent, boundTo := none }).chain i = b.chain i :=
    fun i hi => chain_updChain_ne _ hi
  refine ⟨fun d i => ?_, fun i => ?_, fun d => ?_, fun d => ?_⟩
  · rw [chain_updChan]
    by_cases ed : d = c
    · subst ed
      rw [chan_updChan_self]
      by_cases ei : i = k
      · subst ei
        simp
      · rw [hc i ei]
        refine ⟨(fun x => by cases x), fun x => ?_⟩
        have := (h.both d i).2 x
        rw [hh] at this
        exact absurd (Option.some.inj this).symm ei
    · rw [chan_updChan_ne _ ed, chan_updChain]
      by_cases ei : i = k
      · subst ei
        rw [chain_updChain_self]
        refine ⟨fun x => ?_, (fun x => by cases x)⟩
        have := (h.both d i).1 x
        rw [hk] at this
        exact absurd (Option.some.inj this).symm ed
      · rw [hc i ei]
        exact h.both d i
  · rw [chain_updChan]
    by_cases ei : i = k
    · subst ei
      simp
    · rw [hc i ei]
      exact h.bound i
  · by_cases ed : d = c
    · subst ed
      simp
    · rw [chan_updChan_ne _ ed, chan_updChain]
      exact h.idle d ed
  · by_cases ed : d = c
    · subst ed
      simp
    · rw [chan_updChan_ne _ ed, chan_updChain]
      exact h.blocked d ed

theorem Loose.block {c : ChanId} {b : Blocks} (h : Loose c b) (k : Continuation) : BoundOk (Machine.block c k b) :=
  (h.enter (fun ch => { ch with state := .blocked, continuation := some k }) rfl (by simp) (by simp)).same (Same.of rfl rfl)

/-- Posting leaves the law loose, and in force when the channel has blocked (R36, R91). -/
theorem Loose.postOrBlock {c : ChanId} {b : Blocks} (h : Loose c b) (k : Continuation) :
    Loose c (Machine.postOrBlock c k b) ∧ ((Machine.postOrBlock c k b).drained c = false → BoundOk (Machine.postOrBlock c k b)) := by
  have h1 := h.same (same_postOutbox c b)
  unfold Machine.postOrBlock
  dsimp only
  split
  · rename_i hd
    exact ⟨h1, fun x => by rw [hd] at x; cases x⟩
  · have h2 := h1.block k
    exact ⟨h2.loose (h1.upd (fun ch => { ch with state := .blocked, continuation := some k }) rfl).runs, fun _ => h2⟩

/-- What ends with a channel in a state of its own once it has posted. -/
theorem Loose.posted {c : ChanId} {b : Blocks} (h : Loose c b) (k : Continuation) (f : Blocks → Blocks)
    (hf : ∀ x, Loose c x → BoundOk (f x)) :
    BoundOk (if (Machine.postOrBlock c k b).drained c then f (Machine.postOrBlock c k b) else Machine.postOrBlock c k b) := by
  obtain ⟨h1, h2⟩ := h.postOrBlock k
  split
  · exact hf _ h1
  · exact h2 (Bool.eq_false_of_not_eq_true (by assumption))

theorem Loose.endRun {c : ChanId} {b : Blocks} (h : Loose c b) : BoundOk (Machine.endRun c b) :=
  (h.same (same_pushRecord c _ b)).posted .idle (Machine.enterIdle c) fun _ hx => hx.enterIdle

theorem Loose.stopRun {c : ChanId} {b : Blocks} (h : Loose c b) : BoundOk (Machine.stopRun c b) :=
  ((h.upd (fun ch => { ch with staging := [], fault := none }) rfl).same (same_pushRecord c _ _)).posted .idle
    (Machine.enterIdle c) fun _ hx => hx.enterIdle

theorem Loose.stopOnFault {c : ChanId} {b : Blocks} (h : Loose c b) (f : FaultInfo) : BoundOk (Machine.stopOnFault c f b) :=
  (h.upd (fun ch => { ch with fault := some f, staging := [] }) rfl).posted .faulted (Machine.enterFaulted c)
    fun _ hx => hx.enterFaulted

theorem Loose.finish {c : ChanId} {b : Blocks} (h : Loose c b) (m : Member) (rest : List Member) (k : Continuation) :
    Loose c (Machine.finish c m rest k b) ∧ ((Machine.finish c m rest k b).drained c = false → BoundOk (Machine.finish c m rest k b)) := by
  unfold Machine.finish
  dsimp only
  refine Loose.postOrBlock (((?_ : Loose c _).upd (fun ch => { ch with completed := ch.completed + 1 }) rfl).same (same_moveCursor c rest _)) k
  split
  · exact h.same (same_pushRecord c _ b)
  · exact h

theorem Loose.takeFault {c : ChanId} {b : Blocks} (h : Loose c b) (m : Member) (rest : List Member) (f : FaultInfo) (k : Continuation) :
    ((m.desc.cont && (Machine.takeFault c m rest f k b).drained c) = true → Loose c (Machine.takeFault c m rest f k b)) ∧
      ((m.desc.cont && (Machine.takeFault c m rest f k b).drained c) = false → BoundOk (Machine.takeFault c m rest f k b)) := by
  have h1 := h.same (same_pushRecord c (faultRecord c (b.chan c) m f) b)
  unfold Machine.takeFault
  dsimp only
  split
  · rename_i hc
    obtain ⟨h2, h3⟩ := (h1.same (same_moveCursor c rest _)).postOrBlock k
    exact ⟨fun _ => h2, fun x => h3 (by simpa [hc] using x)⟩
  · rename_i hc
    exact ⟨fun x => by simp [hc] at x, fun _ => h1.stopOnFault f⟩

theorem Loose.startMoving {c : ChanId} {b : Blocks} (h : Loose c b) (d : Descriptor) : BoundOk (Machine.startMoving c d b) :=
  (h.enter _ rfl (by simp) (by simp)).same (same_request _ _)

theorem Loose.startWaiting {c : ChanId} {b : Blocks} (h : Loose c b) (u : UnitId) (d : Descriptor) :
    BoundOk (Machine.startWaiting c u d b) :=
  Loose.enter (h.same (same_updUnit b u _)) _ rfl (by simp) (by simp)

/-- What follows a completion or a fault: HELD, or the rest of the run. -/
theorem Loose.onward {c : ChanId} {x : Blocks} {on : Bool} (h1 : on = true → Loose c x) (h2 : on = false → BoundOk x) (hold : Bool)
    {f : Blocks → Blocks} (hf : Loose c x → BoundOk (f x)) :
    BoundOk (if on = true then (if hold = true then Machine.enterHeld c x else f x) else x) := by
  cases on
  · exact h2 rfl
  · cases hold
    · exact hf (h1 rfl)
    · exact (h1 rfl).enterHeld

/-- The proceed step, carried through, puts the law in force (R33). -/
theorem Loose.run {c : ChanId} {b : Blocks} (h : Loose c b) (ms : List Member) : BoundOk (Machine.run c ms b) := by
  induction ms generalizing b with
  | nil =>
    unfold Machine.run
    split
    · exact h.enterStarved
    · exact h.endRun
  | cons m rest ih =>
    unfold Machine.run
    have s := same_checkStart m.desc b
    split
    · rename_i b1 f heq
      rw [heq] at s
      obtain ⟨h1, h2⟩ := (h.same s).takeFault m rest f .proceed
      exact Loose.onward h1 h2 false ih
    · rename_i b1 heq
      rw [heq] at s
      have hs := h.same s
      split
      · rename_i u _ _
        split
        · obtain ⟨h1, h2⟩ := (hs.same (same_updUnit b1 u fun e => { e with latch := false })).finish m rest
            (if m.desc.haltAfter then .held else .proceed)
          exact Loose.onward (fun _ => h1) h2 m.desc.haltAfter ih
        · exact hs.startWaiting u m.desc
      · exact hs.startMoving m.desc

theorem Loose.proceed {c : ChanId} {b : Blocks} (h : Loose c b) : BoundOk (Machine.proceed c b) := h.run _

/-- A channel with a member before it is in a run. -/
theorem runs_of_ahead {c : ChanId} {b : Blocks} {m : Member} {rest : List Member} (h : b.ahead c = m :: rest) :
    (b.chan c).handle ≠ none := by
  intro e
  unfold Blocks.ahead at h
  rw [e] at h
  cases h

theorem runs_of_current {c : ChanId} {b : Blocks} {d : Descriptor} (h : b.current c = some d) : (b.chan c).handle ≠ none := by
  unfold Blocks.current at h
  rcases ha : b.ahead c with _ | ⟨m, rest⟩
  · rw [ha] at h
    cases h
  · exact runs_of_ahead ha

/-! ### The law kept by the actions -/

theorem boundOk_complete {b : Blocks} (h : BoundOk b) (c : ChanId) (hold : Bool) : BoundOk (complete c hold b) := by
  unfold complete
  split
  · exact h
  · rename_i m rest ha
    obtain ⟨h1, h2⟩ := (h.loose (runs_of_ahead ha)).finish m rest (if hold || m.desc.haltAfter then .held else .proceed)
    exact Loose.onward (fun _ => h1) h2 (hold || m.desc.haltAfter) fun hx => hx.run rest

theorem boundOk_fault {b : Blocks} (h : BoundOk b) (c : ChanId) (f : FaultInfo) (hold : Bool) : BoundOk (fault c f hold b) := by
  unfold fault
  split
  · exact h
  · rename_i m rest ha
    obtain ⟨h1, h2⟩ := ((h.loose (runs_of_ahead ha)).upd (fun ch => { ch with deadline := none, staging := [] }) rfl).takeFault m rest f
      (if hold then .held else .proceed)
    exact Loose.onward h1 h2 hold fun hx => hx.run rest

theorem boundOk_giveBack {b : Blocks} (h : BoundOk b) (x : Requester × FaultInfo) : BoundOk (giveBack b x) := by
  unfold giveBack
  split
  · exact boundOk_fault h _ _ _
  · split
    · exact h.same (Same.of rfl rfl)
    · exact h

theorem boundOk_foldl {α : Type} (f : Blocks → α → Blocks) (hf : ∀ b x, BoundOk b → BoundOk (f b x)) (l : List α) {b : Blocks}
    (h : BoundOk b) : BoundOk (l.foldl f b) := by
  induction l generalizing b with
  | nil => exact h
  | cons x l ih => exact ih (hf b x h)

theorem boundOk_settleRounds (k : Nat) {b : Blocks} (h : BoundOk b) : BoundOk (settleRounds k b) := by
  induction k generalizing b with
  | zero => exact h
  | succ k ih =>
    unfold settleRounds
    have s := same_grants b
    split
    · rename_i b1 heq
      rw [heq] at s
      exact h.same s
    · rename_i b1 back _ heq
      rw [heq] at s
      exact ih (boundOk_foldl giveBack (fun _ x hx => boundOk_giveBack hx x) back (h.same s))

theorem boundOk_settle {b : Blocks} (h : BoundOk b) : BoundOk (settle b) := boundOk_settleRounds 8 h

theorem boundOk_actOnContinuation {b : Blocks} (h : BoundOk b) (c : ChanId) : BoundOk (actOnContinuation c b) := by
  have h1 : BoundOk { b with queue := { b.queue with blocked := b.queue.blocked.filter (· != c) } } := h.same (Same.of rfl rfl)
  have hl : (b.chan c).continuation.isSome → Loose c { b with queue := { b.queue with blocked := b.queue.blocked.filter (· != c) } } :=
    fun x => h1.loose_of_state fun e => by
      have := (h.blocked c).2 x
      rw [show (b.chan c).state = .idle from e] at this
      cases this
  unfold actOnContinuation
  dsimp only
  split <;> rename_i hc
  · exact (hl (by rw [hc]; rfl)).proceed
  · exact (hl (by rw [hc]; rfl)).enterHeld
  · exact (hl (by rw [hc]; rfl)).enterFaulted
  · exact (hl (by rw [hc]; rfl)).enterIdle
  · exact h1

theorem boundOk_serve (cs : List ChanId) {b : Blocks} (h : BoundOk b) : BoundOk (serve cs b) := by
  induction cs generalizing b with
  | nil => exact h
  | cons c cs ih =>
    unfold serve
    split
    · have h1 := h.same (same_postOutbox c b)
      dsimp only
      split
      · exact ih (boundOk_settle (boundOk_actOnContinuation h1 c))
      · exact h1
    · exact h

theorem boundOk_faultWaiters {b : Blocks} (h : BoundOk b) (u : UnitId) (code : FaultCode) : BoundOk (faultWaiters u code b) := by
  unfold faultWaiters
  exact boundOk_foldl _ (fun _ c hx => boundOk_settle (boundOk_fault hx c _ _)) _ (h.same (same_updUnit b u _))

theorem boundOk_takeEdge {b : Blocks} (h : BoundOk b) (u : UnitId) : BoundOk (takeEdge u b) := by
  unfold takeEdge
  split
  · split
    · exact h.same (same_updUnit b u _)
    · exact boundOk_settle (boundOk_complete (h.same (same_leaveWaiters b u _)) _ _)
  · exact h

theorem boundOk_expireWait {b : Blocks} (h : BoundOk b) (c : ChanId) : BoundOk (expireWait c b) := by
  unfold expireWait
  split
  · exact boundOk_settle (boundOk_fault (h.same (same_leaveWaiters b _ c)) _ _ _)
  · exact h

theorem same_countAccess (c : ChanId) (kind : DescKind) (a : Access) (data : List Byte) (b : Blocks) :
    Same b (b.updChan c (countAccess kind a data)) := by
  refine same_updChan b c _ ?_ ?_ ?_ <;> unfold countAccess <;> split <;> rfl

theorem boundOk_handChannel {b : Blocks} (h : BoundOk b) (c : ChanId) : BoundOk (handChannel c b) := by
  have h1 := h.same (same_updChan b c (fun ch => { ch with holdRequested := false, stopRequested := false }) rfl rfl rfl)
  exact h1.same (Same.of rfl rfl)

theorem boundOk_endOfChannel {b : Blocks} (h : BoundOk b) (c : ChanId) (a : Access) (e : Ending) : BoundOk (endOfChannel c a e b) := by
  unfold endOfChannel
  split
  · exact h
  · rename_i d hd
    have hl := h.loose (runs_of_current hd)
    split
    · refine boundOk_handChannel ?_ c
      unfold endStopped
      split
      · exact (hl.same (same_countAccess c _ a _ b)).stopRun
      · exact hl.stopRun
    · split
      · refine boundOk_handChannel ?_ c
        unfold endHeld
        split
        · dsimp only
          split
          · exact boundOk_complete (h.same (same_countAccess c _ a _ b)) c true
          · exact ((hl.same (same_countAccess c _ a _ b)).upd (fun ch => { ch with staging := [] }) rfl).enterHeld
        · exact boundOk_fault h _ _ _
      · unfold endGoing
        split
        · dsimp only
          split
          · exact boundOk_complete (h.same (same_countAccess c _ a _ b)) c false
          · exact (h.same (same_countAccess c _ a _ b)).same (same_request _ _)
        · exact boundOk_fault h _ _ _

theorem boundOk_endOfAgent {b : Blocks} (h : BoundOk b) (a : Access) (e : Ending) : BoundOk (endOfAgent a e b) := by
  unfold endOfAgent
  split
  · exact h
  · dsimp only
    split
    · exact h.same (Same.of rfl rfl)
    · exact h.same (Same.after (same_request _ _) rfl rfl)
  · exact h.same (Same.of rfl rfl)

theorem boundOk_handEnd {b : Blocks} (h : BoundOk b) (a : Access) (e : Ending) : BoundOk (handEnd a e b) := by
  have h1 := boundOk_foldl giveBack (fun _ x hx => boundOk_giveBack hx x) (grants b).2 (h.same (same_grants b))
  refine boundOk_settle ?_
  unfold endOfOwner
  split
  · exact boundOk_endOfChannel h1 _ _ _
  · exact boundOk_endOfAgent h1 _ _

/-! ### The requests -/

theorem boundOk_onChannel (payload : List Byte) {b : Blocks} (f : ChanId → Blocks × Answer) (h : BoundOk b)
    (hf : ∀ c, BoundOk (f c).1) : BoundOk (onChannel payload b f).1 := by
  unfold onChannel
  split
  · exact h
  · exact hf _

/-- START binds a chain that is not BOUND to a channel that is IDLE (R31). -/
theorem loose_bindChain {b : Blocks} (h : BoundOk b) (c : ChanId) (k : Handle) (h1 : (b.chan c).state = .idle)
    (h2 : (b.chain k).state ≠ .bound) : Loose c (bindChain c k b) := by
  have hc : (b.chan c).handle = none := (h.idle c).1 h1
  have hk : (b.chain k).boundTo = none := by
    rcases e : (b.chain k).boundTo with _ | d
    · rfl
    · exact absurd ((h.bound k).2 (by rw [e]; rfl)) h2
  unfold bindChain
  refine ⟨fun d i => ?_, fun i => ?_, fun d e => ?_, fun d e => ?_, by simp⟩
  · rw [chain_updChan]
    by_cases ed : d = c
    · subst ed
      rw [chan_updChan_self]
      by_cases ei : i = k
      · subst ei
        simp
      · rw [chain_updChain_ne _ ei]
        refine ⟨fun x => absurd (Option.some.inj x).symm ei, fun x => ?_⟩
        have := (h.both d i).2 x
        rw [hc] at this
        cases this
    · rw [chan_updChan_ne _ ed, chan_updChain]
      by_cases ei : i = k
      · subst ei
        rw [chain_updChain_self]
        refine ⟨fun x => ?_, fun x => absurd (Option.some.inj x).symm ed⟩
        have := (h.both d i).1 x
        rw [hk] at this
        cases this
      · rw [chain_updChain_ne _ ei]
        exact h.both d i
  · rw [chain_updChan]
    by_cases ei : i = k
    · subst ei
      simp
    · rw [chain_updChain_ne _ ei]
      exact h.bound i
  · rw [chan_updChan_ne _ e, chan_updChain]
    exact h.idle d
  · rw [chan_updChan_ne _ e, chan_updChain]
    exact h.blocked d

theorem boundOk_requestStart (payload : List Byte) {b : Blocks} (h : BoundOk b) : BoundOk (requestStart payload b).1 := by
  refine boundOk_onChannel payload _ h fun c => ?_
  split
  · exact h
  · split
    · exact h
    · split
      · exact h
      · exact boundOk_settle (loose_bindChain h c _ (by simpa using ‹¬ (b.chan c).state ≠ _›) (by assumption)).proceed

theorem boundOk_requestHold (payload : List Byte) {b : Blocks} (h : BoundOk b) : BoundOk (requestHold payload b).1 := by
  refine boundOk_onChannel payload _ h fun c => ?_
  have hl : ∀ x, (b.chan c).state = x → x ≠ .idle → Loose c b := fun x e hx => h.loose_of_state (by rw [e]; exact hx)
  split <;> rename_i hs
  · split
    · exact h.same (same_updChan b c (fun ch => { ch with holdRequested := true }) rfl rfl rfl)
    · exact boundOk_settle (Loose.enterHeld (((hl _ hs (by simp)).same (same_withdrawRequest b _)).upd (fun ch => { ch with staging := [] }) rfl))
  · exact boundOk_settle (((hl _ hs (by simp)).same (same_leaveWait b c)).upd _ rfl).enterHeld
  · exact boundOk_settle (hl _ hs (by simp)).enterHeld
  · exact boundOk_settle h
  · have hr : BoundOk (rewrite c .held b) := (hl _ hs (by simp)).enter _ rfl (by simp [hs]) (by simp [hs])
    split
    · exact boundOk_settle hr
    · exact boundOk_settle hr
    · exact h
  · exact h
  · exact h

theorem boundOk_requestResume (payload : List Byte) {b : Blocks} (h : BoundOk b) : BoundOk (requestResume payload b).1 := by
  refine boundOk_onChannel payload _ h fun c => ?_
  have hl : ∀ x, (b.chan c).state = x → x ≠ .idle → Loose c b := fun x e hx => h.loose_of_state (by rw [e]; exact hx)
  split <;> rename_i hs
  · have hn : (b.chan c).continuation = none := by
      have := h.blocked c
      rw [hs] at this
      simpa using this
    split
    · exact boundOk_settle ((hl _ hs (by simp)).enter (fun ch => { ch with state := .running }) rfl (by simp) (by simp [hn]) |>.same
        (same_request _ _))
    · exact boundOk_settle (hl _ hs (by simp)).proceed
  · split
    · exact boundOk_settle ((hl _ hs (by simp)).enter _ rfl (by simp [hs]) (by simp [hs]))
    · exact h
  · exact h

theorem boundOk_stopBlocked {b : Blocks} (h : BoundOk b) (c : ChanId) (hs : (b.chan c).state = .blocked) : BoundOk (stopBlocked c b) := by
  have hl : Loose c b := h.loose_of_state (by rw [hs]; simp)
  unfold stopBlocked
  split
  · exact h
  · refine (hl.same (same_pushRecord c _ b)).enter _ rfl ?_ ?_ <;> simp [pushRecord, hs]

theorem boundOk_requestStop (payload : List Byte) {b : Blocks} (h : BoundOk b) : BoundOk (requestStop payload b).1 := by
  refine boundOk_onChannel payload _ h fun c => ?_
  have hl : ∀ x, (b.chan c).state = x → x ≠ .idle → Loose c b := fun x e hx => h.loose_of_state (by rw [e]; exact hx)
  split <;> rename_i hs
  · exact h
  · split
    · exact h.same (same_updChan b c (fun ch => { ch with stopRequested := true }) rfl rfl rfl)
    · exact boundOk_settle ((hl _ hs (by simp)).same (same_withdrawRequest b _)).stopRun
  · exact boundOk_settle ((hl _ hs (by simp)).same (same_leaveWait b c)).stopRun
  · exact boundOk_settle (boundOk_stopBlocked h c hs)
  all_goals exact boundOk_settle (hl _ hs (by simp)).stopRun

theorem boundOk_onFaulted (payload : List Byte) {b : Blocks} (f : ChanId → Blocks) (h : BoundOk b)
    (hf : ∀ c, Loose c b → BoundOk (f c)) : BoundOk (onFaulted payload b f).1 := by
  refine boundOk_onChannel payload _ h fun c => ?_
  split
  · rename_i hs
    exact boundOk_settle (hf c (h.loose_of_state (by rw [hs]; simp)))
  · exact h

end Sys2Proof.Laws

namespace Sys2Proof.Safety

open Sys2Proof.Machine Sys2Proof.Laws

/-- The blocks' table of chains with one entry replaced by one of the same binding. -/
theorem BoundOk.updChain {b : Blocks} (h : BoundOk b) (k : Handle) (f : Chain → Chain)
    (h1 : (f (b.chain k)).boundTo = (b.chain k).boundTo)
    (h2 : (f (b.chain k)).state = .bound ↔ (b.chain k).state = .bound) : BoundOk (b.updChain k f) := by
  refine ⟨fun c i => ?_, fun i => ?_, h.idle, h.blocked⟩
  · rw [chan_updChain]
    by_cases e : i = k
    · subst e
      rw [chain_updChain_self, h1]
      exact h.both c i
    · rw [chain_updChain_ne f e]
      exact h.both c i
  · by_cases e : i = k
    · subst e
      rw [chain_updChain_self, h1, h2]
      exact h.bound i
    · rw [chain_updChain_ne f e]
      exact h.bound i

theorem BoundOk.unbound {b : Blocks} (h : BoundOk b) {k : Handle} (hk : (b.chain k).state ≠ .bound) : (b.chain k).boundTo = none := by
  rcases e : (b.chain k).boundTo with _ | d
  · rfl
  · exact absurd ((h.bound k).2 (by rw [e]; rfl)) hk

end Sys2Proof.Safety

namespace Sys2Proof.Laws

open Sys2Proof.Machine Sys2Proof.Safety

theorem boundOk_buildChain {b : Blocks} (h : BoundOk b) (k : Handle) (o : Bool) (ds : List Descriptor) (hk : (b.chain k).state = .free) :
    BoundOk (buildChain k o ds b) := by
  have hn : (b.chain k).state ≠ .bound := by rw [hk]; simp
  exact (h.updChain k (fun _ => { state := .staged, isOpen := o, members := takeSlots b ds, boundTo := none })
    (h.unbound hn).symm (by simp [hk])).same (Same.of rfl rfl)

theorem boundOk_dropChain {b : Blocks} (h : BoundOk b) (k : Handle) (hk : (b.chain k).state ≠ .bound) : BoundOk (dropChain k b) :=
  (h.updChain k (fun _ => {}) (h.unbound hk).symm (by simp [hk])).same (Same.of rfl rfl)

theorem boundOk_wakeBound {b : Blocks} (h : BoundOk b) (k : Handle) (first : Nat) : BoundOk (wakeBound k first b) := by
  unfold wakeBound
  split
  · exact h
  · rename_i c hc
    have hr : (b.chan c).handle = some k := (h.both c k).2 hc
    split
    · have s := same_updChan b c (fun ch => { ch with cursor := some first }) rfl rfl rfl
      dsimp only
      split
      · exact boundOk_settle ((h.loose (by rw [hr]; simp)).same s).proceed
      · exact h.same s
    · exact h

theorem boundOk_endStarved {b : Blocks} (h : BoundOk b) (k : Handle) : BoundOk (endStarved k b) := by
  unfold endStarved
  split
  · exact h
  · rename_i c hc
    have hr : (b.chan c).handle = some k := (h.both c k).2 hc
    split
    · exact boundOk_settle (h.loose (by rw [hr]; simp)).proceed
    · exact h

theorem boundOk_beginAgent {b : Blocks} (h : BoundOk b) (o : AgentOp) : BoundOk (beginAgent o b).1 := by
  have acc : ∀ x, BoundOk x → BoundOk (settle (request .link { x with agent := some o })) := fun x hx =>
    boundOk_settle (hx.same (Same.after (same_request _ _) rfl rfl))
  have hr := fun dir => h.same (same_rangeCheck o.offset o.count dir .link b)
  unfold beginAgent
  dsimp only
  split
  · split
    · exact h
    · split
      · rename_i heq
        have e := congrArg Prod.fst heq
        dsimp only at e
        exact e ▸ hr _
      · rename_i heq
        have e := congrArg Prod.fst heq
        dsimp only at e
        exact acc _ (e ▸ hr _)
  · split
    · split
      · exact h
      · exact acc _ h
    · exact h
    · exact h

theorem boundOk_deactivate {b : Blocks} (h : BoundOk b) (u : UnitId) : BoundOk (deactivate u b) :=
  boundOk_faultWaiters (h.same (same_updUnit b u _)) _ _

theorem boundOk_deactivatePending {b : Blocks} (h : BoundOk b) (u : UnitId) : BoundOk (deactivatePending u b) := by
  unfold deactivatePending
  split
  · exact (boundOk_deactivate h u).same (Same.of rfl rfl)
  · exact h

theorem boundOk_executeKind (bc : BitVec 2) (t : Tally) {b : Blocks} (payload : List Byte) (k : RequestKind) (h : BoundOk b) :
    BoundOk (executeKind bc t b payload k).blocks := by
  cases k
  case hello => exact h
  case status => exact h
  case reset =>
    change BoundOk (requestReset payload t b).blocks
    unfold requestReset
    split
    · exact h
    · exact h.same (Same.of rfl rfl)
  case linkTally => exact h
  case noticeMask =>
    change BoundOk (requestNoticeMask payload b).1
    unfold requestNoticeMask
    dsimp only
    split
    · exact h
    · exact h.same (Same.of rfl rfl)
  case chainNew =>
    change BoundOk (requestChainNew payload b).1
    unfold requestChainNew
    dsimp only
    repeat' split
    all_goals first | exact h | skip
    rename_i hl _
    exact boundOk_buildChain h _ _ _ (by simpa using List.find?_some hl)
  case chainAppend =>
    change BoundOk (requestChainAppend payload b).1
    unfold requestChainAppend
    dsimp only
    repeat' split
    all_goals first | exact h | skip
    refine boundOk_wakeBound ?_ _ _
    exact (h.updChain _ (fun x => { x with members := x.members ++ takeSlots b _ }) rfl Iff.rfl).same (Same.of rfl rfl)
  case chainClose =>
    change BoundOk (requestChainClose payload b).1
    unfold requestChainClose
    split
    · exact h
    · exact boundOk_endStarved (h.updChain _ (fun x => { x with isOpen := false }) rfl Iff.rfl) _
  case chainDrop =>
    change BoundOk (requestChainDrop payload b).1
    unfold requestChainDrop
    split
    · exact h
    · dsimp only
      split
      · exact h
      · exact boundOk_dropChain h _ (by assumption)
  case chainQuery =>
    change BoundOk (requestChainQuery payload b).1
    unfold requestChainQuery
    split <;> exact h
  case slotRead =>
    change BoundOk (requestSlotRead payload b).1
    unfold requestSlotRead
    dsimp only
    split
    · exact h
    · split <;> exact h
  case channelStart => exact boundOk_requestStart payload h
  case channelHold => exact boundOk_requestHold payload h
  case channelResume => exact boundOk_requestResume payload h
  case channelStop => exact boundOk_requestStop payload h
  case channelRetry => exact boundOk_onFaulted payload _ h fun c hl => (hl.upd afresh rfl).proceed
  case channelSkip =>
    exact boundOk_onFaulted payload _ h fun c hl =>
      ((hl.upd (fun ch => { ch with fault := none }) rfl).same (same_moveCursor c _ _)).run _
  case channelClear => exact boundOk_onFaulted payload _ h fun c hl => hl.enterIdle
  case channelQuery => exact boundOk_onChannel payload _ h fun _ => h
  case collect =>
    change BoundOk (requestCollect payload b).1
    unfold requestCollect Machine.collect
    dsimp only
    split
    · exact h
    · split
      · exact h.same (Same.of rfl rfl)
      · exact boundOk_serve _ (h.same (Same.of rfl rfl))
  case unitSet =>
    refine onUnit_keeps _ _ _ h fun u => ?_
    dsimp only
    repeat' split
    all_goals first
      | exact h
      | exact h.same (same_updUnit b u fun e => { e with window := some ⟨fieldAt payload 1 3, fieldAt payload 4 3⟩, timeout := fieldAt payload 7 1 })
  case unitActivate =>
    refine onUnit_keeps _ _ _ h fun u => ?_
    repeat' split
    all_goals first
      | exact h
      | exact h.same (same_updUnit b u fun e => { e with state := .active })
      | exact h.same (same_updUnit b u fun e => { e with state := .active, slotEnable := true, latch := false })
  case unitDeactivate =>
    refine onUnit_keeps _ _ _ h fun u => ?_
    repeat' split
    all_goals first
      | exact h
      | exact boundOk_deactivate h u
      | exact h.same (same_updUnit b u fun e => { e with deactPending := true })
      | exact h.same (same_updUnit b u fun e => { e with state := .present, slotEnable := false, latch := false, deactPending := false })
  case unitQuery => exact onUnit_keeps _ _ _ h fun _ => h
  case guardSet =>
    change BoundOk (requestGuardSet payload b).1
    unfold requestGuardSet
    repeat' split
    all_goals first | exact h | exact h.same (Same.of rfl rfl)
  case guardFreeze => exact h.same (Same.of rfl rfl)
  case guardQuery =>
    change BoundOk (requestGuardQuery payload b).1
    unfold requestGuardQuery
    split
    · exact h
    · dsimp only
      split
      · exact h.same (Same.of rfl rfl)
      · exact h
  case peek =>
    change BoundOk (requestPeek payload b).1
    unfold requestPeek
    dsimp only
    repeat' split
    all_goals first | exact h | exact boundOk_beginAgent h _
  case poke =>
    change BoundOk (requestPoke payload b).1
    unfold requestPoke
    dsimp only
    split
    · exact h
    · exact boundOk_beginAgent h _

theorem boundOk_fresh {b : Blocks} (h1 : ∀ k, b.chain k = {}) (h2 : ∀ c, b.chan c = {}) : BoundOk b :=
  ⟨fun c k => by rw [h1, h2]; simp, fun k => by rw [h1]; simp, fun c => by rw [h2]; simp, fun c => by rw [h2]; simp⟩

/-- Every block operation keeps the law of bound chains. -/
theorem boundOk_closed : Closed BoundOk where
  aside := fun b b' e h => h.same (Same.of (by rw [e]) (by rw [e]))
  execute := fun bc t b kind payload h => by
    unfold executeFrame
    split
    · exact h
    · split
      · exact boundOk_executeKind bc t payload _ h
      · exact h
  reset := fun x b _ => boundOk_fresh (chain_resetBlocks x b) (chan_resetBlocks x b)
  settle := fun _ h => boundOk_settle h
  edge := fun u _ h => boundOk_takeEdge h u
  deadline := fun c _ h => boundOk_expireWait h c
  serve := fun _ h => boundOk_serve _ h
  detect := fun u b _ h => (h.same (same_updUnit b u _)).same (same_raise _ _)
  vacate := fun u b h => h.same (same_emptyUnit u b)
  lose := fun u b h => by
    have h1 := boundOk_faultWaiters (h.same (same_emptyUnit u b)) u .unitGone
    unfold loseCard
    dsimp only
    split
    · exact h1.same (Same.of rfl rfl)
    · exact h1
  line := fun u _ b h => h.same (same_updUnit b u _)
  freed := fun p b h => h.same (same_updArb b p _)
  ended := fun a e _ h => boundOk_handEnd h a e
  affected := fun u e b h => by
    unfold unitEffect
    split
    · exact boundOk_deactivatePending ((h.same (same_updUnit b u _)).same (same_raise _ _)) u
    · exact boundOk_deactivatePending h u

end Sys2Proof.Laws
end

