-- ==== Sys2Proof/Laws/Links.lean ====
section
/-! SUPPORT. Buffer memory, the receive queue and reply memory: what can write them, and that the link's bounds are kept. -/

namespace Sys2Proof.Laws

open Sys2Proof.Machine Sys2Proof.Safety

/-- A property of buffer memory, the receive queue and reply memory that every way of writing the last two keeps. -/
structure StoresKept (Q : State → Prop) : Prop where
  rest : ∀ {s s' : State}, Q s → s'.mem = s.mem → s'.link.rxQueue = s.link.rxQueue → s'.link.replyMemory = s.link.replyMemory → Q s'
  push : ∀ (s : State) r, s.link.rxQueue.length < 4 → Q s → Q { s with link := { s.link with rxQueue := s.link.rxQueue ++ [r] } }
  pop : ∀ (s : State) r l, s.link.rxQueue = r :: l → Q s → Q { s with link := { s.link with rxQueue := l } }
  clear : ∀ s : State, Q s → Q { s with link := { s.link with rxQueue := [] } }
  reply : ∀ (s : State) e, Q s → Q { s with link := { s.link with replyMemory := remember e s.link.replyMemory } }
  forget : ∀ (s : State) f, Q s → Q { s with link := { s.link with replyMemory := s.link.replyMemory.filter f } }

variable {Q : State → Prop}

theorem StoresKept.onBlock (h : StoresKept Q) (s : State) (f : Blocks → Blocks) (hq : Q s) : Q (Machine.onBlock s f) :=
  h.rest hq rfl rfl rfl

theorem StoresKept.sendReply (h : StoresKept Q) (r : RxFrame) (p : List Byte) (s : State) (hq : Q s) : Q (Machine.sendReply r p s) := by
  have := h.reply s ⟨r.tag, r.kind, r.check, ⟨r.tag, replyKind r.kind, p⟩⟩ hq
  unfold Machine.sendReply
  dsimp only
  split <;> exact h.rest this rfl rfl rfl

theorem StoresKept.deliver (h : StoresKept Q) (s : State) (hq : Q s) : Q (Machine.deliver s) := by
  unfold Machine.deliver
  split
  · exact hq
  · dsimp only
    split
    · exact h.sendReply _ _ _ (h.rest hq rfl rfl rfl)
    · exact h.rest hq rfl rfl rfl

theorem StoresKept.resetNow (h : StoresKept Q) (x : Scope) (s : State) (hq : Q s) : Q (Machine.resetNow x s) := by
  cases x
  · exact h.rest hq rfl rfl rfl
  · have := h.forget s (fun _ => false) hq
    refine h.rest this rfl rfl ?_
    simp [Machine.resetNow, resetLink]

theorem StoresKept.askReset (h : StoresKept Q) (x : Scope) (s : State) (hq : Q s) : Q (Machine.askReset x s) := by
  unfold Machine.askReset
  split
  · exact h.rest hq rfl rfl rfl
  · exact h.resetNow x s hq

theorem StoresKept.executeNew (h : StoresKept Q) (r : RxFrame) (s : State) (hq : Q s) : Q (Machine.executeNew r s) := by
  unfold Machine.executeNew
  dsimp only
  generalize executeFrame s.link.baudCode s.link.tally s.blocks r.kind r.payload = e
  have h1 : Q { s with blocks := e.blocks, link := { s.link with tally := e.tally } } := h.rest hq rfl rfl rfl
  rcases e.reset with _ | x <;> rcases e.answer with p | _ <;> dsimp only
  · exact h.sendReply _ _ _ h1
  · exact h.rest h1 rfl rfl rfl
  · exact h.sendReply _ _ _ (h.askReset x _ h1)
  · exact h.rest (h.askReset x _ h1) rfl rfl rfl

theorem StoresKept.takeRequest (h : StoresKept Q) (s : State) (hq : Q s) : Q (Machine.takeRequest s) := by
  unfold Machine.takeRequest
  split
  · rename_i r l _ hl
    have h1 := h.pop s r l hl hq
    unfold handle
    split
    · exact h.rest h1 rfl rfl rfl
    · exact h.executeNew _ _ h1
  · exact hq

theorem StoresKept.takeFrame (h : StoresKept Q) (s : State) (hq : Q s) : Q (Machine.takeFrame s) := by
  unfold Machine.takeFrame
  split
  · unfold takeReply
    split
    · exact h.rest hq rfl rfl rfl
    · exact hq
  · unfold takeNotice
    split
    · exact h.rest hq rfl rfl rfl
    · exact hq

theorem StoresKept.endStep (h : StoresKept Q) (s : State) (hq : Q s) : Q (Machine.endStep s) := by
  have h1 := h.deliver _ (h.takeRequest _ (h.deliver _ hq))
  rw [Machine.endStep]
  rcases settleLine_cases (Machine.deliver (Machine.takeRequest (Machine.deliver s))) with e | ⟨f, k, _, e⟩ | ⟨f, k, _, e⟩ <;> rw [e]
  · exact h1
  · exact h.rest h1 rfl rfl rfl
  · exact h.rest h1 rfl rfl rfl

theorem StoresKept.onRunning (h : StoresKept Q) {s t : State} {e : Option State} (hq : Q s) (he : ∀ x, e = some x → Q x)
    (ht : Machine.onRunning s e = .next t) : Q t := by
  unfold Machine.onRunning at ht
  split at ht
  · split at ht <;> injection ht with ht <;> subst ht
    · exact h.endStep _ (he _ rfl)
    · exact hq
  · injection ht with ht
    subst ht
    exact hq

theorem StoresKept.onSome (h : StoresKept Q) {s t : State} (x : State) (hq : Q s) (ht : Machine.onRunning s (some x) = .next t)
    (hx : Q x) : Q t := h.onRunning hq (fun _ e => by injection e with e; subst e; exact hx) ht

theorem StoresKept.appendFrame (h : StoresKept Q) (r : RxFrame) (s : State) (hq : Q s) : Q (Machine.appendFrame r s) := by
  unfold Machine.appendFrame
  split
  · exact h.push s r (by assumption) hq
  · exact h.rest hq rfl rfl rfl

theorem StoresKept.goodFrame (h : StoresKept Q) (r : RxFrame) (s : State) (hq : Q s) : Q (Machine.goodFrame r s) := by
  have ack : Q (takeAck r.tag (hunt s)) := by
    unfold takeAck
    split
    · split
      · exact h.rest hq rfl rfl rfl
      · exact h.rest hq rfl rfl rfl
    · exact h.rest hq rfl rfl rfl
  unfold Machine.goodFrame
  dsimp only
  split
  · exact h.rest ack rfl rfl rfl
  · exact h.appendFrame _ _ (h.rest hq rfl rfl rfl)

theorem StoresKept.receiveByte (h : StoresKept Q) (x : Byte) (s : State) (hq : Q s) : Q (Machine.receiveByte x s) := by
  unfold Machine.receiveByte
  dsimp only
  repeat' split
  all_goals first | exact hq | exact h.goodFrame _ _ hq | exact h.rest hq rfl rfl rfl

theorem StoresKept.linkReset (h : StoresKept Q) (s : State) (hq : Q s) : Q (Machine.linkReset s) := by
  have h1 := h.clear s hq
  unfold Machine.linkReset breakLink keptReplies
  rcases hh : s.handler with _ | r | r
  · refine h.rest (h.forget _ (fun _ => false) h1) rfl rfl ?_
    simp
  · refine h.rest (h.forget _ (fun _ => false) h1) rfl rfl ?_
    simp
  · exact h.rest (h.forget _ (fun e => e.matchesFrame r) h1) rfl rfl rfl

theorem StoresKept.endAccess (h : StoresKept Q) (p : Port) (a : Access) (e : Ending) (s : State) (hq : Q s) :
    Q (Machine.endAccess p a e s) := by
  unfold Machine.endAccess
  dsimp only
  split
  · exact h.rest hq rfl rfl rfl
  · split
    · exact h.rest hq rfl rfl rfl
    · exact h.resetNow _ _ (h.rest hq rfl rfl rfl)

theorem StoresKept.atDebounce (h : StoresKept Q) (u : UnitId) (s : State) (hq : Q s) : Q (Machine.atDebounce u s) := by
  unfold Machine.atDebounce
  split
  · exact h.onBlock _ _ hq
  · exact hq

/-- Every command but the end of a buffer access and the two of RESET_N keeps what writing the queues and reply memory keeps. -/
theorem StoresKept.exec (h : StoresKept Q) {c : Instr} {s t : State} (hq : Q s) (hb : c ≠ .bufferAccessEnd) (hl : c ≠ .resetNLow)
    (hr : ∀ baud msz presence, c ≠ .resetNRelease baud msz presence) (ht : Machine.exec c s = .next t) : Q t := by
  cases c
  case lenErr l =>
    refine h.onRunning hq (fun x e => ?_) ht
    split at e
    · cases e
    · injection e with e
      subst e
      exact h.rest hq rfl rfl rfl
  case checkErr => exact h.onSome (checkError s) hq ht (h.rest hq rfl rfl rfl)
  case gapErr =>
    refine h.onRunning hq (fun x e => ?_) ht
    rw [Option.map_eq_some_iff] at e
    obtain ⟨due, _, e⟩ := e
    subst e
    exact h.rest hq rfl rfl rfl
  case lineBreak => exact h.onSome (Machine.linkReset s) hq ht (h.linkReset s hq)
  case frameTaken =>
    refine h.onRunning hq (fun x e => ?_) ht
    split at e
    · injection e with e
      subst e
      exact h.takeFrame _ (h.rest hq rfl rfl rfl)
    · cases e
  case replyEnd =>
    refine h.onRunning hq (fun x e => ?_) ht
    split at e
    · injection e with e
      subst e
      exact h.rest (h.takeFrame (idleLine (atTime _ s)) (h.rest hq rfl rfl rfl)) rfl rfl rfl
    · cases e
  case noticeSent =>
    refine h.onRunning hq (fun x e => ?_) ht
    split at e
    · injection e with e
      subst e
      exact h.takeFrame _ (h.rest hq rfl rfl rfl)
    · cases e
  case resendTimerExpiry =>
    refine h.onRunning hq (fun x e => ?_) ht
    split at e
    · split at e
      · injection e with e
        subst e
        exact h.rest hq rfl rfl rfl
      · cases e
    · cases e
  case arbiterGrant p =>
    refine h.onRunning hq (fun x e => ?_) ht
    split at e
    · injection e with e
      subst e
      exact h.onBlock _ _ hq
    · cases e
  case bufferAccessEnd => exact absurd rfl hb
  case doneAnswer u data =>
    refine h.onRunning hq (fun x e => ?_) ht
    rw [Option.map_eq_some_iff] at e
    obtain ⟨a, _, e⟩ := e
    subst e
    exact h.endAccess _ _ _ _ (h.rest hq rfl rfl rfl)
  case errorAnswer u =>
    refine h.onRunning hq (fun x e => ?_) ht
    rw [Option.map_eq_some_iff] at e
    obtain ⟨a, _, e⟩ := e
    subst e
    exact h.endAccess _ _ _ _ (h.onBlock _ _ hq)
  case accessTimeout =>
    refine h.onRunning hq (fun x e => ?_) ht
    split at e
    · rw [Option.map_eq_some_iff] at e
      obtain ⟨a, _, e⟩ := e
      subst e
      exact h.endAccess _ _ _ _ (h.rest hq rfl rfl rfl)
    · cases e
  case presenceLineChange u level =>
    change execPresenceLineChange u level s = _ at ht
    unfold execPresenceLineChange at ht
    split at ht <;> injection ht with ht <;> subst ht
    · exact hq
    · exact h.onBlock _ _ hq
  case cardDetected u =>
    refine h.onRunning hq (fun x e => ?_) ht
    split at e
    · cases e
    · injection e with e
      subst e
      exact h.onBlock _ _ (h.atDebounce _ _ hq)
  case cardLost u =>
    refine h.onRunning hq (fun x e => ?_) ht
    have hx := h.onBlock _ (if lastBeforeReset u s then emptyUnit u else loseCard u) (h.atDebounce u _ hq)
    split at e
    · dsimp only at e
      split at e <;> injection e with e <;> subst e
      · exact h.endAccess _ _ _ _ hx
      · exact hx
    · cases e
  case requestEdge u => exact h.onSome (Machine.onBlock s (takeEdge u)) hq ht (h.onBlock _ _ hq)
  case deadlineExpiry c =>
    refine h.onRunning hq (fun x e => ?_) ht
    split at e
    · rw [Option.map_eq_some_iff] at e
      obtain ⟨a, _, e⟩ := e
      subst e
      exact h.rest hq rfl rfl rfl
    · cases e
  case blockedPosterServed =>
    refine h.onRunning hq (fun x e => ?_) ht
    split at e
    · injection e with e
      subst e
      exact h.onBlock _ _ hq
    · cases e
  case resetTakesEffect =>
    refine h.onRunning hq (fun x e => ?_) ht
    split at e
    · split at e
      · cases e
      · injection e with e
        subst e
        exact h.resetNow _ _ hq
    · cases e
  case resetNLow => exact absurd rfl hl
  case resetNRelease baud msz presence => exact absurd rfl (hr baud msz presence)
  case startUpEnd =>
    change execStartUpEnd s = _ at ht
    unfold execStartUpEnd at ht
    split at ht <;> injection ht with ht <;> subst ht
    · exact h.endStep _ (h.rest hq rfl rfl rfl)
    · exact hq
  case characterReceived x => exact h.onSome (Machine.receiveByte x s) hq ht (h.receiveByte x s hq)
  all_goals exact h.onSome (Machine.goodFrame _ s) hq ht (h.goodFrame _ s hq)

/-! ### Buffer memory -/

theorem storesKept_mem (m : Memory) : StoresKept fun s => s.mem = m :=
  ⟨fun hq h _ _ => h.trans hq, fun _ _ _ hq => hq, fun _ _ _ _ hq => hq, fun _ hq => hq, fun _ _ hq => hq, fun _ _ hq => hq⟩

/-- The end of a step leaves buffer memory alone. -/
theorem endStep_mem (s : State) : (endStep s).mem = s.mem := (storesKept_mem s.mem).endStep s rfl

/-- The end of an access with no reset to take effect: the outcome is handed over (R107). -/
theorem endAccess_hands {p : Port} {s : State}
    (h : s.pendingReset = none ∨ (s.blocks.updArb p fun x => { x with inFlight := none }).anyInFlight = true) (a : Access) (e : Ending) :
    endAccess p a e s = { s with blocks := handEnd a e (s.blocks.updArb p fun x => { x with inFlight := none }) } := by
  unfold endAccess
  rcases hp : s.pendingReset with _ | x
  · simp only [onBlock, hp]
  · have h' := h.resolve_left (by simp [hp])
    simp only [onBlock, h', if_true, hp]

/-- The end of the last access that a reset waits for: the outcome is not handed over, and the reset takes effect (R195). -/
theorem endAccess_resets {p : Port} {s : State} {x : Scope} (hp : s.pendingReset = some x)
    (h : (s.blocks.updArb p fun x => { x with inFlight := none }).anyInFlight = false) (a : Access) (e : Ending) :
    endAccess p a e s = resetNow x (onBlock s fun b => b.updArb p fun x => { x with inFlight := none }) := by
  unfold endAccess
  simp only [hp, onBlock, h, Bool.false_eq_true, if_false]

/-- So does the end of an access at its port and its owner. -/
theorem endAccess_mem (p : Port) (a : Access) (e : Ending) (s : State) : (endAccess p a e s).mem = s.mem :=
  (storesKept_mem s.mem).endAccess p a e s rfl

/-! ### The bounds of the link -/

theorem linkOk_of {l l' : Link} (h1 : l'.rxQueue = l.rxQueue) (h2 : l'.replyMemory = l.replyMemory) (h : LinkOk l) : LinkOk l' := by
  unfold LinkOk at *
  rw [h1, h2]
  exact h

/-- A stored reply keeps the bounds of reply memory (R188). -/
theorem remember_ok (e : ReplyEntry) (m : List ReplyEntry) (h : (m.map ReplyEntry.tag).Nodup) :
    (remember e m).length ≤ 4 ∧ ((remember e m).map ReplyEntry.tag).Nodup := by
  unfold remember Config.replyMemoryCapacity
  dsimp only
  have hk : ((m.filter fun x => x.tag != e.tag).map ReplyEntry.tag).Nodup := h.sublist (List.Sublist.map _ List.filter_sublist)
  refine ⟨by simp; omega, ?_⟩
  rw [List.map_append, List.nodup_append]
  refine ⟨hk.sublist (List.Sublist.map _ (List.drop_sublist _ _)), by simp, ?_⟩
  intro a ha b hb
  simp only [List.map_cons, List.map_nil, List.mem_singleton] at hb
  subst hb
  rw [List.mem_map] at ha
  obtain ⟨x, hx, rfl⟩ := ha
  have := (List.mem_filter.1 (List.mem_of_mem_drop hx)).2
  simpa using this

theorem storesKept_linkOk : StoresKept fun s => LinkOk s.link where
  rest := fun hq _ h1 h2 => linkOk_of h1 h2 hq
  push := fun s r hl hq => ⟨by simp; omega, hq.2⟩
  pop := fun s r l e hq => ⟨by have := hq.1; rw [e] at this; simp at this ⊢; omega, hq.2⟩
  clear := fun s hq => ⟨by simp, hq.2⟩
  reply := fun s e hq => ⟨hq.1, remember_ok e _ hq.2.2⟩
  forget := fun s f hq =>
    ⟨hq.1, (List.length_filter_le _ _).trans hq.2.1, hq.2.2.sublist (List.Sublist.map _ List.filter_sublist)⟩

end Sys2Proof.Laws
end

