-- ==== Sys2Proof/Laws/Wire.lean ====
section
/-! SUPPORT. Byte order: a number sent is the number read, and a descriptor form sent is the form read. -/

namespace Sys2Proof.Laws

open Sys2Proof.Machine

@[simp] theorem length_beBytes (w n : Nat) : (beBytes w n).length = w := by
  induction w with
  | zero => rfl
  | succ w ih => simp [beBytes, ih]

theorem beNat_foldl (acc : Nat) (l : List Byte) :
    l.foldl (fun n b => n * 256 + b.toNat) acc = acc * 256 ^ l.length + beNat l := by
  induction l generalizing acc with
  | nil => simp [beNat]
  | cons x l ih =>
    simp only [List.foldl_cons, beNat, List.length_cons]
    rw [ih, ih (0 * 256 + x.toNat), Nat.pow_succ]
    ring

theorem beNat_cons (x : Byte) (l : List Byte) : beNat (x :: l) = x.toNat * 256 ^ l.length + beNat l := by
  rw [beNat, List.foldl_cons, beNat_foldl]
  simp

/-- The number that `w` bytes of a number spell is that number, when it fits them. -/
theorem beNat_beBytes {w n : Nat} (h : n < 256 ^ w) : beNat (beBytes w n) = n := by
  suffices H : ∀ w n, beNat (beBytes w n) = n % 256 ^ w by rw [H, Nat.mod_eq_of_lt h]
  intro w
  induction w with
  | zero => intro n; simp [beBytes, beNat, Nat.mod_one]
  | succ w ih =>
    intro n
    have : (2 : Nat) ^ 8 = 256 := rfl
    rw [beBytes, beNat_cons, length_beBytes, ih, BitVec.toNat_ofNat, this, Nat.pow_succ, Nat.mod_mul]
    generalize n / 256 ^ w % 256 = x
    ring

/-- A field that stands at the head of what is left of a payload. -/
theorem fieldAt_beBytes {pre post : List Byte} {w n : Nat} (h : n < 256 ^ w) :
    fieldAt (pre ++ (beBytes w n ++ post)) pre.length w = n := by
  unfold fieldAt
  rw [List.drop_left, List.take_append_of_le_length (by simp), List.take_of_length_le (by simp), beNat_beBytes h]

theorem fieldAt_zero_byte (x : Byte) (l : List Byte) : fieldAt (x :: l) 0 1 = x.toNat := by
  simp [fieldAt, beNat]

theorem fieldAt_cons (x : Byte) (l : List Byte) (p w : Nat) : fieldAt (x :: l) (p + 1) w = fieldAt l p w := by
  simp [fieldAt]

theorem fieldAt_skip (l m : List Byte) (p w : Nat) : fieldAt (l ++ m) (l.length + p) w = fieldAt m p w := by
  simp [fieldAt]

theorem fieldAt_head {w n : Nat} (h : n < 256 ^ w) (l : List Byte) : fieldAt (beBytes w n ++ l) 0 w = n :=
  fieldAt_beBytes (pre := []) h

theorem fieldAt_whole {w n : Nat} (h : n < 256 ^ w) : fieldAt (beBytes w n) 0 w = n := by
  simpa using fieldAt_head h []

@[simp] theorem byteOf_toNat (x : Byte) : byteOf x.toNat = x := by
  simp [byteOf]

theorem length_bytes (f : DescForm) : (DescForm.bytes f).length = 20 := rfl

theorem word_lt (x : Word) : x.toNat < 256 ^ 4 := by
  have := x.isLt
  omega

theorem ofBytes_bytes (f : DescForm) : DescForm.ofBytes (DescForm.bytes f) = f := by
  obtain ⟨k, fl, s, d, so, d', ln, op⟩ := f
  have h4 : ∀ p q : List Byte, ∀ x : Word, ∀ n, n = p.length → fieldAt (p ++ (beBytes 4 x.toNat ++ q)) n 4 = x.toNat :=
    fun p q x n e => e ▸ fieldAt_beBytes (word_lt x)
  have e1 := h4 [k, fl, s, d] (beBytes 4 d'.toNat ++ (beBytes 4 ln.toNat ++ beBytes 4 op.toNat)) so 4 rfl
  have e2 := h4 ([k, fl, s, d] ++ beBytes 4 so.toNat) (beBytes 4 ln.toNat ++ beBytes 4 op.toNat) d' 8 (by simp)
  have e3 := h4 ([k, fl, s, d] ++ beBytes 4 so.toNat ++ beBytes 4 d'.toNat) (beBytes 4 op.toNat) ln 12 (by simp)
  have e4 := h4 ([k, fl, s, d] ++ beBytes 4 so.toNat ++ beBytes 4 d'.toNat ++ beBytes 4 ln.toNat) [] op 16 (by simp)
  simp only [List.append_assoc, List.append_nil] at e1 e2 e3 e4
  unfold DescForm.ofBytes DescForm.bytes
  simp only [List.append_assoc]
  rw [e1, e2, e3, e4]
  simp [fieldAt, beNat]

theorem formsOf_bytes (fs : List DescForm) : formsOf fs.length (fs.flatMap DescForm.bytes) = fs := by
  induction fs with
  | nil => rfl
  | cons f fs ih =>
    rw [List.length_cons, List.flatMap_cons, formsOf, List.take_left' (length_bytes f), List.drop_left' (length_bytes f), ofBytes_bytes, ih]

theorem length_formsPayload (x : Byte) (fs : List DescForm) : (formsPayload x fs).length = 1 + 20 * fs.length := by
  have : ∀ fs : List DescForm, (fs.flatMap DescForm.bytes).length = 20 * fs.length := by
    intro fs
    induction fs with
    | nil => rfl
    | cons f fs ih => rw [List.flatMap_cons, List.length_append, ih, length_bytes, List.length_cons]; omega
  simp [formsPayload, this]
  omega

/-- The entries of a chain request are read as they were sent. -/
theorem formsOf_formsPayload (x : Byte) (fs : List DescForm) :
    formsOf (((formsPayload x fs).length - 1) / 20) ((formsPayload x fs).drop 1) = fs := by
  rw [length_formsPayload]
  have : (1 + 20 * fs.length - 1) / 20 = fs.length := by omega
  rw [this]
  exact formsOf_bytes fs

end Sys2Proof.Laws
end

