-- ==== Sys2Proof/Laws/Outcomes.lean ====
section
/-! SUPPORT. What the small operations that requests and events are made of answer: operands, checks, accesses, records. -/

namespace Sys2Proof.Laws

open Sys2Proof.Machine Sys2Proof.Safety

/-! ### Operands of requests -/

theorem onChannel_val {x : Byte} {l : List Byte} {c : ChanId} (e : x.toNat = c.val) (b : Blocks) (f : ChanId → Blocks × Answer) :
    onChannel (x :: l) b f = f c := by
  unfold onChannel; rw [fieldAt_zero_byte, e, indexOf_val]

theorem onUnit_val {x : Byte} {l : List Byte} {c : UnitId} (e : x.toNat = c.val) (b : Blocks) (f : UnitId → Blocks × Answer) :
    onUnit (x :: l) b f = f c := by
  unfold onUnit; rw [fieldAt_zero_byte, e, indexOf_val]

theorem onUnit_ge {x : Byte} {l : List Byte} (e : 8 ≤ x.toNat) (b : Blocks) (f : UnitId → Blocks × Answer) :
    onUnit (x :: l) b f = (b, .now (badField 0xFF)) := by
  unfold onUnit; rw [fieldAt_zero_byte, indexOf_ge e]

theorem spaceOfCode_none {x : Byte} (h0 : x ≠ 0) (h : ∀ u : UnitId, x.toNat ≠ 16 + u.val) : Space.ofCode x = none := by
  unfold Space.ofCode
  rw [if_neg h0]
  split
  · unfold indexOf?
    rw [dif_neg]; rfl
    intro hl
    have := h ⟨x.toNat - 16, hl⟩
    simp at this
    omega
  · rfl

theorem spaceOfCode_unit {x : Byte} {u : UnitId} (h : x.toNat = 16 + u.val) : Space.ofCode x = some (.unit u) := by
  unfold Space.ofCode
  have h0 : x ≠ 0 := by rintro rfl; simp at h; omega
  rw [if_neg h0, if_pos (by omega)]
  have : x.toNat - 16 = u.val := by omega
  rw [this, indexOf_val]; rfl

theorem accessFields (space : Byte) (offset : Word) (l : List Byte) :
   fieldAt (space :: beBytes 4 offset.toNat ++ l) 0 1 = space.toNat ∧
   fieldAt (space :: beBytes 4 offset.toNat ++ l) 1 4 = offset.toNat ∧
   (space :: beBytes 4 offset.toNat ++ l).drop 5 = l := by
  refine ⟨?_, ?_, ?_⟩
  · rw [List.cons_append, fieldAt_zero_byte]
  · rw [List.cons_append, show 1 = 0 + 1 from rfl, fieldAt_cons, fieldAt_head (word_lt offset)]
  · rw [List.cons_append, List.drop_succ_cons, List.drop_left' (length_beBytes _ _)]

theorem requestPeek_eq (space : Byte) (offset : Word) (n : Byte) (b : Blocks) :
   requestPeek (space :: beBytes 4 offset.toNat ++ [n]) b = match Space.ofCode space with
  | none => (b, .now (badField 0xFF))
  | some sp =>
    if n.toNat = 0 || 128 < n.toNat then (b, .now (badField 0xFF))
    else beginAgent { kind := .peek, space := sp, offset := offset.toNat, count := n.toNat, done := 0, data := [] } b := by
  obtain ⟨a1, a2, a3⟩ := accessFields space offset [n]
  have a4 : fieldAt (space :: beBytes 4 offset.toNat ++ [n]) 5 1 = n.toNat := by
    rw [List.cons_append, show 5 = 4 + 1 from rfl, fieldAt_cons]
    have := fieldAt_skip (beBytes 4 offset.toNat) [n] 0 1
    simp only [length_beBytes] at this
    exact this.trans (fieldAt_zero_byte _ _)
  unfold requestPeek
  rw [a1, a2, a4, byteOf_toNat] <;> rfl

theorem requestPoke_eq (space : Byte) (offset : Word) (data : List Byte) (b : Blocks) :
   requestPoke (space :: beBytes 4 offset.toNat ++ data) b = match Space.ofCode space with
  | none => (b, .now (badField 0xFF))
  | some sp => beginAgent { kind := .poke, space := sp, offset := offset.toNat, count := data.length, done := 0, data := data } b := by
  obtain ⟨a1, a2, a3⟩ := accessFields space offset data
  unfold requestPoke
  rw [a1, a2, a3, byteOf_toNat] <;> rfl

theorem modeOfCode_code (m : GuardMode) (x : Byte) (h : GuardMode.code m = x) : GuardMode.ofCode x.toNat = some m := by
  subst h; cases m <;> rfl

theorem agentsOfCode_code (m : GuardAgents) (x : Byte) (h : GuardAgents.code m = x) : GuardAgents.ofCode x.toNat = some m := by
  subst h; cases m <;> rfl

theorem code_of_modeOfCode {m : GuardMode} {x : Byte} (h : GuardMode.ofCode x.toNat = some m) : GuardMode.code m = x := by
  apply BitVec.eq_of_toNat_eq
  unfold GuardMode.ofCode at h
  split at h
  · cases h; rename_i h; rw [h]; rfl
  · split at h
    · cases h; rename_i h; rw [h]; rfl
    · split at h
      · cases h; rename_i h; rw [h]; rfl
      · cases h

theorem code_of_agentsOfCode {m : GuardAgents} {x : Byte} (h : GuardAgents.ofCode x.toNat = some m) : GuardAgents.code m = x := by
  apply BitVec.eq_of_toNat_eq
  unfold GuardAgents.ofCode at h
  split at h
  · cases h; rename_i h; rw [h]; rfl
  · split at h
    · cases h; rename_i h; rw [h]; rfl
    · split at h
      · cases h; rename_i h; rw [h]; rfl
      · cases h

/-! ### Channels -/

theorem accessInFlight_false {b : Blocks} {c : ChanId} (h1 : b.bufPort.owner ≠ some (.chan c)) (h2 : b.slotPort.owner ≠ some (.chan c)) :
    b.accessInFlight c = false := by
  simp [Blocks.accessInFlight, h1, h2]

theorem accessInFlight_true {b : Blocks} {c : ChanId} (h : b.bufPort.owner = some (.chan c) ∨ b.slotPort.owner = some (.chan c)) :
    b.accessInFlight c = true := by
  simpa [Blocks.accessInFlight] using h

theorem answerChannel_rested {c : ChanId} {b : Blocks} (h : rested b = true) : answerChannel c b = (b, .now (channelReply .ok c b)) := by
  unfold answerChannel; rw [settle_rested h]

theorem rested_enterHeld {b : Blocks} (c : ChanId) (h : rested b = true) : rested (enterHeld c b) = true :=
  rested_same (b := b) ⟨by simp [enterHeld], by simp [enterHeld]⟩ h

theorem channelReply_held (c : ChanId) (b : Blocks) : channelReply .ok c (enterHeld c b) = [0x00, 0x04, 0xFF] := by
  simp [channelReply, enterHeld, ChanState.code, Result.code]

theorem drained_iff (b : Blocks) (c : ChanId) : b.drained c = true ↔ (b.chan c).outbox = [] := by simp [Blocks.drained]

theorem run_start {c : ChanId} {m : Member} {rest : List Member} {b b1 : Blocks} (h : checkStart m.desc b = (b1, none)) (hk : m.desc.kind ≠ .wait) :
    run c (m :: rest) b = startMoving c m.desc b1 := by
  rw [run, h]
  dsimp only
  split
  · rename_i h1 _; exact absurd h1 hk
  · rfl

theorem patternByte_eq (op : Word) (i : Nat) : patternByte op i =
      (if i % 4 = 0 then op.extractLsb' 24 8 else if i % 4 = 1 then op.extractLsb' 16 8
      else if i % 4 = 2 then op.extractLsb' 8 8 else op.extractLsb' 0 8) := by
  have h : i % 4 = 0 ∨ i % 4 = 1 ∨ i % 4 = 2 ∨ i % 4 = 3 := by omega
  apply BitVec.eq_of_toNat_eq
  rcases h with h | h | h | h <;>
    simp [patternByte, h, byteOf, Nat.shiftRight_eq_div_pow]

theorem countAccess_eq (k : DescKind) (a : Access) (data : List Byte) (ch : Channel) : countAccess k a data ch =
    (if k = .copy ∧ a.dir = .read then { ch with staging := data }
      else if k = .check then
        { ch with crc := ch.crc.map fun r => crc32Bytes r data, bytesDone := ch.bytesDone + a.count }
      else { ch with staging := [], bytesDone := ch.bytesDone + a.count }) := by
  unfold countAccess
  cases k <;> cases h : a.dir <;> simp

/-! ### Units -/

theorem overlaps_iff (u : UnitId) (w : Window) (b : Blocks) : overlapsInUse u w b = true ↔
    ∃ v x, v ≠ u ∧ InUse (b.unit v) ∧ (b.unit v).window = some x ∧ w.base < x.base + x.size ∧ x.base < w.base + w.size := by
  unfold overlapsInUse allUnits
  simp only [List.any_eq_true, List.mem_finRange, true_and, Bool.and_eq_true, Bool.or_eq_true, beq_iff_eq, bne_iff_ne, InUse]
  constructor
  · rintro ⟨v, ⟨h1, h2⟩, h3⟩
    split at h3
    · rename_i x hx
      exact ⟨v, x, h1, h2, hx, by simpa using h3⟩
    · cases h3
  · rintro ⟨v, x, h1, h2, h3, h4⟩
    refine ⟨v, ⟨h1, h2⟩, ?_⟩
    rw [h3]; simpa using h4

theorem unitInUse_iff (u : UnitId) (b : Blocks) : unitInUse u b = true ↔
    ∃ c d, (b.chan c).state ≠ .idle ∧ b.current c = some d ∧ (d.src = .unit u ∨ d.dst = .unit u) := by
  unfold unitInUse allChans
  simp only [List.any_eq_true, List.mem_finRange, true_and, Bool.and_eq_true, bne_iff_ne]
  constructor
  · rintro ⟨c, h1, h2⟩
    split at h2
    · rename_i d hd
      exact ⟨c, d, h1, hd, by simpa using h2⟩
    · cases h2
  · rintro ⟨c, d, h1, h2, h3⟩
    refine ⟨c, h1, ?_⟩
    rw [h2]; simpa using h3

theorem unitAccessed_iff (u : UnitId) (b : Blocks) : b.unitAccessed u = true ↔ ∃ a t, b.slotPort.inFlight = some a ∧ a.card = some t ∧ t.unit = u := by
  unfold Blocks.unitAccessed
  split
  · rename_i a ha
    constructor
    · intro h
      rcases hc : a.card with _ | t
      · simp [hc] at h
      · exact ⟨a, t, ha, hc, by simpa [hc] using h⟩
    · rintro ⟨a', t, h1, h2, h3⟩
      rw [ha] at h1; cases h1; simp [h2, h3]
  · rename_i ha
    simp [ha]

theorem accessTo_some {u : UnitId} {s : State} {a : Access} {due : Nat} (h1 : s.blocks.slotPort.inFlight = some a) (h2 : a.card = some ⟨u, due⟩) : accessTo u s = some a := by
  unfold accessTo Blocks.unitAccessed
  simp [h1, h2]

/-! ### Guards -/

theorem refusing_spec (g : GuardUnit) (o l : Nat) (dir : Dir) (agent : Agent) :
   (∀ i : GuardId, g.refusing o l dir agent = some i → ∃ r, g.entries[i] = some r ∧ r.refuses o l dir agent = true) ∧
   (g.refusing o l dir agent = none → ∀ i : GuardId, ∀ r, g.entries[i] = some r → r.refuses o l dir agent = false) := by
  unfold GuardUnit.refusing
  constructor
  · intro i h
    have := List.find?_some h
    split at this
    · exact ⟨_, by assumption, this⟩
    · cases this
  · intro h i r hr
    rw [List.find?_eq_none] at h
    have := h i (List.mem_finRange i)
    rw [hr] at this
    simpa using this

theorem rangeCheck_none {o l : Nat} {dir : Dir} {ag : Agent} {b : Blocks} (h : (rangeCheck o l dir ag b).2 = none) : (rangeCheck o l dir ag b).1 = b := by
  unfold rangeCheck at h ⊢
  split at h
  · cases h
  · rfl

/-! ### Ports -/

theorem grants_rested {b : Blocks} (h : rested b = true) : grants b = (b, []) := by
  simp only [rested, Bool.and_eq_true, beq_iff_eq] at h
  have hb : grantBuffer b = b := by
    unfold grantBuffer
    rw [h.1]
  unfold grants grantSlot
  simp [hb, h.2]

theorem plan_link (o : AgentOp) (b : Blocks) (h0 : o.done = 0) :
  Blocks.plan { b with agent := some o } .link = some ⟨o.space, o.offset, (match o.kind with | .peek => .read | .poke => .write), min o.count (64 - o.offset % 64), match o.kind with | .peek => [] | .poke => o.data.take (min o.count (64 - o.offset % 64))⟩ := by
  unfold Blocks.plan AgentOp.plan
  simp only [Option.map_some, h0, burst, Config.burstBytes, Nat.add_zero, Nat.sub_zero, List.drop_zero]
  cases o.kind <;> rfl

theorem next_link_of_empty (a : Arbiter) (h1 : a.barred = false) (h2 : a.inFlight = none) (h3 : a.requests = []) :
   ({ a with requests := addRequest .link a.requests } : Arbiter).next = some .link := by
  unfold Arbiter.next
  simp only [h1, h2, h3]
  have : addRequest .link [] = [.link] := by decide
  rw [this]
  have : ∀ l : Requester, (searchOrder l).find? (fun x => [Requester.link].contains x) = some .link := by
    intro l
    rcases l with c | _
    · revert c; decide
    · decide
  simpa using this a.lastGranted

theorem next_busy (a : Arbiter) (h : a.barred = true ∨ a.inFlight.isSome) (l : List Requester) : ({ a with requests := l } : Arbiter).next = none := by
  unfold Arbiter.next
  rcases h with h | h <;> simp [h]

theorem searchOrder_find_iff (l : List Requester) (last : Requester) : ∀ r : Requester, 
   let place (r : Requester) : Nat := match r with | .chan c => c.val | .link => 4
   let after (x : Requester) : Nat := (place x + 4 - place last) % 5
  ((searchOrder last).find? l.contains = some r ↔ r ∈ l ∧ ∀ x ∈ l, after r ≤ after x) := by
  intro r place after
  have key : ∀ last : Requester, (searchOrder last).Pairwise (fun x y => (place x + 4 - place last) % 5 < (place y + 4 - place last) % 5) ∧ ∀ x, x ∈ searchOrder last := by
    intro last
    rcases last with c | _
    · revert c
      have : ∀ c : ChanId, (searchOrder (.chan c)).Pairwise (fun x y => (place x + 4 - place (.chan c)) % 5 < (place y + 4 - place (.chan c)) % 5) ∧ (∀ d : ChanId, Requester.chan d ∈ searchOrder (.chan c)) ∧ Requester.link ∈ searchOrder (.chan c) := by decide
      intro c
      obtain ⟨h1, h2, h3⟩ := this c
      exact ⟨h1, fun x => by cases x; exact h2 _; exact h3⟩
    · have : (searchOrder .link).Pairwise (fun x y => (place x + 4 - place .link) % 5 < (place y + 4 - place .link) % 5) ∧ (∀ d : ChanId, Requester.chan d ∈ searchOrder .link) ∧ Requester.link ∈ searchOrder .link := by decide
      obtain ⟨h1, h2, h3⟩ := this
      exact ⟨h1, fun x => by cases x; exact h2 _; exact h3⟩
  obtain ⟨hs, hm⟩ := key last
  have gen : ∀ L : List Requester, L.Pairwise (fun x y => after x < after y) → (∀ x ∈ l, x ∈ L) → (L.find? l.contains = some r ↔ r ∈ l ∧ ∀ x ∈ l, after r ≤ after x) := by
    intro L
    induction L with
    | nil =>
      intro _ hm
      simp
      intro hr; exact absurd (hm r hr) (by simp)
    | cons y L ih =>
      intro hp hm
      rw [List.pairwise_cons] at hp
      by_cases hy : y ∈ l
      · rw [List.find?_cons_of_pos (by simpa using hy)]
        constructor
        · intro h; cases h
          refine ⟨hy, fun x hx => ?_⟩
          rcases List.mem_cons.1 (hm x hx) with rfl | h
          · exact Nat.le_refl _
          · exact Nat.le_of_lt (hp.1 x h)
        · rintro ⟨h1, h2⟩
          rcases List.mem_cons.1 (hm r h1) with rfl | h
          · rfl
          · have := h2 y hy
            have := hp.1 r h
            omega
      · rw [List.find?_cons_of_neg (by simpa using hy)]
        refine ih hp.2 fun x hx => ?_
        rcases List.mem_cons.1 (hm x hx) with rfl | h
        · exact absurd hx hy
        · exact h
  exact gen _ hs fun x _ => hm x

/-! ### Buffer memory -/

theorem length_readBytes (m : Memory) (a n : Nat) : (m.readBytes a n).length = n := by
  induction n generalizing a with
  | zero => rfl
  | succ n ih => simp [Memory.readBytes, ih]

theorem getD_readBytes (m : Memory) (a n i : Nat) (h : i < n) : (m.readBytes a n).getD i 0 = m.read (a + i) := by
  induction n generalizing a i with
  | zero => omega
  | succ n ih =>
    cases i with
    | zero => simp [Memory.readBytes]
    | succ i =>
      have := ih (a + 1) i (by omega)
      simp only [Memory.readBytes, List.getD_cons_succ, this]
      congr 1; omega

/-! ### The notice unit -/

theorem summary_raise (x : Source) (b : Blocks) : (raise x b).notice.summary = if SourceSet.has b.notice.mask x then b.notice.summary ||| x.set else b.notice.summary := by
  unfold raise
  split
  · unfold buildNotice
    split
    · split <;> rfl
    · rfl
  · rfl

theorem bit_lt (x : Source) : x.bit < 16 := by
  cases x <;> simp [Source.bit]
  omega

theorem getLsbD_iff_and_ne (m : SourceSet) (k : Nat) (hk : k < 16) : m.getLsbD k = true ↔ m &&& 1#16 <<< k ≠ 0 := by
  have hb : ∀ i < 16, (1#16 <<< k).getLsbD i = decide (i = k) := by
    intro i hi
    simp only [BitVec.getLsbD_shiftLeft, BitVec.getLsbD_one, hi, decide_true, Bool.true_and]
    by_cases h : i < k
    · simp [h]; omega
    · simp [h]; omega
  constructor
  · intro h e
    have : (m &&& 1#16 <<< k).getLsbD k = false := by rw [e]; simp
    rw [BitVec.getLsbD_and, h, hb k hk] at this
    simp at this
  · intro h
    by_contra hn
    apply h
    apply BitVec.eq_of_getLsbD_eq
    intro i hi
    rw [BitVec.getLsbD_and, hb i hi]
    by_cases e : i = k
    · subst e; simp [Bool.eq_false_iff.2 hn]
    · simp [e]

theorem sourceSet_has_iff (m : SourceSet) (x : Source) : SourceSet.has m x = true ↔ m &&& 1#16 <<< x.bit ≠ 0 := getLsbD_iff_and_ne m x.bit (bit_lt x)

theorem or_bit_eq_zero (a : SourceSet) (k : Nat) (hk : k < 16) : (a ||| 1#16 <<< k = 0) = False := by
  apply eq_false
  intro h
  have h2 : (1#16 <<< k).getLsbD k = true := by simp [hk]
  have : (a ||| 1#16 <<< k).getLsbD k = false := by rw [h]; simp
  rw [BitVec.getLsbD_or, h2] at this
  simp at this

end Sys2Proof.Laws
end

