-- ==== Sys2Proof/Laws/Receive.lean ====
section
/-! SUPPORT. The receiver fed with a list of bytes, one command each. -/

namespace Sys2Proof.Laws

open Sys2Proof.Machine Sys2Proof.Safety

theorem crc_snoc (r : BitVec 16) (l : List Byte) (b : Byte) : crc16Bytes r (l ++ [b]) = crc16Byte (crc16Bytes r l) b := by
  induction l generalizing r with
  | nil => rfl
  | cons x l ih => exact ih _

/-- The bytes arrive one after the other. -/
def feed (o : Host.Outcome State Fault Refusal) (l : List Byte) : Host.Outcome State Fault Refusal :=
  l.foldl (fun o b => match o with | .next x => exec (.characterReceived b) x | o => o) o

theorem settled_rx {s : State} (h : settled s = true) (x : Receiver) : settled { s with link := { s.link with receiver := x } } = true := h

/-- The state with the receiver in a state given. -/
def withRx (s : State) (x : Receiver) : State := { s with link := { s.link with receiver := x } }

theorem receive_next {s : State} (hp : s.power = .running) (hs : settled s = true) (r : Receiver) (b : Byte) (x : Receiver)
   (h : receiveByte b (withRx s r) = withRx s x) : exec (.characterReceived b) (withRx s r) = .next (withRx s x) := by
  refine (onRunning_some (s := withRx s r) hp (receiveByte b (withRx s r))).trans ?_
  rw [h, endStep_settled (s := withRx s x) (settled_rx hs x)]

theorem feed_body {s : State} (hp : s.power = .running) (hs : settled s = true) (n : Nat) (rest : List Byte) :
   ∀ (tk : List Byte) (crc : BitVec 16) (d : Nat), 1 ≤ rest.length → tk.length + rest.length = n →
   ∃ d', feed (.next (withRx s (.body ⟨n, tk, crc⟩ d))) rest = .next (withRx s (.check ⟨n, tk ++ rest, crc16Bytes crc rest⟩ none d')) := by
  induction rest with
  | nil => intro tk crc d h; simp at h
  | cons b rest ih =>
    intro tk crc d _ hn
    have e : feed (.next (withRx s (.body ⟨n, tk, crc⟩ d))) (b :: rest) = feed (exec (.characterReceived b) (withRx s (.body ⟨n, tk, crc⟩ d))) rest := rfl
    rcases rest with _ | ⟨y, rest⟩
    · refine ⟨s.blocks.now + 2001, ?_⟩
      rw [e, receive_next hp hs _ b (.check ⟨n, tk ++ [b], crc16Byte crc b⟩ none (s.blocks.now + 2001))]
      · rfl
      · simp at hn
        simp [receiveByte, withRx, Partial.keep, hn, Config.gapLimit]
    · rw [e, receive_next hp hs _ b (.body ⟨n, tk ++ [b], crc16Byte crc b⟩ (s.blocks.now + 2001))]
      · obtain ⟨d', hd⟩ := ih (tk ++ [b]) (crc16Byte crc b) (s.blocks.now + 2001) (by simp) (by simp at hn ⊢; omega)
        refine ⟨d', hd.trans ?_⟩
        simp [crc16Bytes]
      · simp at hn
        have : tk.length + 1 ≠ n := by omega
        simp [receiveByte, withRx, Partial.keep, this, Config.gapLimit]

theorem feed_append (o : Host.Outcome State Fault Refusal) (l m : List Byte) : feed o (l ++ m) = feed (feed o l) m := by
  simp [feed]

theorem beBytes_two (x : BitVec 16) : ∃ hi lo : Byte, beBytes 2 x.toNat = [hi, lo] ∧ hi ++ lo = x := by
  refine ⟨BitVec.ofNat 8 (x.toNat / 256), BitVec.ofNat 8 x.toNat, ?_, ?_⟩
  · simp [beBytes]
  · apply BitVec.eq_of_toNat_eq
    simp only [BitVec.toNat_append, BitVec.toNat_ofNat]
    have := x.isLt
    rw [← Nat.shiftLeft_add_eq_or_of_lt (by omega)]
    rw [Nat.shiftLeft_eq]
    omega

end Sys2Proof.Laws
end

