-- ==== Sys2Proof/Laws/Tables.lean ====
section
/-! SUPPORT. The laws of the slots, the guard table, the completion queue and the unit table under every action of the blocks
(`Basic`), and what the machine does under RESET_N. -/

namespace Sys2Proof.Laws

open Sys2Proof.Machine Sys2Proof.Safety

/-! ### Slots -/

theorem perm_flatMap_update {f g : Handle → List Nat} {h : Handle} (e : ∀ k, k ≠ h → g k = f k) :
    (allHandles.flatMap g ++ f h).Perm (allHandles.flatMap f ++ g h) := by
  have hm : h ∈ allHandles := List.mem_finRange h
  have hn : allHandles.Nodup := List.nodup_finRange 32
  obtain ⟨l1, l2, hl⟩ := List.append_of_mem hm
  rw [hl] at hn ⊢
  have h1 : h ∉ l1 := by
    intro hh
    rw [List.nodup_append] at hn
    exact hn.2.2 h hh h (by simp) rfl
  have h2 : h ∉ l2 := by
    intro hh
    rw [List.nodup_append, List.nodup_cons] at hn
    exact hn.2.1.1 hh
  have e1 : l1.flatMap g = l1.flatMap f := List.flatMap_congr fun k hk => e k (by rintro rfl; exact h1 hk)
  have e2 : l2.flatMap g = l2.flatMap f := List.flatMap_congr fun k hk => e k (by rintro rfl; exact h2 hk)
  simp only [List.flatMap_append, List.flatMap_cons, e1, e2]
  generalize l1.flatMap f = A
  generalize l2.flatMap f = B
  rw [← Multiset.coe_eq_coe]
  simp only [← Multiset.coe_add]
  abel

theorem slots_congr {b b' : Blocks} (hp : b'.pool = b.pool) (hm : ∀ h, (b'.chain h).members = (b.chain h).members) : allSlots b' = allSlots b := by
  unfold allSlots; rw [hp]; simp only [hm]

theorem slots_same {b b' : Blocks} (hp : b'.pool = b.pool) (hc : b'.chains = b.chains) (h : SlotsOk b) : SlotsOk b' := by
  have e : ∀ h, b'.chain h = b.chain h := fun h => by unfold Blocks.chain; rw [hc]
  exact ⟨by rw [slots_congr hp fun h => by rw [e]]; exact h.once, fun k hk => by rw [e] at hk ⊢; exact h.free k hk⟩

theorem slots_take (b : Blocks) (ds : List Descriptor) (h : ds.length ≤ b.pool.length) : (takeSlots b ds).map Member.slot = b.pool.take ds.length := by
  unfold takeSlots
  rw [List.map_map]
  have : (Member.slot ∘ fun x : Nat × Descriptor => (⟨x.1, x.2⟩ : Member)) = Prod.fst := rfl
  rw [this, List.zip_eq_zip_take_min, Nat.min_eq_right h, List.map_fst_zip]
  simp [h]

theorem slots_upd {b : Blocks} {h : Handle} {x : Chain} {pool : List Nat} (hs : SlotsOk b) (hx : x.state = .free → x = {})
   (hp : (pool ++ x.members.map Member.slot).Perm (b.pool ++ (b.chain h).members.map Member.slot)) :
   SlotsOk { b.updChain h (fun _ => x) with pool := pool } := by
  have e1 : ∀ k, ({ b.updChain h (fun _ => x) with pool := pool } : Blocks).chain k = (b.updChain h (fun _ => x)).chain k := fun _ => rfl
  refine ⟨?_, ?_⟩
  · refine List.Perm.trans ?_ hs.once
    unfold allSlots
    simp only [e1]
    have := perm_flatMap_update (f := fun k => (b.chain k).members.map Member.slot) (g := fun k => ((b.updChain h (fun _ => x)).chain k).members.map Member.slot) (h := h)
      (fun k hk => by simp only [chain_updChain_ne _ hk])
    simp only [chain_updChain_self] at this
    rw [← Multiset.coe_eq_coe] at *
    simp only [← Multiset.coe_add] at *
    refine add_right_cancel (b := (↑((b.chain h).members.map Member.slot) + ↑(x.members.map Member.slot) : Multiset Nat)) ?_
    generalize (↑(List.flatMap (fun k => List.map Member.slot ((b.updChain h fun _ => x).chain k).members) allHandles) : Multiset Nat) = A at *
    generalize (↑(List.flatMap (fun k => List.map Member.slot (b.chain k).members) allHandles) : Multiset Nat) = B at *
    generalize (↑(List.map Member.slot x.members) : Multiset Nat) = X at *
    generalize (↑(List.map Member.slot (b.chain h).members) : Multiset Nat) = Y at *
    generalize (↑pool : Multiset Nat) = p at *
    generalize (↑b.pool : Multiset Nat) = q at *
    calc p + A + (Y + X) = (p + X) + (A + Y) := by abel
      _ = (q + Y) + (B + X) := by rw [hp, this]
      _ = q + B + (Y + X) := by abel
  · intro k hk
    rw [e1] at hk ⊢
    by_cases h' : k = h
    · subst h'; rw [chain_updChain_self] at hk ⊢; exact hx hk
    · rw [chain_updChain_ne _ h'] at hk ⊢; exact hs.free k hk

theorem slots_basic : Basic SlotsOk where
  aside := fun b b' h hp => by
    have h1 : b'.pool = b.pool := by rw [h]
    have h2 : b'.chains = b.chains := by rw [h]
    exact slots_same h1 h2 hp
  moved := fun b b' h hp => by
    refine ⟨?_, ?_⟩
    · rw [slots_congr (b := b) (b' := b') h.pool h.members]; exact hp.once
    · intro k hk
      have e : b'.chain k = b.chain k := h.freed k hk
      rw [e] at hk ⊢; exact hp.free k hk
  reset := fun x b _ => by
    refine ⟨?_, fun h _ => chain_resetBlocks x b h⟩
    unfold allSlots
    simp only [chain_resetBlocks, List.map_nil]
    rw [List.flatMap_eq_nil_iff.2 (fun _ _ => rfl), List.append_nil]
    have e : (resetBlocks x b).pool = List.range Config.slotCount := by simp only [resetBlocks]
    rw [e]
  build := fun h o ds b hf hl hp => by
    refine slots_upd hp (by simp) ?_
    rw [hp.free h hf, slots_take b ds hl]
    simp only [List.map_nil, List.append_nil]
    exact List.perm_append_comm.trans (List.Perm.of_eq (List.take_append_drop _ _))
  extend := fun h ds b hf hl hp => by
    have := slots_upd (h := h) (x := { b.chain h with members := (b.chain h).members ++ takeSlots b ds }) (pool := b.pool.drop ds.length) hp
      (fun hx => absurd hx hf) (by
        rw [List.map_append, slots_take b ds hl]
        have e := List.take_append_drop ds.length b.pool
        conv_rhs => rw [← e]
        rw [← Multiset.coe_eq_coe]
        simp only [← Multiset.coe_add]
        abel)
    exact this
  close := fun h b hf hp => by
    refine ⟨?_, ?_⟩
    · rw [slots_congr (b := b) (b' := b.updChain h _) rfl ?_]
      · exact hp.once
      intro k
      by_cases e : k = h
      · subst e; rw [chain_updChain_self]
      · rw [chain_updChain_ne _ e]
    · intro k hk
      by_cases e : k = h
      · subst e; rw [chain_updChain_self] at hk; exact absurd hk hf
      · rw [chain_updChain_ne _ e] at hk ⊢; exact hp.free k hk
  drop := fun h b _ hp => by
    have := slots_upd (h := h) (x := {}) (pool := b.pool ++ (b.chain h).members.map Member.slot) hp (fun _ => rfl) (by simp)
    exact this
  collect := fun k b hp => slots_same (b := b) rfl rfl hp
  guard := fun i x b _ hp => slots_same (b := b) rfl rfl hp
  freeze := fun b hp => slots_same (b := b) rfl rfl hp
  set := fun u w t b _ _ hp _ => slots_same (b := b) rfl rfl hp
  unfence := fun u b _ hp => slots_same (b := b) rfl rfl hp
  activate := fun u w b _ _ _ hp => slots_same (b := b) rfl rfl hp
  defer := fun u b _ hp => slots_same (b := b) rfl rfl hp
  release := fun u b _ hp => slots_same (b := b) rfl rfl hp
  fence := fun u b hp => slots_same (b := b) rfl rfl hp
  seen := fun u b _ hp => slots_same (b := b) rfl rfl hp
  gone := fun u b hp => slots_same (b := b) rfl rfl hp
  line := fun u l b hp => slots_same (b := b) rfl rfl hp

theorem slots_reset : SlotsOk State.reset.blocks := by
  have e : ∀ h, State.reset.blocks.chain h = {} := fun h => Vector.getElem_replicate _
  refine ⟨?_, fun h _ => e h⟩
  unfold allSlots
  simp only [e, List.map_nil]
  rw [List.flatMap_eq_nil_iff.2 (fun _ _ => rfl), List.append_nil]
  have e : State.reset.blocks.pool = List.range Config.slotCount := by simp only [State.reset]
  rw [e]

/-! ### The frozen guard table -/

theorem guard_basic (E : Vector (Option GuardRange) 8) : Basic (fun b => b.guards.frozen = true ∧ b.guards.entries = E) where
  aside := fun b b' h hp => by
    have : b'.guards = b.guards := by rw [h]
    rw [this]; exact hp
  moved := fun b b' h hp => ⟨h.frozen.trans hp.1, h.entries.trans hp.2⟩
  reset := fun x b hp => by
    cases x
    · exact hp
    · simp only [resetBlocks, resetGuards]
      rw [if_pos (by exact hp.1)]; exact hp
  build := fun h o ds b hf hl hp => hp
  extend := fun h ds b hf hl hp => hp
  close := fun h b hf hp => hp
  drop := fun h b _ hp => hp
  collect := fun k b hp => hp
  guard := fun i x b hf hp => absurd hp.1 (by rw [hf]; decide)
  freeze := fun b hp => ⟨rfl, hp.2⟩
  set := fun u w t b _ _ hp _ => hp
  unfence := fun u b _ hp => hp
  activate := fun u w b _ _ _ hp => hp
  defer := fun u b _ hp => hp
  release := fun u b _ hp => hp
  fence := fun u b hp => hp
  seen := fun u b _ hp => hp
  gone := fun u b hp => hp
  line := fun u l b hp => hp

/-! ### The completion queue -/

theorem queue_drop {q : Queue} (k : Nat) (h : QueueOk q) : QueueOk { q with records := q.records.drop k } := by
  obtain ⟨h1, h2⟩ := h
  refine ⟨by simp; omega, ?_⟩
  simp only [List.length_drop]
  rw [List.map_drop, h2]
  apply List.ext_getElem
  · simp
  · intro i hi hj
    simp at hi hj
    simp
    have e : q.records.length - (k + i) = q.records.length - k - i := by omega
    rw [e]

theorem queue_basic : Basic (fun b => QueueOk b.queue) where
  aside := fun b b' h hp => by
    have : b'.queue = b.queue := by rw [h]
    rw [this]; exact hp
  moved := fun b b' h hp => h.queue hp
  reset := fun x b hp => by
    cases x <;> exact ⟨by simp [resetBlocks, resetQueue], by simp [resetBlocks, resetQueue]⟩
  build := fun h o ds b hf hl hp => hp
  extend := fun h ds b hf hl hp => hp
  close := fun h b hf hp => hp
  drop := fun h b _ hp => hp
  collect := fun k b hp => queue_drop k hp
  guard := fun i x b hf hp => hp
  freeze := fun b hp => hp
  set := fun u w t b _ _ hp _ => hp
  unfence := fun u b _ hp => hp
  activate := fun u w b _ _ _ hp => hp
  defer := fun u b _ hp => hp
  release := fun u b _ hp => hp
  fence := fun u b hp => hp
  seen := fun u b _ hp => hp
  gone := fun u b hp => hp
  line := fun u l b hp => hp

/-! ### The unit table -/

/-- Every unit is as its state asks and the windows of units in use are apart. -/
def UnitsLaw (b : Blocks) : Prop := (∀ u, UnitOk (b.unit u)) ∧ WindowsApart b

theorem apart_upd {b : Blocks} {u : UnitId} {f : UnitEntry → UnitEntry} (h : WindowsApart b)
   (hf : InUse (f (b.unit u)) → ∀ v, v ≠ u → InUse (b.unit v) → ∀ w x, (f (b.unit u)).window = some w → (b.unit v).window = some x →
     w.base + w.size ≤ x.base ∨ x.base + x.size ≤ w.base) : WindowsApart (b.updUnit u f) := by
  intro p q hpq hp hq w x hw hx
  by_cases e1 : p = u
  · subst e1
    rw [unit_updUnit_self] at hp hw
    rw [unit_updUnit_ne _ (Ne.symm hpq)] at hq hx
    exact hf hp q (Ne.symm hpq) hq w x hw hx
  · rw [unit_updUnit_ne _ e1] at hp hw
    by_cases e2 : q = u
    · subst e2
      rw [unit_updUnit_self] at hq hx
      exact (hf hq p hpq hp x w hx hw).symm
    · rw [unit_updUnit_ne _ e2] at hq hx
      exact h p q hpq hp hq w x hw hx

theorem units_upd {b : Blocks} {u : UnitId} {f : UnitEntry → UnitEntry} (h : UnitsLaw b) (ho : UnitOk (b.unit u) → UnitOk (f (b.unit u)))
   (hf : InUse (f (b.unit u)) → ∀ v, v ≠ u → InUse (b.unit v) → ∀ w x, (f (b.unit u)).window = some w → (b.unit v).window = some x →
     w.base + w.size ≤ x.base ∨ x.base + x.size ≤ w.base) : UnitsLaw (b.updUnit u f) := by
  refine ⟨fun v => ?_, apart_upd h.2 hf⟩
  by_cases e : v = u
  · subst e; rw [unit_updUnit_self]; exact ho (h.1 v)
  · rw [unit_updUnit_ne _ e]; exact h.1 v

theorem units_same {b : Blocks} {u : UnitId} {f : UnitEntry → UnitEntry} (h : UnitsLaw b) (ho : UnitOk (b.unit u) → UnitOk (f (b.unit u)))
   (hf : InUse (f (b.unit u)) → InUse (b.unit u) ∧ (f (b.unit u)).window = (b.unit u).window) : UnitsLaw (b.updUnit u f) := by
  refine units_upd h ho ?_
  intro hi v hv hq w x hw hx
  rw [(hf hi).2] at hw
  exact h.2 u v (Ne.symm hv) (hf hi).1 hq w x hw hx

theorem units_eq {b b' : Blocks} (e : b'.units = b.units) (h : UnitsLaw b) : UnitsLaw b' := by
  have : ∀ u, b'.unit u = b.unit u := fun u => by unfold Blocks.unit; rw [e]
  refine ⟨fun u => by rw [this]; exact h.1 u, ?_⟩
  intro p q hpq hp hq w x hw hx
  rw [this] at hp hq hw hx
  exact h.2 p q hpq hp hq w x hw hx

theorem unitOk_kept {e e' : UnitEntry} (k : UnitKept e e') (h : UnitOk e) : UnitOk e' := by
  have hi : InUse e' ↔ InUse e := by unfold InUse; rw [k.state]
  exact ⟨by rw [k.state, k.presence]; exact h.seated, by rw [k.slotEnable, hi]; exact h.enable,
    by rw [hi, k.window]; exact h.configured, by rw [k.state, k.window]; exact h.unconfigured, by rw [k.window]; exact h.window,
    by rw [k.timeout]; exact h.timeout, k.latchOk h.latch, by rw [k.deactPending, hi]; exact h.deactivation⟩

theorem windowOk_fields {w : Window} {t : Nat} (h : unitFieldsOk w t = true) : WindowOk w ∧ t ≠ 0 := by
  simp only [unitFieldsOk, Bool.and_eq_true, beq_iff_eq, decide_eq_true_eq, bne_iff_ne] at h
  exact ⟨⟨h.1.1.1, h.1.1.2, h.1.2⟩, h.2⟩

theorem apart_of_not {u : UnitId} {w : Window} {b : Blocks} (h : overlapsInUse u w b = false) {v : UnitId} {x : Window} (hv : v ≠ u) (hi : InUse (b.unit v)) (hx : (b.unit v).window = some x) :
    w.base + w.size ≤ x.base ∨ x.base + x.size ≤ w.base := by
  by_contra hc
  have : overlapsInUse u w b = true := by
    unfold overlapsInUse allUnits
    rw [List.any_eq_true]
    refine ⟨v, List.mem_finRange v, ?_⟩
    rw [hx]
    rcases hi with hi | hi <;> simp [hv, hi] <;> omega
  rw [h] at this; cases this

theorem not_inUse_present {e : UnitEntry} (h : e.state = .present) : ¬ InUse e := by
  unfold InUse; rw [h]; simp

theorem units_basic : Basic UnitsLaw where
  aside := fun b b' h hp => units_eq (by rw [h]) hp
  moved := fun b b' h hp => by
    refine ⟨fun u => unitOk_kept (h.unit u) (hp.1 u), ?_⟩
    intro p q hpq hi hj w x hw hx
    have k := fun u => h.unit u
    have hi' : ∀ u, InUse (b'.unit u) → InUse (b.unit u) := fun u => by
      unfold InUse; rw [show (b'.unit u).state = (b.unit u).state from (k u).state]; exact id
    have hw' : ∀ u, (b'.unit u).window = (b.unit u).window := fun u => (k u).window
    rw [hw'] at hw hx
    exact hp.2 p q hpq (hi' p hi) (hi' q hj) w x hw hx
  reset := fun x b hp => by
    refine ⟨fun u => ?_, ?_⟩
    · rw [unit_resetBlocks]
      have h := hp.1 u
      cases x
      · exact ⟨h.seated, h.enable, h.configured, h.unconfigured, h.window, h.timeout, (fun h => by cases h), (fun h => by cases h)⟩
      · rcases hpr : (b.unit u).presence <;> refine ⟨?_, ?_, ?_, ?_, ?_, ?_, ?_, ?_⟩ <;> simp [resetUnit, hpr, InUse, LatchOk, Config.defaultTimeout]
    · intro p q hpq hi hj w y hw hy
      rw [unit_resetBlocks] at hi hj hw hy
      cases x
      · exact hp.2 p q hpq hi hj w y hw hy
      · cases hw
  build := fun h o ds b hf hl hp => units_eq (b := b) rfl hp
  extend := fun h ds b hf hl hp => units_eq (b := b) rfl hp
  close := fun h b hf hp => units_eq (b := b) rfl hp
  drop := fun h b _ hp => units_eq (b := b) rfl hp
  collect := fun k b hp => units_eq (b := b) rfl hp
  guard := fun i x b hf hp => units_eq (b := b) rfl hp
  freeze := fun b hp => units_eq (b := b) rfl hp
  set := fun u w t b hok ht hp hs => by
    obtain ⟨hw, h0⟩ := windowOk_fields hok
    refine units_upd hp ?_ ?_
    · intro h
      refine ⟨h.seated, h.enable, fun _ => rfl, ?_, ?_, ⟨by simp; omega, by simp; omega⟩, h.latch, h.deactivation⟩
      · intro he
        rcases hs with hs | hs
        · exact absurd (show (b.unit u).state = .empty from he) (by rw [hs]; decide)
        · exact absurd (show (b.unit u).state = .empty from he) (by rw [hs.1]; decide)
      · intro w' hw'
        injection hw' with hw'; subst hw'; exact hw
    · intro hi v hv hq w' x hw' hx
      injection hw' with hw'; subst hw'
      rcases hs with hs | hs
      · exact absurd hi (not_inUse_present hs)
      · exact apart_of_not hs.2 hv hq hx
  unfence := fun u b hs hp => by
    have hu : InUse (b.unit u) := Or.inr hs
    refine units_same hp ?_ (fun _ => ⟨hu, rfl⟩)
    intro h
    have hpres : (b.unit u).presence = true := by
      rcases hpr : (b.unit u).presence
      · have := h.seated.2 hpr; rw [hs] at this; cases this
      · rfl
    refine ⟨by simp [hpres], ?_, fun _ => h.configured hu, (fun h => by cases h), h.window, h.timeout, h.latch, fun _ => Or.inl rfl⟩
    simp [InUse]; exact h.enable.2 hu
  activate := fun u w b hs hw ho hp => by
    refine units_upd hp ?_ ?_
    · intro h
      have hpres : (b.unit u).presence = true := by
        rcases hpr : (b.unit u).presence
        · have := h.seated.2 hpr; rw [hs] at this; cases this
        · rfl
      refine ⟨by simp [hpres], by simp [InUse], fun _ => by simp [hw], (fun h => by cases h), h.window, h.timeout, (fun h => by cases h), fun _ => Or.inl rfl⟩
    · intro hi v hv hq w' x hw' hx
      rw [show ({ b.unit u with state := UnitState.active, slotEnable := true, latch := false } : UnitEntry).window = (b.unit u).window from rfl, hw] at hw'
      injection hw' with hw'; subst hw'
      exact apart_of_not ho hv hq hx
  defer := fun u b hu hp => by
    refine units_same hp ?_ (fun _ => ⟨hu, rfl⟩)
    intro h
    exact ⟨h.seated, h.enable, h.configured, h.unconfigured, h.window, h.timeout, h.latch, fun _ => hu⟩
  release := fun u b hu hp => by
    have hu' : InUse (b.unit u) := hu.elim id (fun h => (hp.1 u).deactivation h)
    refine units_same hp ?_ (fun hi => absurd hi (not_inUse_present rfl))
    intro h
    have hpres : (b.unit u).presence = true := by
      rcases hpr : (b.unit u).presence
      · have := h.seated.2 hpr; unfold InUse at hu'; rw [this] at hu'; simp at hu'
      · rfl
    exact ⟨by simp [hpres], by simp [InUse], fun h => absurd h (not_inUse_present rfl), (fun h => by cases h), h.window, h.timeout, (fun h => by cases h), (fun h => by cases h)⟩
  fence := fun u b hp => by
    by_cases hs : (b.unit u).state = .active
    · have hu : InUse (b.unit u) := Or.inl hs
      have e : fence (b.unit u) = { b.unit u with state := .fenced } := by unfold fence; rw [if_pos hs]
      refine units_same hp ?_ (fun _ => ⟨hu, by rw [e]⟩)
      intro h
      rw [e]
      have hpres : (b.unit u).presence = true := by
        rcases hpr : (b.unit u).presence
        · have := h.seated.2 hpr; rw [hs] at this; cases this
        · rfl
      refine ⟨by simp [hpres], ?_, fun _ => h.configured hu, (fun h => by cases h), h.window, h.timeout, h.latch, fun _ => Or.inr rfl⟩
      simp [InUse]; exact h.enable.2 hu
    · have e : fence (b.unit u) = b.unit u := by unfold fence; rw [if_neg hs]
      exact units_same hp (by rw [e]; exact id) (by rw [e]; exact fun h => ⟨h, rfl⟩)
  seen := fun u b hd hp => by
    refine units_same hp ?_ (fun hi => absurd hi (not_inUse_present rfl))
    intro h
    have he := h.seated.2 hd
    have hno : ¬ InUse (b.unit u) := by unfold InUse; rw [he]; simp
    refine ⟨by simp [seenUnit], ?_, fun h => absurd h (not_inUse_present rfl), (fun h => by cases h), h.window, h.timeout, h.latch, fun hd => absurd (h.deactivation hd) hno⟩
    constructor
    · intro hse; exact absurd (h.enable.1 hse) hno
    · intro hi; exact absurd hi (not_inUse_present rfl)
  gone := fun u b hp => by
    have hno : ¬ InUse (goneUnit (b.unit u)) := by simp [InUse, goneUnit]
    refine units_same hp ?_ (fun hi => absurd hi hno)
    intro h
    exact ⟨by simp [goneUnit], by simp [goneUnit, InUse], fun h => absurd h hno, fun _ => rfl, (fun w h => by cases h), by simp [goneUnit, Config.defaultTimeout], (fun h => by cases h), (fun h => by cases h)⟩
  line := fun u l b hp => by
    refine units_same hp ?_ (fun hi => ⟨hi, rfl⟩)
    intro h
    exact ⟨h.seated, h.enable, h.configured, h.unconfigured, h.window, h.timeout, h.latch, h.deactivation⟩

/-! ### Under RESET_N -/

theorem onRunning_low {s t : State} {e : Option State} (h : s.power = .heldLow) (ht : onRunning s e = .next t) : t = s := by
  unfold onRunning at ht
  rw [if_neg (by rw [h]; decide)] at ht
  injection ht with ht; exact ht.symm

theorem exec_low {c : Instr} {s t : State} (h : s.power = .heldLow) (hr : ∀ a b d, c ≠ .resetNRelease a b d) (ht : exec c s = .next t) : t = s := by
  cases c
  case bufferAccessEnd =>
    change execBufferAccessEnd s = _ at ht
    unfold execBufferAccessEnd at ht
    split at ht
    · injection ht with ht; exact ht.symm
    · split at ht
      · cases ht
      · exact onRunning_low h ht
  case presenceLineChange u l =>
    change execPresenceLineChange u l s = _ at ht
    unfold execPresenceLineChange at ht
    rw [if_pos (Or.inl h)] at ht
    injection ht with ht; exact ht.symm
  case resetNLow =>
    change execResetNLow s = _ at ht
    unfold execResetNLow at ht
    rw [if_pos h] at ht
    injection ht with ht; exact ht.symm
  case resetNRelease a b d => exact absurd rfl (hr a b d)
  case startUpEnd =>
    change execStartUpEnd s = _ at ht
    unfold execStartUpEnd at ht
    rw [h] at ht
    injection ht with ht; exact ht.symm
  all_goals
    simp only [exec, arrive, execHello, execStatus, execReset, execLinkTally, execNoticeMask, execChainNew, execChainAppend, execChainClose, execChainDrop, execChainQuery, execSlotRead, execChannelStart, execChannelHold, execChannelResume, execChannelStop, execChannelRetry, execChannelSkip, execChannelClear, execChannelQuery, execCollect, execUnitSet, execUnitActivate, execUnitDeactivate, execUnitQuery, execGuardSet, execGuardFreeze, execGuardQuery, execPeek, execPoke, execUnknownKind, execGoodFrame, execNoticeAck, execLenErr, execCheckErr, execGapErr, execLineBreak, execFrameTaken, execReplyEnd, execNoticeSent, execResendTimerExpiry, execArbiterGrant, execDoneAnswer, execErrorAnswer, execAccessTimeout, execCardDetected, execCardLost, execRequestEdge, execDeadlineExpiry, execBlockedPosterServed, execResetTakesEffect, execCharacterReceived] at ht
    exact onRunning_low h ht

end Sys2Proof.Laws
end

