-- ==== Sys2Proof/Laws/Validate.lean ====
section
/-! SUPPORT. What static validation accepts: codes and the forms they spell, ranges that fit and ranges that meet, the record of one
entry, and the first entry of a request that fails. -/

namespace Sys2Proof.Laws

open Sys2Proof.Machine

/-- A descriptor kind is read from its code alone (R204). -/
theorem kindOfCode_iff (c : Byte) (k : DescKind) : DescKind.ofCode c = some k ↔ c = k.code := by
  revert c; cases k <;> decide +kernel

/-- A space is read from its code alone (R204). -/
theorem spaceOfCode_iff (c : Byte) (p : Space) : Space.ofCode c = some p ↔ c = p.code := by
  rcases p with _ | u
  · revert c; decide +kernel
  · revert c u; decide +kernel

/-- A flag byte with the reserved bits zero is the byte its three flags spell (R204). -/
theorem flagByte_iff (c : Byte) (r h k : Bool) :
    (c.toNat < 8 ∧ c.getLsbD 0 = r ∧ c.getLsbD 1 = h ∧ c.getLsbD 2 = k) ↔
      c = BitVec.ofNat 8 ((if r then 1 else 0) + (if h then 2 else 0) + (if k then 4 else 0)) := by
  revert c r h k; decide +kernel

/-- The entries of a request are accepted when each is, and give its records in order (R10). -/
theorem validateAll_ok_iff (size : Nat) (forms : List DescForm) : ∀ (i : Nat) (ds : List Descriptor),
    validateAll size i forms = .ok ds ↔ forms.map (validate size) = ds.map some := by
  induction forms with
  | nil => intro i ds; cases ds <;> simp [validateAll]
  | cons f fs ih =>
    intro i ds
    unfold validateAll
    cases hv : validate size f with
    | none => cases ds <;> simp [hv]
    | some d =>
      have h := ih (i + 1)
      dsimp only
      cases ha : validateAll size (i + 1) fs with
      | error j =>
        simp only [reduceCtorEq, List.map_cons, hv, false_iff]
        intro e
        cases ds with
        | nil => simp at e
        | cons d' ds' =>
          simp only [List.map_cons, List.cons.injEq, Option.some.injEq] at e
          have := (h ds').2 e.2
          rw [ha] at this; cases this
      | ok es =>
        have e1 := (h es).1 ha
        simp only [Except.ok.injEq, List.map_cons, hv]
        cases ds with
        | nil => simp
        | cons d' ds' =>
          simp only [List.cons.injEq, List.map_cons, Option.some.injEq, e1]
          exact and_congr_right fun _ => (List.map_injective_iff.2 (Option.some_injective _)).eq_iff.symm

/-- The index of a refusal is that of the first entry that a check fails (R10). -/
theorem validateAll_error_iff (size : Nat) (forms : List DescForm) : ∀ (i k : Nat),
    validateAll size i forms = .error k ↔ ∃ j, k = i + j ∧
      (∃ f, forms[j]? = some f ∧ validate size f = none) ∧ ∀ m f, m < j → forms[m]? = some f → validate size f ≠ none := by
  induction forms with
  | nil => intro i k; simp [validateAll]
  | cons f fs ih =>
    intro i k
    unfold validateAll
    cases hv : validate size f with
    | none =>
      simp only [Except.error.injEq]
      constructor
      · rintro rfl
        exact ⟨0, by simp, ⟨f, by simp, hv⟩, fun m f h => absurd h (by omega)⟩
      · rintro ⟨j, e, ⟨g, hg, hn⟩, hlt⟩
        rcases j with _ | j
        · simpa using e.symm
        · exact absurd hv (hlt 0 f (by omega) (by simp))
    | some d =>
      have h := ih (i + 1) k
      dsimp only
      refine Iff.trans (b := validateAll size (i + 1) fs = .error k) (by cases validateAll size (i + 1) fs <;> simp) ?_
      rw [h]
      constructor
      · rintro ⟨j, e, ⟨g, hg, hn⟩, hlt⟩
        refine ⟨j + 1, by omega, ⟨g, by simpa using hg, hn⟩, ?_⟩
        intro m x hm hx
        rcases m with _ | m
        · simp at hx; subst hx; simp [hv]
        · exact hlt m x (by omega) (by simpa using hx)
      · rintro ⟨j, e, ⟨g, hg, hn⟩, hlt⟩
        rcases j with _ | j
        · simp at hg; subst hg; rw [hv] at hn; cases hn
        · exact ⟨j, by omega, ⟨g, by simpa using hg, hn⟩, fun m x hm hx => hlt (m + 1) x (by omega) (by simpa using hx)⟩

/-- Static validation accepts the form that a record spells, when the checks of its kind hold (R6 to R9). -/
theorem validate_iff (size : Nat) (f : DescForm) (d : Descriptor) :
    validate size f = some d ↔
      (f.kind = d.kind.code ∧ f.src = d.src.code ∧ f.dst = d.dst.code ∧ f.srcOff = d.srcOff ∧ f.dstOff = d.dstOff ∧
          f.length = d.length ∧ f.operand = d.operand ∧ (f.flags.toNat < 8 ∧ f.flags.getLsbD 0 = d.record ∧ f.flags.getLsbD 1 = d.haltAfter ∧ f.flags.getLsbD 2 = d.cont)) ∧ entryOk size f d.kind d.src d.dst = true := by
  unfold validate
  constructor
  · intro h
    split at h
    · rename_i k s t hk hs ht
      split at h
      · rename_i hh
        simp only [Bool.and_eq_true, decide_eq_true_eq] at hh
        injection h with h
        subst h
        exact ⟨⟨(kindOfCode_iff _ _).1 hk, (spaceOfCode_iff _ _).1 hs, (spaceOfCode_iff _ _).1 ht, rfl, rfl, rfl, rfl, hh.1, rfl, rfl, rfl⟩, hh.2⟩
      · cases h
    · cases h
  · rintro ⟨⟨h1, h2, h3, h4, h5, h6, h7, h8, h9, h10, h11⟩, h12⟩
    rw [(kindOfCode_iff _ _).2 h1, (spaceOfCode_iff _ _).2 h2, (spaceOfCode_iff _ _).2 h3]
    simp only [h8, h12, decide_true, Bool.and_self, if_true]
    rw [h4, h5, h6, h7, h9, h10, h11]

/-- Two ranges of one length meet when they share a byte (R9). -/
theorem rangesMeet_iff (a b n : Nat) (hn : 1 ≤ n) : rangesMeet a b n = true ↔ ∃ x, a ≤ x ∧ x < a + n ∧ b ≤ x ∧ x < b + n := by
  simp only [rangesMeet, Bool.and_eq_true, decide_eq_true_eq]
  constructor
  · intro h; exact ⟨max a b, by omega, by omega, by omega, by omega⟩
  · rintro ⟨x, h⟩; omega

/-- A range fits buffer memory, or the largest window (R8). -/
theorem rangeFits_iff (size : Nat) (sp : Space) (off n : Nat) : rangeFits size sp off n = true ↔
    match sp with | .buf => off + n ≤ size | .unit _ => off + n ≤ 1048576 := by
  cases sp <;> exact decide_eq_true_iff

/-- Code zero is the buffer space. -/
theorem spaceCode_zero_iff (p : Space) : p.code = 0 ↔ p = .buf := by
  rcases p with _ | u
  · decide
  · revert u; decide

end Sys2Proof.Laws
end

