-- ==== Sys2Proof/Tests/Slice0.lean ====
section
/-! SUPPORT. Tests: the refusals of `WellFormed`, the reference values of the two checks, one step of every command on a small state, and
for every obligation with hypotheses a state and operands that meet them. -/

namespace Sys2Proof.Tests

set_option Elab.async false

open Sys2Proof.Machine Sys2Proof.Safety

/-! ### Well-formedness -/

/-- A FILL of 10 bytes at BUF offset 6 with DONE records (R71). -/
def fillForm : DescForm := ⟨2, 1, 0, 0, 0, 6, 10, 0x11223344⟩

/-- A FILL with a reserved flag bit (R6). -/
def wfBad : DescForm := { fillForm with flags := 8 }

theorem test_wf_chainNew : WellFormed (.chainNew 0 1 (List.replicate 12 fillForm)) = false := by decide
theorem test_wf_chainAppend_none : WellFormed (.chainAppend 0 0 []) = false := by decide
theorem test_wf_chainAppend_many : WellFormed (.chainAppend 0 0 (List.replicate 12 fillForm)) = false := by decide
theorem test_wf_poke_none : WellFormed (.poke 0 0 0 []) = false := by decide
theorem test_wf_poke_many : WellFormed (.poke 0 0 0 (List.replicate 129 0)) = false := by decide +kernel
theorem test_wf_unknownKind_request : WellFormed (.unknownKind 0 0x2C []) = false := by decide
theorem test_wf_unknownKind_ack : WellFormed (.unknownKind 0 0x40 []) = false := by decide
theorem test_wf_unknownKind_long : WellFormed (.unknownKind 0 0x7F (List.replicate 241 0)) = false := by decide +kernel
theorem test_wf_goodFrame_ack : WellFormed (.goodFrame 0 0x40 []) = false := by decide
theorem test_wf_goodFrame_long : WellFormed (.goodFrame 0 0x01 (List.replicate 241 0)) = false := by decide +kernel
theorem test_wf_noticeAck_long : WellFormed (.noticeAck 0 (List.replicate 241 0)) = false := by decide +kernel
theorem test_wf_lenErr_low : WellFormed (.lenErr 2) = false := by decide
theorem test_wf_lenErr_high : WellFormed (.lenErr 242) = false := by decide
theorem test_wf_doneAnswer_long : WellFormed (.doneAnswer 0 (List.replicate 65 0)) = false := by decide +kernel

/-! ### Reference values -/

/-- The ASCII digits 1 to 9. -/
def digits : List Byte := [0x31, 0x32, 0x33, 0x34, 0x35, 0x36, 0x37, 0x38, 0x39]

/-- R170's reference value. -/
theorem test_crc16_digits : crc16Bytes crc16Start digits = 0x29B1 := by decide +kernel

/-- R72's reference value. -/
theorem test_crc32_digits : crc32Bytes 0xFFFFFFFF digits ^^^ 0xFFFFFFFF = 0xCBF43926 := by decide +kernel

/-! ### Small states -/

/-- The part running, with nothing going on. -/
def up : State := { State.reset with power := .running }

/-- The part running, with its blocks changed. -/
def on (f : Blocks → Blocks) : State := { up with blocks := f up.blocks }

/-- The same, every notice source but RESET masked: no notice competes with the reply for the line. -/
def calm (f : Blocks → Blocks) : State := on fun b => f { b with notice := { b.notice with mask := 1 } }

/-- The record of the FILL above. -/
def fill : Descriptor :=
  { kind := .fill, record := true, haltAfter := false, cont := false, src := .buf, srcOff := 0, dst := .buf, dstOff := 6, length := 10
    operand := 0x11223344 }

/-- A WAIT on UNIT7 with a deadline of 300 microseconds. -/
def wait7 : Descriptor := { fill with kind := .wait, src := .unit 7, dstOff := 0, length := 0, operand := 3 }

/-- A COPY of 10 bytes from UNIT7 to buffer memory. -/
def copy7 : Descriptor := { fill with kind := .copy, src := .unit 7, operand := 0 }

/-- CH3 in a state, bound to chain 31, whose one descriptor stands in slot 5 under the cursor. -/
def bind (st : ChanState) (d : Descriptor) (f : Channel → Channel := id) (b : Blocks) : Blocks :=
  (b.updChain 31 fun _ => { state := .bound, isOpen := true, members := [⟨5, d⟩], boundTo := some 3 }).updChan 3 fun _ =>
    f { state := st, handle := some 31, cursor := some 5 }

/-- A chain of one FILL in slot 5 at handle 31. -/
def chain31 (st : ChainState) (isOpen : Bool) (b : Blocks) : Blocks :=
  b.updChain 31 fun _ => { state := st, isOpen := isOpen, members := [⟨5, fill⟩] }

/-- UNIT7 with a card, in a state, with a window of 4096 bytes at 0. -/
def card7 (st : UnitState) (f : UnitEntry → UnitEntry := id) (b : Blocks) : Blocks :=
  b.updUnit 7 fun _ => f
    { presence := true, state := st, line := true, window := some ⟨0, 4096⟩, slotEnable := st == .active || st == .fenced }

/-- A write of one byte of a requester in flight on the buffer port, at an address. -/
def writing (r : Requester) (addr : Nat) (b : Blocks) : Blocks :=
  { b with bufPort := { b.bufPort with inFlight := some ⟨r, .write, addr, 1, [0xAA], none⟩ } }

/-- A read of two bytes of a requester in flight on the slot bus, from UNIT7. -/
def reading (r : Requester) (b : Blocks) : Blocks :=
  { b with slotPort := { b.slotPort with inFlight := some ⟨r, .read, 0, 2, [], some ⟨7, 40⟩⟩ } }

/-- A DONE record of CH0. -/
def aRecord : Record := { kind := .done, channel := 0, handle := some 0, amount := 1 }

/-- The queue with `n` records. -/
def queued (n : Nat) (b : Blocks) : Blocks := { b with queue := { b.queue with records := List.replicate n aRecord } }

/-- The payload of the newest reply. -/
def reply (o : Out) : Option (List Byte) :=
  match o with
  | .next t => (t.link.replyMemory.getLast?).map fun e => e.reply.payload
  | _ => none

/-- A value of the next state. -/
def after {α : Type} (o : Out) (f : State → α) : Option α :=
  match o with
  | .next t => some (f t)
  | _ => none

/-- The outcome is a fault. -/
def faults (o : Out) : Bool :=
  match o with
  | .fault _ => true
  | _ => false

/-! ### One step of every command -/

theorem test_hello : reply (exec (.hello 9) up)
    = some [0, 0x3A, 0x71, 0x46, 0x20, 1, 1, 2, 0, 32, 4, 64, 8, 8, 0, 0, 0] := by decide +kernel
theorem test_status : reply (exec (.status 9) (on (bind .running fill)))
    = some [0, 0, 0, 0, 1, 0, 2, 0, 31, 0, 0, 0, 0, 0, 0, 0, 0, 0, 1, 0, 0, 0] := by decide +kernel
theorem test_reset_now : reply (exec (.reset 9 0) up) = some [0, 0, 0, 0] := by decide +kernel
theorem test_reset_waits : after (exec (.reset 9 1) (on (writing .link 0))) (fun t => (t.pendingReset, t.blocks.bufPort.barred))
    = some (some .full, true) := by decide +kernel
theorem test_linkTally : reply (exec (.linkTally 9 1) up) = some [0, 0, 0, 0, 0, 0, 0, 0, 0, 0, 0, 0, 0, 0, 0] := by decide +kernel
theorem test_noticeMask : reply (exec (.noticeMask 9 0x0FFF) up) = some [0, 0x0F, 0xFF, 0, 1] := by decide +kernel
theorem test_noticeMask_bad : reply (exec (.noticeMask 9 0x0FFE) up) = some [3, 0xFF] := by decide +kernel
theorem test_chainNew : reply (exec (.chainNew 9 1 [fillForm, fillForm]) up) = some [0, 0, 2, 0, 0, 0, 1] := by decide +kernel
theorem test_chainNew_bad : reply (exec (.chainNew 9 1 [fillForm, ⟨2, 8, 0, 0, 0, 6, 10, 0⟩]) up) = some [3, 1] := by decide +kernel
theorem test_chainAppend : reply (exec (.chainAppend 9 31 [fillForm]) (on (chain31 .staged true))) = some [0, 31, 0, 2, 1, 0, 0] := by
  decide +kernel
theorem test_chainClose : reply (exec (.chainClose 9 31) (on (chain31 .staged true))) = some [0, 1, 0, 1] := by decide +kernel
theorem test_chainDrop : reply (exec (.chainDrop 9 31) (on (chain31 .spent true))) = some [0, 0, 1, 2, 1] := by decide +kernel
theorem test_chainQuery : reply (exec (.chainQuery 9 31 0) (on (chain31 .staged true)))
    = some [0, 31, 1, 1, 0, 1, 0, 5, 0, 5, 0xFF, 1, 0, 5] := by decide +kernel
theorem test_slotRead : reply (exec (.slotRead 9 5) (on (chain31 .staged true)))
    = some [0, 1, 31, 0, 0, 2, 1, 0, 0, 0, 0, 0, 0, 0, 0, 0, 6, 0, 0, 0, 10, 0x11, 0x22, 0x33, 0x44] := by decide +kernel
theorem test_channelStart : after (exec (.channelStart 9 3 31) (on (chain31 .staged false)))
    (fun t => (t.blocks.bufPort.inFlight.map Access.data, (t.blocks.chan 3).state, (t.blocks.chain 31).state))
    = some (some [0x11, 0x22, 0x33, 0x44, 0x11, 0x22, 0x33, 0x44, 0x11, 0x22], .running, .bound) := by decide +kernel
theorem test_channelHold : reply (exec (.channelHold 9 3) (calm (bind .starved fill))) = some [0, 4, 0xFF] := by decide +kernel
theorem test_channelResume : reply (exec (.channelResume 9 3) (on (bind .held fill))) = some [0, 1, 0xFF] := by decide +kernel
theorem test_channelStop : after (exec (.channelStop 9 3) (calm (bind .held fill)))
    (fun t => (t.blocks.queue.records.map fun r => (r.kind, r.slot), (t.blocks.chan 3).state, (t.blocks.chain 31).state))
    = some ([(.stopped, some 5)], .idle, .spent) := by decide +kernel
theorem test_channelRetry : reply (exec (.channelRetry 9 3) (on (bind .faulted fill))) = some [0, 1, 0xFF] := by decide +kernel
theorem test_channelSkip : reply (exec (.channelSkip 9 3) (calm (bind .faulted fill))) = some [0, 3, 0xFF] := by decide +kernel
theorem test_channelClear : reply (exec (.channelClear 9 3) (on (bind .faulted fill))) = some [0, 0, 0xFF] := by decide +kernel
theorem test_channelQuery : reply (exec (.channelQuery 9 3) (on (bind .held fill)))
    = some [0, 4, 0xFF, 31, 0, 5, 0, 0, 0, 0, 0, 0, 0, 0, 0, 0, 0, 0, 0, 0, 0, 0, 0xFF, 0xFF, 0xFF, 0xFF] := by decide +kernel
theorem test_collect : reply (exec (.collect 9 1) (on (queued 2)))
    = some [0, 1, 1, 0, 0, 1, 0, 0, 0, 0, 0, 0, 0, 0, 0, 0, 1, 0, 0, 0, 0] := by decide +kernel
theorem test_unitSet : reply (exec (.unitSet 9 7 0x001000 0x001000 1) (on (card7 .present))) = some [0, 1] := by decide +kernel
theorem test_unitActivate : reply (exec (.unitActivate 9 7) (on (card7 .present))) = some [0, 2] := by decide +kernel
theorem test_unitDeactivate : reply (exec (.unitDeactivate 9 7 1) (on (card7 .fenced))) = some [0, 1] := by decide +kernel
theorem test_unitQuery : reply (exec (.unitQuery 9 7) (on (card7 .active)))
    = some [0, 1, 2, 1, 0, 0, 0, 0, 0x10, 0, 32, 1, 0, 0, 0xFF, 0xFF, 0xFF, 0xFF] := by decide +kernel
theorem test_guardSet : reply (exec (.guardSet 9 7 1 64 128 3 1) up) = some [0, 7, 1, 0, 0, 0, 64, 0, 0, 0, 128, 3, 1] := by decide +kernel
theorem test_guardFreeze : reply (exec (.guardFreeze 9) up) = some [0, 1] := by decide +kernel
theorem test_guardQuery : (reply (exec (.guardQuery 9 0) up)).map List.length = some 106 := by decide +kernel
theorem test_peek : after (exec (.peek 9 0 60 5) up) (fun t => (t.handler != .free, t.blocks.bufPort.inFlight.map Access.count))
    = some (true, some 4) := by decide +kernel
theorem test_poke : reply (exec (.poke 9 0x17 0 [1]) up) = some [0x0B, 7, 0] := by decide +kernel
theorem test_unknownKind : reply (exec (.unknownKind 9 0x7F []) up) = some [1] := by decide +kernel
theorem test_goodFrame : reply (exec (.goodFrame 9 0x01 [0]) up) = some [2] := by decide +kernel
theorem test_noticeAck_stale : after (exec (.noticeAck 9 []) up) (fun t => t.link.tally.staleAcks) = some 1 := by decide +kernel
theorem test_lenErr : after (exec (.lenErr 243) up) (fun t => (t.link.tally.lenErr, t.blocks.notice.summary)) = some (1, 0x0801) := by
  decide +kernel
theorem test_checkErr : after (exec .checkErr up) (fun t => t.link.tally.checkErr) = some 1 := by decide +kernel
theorem test_gapErr : after (exec .gapErr { up with link := { up.link with receiver := .length 2001 } })
    (fun t => (t.link.tally.gapErr, t.blocks.now)) = some (1, 2001) := by decide +kernel
theorem test_lineBreak : after (exec .lineBreak up) (fun t => (t.link.tally.breaks, t.blocks.notice.tag, t.blocks.resetCause))
    = some (1, 1, .link) := by decide +kernel
theorem test_characterReceived : after (exec (.characterReceived 0xC3) up) (fun t => t.link.receiver) = some (.length 2001) := by
  decide +kernel

/-- A frame for the tests. -/
def aFrame : Frame := ⟨9, 0x81, [0]⟩

theorem test_frameTaken : after (exec .frameTaken { up with link := { up.link with line := .cut, replySlot := some aFrame } })
    (fun t => (t.link.line, t.link.replySlot)) = some (.reply aFrame 608, none) := by decide +kernel
/-- An idle line with a filled slot takes the frame at FRAME_TAKEN (R178). -/
theorem test_frameTaken_idle : after (exec .frameTaken { up with link := { up.link with replySlot := some aFrame } })
    (fun t => (t.link.line, t.link.replySlot)) = some (.reply aFrame 608, none) := by decide +kernel
theorem test_replyEnd : after
    (exec .replyEnd { up with link := { up.link with line := .reply aFrame 608 }, handler := .sending (frameOf 9 1 []) })
    (fun t => (t.handler, t.link.line, t.blocks.now)) = some (.free, .idle, 608) := by decide +kernel

/-- The sender in AWAITING with the notice of tag 1, in a send phase, at its `n`-th send. -/
def awaiting (p : SendPhase) (n : Nat) (b : Blocks) : Blocks :=
  { b with notice := { b.notice with tag := 1, sender := .awaiting ⟨1, 0, aFrame, n, p⟩ } }

theorem test_noticeAck : after (exec (.noticeAck 1 []) (on (awaiting .onLine 1))) (fun t => (t.blocks.notice.summary, t.blocks.notice.sender))
    = some (0, .quiet) := by decide +kernel
theorem test_noticeSent : after
    (exec .noticeSent { on (awaiting .onLine 1) with link := { up.link with line := .notice aFrame 608 } })
    (fun t => t.blocks.notice.sender) = some (.awaiting ⟨1, 0, aFrame, 1, .timing 25608⟩) := by decide +kernel
theorem test_resendTimerExpiry : after (exec .resendTimerExpiry (on (awaiting (.timing 25608) 4)))
    (fun t => (t.blocks.notice.sender, t.blocks.now)) = some (.muted, 25608) := by decide +kernel
theorem test_arbiterGrant : after (exec (.arbiterGrant .buffer) up) (fun t => t.blocks.bufPort.inFlight) = some none := by decide +kernel
theorem test_bufferAccessEnd : after (exec .bufferAccessEnd (on fun b => writing .link 7 b))
    (fun t => (t.mem, t.blocks.bufPort.inFlight)) = some ([(7, 0xAA)], none) := by decide +kernel
theorem test_bufferAccessEnd_absent : faults (exec .bufferAccessEnd (on (writing .link 4194304))) = true := by decide +kernel
theorem test_doneAnswer : after
    (exec (.doneAnswer 7 [1, 2]) (on fun b => reading (.chan 3) (bind .running copy7 (fun c => { c with started := true }) (card7 .active id b))))
    (fun t => (t.blocks.slotPort.inFlight, (t.blocks.chan 3).staging, t.blocks.bufPort.inFlight.map Access.addr))
    = some (none, [1, 2], some 6) := by decide +kernel
theorem test_errorAnswer : after
    (exec (.errorAnswer 7) (on fun b => reading (.chan 3) (bind .running copy7 (fun c => { c with started := true }) (card7 .active id b))))
    (fun t => ((t.blocks.chan 3).state, (t.blocks.chan 3).fault)) = some (.faulted, some ⟨.unitError, 7⟩) := by decide +kernel
theorem test_accessTimeout : after
    (exec .accessTimeout (on fun b => reading (.chan 3) (bind .running copy7 (fun c => { c with started := true }) (card7 .active id b))))
    (fun t => ((t.blocks.unit 7).state, (t.blocks.chan 3).fault, t.blocks.now)) = some (.fenced, some ⟨.unitTimeout, 7⟩, 40) := by
  decide +kernel
theorem test_presenceLineChange : after (exec (.presenceLineChange 7 true) up) (fun t => (t.blocks.unit 7).debounceDue)
    = some (some 10000) := by decide +kernel
theorem test_cardDetected : after (exec (.cardDetected 7) up) (fun t => ((t.blocks.unit 7).state, t.blocks.notice.summary))
    = some (.present, 0x0201) := by decide +kernel
theorem test_cardLost : after (exec (.cardLost 7) (on (card7 .active)))
    (fun t => ((t.blocks.unit 7).state, (t.blocks.unit 7).window, (t.blocks.unit 7).slotEnable)) = some (.empty, none, false) := by
  decide +kernel
/-- UNIT7 with a card, CH3 its waiter, its access in flight the last that a WORK reset waits for. -/
def lastAccess : State :=
  { on (fun b => reading .link (bind .pending wait7 id (card7 .active (fun e => { e with waiters := [3] }) b))) with
    pendingReset := some .work }

/-- No waiter faults and no record is posted in the step in which the reset takes effect (R100, R195). -/
theorem test_cardLost_lastBeforeReset : after (exec (.cardLost 7) lastAccess)
    (fun t => ((t.blocks.unit 7).state, t.blocks.queue.nextSeq, (t.blocks.chan 3).state, t.blocks.resetCause))
      = some (.empty, 0, .idle, .work) := by decide +kernel
/-- Where another access is left, the waiter faults. -/
theorem test_cardLost_beforeReset : after (exec (.cardLost 7) { lastAccess with blocks := writing (.chan 0) 0 lastAccess.blocks })
    (fun t => (t.blocks.queue.records.map Record.kind, (t.blocks.chan 3).fault, t.pendingReset))
      = some ([.fault], some ⟨.unitGone, 7⟩, some .work) := by decide +kernel
theorem test_requestEdge_latch : after (exec (.requestEdge 7) (on (card7 .active))) (fun t => (t.blocks.unit 7).latch) = some true := by
  decide +kernel
theorem test_requestEdge_waiter : after
    (exec (.requestEdge 7) (on fun b => bind .pending wait7 (fun c => { c with started := true }) (card7 .fenced (fun e => { e with waiters := [3] }) b)))
    (fun t => ((t.blocks.chan 3).state, (t.blocks.unit 7).waiters, t.blocks.queue.records.map Record.kind))
    = some (.starved, [], [.done]) := by decide +kernel
theorem test_deadlineExpiry : after
    (exec (.deadlineExpiry 3)
      (on fun b => bind .pending wait7 (fun c => { c with started := true, deadline := some 300 }) (card7 .active (fun e => { e with waiters := [3] }) b)))
    (fun t => ((t.blocks.chan 3).fault, (t.blocks.unit 7).waiters, t.blocks.now)) = some (some ⟨.waitTimeout, 7⟩, [], 300) := by
  decide +kernel
theorem test_blockedPosterServed : after (exec .blockedPosterServed up) (fun t => t.blocks.queue.records) = some [] := by decide +kernel
theorem test_resetTakesEffect : after (exec .resetTakesEffect up) (fun t => t.blocks.resetCause) = some .cold := by decide +kernel
theorem test_resetNLow : after (exec .resetNLow (on (card7 .active))) (fun t => (t.power, (t.blocks.unit 7).slotEnable))
    = some (.heldLow, false) := by decide +kernel
theorem test_resetNRelease : after (exec (.resetNRelease 3 2 0x80) { up with power := .heldLow })
    (fun t => (t.power, t.link.baudCode, memorySize t.blocks.mszCode, (t.blocks.unit 7).state, (t.blocks.unit 6).state))
    = some (.startUp 5000, 3, 16777216, .present, .empty) := by decide +kernel
theorem test_startUpEnd : after (exec .startUpEnd State.reset) (fun t => (t.power, t.blocks.notice.tag)) = some (.running, 1) := by
  decide +kernel
theorem test_idle_tick : after (step up) (fun t => t.blocks.now) = some 1 := by decide +kernel
/-- The clock's GAP_ERR waits for a character begun within the 2 ms (R172; log 20). -/
theorem test_gapClock : (dueCommand { on (fun b => { b with now := 2087 }) with link := { up.link with receiver := .length 2001 } } = none) ∧
    dueCommand { on (fun b => { b with now := 2088 }) with link := { up.link with receiver := .length 2001 } } = some .gapErr := by
  decide +kernel

/-! ### A state and operands for the hypotheses of every obligation, clause by clause -/

/-- A frame of a request kind with tag 9 reaches a part that takes it. -/
abbrev asks (s : State) (k : RequestKind) (payload : List Byte) : Prop := taken s (requestFrame 9 k payload) = true

/-- The port has an access of another requester in flight. -/
def busy (b : Blocks) : Blocks := writing (.chan 0) 0 b

/-- CH3's request stands in the buffer port's arbiter. -/
def asking (b : Blocks) : Blocks := { b with bufPort := { b.bufPort with requests := [.chan 3] } }

/-- A frame of the receive queue. -/
def aRequest : RxFrame := frameOf 9 0x01 []

/-- An entry of reply memory that matches it. -/
def anEntry : ReplyEntry := ⟨9, 0x01, aRequest.check, aFrame⟩

/-- The part running, with its link changed. -/
def linked (f : Link → Link) : State := { up with link := f up.link }

/-- CH3 BLOCKED with a continuation. -/
def blockedOn (k : Continuation) (b : Blocks) : Blocks :=
  bind .blocked fill (fun c => { c with continuation := some k, outbox := [{ aRecord with channel := 3 }] })
    { queued 64 b with queue := { (queued 64 b).queue with blocked := [3] } }

theorem test_hyps_RequestLeavesTheseStates : ready up = true := by decide +kernel

theorem test_hyps_EndOfStepTakesWaitingFrames :
    settled up = true ∧ (up.blocks.handover = none ∧ up.link.rxQueue = []) ∧
    (∃ (s : State) (r : RxFrame), s.blocks.handover = some (.channel 3) ∧ s.handler = .deferred r ∧ s.link.silent = false) ∧
    (∃ s : State, s.blocks.handover = none ∧ s.handler = .free ∧ s.link.rxQueue = [aRequest] ∧
      (s.link.replyMemory.find? fun x => x.tag == aRequest.tag && x.kind == aRequest.kind && x.check == aRequest.check) = some anEntry) ∧
    (∃ s : State, s.blocks.handover = none ∧ s.handler = .free ∧ s.link.rxQueue = [aRequest] ∧ fresh s aRequest = true) :=
  ⟨by decide +kernel, by decide +kernel,
   ⟨{ on (fun b => { b with handover := some (.channel 3) }) with handler := .deferred aRequest }, aRequest, by decide +kernel⟩,
   ⟨linked fun l => { l with rxQueue := [aRequest], replyMemory := [anEntry] }, by decide +kernel⟩,
   ⟨linked fun l => { l with rxQueue := [aRequest] }, by decide +kernel⟩⟩

theorem test_hyps_EndOfStepTakesWaitingFrames_silent :
    ∃ (s : State) (r : RxFrame), s.blocks.handover = some (.channel 3) ∧ s.handler = .deferred r ∧ s.link.silent = true :=
  ⟨{ on (fun b => { b with handover := some (.channel 3) }) with handler := .deferred aRequest, link := { up.link with silent := true } },
   aRequest, by decide +kernel⟩

theorem test_hyps_EndOfStepTakesWaitingFrames_line :
    (linked fun l => { l with line := .cut }).link.line ≠ .idle ∧ (up.link.replySlot = none ∧ up.blocks.noticeSlot = none) ∧
    (∃ s : State, s.link.line = .idle ∧ s.link.replySlot = some aFrame ∧ s.blocks.noticeSlot = none) ∧
    (∃ s : State, s.link.line = .idle ∧ s.link.replySlot = none ∧ s.blocks.noticeSlot = some aFrame) ∧
    (∃ s : State, s.link.line = .idle ∧ s.link.replySlot = some aFrame ∧ s.blocks.noticeSlot = some aFrame) :=
  ⟨by decide +kernel, by decide +kernel, ⟨linked fun l => { l with replySlot := some aFrame }, by decide +kernel⟩,
   ⟨on fun b => { b with noticeSlot := some aFrame }, by decide +kernel⟩,
   ⟨{ linked (fun l => { l with replySlot := some aFrame }) with blocks := { up.blocks with noticeSlot := some aFrame } },
    by decide +kernel⟩⟩

theorem test_hyps_DeviceLinkAndMaskRequests :
    asks up .hello [] ∧ asks up .status [] ∧ asks up .linkTally [0] ∧ asks up .linkTally [1] ∧ asks up .linkTally [2] ∧
      asks up .noticeMask (beBytes 2 0x0FFF) ∧ asks up .noticeMask (beBytes 2 0x1001) ∧ asks up .noticeMask (beBytes 2 0x0FFE) := by
  decide +kernel

theorem test_hyps_ResetRequestTakesEffectOrWaits :
    (asks up .reset [0] ∧ asks up .reset [1] ∧ asks up .reset [2] ∧ up.pendingReset = none ∧ up.blocks.bufPort.inFlight = none ∧
      up.blocks.slotPort.inFlight = none) ∧
    (∃ s : State, asks s .reset [0] ∧ asks s .reset [1] ∧ s.pendingReset = none ∧ s.blocks.bufPort.inFlight.isSome) ∧
    (∃ s : State, asks s .reset [0] ∧ asks s .reset [1] ∧ s.pendingReset = none ∧ s.blocks.slotPort.inFlight.isSome) :=
  ⟨by decide +kernel, ⟨on (writing .link 0), by decide +kernel⟩, ⟨on (reading .link), by decide +kernel⟩⟩

theorem test_hyps_WorkAndFullResetValues :
    (∃ (b : Blocks) (f : NoticeInFlight), b.notice.sender = .awaiting f ∧ f.phase = .waiting ∧ b.noticeSlot = some aFrame) ∧
    (∃ b : Blocks, (∀ f, b.notice.sender = .awaiting f → f.phase ≠ .waiting) ∧ b.notice.sender = .awaiting ⟨1, 0, aFrame, 1, .onLine⟩) :=
  ⟨⟨{ awaiting .waiting 1 up.blocks with noticeSlot := some aFrame }, ⟨1, 0, aFrame, 1, .waiting⟩, by decide +kernel⟩,
   ⟨awaiting .onLine 1 up.blocks, fun f h => by injection h with h; subst h; decide, by decide +kernel⟩⟩

theorem test_hyps_FramesOfAnyKind :
    (taken up (frameOf 9 0x00 []) = true ∧ (0x00 : Byte) ≠ 0x40 ∧ (0x00 : Byte) ∉ requestCodes) ∧
    (taken up (frameOf 9 0xFF []) = true ∧ (0xFF : Byte) ≠ 0x40 ∧ (0xFF : Byte) ∉ requestCodes) ∧
    (asks up .hello [0] ∧ RequestKind.hello.lengthFits 1 = false) ∧
    (∃ s : State, ready s = true ∧
      (s.link.replyMemory.find? fun x => x.tag == 9 && x.kind == 0x01 && x.check == frameCheck 9 0x01 []) = some anEntry) ∧
    (∃ s : State, s.power = .running ∧ s.handler ≠ .free ∧ settled s = true ∧ s.blocks.notice.sender ≠ .muted ∧ s.link.rxQueue.length = 3) ∧
    (∃ s : State, s.power = .running ∧ s.handler ≠ .free ∧ settled s = true ∧ s.blocks.notice.sender ≠ .muted ∧ s.link.rxQueue.length = 4) :=
  ⟨by decide +kernel, by decide +kernel, by decide +kernel, ⟨linked fun l => { l with replyMemory := [anEntry] }, by decide +kernel⟩,
   ⟨{ linked (fun l => { l with rxQueue := List.replicate 3 aRequest }) with handler := .deferred aRequest }, by decide +kernel⟩,
   ⟨{ linked (fun l => { l with rxQueue := List.replicate 4 aRequest }) with handler := .deferred aRequest }, by decide +kernel⟩⟩

theorem test_hyps_NoticeAckAndUnmuting :
    (∃ (s : State) (n : NoticeInFlight), s.power = .running ∧ s.blocks.notice.sender = .awaiting n ∧ s.blocks.notice.tag = 1 ∧ s.blocks.notice.tag ≠ 2) ∧
    (up.power = .running ∧ up.blocks.notice.sender = .quiet) ∧
    (∃ s : State, s.power = .running ∧ s.blocks.notice.sender = .muted ∧ s.link.rxQueue.length = 3) :=
  ⟨⟨on (awaiting .waiting 1), ⟨1, 0, aFrame, 1, .waiting⟩, by decide +kernel⟩, by decide +kernel,
   ⟨{ on (fun b => { b with notice := { b.notice with sender := .muted } }) with
      link := { up.link with rxQueue := List.replicate 3 aRequest } }, by decide +kernel⟩⟩

theorem test_hyps_NoticeAckAndUnmuting_overrun :
    ∃ s : State, s.power = .running ∧ s.blocks.notice.sender = .muted ∧ (0x01 : Byte) ≠ 0x40 ∧ s.link.rxQueue.length = 4 :=
  ⟨{ on (fun b => { b with notice := { b.notice with sender := .muted } }) with
     link := { up.link with rxQueue := List.replicate 4 aRequest } }, by decide +kernel⟩

/-- The pool with `n` slots left. -/
def poolOf (n : Nat) (b : Blocks) : Blocks := { b with pool := b.pool.take n }

/-- The first `n` handles STAGED. -/
def stagedBelow (n : Nat) (b : Blocks) : Blocks :=
  { b with chains := Vector.ofFn fun h : Handle => if h.val < n then { state := .staged } else {} }

theorem test_hyps_ChainNewChecksThenBuilds :
    (WellFormed (.chainNew 9 2 [fillForm]) = true ∧ asks up .chainNew (formsPayload 2 [fillForm])) ∧
    (WellFormed (.chainNew 9 0 []) = true ∧ asks up .chainNew (formsPayload 0 [])) ∧
    (asks up .chainNew (formsPayload 0 (List.replicate 11 fillForm)) ∧ WellFormed (.chainNew 9 0 (List.replicate 11 fillForm)) = true ∧
      List.replicate 11 fillForm ≠ []) ∧
    (asks up .chainNew (formsPayload 1 [wfBad]) ∧ validateAll (memorySize up.blocks.mszCode) 0 [wfBad] = .error 0) ∧
    (∃ s : State, asks s .chainNew (formsPayload 1 [fillForm]) ∧ validateAll (memorySize s.blocks.mszCode) 0 [fillForm] = .ok [fill] ∧
      ∀ h, (s.blocks.chain h).state ≠ .free) ∧
    (∃ s : State, asks s .chainNew (formsPayload 1 [fillForm]) ∧ (s.blocks.chain 31).state = .free ∧
      (∀ k : Handle, k < 31 → (s.blocks.chain k).state ≠ .free) ∧ s.blocks.pool.length = 0) ∧
    (∃ s : State, asks s .chainNew (formsPayload 1 [fillForm]) ∧ (s.blocks.chain 31).state = .free ∧
      (∀ k : Handle, k < 31 → (s.blocks.chain k).state ≠ .free) ∧ s.blocks.pool.length = 1) :=
  ⟨by decide +kernel, by decide +kernel, by decide +kernel, ⟨by decide +kernel, rfl⟩,
   ⟨on (stagedBelow 32), by decide +kernel, rfl, by decide +kernel⟩,
   ⟨on fun b => stagedBelow 31 (poolOf 0 b), by decide +kernel⟩, ⟨on fun b => stagedBelow 31 (poolOf 1 b), by decide +kernel⟩⟩

/-- Of every kind an entry at the bound of a check, and one beyond it. -/
theorem test_hyps_ChainNewChecksThenBuilds_entries :
    validate 4194304 fillForm = some fill ∧ validate 4194304 { fillForm with src := 0x10 } = none ∧
    (validate 4194304 ⟨1, 0, 0, 0, 0, 10, 10, 0⟩).isSome ∧ validate 4194304 ⟨1, 0, 0, 0, 0, 9, 10, 0⟩ = none ∧
    (validate 4194304 ⟨1, 0, 0x10, 0x10, 0, 9, 10, 0⟩).isSome ∧ validate 4194304 ⟨1, 0, 0, 0, 0, 10, 10, 1⟩ = none ∧
    (validate 4194304 ⟨3, 7, 0, 0, 4194303, 0, 1, 5⟩).isSome ∧ validate 4194304 ⟨3, 7, 0, 0, 4194303, 0, 2, 5⟩ = none ∧
    (validate 4194304 ⟨3, 7, 0x17, 0, 1048575, 0, 1, 5⟩).isSome ∧ validate 4194304 ⟨3, 7, 0x18, 0, 0, 0, 1, 5⟩ = none ∧
    (validate 4194304 ⟨4, 0, 0, 0, 0, 4, 4, 5⟩).isSome ∧ validate 4194304 ⟨4, 0, 0, 0, 0, 5, 4, 5⟩ = none ∧
    (validate 4194304 ⟨5, 0, 0x17, 0, 0, 0, 0, 0xFFFFFF⟩).isSome ∧ validate 4194304 ⟨5, 0, 0, 0, 0, 0, 0, 1⟩ = none ∧
    validate 4194304 ⟨5, 0, 0x17, 0, 0, 0, 0, 0x1000000⟩ = none ∧
    validateAll 4194304 0 [fillForm, fillForm] = .ok [fill, fill] ∧ validateAll 4194304 0 [fillForm, wfBad, wfBad] = .error 1 := by
  decide +kernel

theorem test_hyps_ChainAppendChecksThenExtends :
    (WellFormed (.chainAppend 9 32 [fillForm]) = true ∧ asks up .chainAppend (formsPayload 32 [fillForm]) ∧ 32 ≤ (32 : Byte).toNat) ∧
    (asks up .chainAppend (formsPayload 31 [fillForm]) ∧ (31 : Byte).toNat = (31 : Handle).val ∧ (up.blocks.chain 31).state = .free) ∧
    (∃ s : State, asks s .chainAppend (formsPayload 31 [fillForm]) ∧ (s.blocks.chain 31).state ≠ .free ∧ (s.blocks.chain 31).isOpen = false) ∧
    (∃ s : State, asks s .chainAppend (formsPayload 31 [wfBad]) ∧ asks s .chainAppend (formsPayload 31 [fillForm]) ∧
      (s.blocks.chain 31).state ≠ .free ∧ (s.blocks.chain 31).isOpen = true ∧ s.blocks.pool.length = 1 ∧ (s.blocks.chain 31).boundTo = none) ∧
    (∃ s : State, asks s .chainAppend (formsPayload 31 [fillForm]) ∧ (s.blocks.chain 31).state ≠ .free ∧
      (s.blocks.chain 31).isOpen = true ∧ s.blocks.pool.length = 0) ∧
    (∃ s : State, asks s .chainAppend (formsPayload 31 [fillForm]) ∧ (s.blocks.chain 31).isOpen = true ∧
      (s.blocks.chain 31).boundTo = some 3 ∧ (s.blocks.chan 3).cursor.isSome) ∧
    (∃ s : State, asks s .chainAppend (formsPayload 31 [fillForm]) ∧ (s.blocks.chain 31).isOpen = true ∧
      (s.blocks.chain 31).boundTo = some 3 ∧ (s.blocks.chan 3).cursor = none ∧ (s.blocks.chan 3).state ≠ .starved) ∧
    (∃ s : State, asks s .chainAppend (formsPayload 31 [fillForm]) ∧ (s.blocks.chain 31).isOpen = true ∧
      (s.blocks.chain 31).boundTo = some 3 ∧ (s.blocks.chan 3).cursor = none ∧ (s.blocks.chan 3).state = .starved) :=
  ⟨by decide +kernel, by decide +kernel, ⟨on (chain31 .spent false), by decide +kernel⟩,
   ⟨on fun b => chain31 .staged true (poolOf 1 b), by decide +kernel⟩, ⟨on fun b => chain31 .staged true (poolOf 0 b), by decide +kernel⟩,
   ⟨on (bind .held fill), by decide +kernel⟩, ⟨on (bind .held fill fun c => { c with cursor := none }), by decide +kernel⟩,
   ⟨on (bind .starved fill fun c => { c with cursor := none }), by decide +kernel⟩⟩

theorem test_hyps_ChainCloseAndDrop :
    (asks up .chainClose [32] ∧ asks up .chainDrop [32] ∧ asks up .chainClose [31] ∧ asks up .chainDrop [31] ∧
      (up.blocks.chain 31).state = .free) ∧
    (∃ s : State, asks s .chainClose [31] ∧ (s.blocks.chain 31).state ≠ .free ∧
      ∀ c, (s.blocks.chain 31).boundTo = some c → (s.blocks.chan c).state ≠ .starved) ∧
    (∃ s : State, asks s .chainClose [31] ∧ asks s .chainDrop [31] ∧ (s.blocks.chain 31).state = .bound ∧
      (s.blocks.chain 31).boundTo = some 3 ∧ (s.blocks.chan 3).state = .starved) ∧
    (∃ s : State, asks s .chainDrop [31] ∧ (s.blocks.chain 31).state = .spent) ∧
    (∃ s : State, asks s .chainDrop [31] ∧ (s.blocks.chain 31).state = .staged) :=
  ⟨by decide +kernel, ⟨on (bind .held fill), by decide +kernel⟩, ⟨on (bind .starved fill), by decide +kernel⟩,
   ⟨on (chain31 .spent true), by decide +kernel⟩, ⟨on (chain31 .staged true), by decide +kernel⟩⟩

theorem test_hyps_ChainQueryAndSlotReadReply :
    (asks up .chainQuery (32 :: beBytes 2 0) ∧ asks up .chainQuery (31 :: beBytes 2 65535)) ∧
    (asks up .slotRead (beBytes 2 512) ∧ 512 ≤ (512 : BitVec 16).toNat) ∧
    (asks up .slotRead (beBytes 2 511) ∧ ∀ h, ∀ m ∈ (up.blocks.chain h).members, m.slot ≠ (511 : BitVec 16).toNat) ∧
    (∃ s : State, asks s .slotRead (beBytes 2 5) ∧ (s.blocks.chain 31).members = [] ++ (⟨5, fill⟩ : Member) :: [] ∧
      (∀ x ∈ ([] : List Member), x.slot ≠ (5 : BitVec 16).toNat) ∧
      ∀ k : Handle, k < 31 → ∀ x ∈ (s.blocks.chain k).members, x.slot ≠ (5 : BitVec 16).toNat) :=
  ⟨by decide +kernel, by decide +kernel, by decide +kernel, ⟨on (chain31 .staged true), by decide +kernel⟩⟩

theorem test_hyps_ChannelNumberTooLarge :
    4 ≤ (4 : Byte).toNat ∧ asks up .channelStart [4, 31] ∧ asks up .channelHold [4] ∧ asks up .channelResume [4] ∧ asks up .channelStop [4] ∧
      asks up .channelRetry [4] ∧ asks up .channelSkip [4] ∧ asks up .channelClear [4] ∧ asks up .channelQuery [4] := by
  decide +kernel

theorem test_hyps_ChannelStartChecksThenBinds :
    ((3 : Byte).toNat = (3 : ChanId).val ∧ asks up .channelStart [3, 32]) ∧
    (asks up .channelStart [3, 31] ∧ (up.blocks.chain 31).state = .free) ∧
    (∃ s : State, asks s .channelStart [3, 31] ∧ (s.blocks.chain 31).state ≠ .free ∧ (s.blocks.chan 3).state ≠ .idle) ∧
    (∃ s : State, asks s .channelStart [2, 31] ∧ (s.blocks.chain 31).state = .bound ∧ (s.blocks.chan 2).state = .idle) ∧
    (∃ s : State, asks s .channelStart [3, 31] ∧ (s.blocks.chain 31).state = .staged ∧ (s.blocks.chan 3).state = .idle) ∧
    (∃ s : State, asks s .channelStart [3, 31] ∧ (s.blocks.chain 31).state = .spent ∧ (s.blocks.chan 3).state = .idle) :=
  ⟨by decide +kernel, by decide +kernel, ⟨on (bind .held fill), by decide +kernel⟩, ⟨on (bind .held fill), by decide +kernel⟩,
   ⟨on (chain31 .staged true), by decide +kernel⟩, ⟨on (chain31 .spent true), by decide +kernel⟩⟩

theorem test_hyps_HoldStopsWaitingChannel :
    (∃ s : State, asks s .channelHold [3] ∧ rested s.blocks = true ∧ (s.blocks.chan 3).state = .running ∧
      s.blocks.bufPort.requests = [.chan 3] ∧ s.blocks.bufPort.owner ≠ some (.chan 3) ∧ s.blocks.slotPort.owner ≠ some (.chan 3)) ∧
    (∃ s : State, asks s .channelHold [3] ∧ rested s.blocks = true ∧ (s.blocks.chan 3).state = .running ∧
      s.blocks.bufPort.owner = some (.chan 3)) ∧
    (∃ s : State, asks s .channelHold [3] ∧ rested s.blocks = true ∧ (s.blocks.chan 3).state = .running ∧
      s.blocks.slotPort.owner = some (.chan 3)) ∧
    (∃ s : State, asks s .channelHold [3] ∧ rested s.blocks = true ∧ (s.blocks.chan 3).state = .pending ∧
      s.blocks.current 3 = some wait7 ∧ wait7.src = .unit 7) ∧
    (∃ s : State, asks s .channelHold [3] ∧ rested s.blocks = true ∧ (s.blocks.chan 3).state = .starved) :=
  ⟨⟨on fun b => busy (asking (bind .running fill id b)), by decide +kernel⟩,
   ⟨on fun b => writing (.chan 3) 6 (bind .running fill id b), by decide +kernel⟩,
   ⟨on fun b => reading (.chan 3) (bind .running copy7 id b), by decide +kernel⟩, ⟨on (bind .pending wait7), by decide +kernel⟩,
   ⟨on (bind .starved fill), by decide +kernel⟩⟩

theorem test_hyps_BlockedChannel (k : Continuation) : ∃ s : State, asks s .channelHold [3] ∧ asks s .channelResume [3] ∧
    asks s .channelStop [3] ∧ rested s.blocks = true ∧ (s.blocks.chan 3).state = .blocked ∧ (s.blocks.chan 3).continuation = some k :=
  ⟨on (blockedOn k), by cases k <;> decide +kernel⟩

theorem test_hyps_HoldInRemainingStates :
    (∃ s : State, asks s .channelHold [3] ∧ rested s.blocks = true ∧ (s.blocks.chan 3).state = .held ∧ (s.blocks.chan 3).continuation = none) ∧
    (asks up .channelHold [3] ∧ rested up.blocks = true ∧ (up.blocks.chan 3).state = .idle ∧ (up.blocks.chan 3).continuation = none) ∧
    (∃ s : State, asks s .channelHold [3] ∧ rested s.blocks = true ∧ (s.blocks.chan 3).state = .faulted ∧
      (s.blocks.chan 3).continuation = none) :=
  ⟨⟨on (bind .held fill), by decide +kernel⟩, by decide +kernel, ⟨on (bind .faulted fill), by decide +kernel⟩⟩

theorem test_hyps_ResumeGoesOnFromPlaceHeld :
    (∃ s : State, asks s .channelResume [3] ∧ (s.blocks.chan 3).state = .held ∧ (s.blocks.chan 3).cursor.isSome ∧
      (s.blocks.chan 3).started = true) ∧
    (∃ s : State, asks s .channelResume [3] ∧ (s.blocks.chan 3).state = .held ∧ (s.blocks.chan 3).started = false) ∧
    (∃ s : State, asks s .channelResume [3] ∧ (s.blocks.chan 3).state = .held ∧ (s.blocks.chan 3).cursor = none) :=
  ⟨⟨on (bind .held fill fun c => { c with started := true }), by decide +kernel⟩, ⟨on (bind .held fill), by decide +kernel⟩,
   ⟨on (bind .held fill fun c => { c with cursor := none }), by decide +kernel⟩⟩

theorem test_hyps_ResumeOfBlockedChannel : asks up .channelResume [3] ∧ rested up.blocks = true ∧ (up.blocks.chan 3).state ≠ .blocked ∧
    (up.blocks.chan 3).state ≠ .held ∧ (up.blocks.chan 3).continuation = none := by decide +kernel

theorem test_hyps_StopEndsRun :
    (asks up .channelStop [3] ∧ rested up.blocks = true ∧ (up.blocks.chan 3).state = .idle) ∧
    (∃ s : State, asks s .channelStop [3] ∧ rested s.blocks = true ∧ (s.blocks.chan 3).state = .running ∧
      s.blocks.bufPort.owner = some (.chan 3)) ∧
    (∃ s : State, asks s .channelStop [3] ∧ rested s.blocks = true ∧ (s.blocks.chan 3).state = .running ∧
      s.blocks.bufPort.owner ≠ some (.chan 3) ∧ s.blocks.slotPort.owner ≠ some (.chan 3)) ∧
    (∃ s : State, asks s .channelStop [3] ∧ rested s.blocks = true ∧ (s.blocks.chan 3).state = .pending ∧
      s.blocks.current 3 = some wait7 ∧ wait7.src = .unit 7) ∧
    (∃ s : State, asks s .channelStop [3] ∧ rested s.blocks = true ∧ (s.blocks.chan 3).state = .starved) ∧
    (∃ s : State, asks s .channelStop [3] ∧ rested s.blocks = true ∧ (s.blocks.chan 3).state = .held) ∧
    (∃ s : State, asks s .channelStop [3] ∧ rested s.blocks = true ∧ (s.blocks.chan 3).state = .faulted) :=
  ⟨by decide +kernel, ⟨on fun b => writing (.chan 3) 6 (bind .running fill id b), by decide +kernel⟩,
   ⟨on fun b => busy (asking (bind .running fill id b)), by decide +kernel⟩, ⟨on (bind .pending wait7), by decide +kernel⟩,
   ⟨on (bind .starved fill), by decide +kernel⟩, ⟨on (bind .held fill), by decide +kernel⟩, ⟨on (bind .faulted fill), by decide +kernel⟩⟩

theorem test_hyps_RetrySkipClear :
    (∃ s : State, asks s .channelRetry [3] ∧ asks s .channelSkip [3] ∧ asks s .channelClear [3] ∧ rested s.blocks = true ∧
      (s.blocks.chan 3).state = .faulted ∧ (s.blocks.chan 3).handle = some 31) ∧
    (asks up .channelRetry [3] ∧ asks up .channelSkip [3] ∧ asks up .channelClear [3] ∧ rested up.blocks = true ∧
      (up.blocks.chan 3).state ≠ .faulted) :=
  ⟨⟨on (bind .faulted fill), by decide +kernel⟩, by decide +kernel⟩

theorem test_hyps_CollectRemovesOldestRecords :
    (asks up .collect [0] ∧ asks up .collect [13] ∧ asks up .collect [1] ∧ asks up .collect [12] ∧ up.blocks.queue.records = []) ∧
    (∃ s : State, asks s .collect [1] ∧ asks s .collect [12] ∧ s.blocks.queue.records ≠ [] ∧ s.blocks.queue.blocked = [3]) :=
  ⟨by decide +kernel, ⟨on (blockedOn .proceed), by decide +kernel⟩⟩

/-- A UNIT SET payload. -/
def setPayload (unit : Byte) (base size : Nat) (timeout : Byte) : List Byte := unit :: beBytes 3 base ++ beBytes 3 size ++ [timeout]

/-- UNIT0 FENCED beside UNIT7, with a window of 4096 bytes at 4096. -/
def beside (b : Blocks) : Blocks :=
  b.updUnit 0 fun _ => { presence := true, state := .fenced, line := true, window := some ⟨4096, 4096⟩, slotEnable := true }

theorem test_hyps_UnitSetChecksThenStores :
    asks up .unitSet (setPayload 8 0 4096 1) ∧
    (asks up .unitSet (setPayload 7 0 4096 1) ∧ (up.blocks.unit 7).state = .empty) ∧
    (∃ s : State, asks s .unitSet (setPayload 7 0 4096 1) ∧ (s.blocks.unit 7).state = .active) ∧
    (∃ s : State, asks s .unitSet (setPayload 7 0 2048 1) ∧ (s.blocks.unit 7).state = .present ∧ isWindowSize 2048 = false) ∧
    (∃ s : State, asks s .unitSet (setPayload 7 2048 4096 1) ∧ (s.blocks.unit 7).state = .fenced ∧ 2048 % 4096 ≠ 0) ∧
    (∃ s : State, asks s .unitSet (setPayload 7 0 1048576 0) ∧ (s.blocks.unit 7).state = .present ∧ isWindowSize 1048576 = true) ∧
    (∃ s : State, ∃ v : UnitId, ∃ w : Window, asks s .unitSet (setPayload 7 0 8192 1) ∧ (s.blocks.unit 7).state = .fenced ∧ v ≠ 7 ∧
      (s.blocks.unit v).state = .fenced ∧ (s.blocks.unit v).window = some w ∧ 0 < w.base + w.size ∧ w.base < 0 + 8192) ∧
    (∃ s : State, asks s .unitSet (setPayload 7 0xFFF000 4096 255) ∧ (s.blocks.unit 7).state = .present ∧ isWindowSize 4096 = true ∧
      0xFFF000 % 4096 = 0 ∧ 0xFFF000 + 4096 ≤ 16777216) ∧
    (∃ s : State, asks s .unitSet (setPayload 7 0 4096 1) ∧ (s.blocks.unit 7).state = .fenced ∧ overlapsInUse 7 ⟨0, 4096⟩ s.blocks = false) :=
  ⟨by decide +kernel, by decide +kernel, ⟨on (card7 .active), by decide +kernel⟩, ⟨on (card7 .present), by decide +kernel⟩,
   ⟨on (card7 .fenced), by decide +kernel⟩, ⟨on (card7 .present), by decide +kernel⟩,
   ⟨on fun b => beside (card7 .fenced id b), 0, ⟨4096, 4096⟩, by decide +kernel⟩, ⟨on (card7 .present), by decide +kernel⟩,
   ⟨on fun b => beside (card7 .fenced id b), by decide +kernel⟩⟩

theorem test_hyps_UnitActivateChecksThenEnters :
    (asks up .unitActivate [8] ∧ asks up .unitActivate [7] ∧ (up.blocks.unit 7).state = .empty) ∧
    (∃ s : State, asks s .unitActivate [7] ∧ (s.blocks.unit 7).state = .active) ∧
    (∃ s : State, asks s .unitActivate [7] ∧ (s.blocks.unit 7).state = .fenced) ∧
    (∃ s : State, asks s .unitActivate [7] ∧ (s.blocks.unit 7).state = .present ∧ (s.blocks.unit 7).window = none) ∧
    (∃ s : State, ∃ v : UnitId, ∃ w x : Window, asks s .unitActivate [7] ∧ (s.blocks.unit 7).state = .present ∧
      (s.blocks.unit 7).window = some w ∧ v ≠ 7 ∧ (s.blocks.unit v).state = .fenced ∧ (s.blocks.unit v).window = some x ∧
      w.base < x.base + x.size ∧ x.base < w.base + w.size) ∧
    (∃ s : State, ∃ w : Window, asks s .unitActivate [7] ∧ (s.blocks.unit 7).state = .present ∧ (s.blocks.unit 7).window = some w ∧
      overlapsInUse 7 w s.blocks = false) :=
  ⟨by decide +kernel, ⟨on (card7 .active), by decide +kernel⟩, ⟨on (card7 .fenced), by decide +kernel⟩,
   ⟨on (card7 .present fun e => { e with window := none }), by decide +kernel⟩,
   ⟨on fun b => beside (card7 .present (fun e => { e with window := some ⟨0, 8192⟩ }) b), 0, ⟨0, 8192⟩, ⟨4096, 4096⟩, by decide +kernel⟩,
   ⟨on fun b => beside (card7 .present id b), ⟨0, 4096⟩, by decide +kernel⟩⟩

theorem test_hyps_UnitDeactivateChecksThenReleases :
    (asks up .unitDeactivate [8, 0] ∧ asks up .unitDeactivate [7, 2] ∧ asks up .unitDeactivate [7, 0] ∧ asks up .unitDeactivate [7, 1] ∧
      (up.blocks.unit 7).state = .empty) ∧
    (∃ s : State, asks s .unitDeactivate [7, 0] ∧ (s.blocks.unit 7).state = .present) ∧
    (∃ s : State, asks s .unitDeactivate [7, 0] ∧ (s.blocks.unit 7).state = .active ∧ (s.blocks.chan 3).state ≠ .idle ∧
      s.blocks.current 3 = some copy7 ∧ copy7.src = .unit 7) ∧
    (∃ s : State, asks s .unitDeactivate [7, 0] ∧ asks s .unitDeactivate [7, 1] ∧ (s.blocks.unit 7).state = .fenced ∧
      unitInUse 7 s.blocks = false ∧ s.blocks.slotPort.inFlight = none) ∧
    (∃ s : State, ∃ (a : Access) (t : CardTiming), asks s .unitDeactivate [7, 1] ∧ (s.blocks.unit 7).state = .active ∧ s.blocks.slotPort.inFlight = some a ∧
      a.card = some t ∧ t.unit = 7) :=
  ⟨by decide +kernel, ⟨on (card7 .present), by decide +kernel⟩, ⟨on fun b => bind .held copy7 id (card7 .active id b), by decide +kernel⟩,
   ⟨on (card7 .fenced), by decide +kernel⟩,
   ⟨on fun b => reading (.chan 3) (card7 .active id b), ⟨.chan 3, .read, 0, 2, [], some ⟨7, 40⟩⟩, ⟨7, 40⟩, by decide +kernel⟩⟩

theorem test_hyps_ChannelAndUnitQueryReply :
    asks up .channelQuery [3] ∧ (3 : Byte).toNat = (3 : ChanId).val ∧ asks up .unitQuery [8] ∧ asks up .unitQuery [7] := by decide +kernel

/-- A GUARD SET payload. -/
def guardPayload (index enabled : Byte) (base limit : Nat) (mode agents : Byte) : List Byte :=
  [index, enabled] ++ beBytes 4 base ++ beBytes 4 limit ++ [mode, agents]

/-- The guard table frozen. -/
def frozen (b : Blocks) : Blocks := { b with guards := { b.guards with frozen := true } }

theorem test_hyps_GuardSetChecksThenReplaces :
    asks up .guardSet (guardPayload 8 0 0 0 0 0) ∧
    (∃ s : State, asks s .guardSet (guardPayload 7 0 0 0 0 0) ∧ s.blocks.guards.frozen = true) ∧
    (asks up .guardSet (guardPayload 7 0 0 0 0 0) ∧ up.blocks.guards.frozen = false) ∧
    (asks up .guardSet (guardPayload 7 1 0 4194304 1 3) ∧ up.blocks.guards.frozen = false ∧ GuardMode.code .noWrite = 1 ∧
      GuardAgents.code .both = 3 ∧ 4194304 % 64 = 0 ∧ 4194304 ≤ memorySize up.blocks.mszCode) ∧
    (asks up .guardSet (guardPayload 7 1 64 64 1 1) ∧ ¬ (64 : Nat) < 64) ∧ asks up .guardSet (guardPayload 7 2 0 64 1 1) ∧
    asks up .guardSet (guardPayload 7 0 64 0 0 0) :=
  ⟨by decide +kernel, ⟨on frozen, by decide +kernel⟩, by decide +kernel, by decide +kernel, by decide +kernel, by decide +kernel,
   by decide +kernel⟩

theorem test_hyps_GuardFreezeAndQuery :
    asks up .guardFreeze [] ∧ asks up .guardQuery [0] ∧ asks up .guardQuery [1] ∧ asks up .guardQuery [2] := by decide +kernel

/-- Entries 0 and 7 guard bytes 64 to 127 for everyone; entry 7's hit count is `n`. -/
def guarded (n : Nat) (b : Blocks) : Blocks :=
  let g : GuardRange := ⟨64, 128, .noAccess, .both⟩
  { b with guards := { b.guards with entries := (b.guards.entries.set 5 (some g)).set 7 (some g), hits := b.guards.hits.set 5 n } }

theorem test_hyps_RangeCheckRefusesExactly : ∀ i : GuardId, up.blocks.guards.entries[i] = none := by decide +kernel

theorem test_hyps_RefusalChargedToLowestEntry : ∃ b : Blocks, ∃ g : GuardRange, b.guards.entries[(5 : GuardId)] = some g ∧
    g.refuses 127 1 .read .link = true ∧ (∀ j : GuardId, j < 5 → b.guards.entries[j] = none) ∧ b.guards.hits[(5 : GuardId)] = 65535 :=
  ⟨guarded 65535 up.blocks, ⟨64, 128, .noAccess, .both⟩, by decide +kernel⟩

/-- A PEEK or POKE payload: space code, offset and what follows. -/
def accessPayload (space : Byte) (offset : Nat) (rest : List Byte) : List Byte := space :: beBytes 4 offset ++ rest

theorem test_hyps_PeekAndPokeCheckThenBegin_refused :
    (asks up .peek (accessPayload 0 0 [0]) ∧ asks up .peek (accessPayload 0 0 [129]) ∧ asks up .peek (accessPayload 0x18 0 [1]) ∧
      (∀ u : UnitId, (0x18 : Byte).toNat ≠ 16 + u.val)) ∧
    (asks up .poke (accessPayload 0 4194303 [1, 2]) ∧ memorySize up.blocks.mszCode < 4194303 + 2) ∧
    (∃ s : State, asks s .peek (accessPayload 0 0 [65]) ∧ (rangeCheck 0 65 .read .link s.blocks).2 = some 5) ∧
    (asks up .peek (accessPayload 0x17 0 [128]) ∧ (up.blocks.unit 7).state ≠ .active) ∧
    (∃ s : State, ∃ w : Window, asks s .peek (accessPayload 0x17 4095 [2]) ∧ (s.blocks.unit 7).state = .active ∧
      (s.blocks.unit 7).window = some w ∧ w.size < 4095 + 2) :=
  ⟨by decide +kernel, by decide +kernel, ⟨on (guarded 0), by decide +kernel⟩, by decide +kernel,
   ⟨on (card7 .active), ⟨0, 4096⟩, by decide +kernel⟩⟩

theorem test_hyps_PeekAndPokeCheckThenBegin_ends :
    (∃ (b : Blocks) (o : AgentOp) (a : Access), b.agent = some o ∧ o.done + a.count = o.count ∧ o.kind = .peek) ∧
    (∃ (b : Blocks) (o : AgentOp) (a : Access), b.agent = some o ∧ o.done + a.count = o.count ∧ o.kind = .poke) ∧
    (∃ (b : Blocks) (o : AgentOp) (a : Access), b.agent = some o ∧ o.done + a.count ≠ o.count) :=
  ⟨⟨{ up.blocks with agent := some ⟨.peek, .buf, 60, 5, 4, [1, 2, 3, 4]⟩ }, _, ⟨.link, .read, 64, 1, [], none⟩, rfl, rfl, rfl⟩,
   ⟨{ up.blocks with agent := some ⟨.poke, .buf, 60, 5, 4, [1, 2, 3, 4, 5]⟩ }, _, ⟨.link, .write, 64, 1, [5], none⟩, rfl, rfl, rfl⟩,
   ⟨{ up.blocks with agent := some ⟨.peek, .buf, 60, 5, 0, []⟩ }, _, ⟨.link, .read, 60, 4, [], none⟩, rfl, by decide⟩⟩

theorem test_hyps_PeekAndPokeCheckThenBegin :
    (asks up .peek (accessPayload 0 4194303 [1]) ∧ asks up .poke (accessPayload 0 4194303 [1]) ∧ rested up.blocks = true ∧
      4194303 + 1 ≤ memorySize up.blocks.mszCode ∧ rangeCheck 4194303 1 .read .link up.blocks = (up.blocks, none) ∧
      up.blocks.bufPort.barred = false ∧ up.blocks.bufPort.inFlight = none ∧ up.blocks.bufPort.requests = []) ∧
    (∃ s : State, asks s .peek (accessPayload 0 0 [128]) ∧ rested s.blocks = true ∧ s.blocks.bufPort.inFlight.isSome ∧
      rangeCheck 0 128 .read .link s.blocks = (s.blocks, none)) ∧
    (∃ s : State, ∃ w : Window, asks s .peek (accessPayload 0x17 4095 [1]) ∧ rested s.blocks = true ∧ (s.blocks.unit 7).state = .active ∧
      (s.blocks.unit 7).window = some w ∧ 4095 + 1 ≤ w.size ∧ s.blocks.slotPort.inFlight.isSome) ∧
    (∃ s : State, ∃ w : Window, asks s .poke (accessPayload 0x17 4095 [1]) ∧ rested s.blocks = true ∧ (s.blocks.unit 7).state = .active ∧
      (s.blocks.unit 7).window = some w ∧ 4095 + 1 ≤ w.size ∧ s.blocks.slotPort.barred = false ∧ s.blocks.slotPort.inFlight = none ∧
      s.blocks.slotPort.requests = []) :=
  ⟨by decide +kernel, ⟨on busy, by decide +kernel⟩, ⟨on fun b => reading (.chan 0) (card7 .active id b), ⟨0, 4096⟩, by decide +kernel⟩,
   ⟨on (card7 .active), ⟨0, 4096⟩, by decide +kernel⟩⟩

/-- The receiver in a state. -/
def receiving (r : Receiver) : State := linked fun l => { l with receiver := r }

theorem test_hyps_ReceiverTakesByte :
    (up.power = .running ∧ settled up = true ∧ up.link.receiver = .hunt) ∧
    (settled (receiving (.length 2001)) = true ∧ 2 ≤ (2 : Byte).toNat ∧ (242 : Byte).toNat ≤ 242 ∧ (1 : Byte).toNat < 2 ∧
      242 < (243 : Byte).toNat) ∧
    (∃ p : Partial, settled (receiving (.body p 2001)) = true ∧ p.taken.length + 1 ≠ p.length) ∧
    (∃ p : Partial, settled (receiving (.body p 2001)) = true ∧ p.taken.length + 1 = p.length) ∧
    (∃ p : Partial, settled (receiving (.check p none 2001)) = true) ∧
    (∃ (p : Partial) (hi : Byte), settled (receiving (.check p (some hi) 2001)) = true ∧ hi ++ (0 : Byte) ≠ p.crc) ∧
    (∃ p : Partial, ∃ hi b : Byte, settled (receiving (.check p (some hi) 2001)) = true ∧ p.taken = [9, 1] ∧ p.crc = frameCheck 9 1 [] ∧
      hi ++ b = p.crc) :=
  ⟨by decide +kernel, by decide +kernel, ⟨⟨3, [9], 0⟩, by decide +kernel⟩, ⟨⟨2, [9], 0⟩, by decide +kernel⟩, ⟨⟨2, [9, 1], 0⟩, by decide +kernel⟩,
   ⟨⟨2, [9, 1], 1⟩, 0, by decide +kernel⟩,
   ⟨⟨2, [9, 1], frameCheck 9 1 []⟩, (frameCheck 9 1 []).extractLsb' 8 8, (frameCheck 9 1 []).extractLsb' 0 8, by decide +kernel⟩⟩

theorem test_hyps_DamagedFrameCountsAndRaisesLink :
    up.power = .running ∧ up.link.receiver = .hunt ∧ (receiving (.length 2001)).link.receiver.gapDue = some 2001 := by decide +kernel

theorem test_hyps_TransmitterEvents :
    (up.link.line ≠ .cut ∧ (∀ f due, up.link.line ≠ .reply f due) ∧ (∀ f due, up.link.line ≠ .notice f due)) ∧
    (linked fun l => { l with line := .cut }).link.line = .cut ∧
    (linked fun l => { l with line := .reply aFrame 608 }).link.line = .reply aFrame 608 ∧
    (∃ (s : State) (n : NoticeInFlight), s.link.line = .notice aFrame 608 ∧ s.blocks.notice.sender = .awaiting n ∧ n.phase = .onLine) ∧
    (∃ s : State, s.link.line = .notice aFrame 608 ∧ ∀ n, s.blocks.notice.sender = .awaiting n → n.phase ≠ .onLine) ∧
    (∃ (s : State) (n : NoticeInFlight), s.power = .running ∧ s.blocks.notice.sender = .awaiting n ∧ n.phase = .timing 9 ∧ n.sends = 3) ∧
    (∃ (s : State) (n : NoticeInFlight), s.power = .running ∧ s.blocks.notice.sender = .awaiting n ∧ n.phase = .timing 9 ∧ n.sends = 4) ∧
    (∀ n due, up.blocks.notice.sender = .awaiting n → n.phase ≠ .timing due) :=
  ⟨⟨by decide +kernel, nofun, nofun⟩, rfl, rfl,
   ⟨{ on (awaiting .onLine 1) with link := { up.link with line := .notice aFrame 608 } }, ⟨1, 0, aFrame, 1, .onLine⟩, by decide +kernel⟩,
   ⟨linked fun l => { l with line := .notice aFrame 608 }, rfl, nofun⟩,
   ⟨on (awaiting (.timing 9) 3), ⟨1, 0, aFrame, 3, .timing 9⟩, by decide +kernel⟩,
   ⟨on (awaiting (.timing 9) 4), ⟨1, 0, aFrame, 4, .timing 9⟩, by decide +kernel⟩, nofun⟩

theorem test_hyps_TransmitterEvents_frameTaken :
    (∃ s : State, s.power = .running ∧ s.link.line = .idle ∧ s.link.replySlot.isSome) ∧
    (∃ s : State, s.power = .running ∧ s.link.line = .idle ∧ s.blocks.noticeSlot.isSome) ∧
    (up.link.line = .idle ∧ up.link.replySlot = none ∧ up.blocks.noticeSlot = none) :=
  ⟨⟨linked fun l => { l with replySlot := some aFrame }, by decide +kernel⟩, ⟨on fun b => { b with noticeSlot := some aFrame }, by decide +kernel⟩,
   by decide +kernel⟩

theorem test_hyps_BufferAccessEndMovesBytes :
    (up.power = .running ∧ up.mem.wf = true ∧ up.blocks.bufPort.inFlight = none) ∧
    (∃ (s : State) (a : Access), s.power = .running ∧ s.mem.wf = true ∧ s.blocks.bufPort.inFlight = some a ∧ a.addr + a.count = memorySize s.blocks.mszCode) :=
  ⟨by decide +kernel, ⟨on (writing .link 4194303), ⟨.link, .write, 4194303, 1, [0xAA], none⟩, by decide +kernel⟩⟩

theorem test_hyps_EndOfAccessFreesPortAndHandsOutcome :
    (∃ s : State, s.pendingReset = none ∧ rested (s.blocks.updArb .buffer fun x => { x with inFlight := none }) = true) ∧
    (∃ s : State, s.pendingReset = some .work ∧ (s.blocks.updArb .buffer fun x => { x with inFlight := none }).bufPort.inFlight = none ∧
      (s.blocks.updArb .buffer fun x => { x with inFlight := none }).slotPort.inFlight = none) :=
  ⟨⟨on (writing .link 0), by decide +kernel⟩, ⟨{ on (writing .link 0) with pendingReset := some .work }, by decide +kernel⟩⟩

/-- CH3, with a COPY from UNIT7, waits for the slot bus while the link agent's access is in flight. -/
def waitingForBus (st : UnitState) (b : Blocks) : Blocks :=
  let b := reading .link (bind .running copy7 id (card7 st id b))
  { b with slotPort := { b.slotPort with requests := [.chan 3] } }

/-- The slot bus freed. -/
def busFreed (b : Blocks) : Blocks := b.updArb .slot fun x => { x with inFlight := none }

theorem test_hyps_EndOfAccessFreesPortAndHandsOutcome_others :
    (∃ s : State, s.pendingReset = some .work ∧ (busFreed s.blocks).bufPort.inFlight.isSome ∧ rested (busFreed s.blocks) = true) ∧
    (∃ s : State, s.pendingReset = none ∧ (grants (busFreed s.blocks)).2 = [] ∧ (grants (busFreed s.blocks)).1.slotPort.inFlight.isSome) ∧
    (∃ s : State, s.pendingReset = none ∧ (grants (busFreed s.blocks)).2 = [(.chan 3, ⟨.unitState, 7⟩)]) :=
  ⟨⟨{ on (fun b => writing (.chan 0) 0 (reading .link b)) with pendingReset := some .work }, by decide +kernel⟩,
   ⟨on (waitingForBus .active), by decide +kernel⟩, ⟨on (waitingForBus .fenced), by decide +kernel⟩⟩

/-- A write of one byte of CH3 in flight to UNIT7. -/
def sending (b : Blocks) : Blocks :=
  { b with slotPort := { b.slotPort with inFlight := some ⟨.chan 3, .write, 0, 1, [0xAA], some ⟨7, 40⟩⟩ } }

theorem test_hyps_CardAnswersEndAccess :
    (up.power = .running ∧ up.blocks.unitAccessed 7 = false ∧ up.blocks.slotPort.inFlight = none) ∧
    (∃ (s : State) (a : Access) (due : Nat), s.blocks.slotPort.inFlight = some a ∧ a.card = some ⟨7, due⟩ ∧ (s.blocks.unit 7).deactPending = false ∧ a.dir = .write) ∧
    (∃ (s : State) (a : Access) (due : Nat), s.blocks.slotPort.inFlight = some a ∧ a.card = some ⟨7, due⟩ ∧ (s.blocks.unit 7).deactPending = false ∧ a.dir = .read ∧
      ([1, 2] : List Byte).length = a.count) ∧
    (∃ (s : State) (a : Access) (due : Nat), s.blocks.slotPort.inFlight = some a ∧ a.card = some ⟨7, due⟩ ∧ (s.blocks.unit 7).deactPending = true) :=
  ⟨by decide +kernel,
   ⟨on fun b => sending (card7 .active id b), ⟨.chan 3, .write, 0, 1, [0xAA], some ⟨7, 40⟩⟩, 40, by decide +kernel⟩,
   ⟨on fun b => reading (.chan 3) (card7 .active id b), ⟨.chan 3, .read, 0, 2, [], some ⟨7, 40⟩⟩, 40, by decide +kernel⟩,
   ⟨on fun b => reading (.chan 3) (card7 .active (fun e => { e with deactPending := true }) b), ⟨.chan 3, .read, 0, 2, [], some ⟨7, 40⟩⟩, 40,
    by decide +kernel⟩⟩

theorem test_hyps_ArbiterGrantsInCyclicOrder :
    (∃ a : Arbiter, a.barred = true) ∧ (∃ a : Arbiter, a.inFlight.isSome) ∧
    (∃ a : Arbiter, a.barred = false ∧ a.inFlight = none ∧ a.next = some .link) ∧
    (∃ (b : Blocks) (q : Plan), b.bufPort.next = some (.chan 3) ∧ b.plan (.chan 3) = some q) ∧
    ((up.blocks.arb .slot).next = none ∧ ((on asking).blocks.arb .buffer).next.isSome) ∧
    (∃ b : Blocks, (b.unit 7).state = .active ∧ (b.unit 7).window = some ⟨0, 4096⟩) ∧ (∃ b : Blocks, (b.unit 7).state = .present) ∧
    (∃ b : Blocks, (b.unit 7).state = .fenced) ∧ (up.blocks.unit 7).state = .empty :=
  ⟨⟨{ barred := true }, rfl⟩, ⟨(writing .link 0 up.blocks).bufPort, rfl⟩, ⟨{ requests := [.link] }, by decide +kernel⟩,
   ⟨asking (bind .running fill id up.blocks), ⟨.buf, 6, .write, 10, [0x11, 0x22, 0x33, 0x44, 0x11, 0x22, 0x33, 0x44, 0x11, 0x22]⟩,
    by decide +kernel⟩, by decide +kernel, ⟨card7 .active id up.blocks, by decide +kernel⟩, ⟨card7 .present id up.blocks, by decide +kernel⟩,
   ⟨card7 .fenced id up.blocks, by decide +kernel⟩, by decide +kernel⟩

theorem test_hyps_ArbiterGrantsInCyclicOrder_grants :
    (∃ (b : Blocks) (q : Plan), b.plan (.chan 3) = some q ∧ q.space = .buf) ∧
    (∃ (b : Blocks) (q : Plan), b.plan (.chan 3) = some q ∧ q.space = .unit 7) ∧
    (up.blocks.bufPort.next = none ∧ up.blocks.slotPort.next = none) ∧
    (∃ (b : Blocks) (q : Plan) (a : Access), b.slotPort.next = some (.chan 3) ∧ b.plan (.chan 3) = some q ∧
      slotAccess b (.chan 3) q = .ok a) ∧
    (∃ (b : Blocks) (q : Plan), b.slotPort.next = some (.chan 3) ∧ b.plan (.chan 3) = some q ∧
      slotAccess b (.chan 3) q = .error ⟨.unitState, 7⟩) ∧
    (grants up.blocks = (up.blocks, []) ∧ (grants (busFreed (waitingForBus .fenced up.blocks))).2 ≠ []) :=
  ⟨⟨bind .running fill id up.blocks, ⟨.buf, 6, .write, 10, [0x11, 0x22, 0x33, 0x44, 0x11, 0x22, 0x33, 0x44, 0x11, 0x22]⟩, by decide +kernel⟩,
   ⟨bind .running copy7 id up.blocks, ⟨.unit 7, 0, .read, 10, []⟩, by decide +kernel⟩, by decide +kernel,
   ⟨busFreed (waitingForBus .active up.blocks), ⟨.unit 7, 0, .read, 10, []⟩, ⟨.chan 3, .read, 0, 10, [], some ⟨7, 32⟩⟩, by decide +kernel⟩,
   ⟨busFreed (waitingForBus .fenced up.blocks), ⟨.unit 7, 0, .read, 10, []⟩, by decide +kernel⟩, by decide +kernel⟩

theorem test_hyps_PresenceLinesAndCards :
    (up.power ≠ .heldLow ∧ (up.blocks.unit 7).line ≠ true ∧ (up.blocks.unit 7).line = false ∧ up.power = .running ∧
      (up.blocks.unit 7).presence = false) ∧
    (∃ s : State, s.power = .running ∧ (s.blocks.unit 7).presence = true ∧ (s.blocks.unit 7).waiters = [] ∧
      (s.blocks.unit 7).deactPending = false ∧ s.blocks.unitAccessed 7 = false ∧ s.pendingReset = none ∧ s.link.rxQueue = []) ∧
    (∃ s : State, s.power = .running ∧ (s.blocks.unit 7).presence = true ∧ (s.blocks.unit 7).waiters = [3] ∧ s.blocks.unitAccessed 7 = true ∧
      s.pendingReset = none ∧ s.link.rxQueue = []) :=
  ⟨by decide +kernel, ⟨on (card7 .active), by decide +kernel⟩,
   ⟨on fun b => reading .link (bind .pending wait7 id (card7 .active (fun e => { e with waiters := [3] }) b)), by decide +kernel⟩⟩

theorem test_hyps_PresenceLinesAndCards_lost :
    (∃ s : State, s.power = .running ∧ (s.blocks.unit 7).presence = true ∧ s.blocks.unitAccessed 7 = false ∧ (s.blocks.unit 7).waiters = [3]) ∧
    (∃ (s : State) (a : Access), s.power = .running ∧ (s.blocks.unit 7).presence = true ∧ s.blocks.slotPort.inFlight = some a ∧
      a.card = some ⟨7, 40⟩ ∧ s.pendingReset = none ∧ (s.blocks.unit 7).deactPending = true) ∧
    (∃ (s : State) (a : Access), s.power = .running ∧ (s.blocks.unit 7).presence = true ∧ s.blocks.slotPort.inFlight = some a ∧
      a.card = some ⟨7, 40⟩ ∧ s.pendingReset = some .work ∧ s.blocks.bufPort.inFlight.isSome) ∧
    (∃ a : Access, lastAccess.power = .running ∧ (lastAccess.blocks.unit 7).presence = true ∧
      lastAccess.blocks.slotPort.inFlight = some a ∧ a.card = some ⟨7, 40⟩ ∧ lastAccess.pendingReset = some .work ∧
      lastAccess.blocks.bufPort.inFlight = none) :=
  ⟨⟨on fun b => bind .pending wait7 id (card7 .active (fun e => { e with waiters := [3] }) b), by decide +kernel⟩,
   ⟨on fun b => reading .link (card7 .active (fun e => { e with deactPending := true }) b), ⟨.link, .read, 0, 2, [], some ⟨7, 40⟩⟩,
    by decide +kernel⟩,
   ⟨{ lastAccess with blocks := writing (.chan 0) 0 lastAccess.blocks }, ⟨.link, .read, 0, 2, [], some ⟨7, 40⟩⟩, by decide +kernel⟩,
   ⟨⟨.link, .read, 0, 2, [], some ⟨7, 40⟩⟩, by decide +kernel⟩⟩

theorem test_hyps_RequestEdgesAndDeadlines :
    ((up.blocks.unit 7).state = .empty ∧ (up.blocks.chan 3).state ≠ .pending) ∧
    (∃ s : State, s.power = .running ∧ (s.blocks.unit 7).state = .fenced ∧ (s.blocks.unit 7).waiters = []) ∧
    (∃ s : State, s.power = .running ∧ (s.blocks.unit 7).state = .active ∧ (s.blocks.unit 7).waiters = [3] ∧
      (s.blocks.chan 3).state = .pending ∧ (s.blocks.chan 3).deadline = some 300 ∧ s.blocks.current 3 = some wait7 ∧ wait7.src = .unit 7) :=
  ⟨by decide +kernel, ⟨on (card7 .fenced), by decide +kernel⟩,
   ⟨on fun b => bind .pending wait7 (fun c => { c with deadline := some 300 }) (card7 .active (fun e => { e with waiters := [3] }) b),
    by decide +kernel⟩⟩

theorem test_hyps_BlockedPostersAndWaitingReset :
    (blockedOn .idle up.blocks).queue.records.length = 64 ∧
    (∃ b : Blocks, b.queue.records.length = 63 ∧ ((postOutbox 3 b).chan 3).outbox ≠ []) ∧
    (∃ b : Blocks, b.queue.records.length = 63 ∧ ((postOutbox 3 b).chan 3).outbox = []) ∧
    (up.power = .running ∧ up.blocks.queue.blocked = [] ∧ up.pendingReset = none) ∧
    (∃ s : State, s.power = .running ∧ s.blocks.queue.blocked ≠ [] ∧ s.blocks.queue.records.length = 63) ∧
    (∃ s : State, s.power = .running ∧ s.pendingReset = some .full ∧ s.blocks.bufPort.inFlight = none ∧ s.blocks.slotPort.inFlight = none) :=
  ⟨by decide +kernel,
   ⟨bind .blocked fill (fun c => { c with outbox := [aRecord, aRecord] }) (queued 63 up.blocks), by decide +kernel⟩,
   ⟨bind .blocked fill (fun c => { c with outbox := [aRecord] }) (queued 63 up.blocks), by decide +kernel⟩, by decide +kernel,
   ⟨on fun b => let b := blockedOn .proceed b; { b with queue := { b.queue with records := b.queue.records.drop 1 } }, by decide +kernel⟩,
   ⟨{ up with pendingReset := some .full }, by decide +kernel⟩⟩

theorem test_hyps_ColdResetSequence :
    up.power ≠ .heldLow ∧ ({ up with power := .heldLow } : State).power = .heldLow ∧ State.reset.power = .startUp 5000 ∧
      (∀ due, up.power ≠ .startUp due) ∧ (∀ a, up.blocks.bufPort.inFlight = some a → a.dir = .read) :=
  ⟨by decide, rfl, rfl, nofun, nofun⟩

theorem test_hyps_IdleStepIsClockTick :
    (up.pending = [] ∧ dueCommand up = none ∧ up.power ≠ .heldLow) ∧
    dueCommand (on fun b => { b with now := 9, slotPort := (reading .link b).slotPort }) = none ∧
    dueCommand (on fun b => { b with now := 40, slotPort := (reading .link b).slotPort }) = some .accessTimeout := by
  decide +kernel

theorem test_hyps_ProceedStepOutcomes :
    (∃ b : Blocks, b.ahead 3 = [] ∧ b.boundOpen 3 = true) ∧ (up.blocks.ahead 3 = [] ∧ up.blocks.boundOpen 3 = false) ∧
    (∃ b : Blocks, b.ahead 3 = [⟨5, fill⟩] ∧ checkStart fill b = (b, none) ∧ fill.kind ≠ .wait) ∧
    (∃ b : Blocks, b.ahead 3 = [⟨5, wait7⟩] ∧ checkStart wait7 b = (b, none) ∧ wait7.kind = .wait ∧ wait7.src = .unit 7 ∧
      (b.unit 7).latch = false) ∧
    (∃ b : Blocks, b.ahead 3 = [⟨5, wait7⟩] ∧ checkStart wait7 b = (b, none) ∧ (b.unit 7).latch = true) ∧
    (∃ b : Blocks, b.ahead 3 = [⟨5, wait7⟩] ∧ checkStart wait7 b = (b, some ⟨.unitState, 7⟩)) :=
  ⟨⟨bind .held fill (fun c => { c with cursor := none }) up.blocks, by decide +kernel⟩, by decide +kernel,
   ⟨bind .held fill id up.blocks, by decide +kernel⟩, ⟨bind .held wait7 id (card7 .active id up.blocks), by decide +kernel⟩,
   ⟨bind .held wait7 id (card7 .active (fun e => { e with latch := true }) up.blocks), by decide +kernel⟩,
   ⟨bind .held wait7 id up.blocks, by decide +kernel⟩⟩

/-- A COPY of 10 bytes from buffer memory to UNIT7. -/
def copyTo7 : Descriptor := { copy7 with src := .buf, dst := .unit 7, srcOff := 120, dstOff := 0 }

theorem test_hyps_DescriptorStartChecksInOrder :
    checkStart copy7 up.blocks = (up.blocks, some ⟨.unitState, 7⟩) ∧ checkStart copyTo7 up.blocks = (up.blocks, some ⟨.unitState, 7⟩) ∧
    (checkStart { copy7 with srcOff := 4087 } (card7 .active id up.blocks)).2 = some ⟨.windowRange, 7⟩ ∧
    (checkStart { copyTo7 with dstOff := 4087 } (card7 .active id up.blocks)).2 = some ⟨.windowRange, 7⟩ ∧
    (checkStart copyTo7 (card7 .active id (guarded 0 up.blocks))).2 = some ⟨.guard, 5⟩ ∧
    (checkStart { copy7 with dstOff := 127 } (card7 .active id (guarded 0 up.blocks))).2 = some ⟨.guard, 5⟩ ∧
    (checkStart { copyTo7 with dstOff := 4086 } (card7 .active id up.blocks)).2 = none := by
  decide +kernel

theorem test_hyps_BurstsAndPatterns :
    (copy7.kind = .copy ∧ fill.kind = .fill ∧ wait7.kind = .wait) ∧
    (fill.plan 0 []).map Plan.count = some 10 ∧ ({ fill with dstOff := 63 }.plan 0 []).map Plan.count = some 1 ∧
    ({ fill with dstOff := 63 }.plan 1 []).map Plan.data = some [0x22, 0x33, 0x44, 0x11, 0x22, 0x33, 0x44, 0x11, 0x22] := by
  decide +kernel

theorem test_hyps_RecordsAndPosting :
    (∃ b : Blocks, b.ahead 3 = [⟨5, fill⟩] ∧ fill.cont = false) ∧
    (∃ b : Blocks, (b.chan 3).outbox = [aRecord] ∧ b.queue.records.length = 63) ∧
    (∃ b : Blocks, (b.chan 3).outbox = [aRecord] ∧ b.queue.records.length = 64) ∧
    (acceptRecord aRecord (queued 47 up.blocks)).notice.summary = 0x0007 ∧
    (acceptRecord aRecord (queued 46 up.blocks)).notice.summary = 0x0003 :=
  ⟨⟨bind .running fill id up.blocks, by decide +kernel⟩,
   ⟨bind .running fill (fun c => { c with outbox := [aRecord] }) (queued 63 up.blocks), by decide +kernel⟩,
   ⟨bind .running fill (fun c => { c with outbox := [aRecord] }) (queued 64 up.blocks), by decide +kernel⟩, by decide +kernel, by decide +kernel⟩

theorem test_hyps_RecordsAndPosting_continue (hold : Bool) :
    (∃ b : Blocks, b.ahead 3 = [⟨5, { fill with haltAfter := hold }⟩]) ∧
    (∃ b : Blocks, b.ahead 3 = [⟨5, { fill with cont := true }⟩] ∧ ({ fill with cont := true } : Descriptor).cont = true) ∧
    (∃ b : Blocks, (b.chan 3).outbox = [aRecord, aRecord] ∧ b.queue.records.length = 62) ∧
    (∃ b : Blocks, (b.chan 3).outbox = [aRecord, aRecord] ∧ b.queue.records.length = 63) ∧
    (∃ b : Blocks, (b.chan 3).outbox = [aRecord, aRecord] ∧ b.queue.records.length = 64) :=
  ⟨⟨bind .running { fill with haltAfter := hold } id up.blocks, by cases hold <;> decide +kernel⟩,
   ⟨bind .running { fill with cont := true } id up.blocks, by decide +kernel⟩,
   ⟨bind .running fill (fun c => { c with outbox := [aRecord, aRecord] }) (queued 62 up.blocks), by decide +kernel⟩,
   ⟨bind .running fill (fun c => { c with outbox := [aRecord, aRecord] }) (queued 63 up.blocks), by decide +kernel⟩,
   ⟨bind .running fill (fun c => { c with outbox := [aRecord, aRecord] }) (queued 64 up.blocks), by decide +kernel⟩⟩

theorem test_hyps_AccessEndAtChannel (hold stop : Bool) : ∃ b : Blocks, b.current 3 = some fill ∧ (b.chan 3).holdRequested = hold ∧
    (b.chan 3).stopRequested = stop ∧ (b.chan 3).bytesDone = 0 :=
  ⟨bind .running fill (fun c => { c with holdRequested := hold, stopRequested := stop }) up.blocks, by
    cases hold <;> cases stop <;> decide +kernel⟩

theorem test_hyps_AccessEndAtChannel_full : (countAccess .fill ⟨.chan 3, .write, 6, 10, [], none⟩ [] {}).bytesDone = fill.length.toNat ∧
    (countAccess .fill ⟨.chan 3, .write, 6, 9, [], none⟩ [] {}).bytesDone ≠ fill.length.toNat := by decide +kernel

theorem test_hyps_RaiseEntersSummaryAndBuildsNotice :
    ((0x0001 : SourceSet) &&& 1#16 <<< (Source.link).bit = 0 ∧ up.blocks.notice.mask &&& 1#16 <<< (Source.link).bit ≠ 0) ∧
    up.blocks.notice.sender = .quiet ∧
    (∃ (b : Blocks) (n : NoticeInFlight), b.notice.sender = .awaiting n ∧ b.notice.mask &&& 1#16 <<< (Source.reset).bit ≠ 0) ∧
    (∃ b : Blocks, b.notice.sender = .muted ∧ b.notice.mask &&& 1#16 <<< (Source.fault 3).bit ≠ 0) :=
  ⟨by decide +kernel, by decide +kernel, ⟨awaiting .waiting 1 up.blocks, ⟨1, 0, aFrame, 1, .waiting⟩, by decide +kernel⟩,
   ⟨{ up.blocks with notice := { up.blocks.notice with sender := .muted } }, by decide +kernel⟩⟩

/-! ### The invariants' premises meet in a state that steps -/

/-- A command waits: the reads and writes of the invariants below start from here. -/
def waiting : State := { up with pending := [.guardFreeze 9] }

theorem test_steps : (after (step waiting) fun _ => true) = some true := by decide +kernel

theorem test_hyps_MemoryStaysCanonical : waiting.mem.wf = true ∧ Memory.wf [(5, 1), (9, 2)] = true ∧ Memory.wf [(5, 0)] = false ∧
    Memory.wf [(9, 1), (5, 2)] = false := by decide +kernel

theorem test_hyps_SlotsAreNeitherLostNorShared : SlotsOk waiting.blocks := Laws.slots_same (b := State.reset.blocks) rfl rfl Laws.slots_reset

theorem test_hyps_QueuesStayNumberedAndBounded : QueueOk waiting.blocks.queue ∧ LinkOk waiting.link :=
  ⟨⟨by decide, by decide⟩, ⟨by decide, by decide, by decide⟩⟩

theorem test_hyps_UnitTableLawKept : UnitsOk waiting ∧ WindowsApart waiting.blocks := by
  have e : ∀ u, waiting.blocks.unit u = {} := fun u => Vector.getElem_replicate _
  refine ⟨fun _ u => ?_, fun p q _ hp => ?_⟩
  · rw [e]
    refine ⟨?_, ?_, ?_, ?_, ?_, ?_, ?_, ?_⟩ <;> simp [InUse, LatchOk, Config.defaultTimeout]
  · rw [e] at hp; simp [InUse] at hp

theorem test_hyps_BoundChainLawKept : BoundOk waiting.blocks :=
  Laws.boundOk_fresh (fun _ => Vector.getElem_replicate _) (fun _ => Vector.getElem_replicate _)

theorem test_hyps_FrozenGuardTableStays : (on frozen).blocks.guards.frozen = true ∧
    (∀ baud msz presence rest, (on frozen).pending ≠ .resetNRelease baud msz presence :: rest) ∧
    (after (step (on frozen)) fun _ => true) = some true := ⟨by decide +kernel, nofun, by decide +kernel⟩

theorem test_hyps_FrameSentByteByByteIsReceived : up.power = .running ∧ settled up = true ∧ up.link.receiver = .hunt ∧
    (List.replicate 240 (0 : Byte)).length ≤ 240 := by decide +kernel

end Sys2Proof.Tests
end

section
/-! PROOFS. The slots, the bound chains and the state right after reset (chapter 1). -/

namespace Sys2Proof.Proofs

open Sys2Proof.Machine Sys2Proof.Safety Sys2Proof.Laws

/-- The release of RESET_N leaves the blocks alone, or gives the descriptor store and the channels their values of reset (R200). -/
theorem resetNRelease_store {baud msz : BitVec 2} {presence : BitVec 8} {s t : State}
    (ht : execResetNRelease baud msz presence s = .next t) :
    t.blocks = s.blocks ∨
      t.blocks.pool = State.reset.blocks.pool ∧ t.blocks.chains = State.reset.blocks.chains ∧
        t.blocks.chans = State.reset.blocks.chans := by
  unfold execResetNRelease at ht
  split at ht <;> injection ht with ht <;> subst ht
  · exact .inr ⟨rfl, rfl, rfl⟩
  · exact .inl rfl

/-- Settles O55: `slots_basic` says it of every block operation, `Basic.closed` of every command but those of RESET_N. -/
theorem slotsAreNeitherLostNorShared : Obligations.SlotsAreNeitherLostNorShared := by
  intro s t hs ht
  refine slots_basic.closed.step hs (slots_same (b := s.blocks) rfl rfl hs) (fun s' t' _ _ _ e hr => ?_) ht
  rcases resetNRelease_store hr with he | ⟨hp, hc, _⟩
  · rw [he, e]
    exact hs
  · exact slots_same hp hc slots_reset

theorem boundOk_reset : BoundOk State.reset.blocks :=
  boundOk_fresh (fun _ => Vector.getElem_replicate _) (fun _ => Vector.getElem_replicate _)

/-- Settles O58: `boundOk_closed` says it of every block operation, so of every command but those of RESET_N. -/
theorem boundChainLawKept : Obligations.BoundChainLawKept := by
  intro s t hs ht
  refine boundOk_closed.step hs (hs.same (Same.of rfl rfl)) (fun s' t' _ _ _ e hr => ?_) ht
  rcases resetNRelease_store hr with he | ⟨_, hc, hn⟩
  · rw [he, e]
    exact hs
  · exact boundOk_reset.same (Same.of hc hn)

theorem unit_reset (u : UnitId) : State.reset.blocks.unit u = {} := Vector.getElem_replicate _

/-- A slot with no card is not in use. -/
theorem not_inUse_default : ¬ InUse {} := by simp [InUse]

/-- The entry of a slot with no card is lawful (R143). -/
theorem unitOk_default : UnitOk {} where
  seated := by simp
  enable := by simp [InUse]
  configured := fun h => absurd h not_inUse_default
  unconfigured := fun _ => rfl
  window := nofun
  timeout := by decide
  latch := nofun
  deactivation := nofun

/-- Settles O53: each invariant at the default values of the fields. -/
theorem invariantsHoldAtReset : Obligations.InvariantsHoldAtReset := by
  refine ⟨rfl, slots_reset, ⟨by decide, rfl⟩, ⟨by decide, by decide, List.nodup_nil⟩, fun _ u => ?_, fun u v _ hu => ?_, boundOk_reset⟩
  · rw [unit_reset]
    exact unitOk_default
  · rw [unit_reset] at hu
    exact absurd hu not_inUse_default

end Sys2Proof.Proofs
end

section
/-! PROOFS. What a WORK or FULL reset leaves in every block (R24, R58, R100, R143, R153, R165, R166, R183, R196). -/

namespace Sys2Proof.Proofs

open Sys2Proof.Machine Sys2Proof.Safety Sys2Proof.Laws

/-! ### The notice that FULL abandons (R166, R180) -/

theorem notice_dropNotice (b : Blocks) : (dropNotice b).notice = { b.notice with sender := .quiet } := by
  unfold dropNotice
  split <;> rfl

theorem noticeSlot_dropNotice_waiting {b : Blocks} {f : NoticeInFlight} (hs : b.notice.sender = .awaiting f)
    (hf : f.phase = .waiting) : (dropNotice b).noticeSlot = none := by
  simp [dropNotice, hs, hf]

theorem noticeSlot_dropNotice_begun {b : Blocks} (h : ∀ f, b.notice.sender = .awaiting f → f.phase ≠ .waiting) :
    (dropNotice b).noticeSlot = b.noticeSlot := by
  unfold dropNotice
  split
  · rename_i f hs
    simp [h f hs]
  · rfl

/-! ### The blocks after a reset -/

theorem notice_resetBlocks (x : Scope) (b : Blocks) : (resetBlocks x b).notice = (resetNotice x b).notice := rfl

/-- The notice unit's reset touches no other field. -/
theorem resetNotice_eq (x : Scope) (b : Blocks) :
    resetNotice x b = { b with notice := (resetNotice x b).notice, noticeSlot := (resetNotice x b).noticeSlot } := by
  cases x with
  | work => rfl
  | full =>
    unfold resetNotice dropNotice
    dsimp only
    split <;> rfl

/-- What no reset changes: the clock, the buffer memory size and the link agent. -/
theorem resetBlocks_rest (x : Scope) (b : Blocks) :
    (resetBlocks x b).now = b.now ∧ (resetBlocks x b).mszCode = b.mszCode ∧ (resetBlocks x b).agent = b.agent := by
  unfold resetBlocks
  rw [resetNotice_eq]
  exact ⟨rfl, rfl, rfl⟩

/-- Every slot is in the pool again (R24). -/
theorem pool_resetBlocks (x : Scope) (b : Blocks) : (resetBlocks x b).pool = List.range 512 := by
  simp only [resetBlocks, Config.slotCount]

/-- WORK takes the work sources out of the summary and of the later set (R165). -/
theorem notice_resetBlocks_work (b : Blocks) :
    (resetBlocks .work b).notice = { b.notice with
      summary := b.notice.summary &&& 0xFE01
      sender := match b.notice.sender with
        | .awaiting f => .awaiting { f with later := f.later &&& 0xFE01 }
        | y => y } := by
  have hw : ~~~workSources = 0xFE01 := by decide
  rcases hs : b.notice.sender <;> simp only [notice_resetBlocks, resetNotice, workNotice, hw, hs]

/-- FULL leaves the tag alone (R165, R166). -/
theorem notice_resetBlocks_full (b : Blocks) :
    (resetBlocks .full b).notice = { summary := 0, mask := 0x0FFF, sender := .quiet, tag := b.notice.tag } := by
  rw [notice_resetBlocks]
  unfold resetNotice
  dsimp only
  rw [notice_dropNotice]

/-- FULL clears the guard entries unless they are frozen, and the hit counts always (R153). -/
theorem resetGuards_full (g : GuardUnit) :
    (resetGuards .full g).frozen = g.frozen ∧ (resetGuards .full g).hits = Vector.replicate 8 0 ∧
      (resetGuards .full g).entries = if g.frozen then g.entries else Vector.replicate 8 none := by
  cases hf : g.frozen <;> simp [resetGuards, hf]

/-- What either reset does to a unit entry (R143). -/
theorem resetUnit_shared (x : Scope) (e : UnitEntry) :
    (resetUnit x e).presence = e.presence ∧ (resetUnit x e).latch = false ∧ (resetUnit x e).waiters = [] ∧
      (resetUnit x e).deactPending = false ∧ (resetUnit x e).line = e.line ∧ (resetUnit x e).debounceDue = e.debounceDue := by
  cases x <;> exact ⟨rfl, rfl, rfl, rfl, rfl, rfl⟩

/-- Settles O7, block by block. -/
theorem workAndFullResetValues : Obligations.WorkAndFullResetValues := by
  intro s x b t b'
  obtain ⟨hnow, hmsz, hagent⟩ := resetBlocks_rest x b
  have hunits : ∀ u, b'.unit u = resetUnit x (b.unit u) := unit_resetBlocks x b
  refine ⟨rfl, rfl, rfl, rfl, rfl, ?link, rfl, chain_resetBlocks x b, pool_resetBlocks x b, chan_resetBlocks x b, ?records,
    ?blocked, ?nextSeq, rfl, rfl, fun u => ?unit, ?guards, ?notice, ?cause, hmsz, hnow, hagent⟩
  case unit =>
    rw [hunits u]
    obtain ⟨hp, hl, hw, hd, hline, hdue⟩ := resetUnit_shared x (b.unit u)
    refine ⟨hp, hl, hw, hd, hline, hdue, ?_⟩
    cases x <;> exact ⟨rfl, rfl, rfl, rfl⟩
  case guards =>
    cases x with
    | work => rfl
    | full => exact resetGuards_full b.guards
  case notice =>
    cases x with
    | work => exact ⟨rfl, notice_resetBlocks_work b⟩
    | full =>
      exact ⟨notice_resetBlocks_full b, fun f => noticeSlot_dropNotice_waiting, noticeSlot_dropNotice_begun⟩
  all_goals cases x <;> rfl

end Sys2Proof.Proofs
end

section
/-! PROOFS. The requests of the descriptor store: CHAIN QUERY and SLOT READ, CHAIN CLOSE and CHAIN DROP (R20 to R23). -/

namespace Sys2Proof.Proofs

open Sys2Proof.Machine Sys2Proof.Safety Sys2Proof.Laws

/-! ### A ready part -/

theorem handover_of_taken {s : State} {r : RxFrame} (h : taken s r = true) : s.blocks.handover = none :=
  ((ready_iff s).1 (taken_iff.1 h).1).handover

theorem agent_of_taken {s : State} {r : RxFrame} (h : taken s r = true) : s.blocks.agent = none :=
  ((ready_iff s).1 (taken_iff.1 h).1).agent

/-! ### Handles in a request (R11) -/

/-- A handle out of range or FREE names no chain. -/
theorem validHandle_byte_ge {b : Blocks} {x : Byte} {l : List Byte} (h : 32 ≤ x.toNat) :
    validHandle b (fieldAt (x :: l) 0 1) = none := by
  rw [fieldAt_zero_byte]
  exact validHandle_ge h

theorem validHandle_byte_free {b : Blocks} {x : Byte} {l : List Byte} {h : Handle} (e : x.toNat = h.val)
    (hf : (b.chain h).state = .free) : validHandle b (fieldAt (x :: l) 0 1) = none := by
  rw [fieldAt_zero_byte, validHandle_val e, if_pos hf]

theorem validHandle_byte {b : Blocks} {x : Byte} {l : List Byte} {h : Handle} (e : x.toNat = h.val)
    (hf : (b.chain h).state ≠ .free) : validHandle b (fieldAt (x :: l) 0 1) = some h := by
  rw [fieldAt_zero_byte, validHandle_val e, if_neg hf]

/-! ### CHAIN QUERY (R22) -/

theorem requestChainQuery_ge {b : Blocks} {x : Byte} {l : List Byte} (h : 32 ≤ x.toNat) :
    requestChainQuery (x :: l) b = (b, .now [Result.badHandle.code]) := by
  unfold requestChainQuery
  rw [fieldAt_zero_byte, indexOf_ge h]

/-- A field that may be absent, as the statements write it out (R201). -/
theorem optBytes_two (o : Option Nat) : optBytes 2 o = match o with | some n => beBytes 2 n | none => [0xFF, 0xFF] := by
  cases o <;> rfl

theorem optBytes_chan (o : Option ChanId) :
    optBytes 1 (o.map Fin.val) = [match o with | some c => byteOf c.val | none => 0xFF] := by
  cases o with
  | none => rfl
  | some c => simp [optBytes, beBytes, byteOf]

theorem requestChainQuery_val {b : Blocks} {x : Byte} {h : Handle} (e : x.toNat = h.val) (start : BitVec 16) :
    requestChainQuery (x :: beBytes 2 start.toNat) b =
      (b, .now
        (let slots := (b.chain h).members.map Member.slot
         let listed := (slots.drop start.toNat).take 100
         [0x00, x, (b.chain h).state.code, flagByte (b.chain h).isOpen] ++ beBytes 2 slots.length
           ++ (match slots.head? with | some n => beBytes 2 n | none => [0xFF, 0xFF])
           ++ (match slots.getLast? with | some n => beBytes 2 n | none => [0xFF, 0xFF])
           ++ [match (b.chain h).boundTo with | some c => byteOf c.val | none => 0xFF]
           ++ [byteOf listed.length] ++ listed.flatMap (beBytes 2))) := by
  have hx : byteOf h.val = x := by rw [← e, byteOf_toNat]
  have hs : fieldAt (x :: beBytes 2 start.toNat) 1 2 = start.toNat := by
    rw [show 1 = 0 + 1 from rfl, fieldAt_cons, fieldAt_whole start.isLt]
  unfold requestChainQuery
  rw [fieldAt_zero_byte, e, indexOf_val, hs]
  simp only [hx, optBytes_two, optBytes_chan]
  rfl

/-! ### SLOT READ (R23) -/

theorem slotField (slot : BitVec 16) : fieldAt (beBytes 2 slot.toNat) 0 2 = slot.toNat := fieldAt_whole slot.isLt

/-- No chain holds a slot that is a member of none. -/
theorem holderOf_none {b : Blocks} {n : Nat} (h : ∀ k, ∀ m ∈ (b.chain k).members, m.slot ≠ n) : holderOf b n = none :=
  find_finRange_none fun k => by simpa using h k

/-- The holder is the lowest chain that has the slot among its members. -/
theorem holderOf_some {b : Blocks} {n : Nat} {h : Handle} (hm : ∃ m ∈ (b.chain h).members, m.slot = n)
    (hl : ∀ k, k < h → ∀ m ∈ (b.chain k).members, m.slot ≠ n) : holderOf b n = some h :=
  find_finRange (by simpa using hm) fun k hk => by simpa using hl k hk

theorem requestSlotRead_ge {slot : BitVec 16} (b : Blocks) (h : 512 ≤ slot.toNat) :
    requestSlotRead (beBytes 2 slot.toNat) b = (b, .now (badField 0xFF)) := by
  unfold requestSlotRead
  rw [slotField]
  exact if_pos h

theorem requestSlotRead_pool {slot : BitVec 16} {b : Blocks} (hlt : slot.toNat < 512) (h : holderOf b slot.toNat = none) :
    requestSlotRead (beBytes 2 slot.toNat) b = (b, .now [0x00, 0x00, 0xFF, 0xFF, 0xFF]) := by
  have hn : ¬ Config.slotCount ≤ slot.toNat := Nat.not_le.2 hlt
  unfold requestSlotRead
  rw [slotField]
  dsimp only
  rw [if_neg hn, h]
  rfl

/-- The member that a list has at a slot, when no member before it has that slot. -/
theorem find_member {before after : List Member} {m : Member} (hb : ∀ x ∈ before, x.slot ≠ m.slot) :
    (before ++ m :: after).findIdx (fun x => x.slot == m.slot) = before.length ∧
      (before ++ m :: after).find? (fun x => x.slot == m.slot) = some m := by
  induction before with
  | nil => simp [List.findIdx_cons]
  | cons y before ih =>
    obtain ⟨hidx, hfind⟩ := ih fun x hx => hb x (List.mem_cons_of_mem _ hx)
    have hy : (y.slot == m.slot) = false := by simpa using hb y List.mem_cons_self
    simp [List.findIdx_cons, hy, hidx, hfind]

theorem requestSlotRead_member {slot : BitVec 16} {b : Blocks} {h : Handle} {before after : List Member} {m : Member}
    (hlt : slot.toNat < 512) (hh : holderOf b slot.toNat = some h) (hm : (b.chain h).members = before ++ m :: after)
    (hs : m.slot = slot.toNat) (hb : ∀ x ∈ before, x.slot ≠ slot.toNat) :
    requestSlotRead (beBytes 2 slot.toNat) b =
      (b, .now ([0x00, 0x01, byteOf h.val] ++ beBytes 2 before.length ++ DescForm.bytes m.desc.form)) := by
  have hn : ¬ Config.slotCount ≤ slot.toNat := Nat.not_le.2 hlt
  rw [← hs] at hb
  obtain ⟨hidx, hfind⟩ := find_member (after := after) hb
  unfold requestSlotRead
  rw [slotField]
  dsimp only
  rw [if_neg hn, hh]
  dsimp only
  rw [hm, ← hs, hidx, hfind]
  rfl

/-- Settles O13: each reply is the one of the request's case. -/
theorem chainQueryAndSlotReadReply : Obligations.ChainQueryAndSlotReadReply := by
  intro tag s
  refine ⟨fun handle start hk => ⟨fun hge => ?badHandle, fun h e => ?query⟩,
    fun slot hk => ⟨fun hge => ?badSlot, fun hlt hno => ?inPool, fun h before after m hlt hm hs hb hl => ?inChain⟩⟩
  case badHandle => exact request_unchanged hk rfl (congrArg (onBlocks _) (requestChainQuery_ge hge))
  case query => exact request_unchanged hk rfl (congrArg (onBlocks _) (requestChainQuery_val e start))
  case badSlot => exact request_unchanged hk rfl (congrArg (onBlocks _) (requestSlotRead_ge s.blocks hge))
  case inPool => exact request_unchanged hk rfl (congrArg (onBlocks _) (requestSlotRead_pool hlt (holderOf_none hno)))
  case inChain =>
    have hh : holderOf s.blocks slot.toNat = some h := holderOf_some ⟨m, by simp [hm], hs⟩ hl
    refine request_unchanged hk rfl (congrArg (onBlocks _) ((requestSlotRead_member hlt hh hm hs hb).trans ?_))
    simp [DescForm.bytes, Descriptor.form]

/-! ### CHAIN CLOSE (R20) -/

/-- The blocks with a chain's open flag cleared (R20). -/
def closeChain (h : Handle) (b : Blocks) : Blocks := b.updChain h fun x => { x with isOpen := false }

theorem boundTo_closeChain (h : Handle) (b : Blocks) : ((closeChain h b).chain h).boundTo = (b.chain h).boundTo := by
  simp [closeChain]

/-- A STARVED channel takes the proceed step once its chain is closed, and no other does (R35). -/
theorem endStarved_starved {h : Handle} {b : Blocks} {c : ChanId} (hc : (b.chain h).boundTo = some c)
    (hs : (b.chan c).state = .starved) : endStarved h b = settle (proceed c b) := by
  unfold endStarved
  rw [hc]
  exact if_pos hs

theorem endStarved_same {h : Handle} {b : Blocks} (hn : ∀ c, (b.chain h).boundTo = some c → (b.chan c).state ≠ .starved) :
    endStarved h b = b := by
  unfold endStarved
  split
  · rfl
  · rename_i c hc
    exact if_neg (hn c hc)

theorem requestChainClose_invalid {payload : List Byte} {b : Blocks} (h : validHandle b (fieldAt payload 0 1) = none) :
    requestChainClose payload b = (b, .now [Result.badHandle.code]) := by
  unfold requestChainClose
  rw [h]

theorem requestChainClose_valid {payload : List Byte} {b : Blocks} {h : Handle}
    (hv : validHandle b (fieldAt payload 0 1) = some h) :
    requestChainClose payload b =
      (endStarved h (closeChain h b), .now (chainRefusal .ok ((endStarved h (closeChain h b)).chain h))) := by
  unfold requestChainClose
  rw [hv]
  rfl

/-! ### CHAIN DROP (R21) -/

theorem requestChainDrop_invalid {payload : List Byte} {b : Blocks} (h : validHandle b (fieldAt payload 0 1) = none) :
    requestChainDrop payload b = (b, .now [Result.badHandle.code]) := by
  unfold requestChainDrop
  rw [h]

theorem requestChainDrop_bound {payload : List Byte} {b : Blocks} {h : Handle}
    (hv : validHandle b (fieldAt payload 0 1) = some h) (hb : (b.chain h).state = .bound) :
    requestChainDrop payload b = (b, .now (chainRefusal .chainBusy (b.chain h))) := by
  unfold requestChainDrop
  rw [hv]
  exact if_pos hb

theorem requestChainDrop_unbound {payload : List Byte} {b : Blocks} {h : Handle}
    (hv : validHandle b (fieldAt payload 0 1) = some h) (hb : (b.chain h).state ≠ .bound) :
    requestChainDrop payload b =
      (dropChain h b, .now (0x00 :: (beBytes 2 (b.chain h).members.length
        ++ beBytes 2 (b.pool.length + (b.chain h).members.length)))) := by
  have hp : (dropChain h b).pool.length = b.pool.length + (b.chain h).members.length := by simp [dropChain]
  unfold requestChainDrop
  rw [hv]
  dsimp only
  rw [if_neg hb, poolBytes, hp]
  rfl

/-- Settles O12: CHAIN CLOSE, then CHAIN DROP, by the handle and the state of the chain. -/
theorem chainCloseAndDrop : Obligations.ChainCloseAndDrop := by
  intro tag handle s
  refine ⟨fun hk => ⟨fun hge => ?closeOut, fun h e => ⟨fun hf => ?closeFree, fun hf hn => ?closePlain, fun c hf hc hs => ?closeWakes⟩⟩,
    fun hk => ⟨fun hge => ?dropOut, fun h e => ⟨fun hf => ?dropFree, fun hb => ?dropBound, fun hu => ?dropUnbound⟩⟩⟩
  case closeOut => exact request_unchanged hk rfl (congrArg (onBlocks _) (requestChainClose_invalid (validHandle_byte_ge hge)))
  case closeFree => exact request_unchanged hk rfl (congrArg (onBlocks _) (requestChainClose_invalid (validHandle_byte_free e hf)))
  case closePlain =>
    have hw : endStarved h (closeChain h s.blocks) = closeChain h s.blocks :=
      endStarved_same fun c hc => hn c ((boundTo_closeChain h s.blocks).symm.trans hc)
    have hv := requestChainClose_valid (validHandle_byte e hf (l := []))
    rw [hw] at hv
    exact request_answered hk rfl (handover_of_taken hk) (congrArg (onBlocks _) hv)
  case closeWakes =>
    have hw : endStarved h (closeChain h s.blocks) = settle (proceed c (closeChain h s.blocks)) :=
      endStarved_starved ((boundTo_closeChain h s.blocks).trans hc) hs
    have hv := requestChainClose_valid (validHandle_byte e hf (l := []))
    rw [hw] at hv
    have ha : (settle (proceed c (closeChain h s.blocks))).handover = none :=
      (handover_settleProceed c (b := closeChain h s.blocks) (agent_of_taken hk)).trans (handover_of_taken hk)
    exact request_answered hk rfl ha (congrArg (onBlocks _) hv)
  case dropOut => exact request_unchanged hk rfl (congrArg (onBlocks _) (requestChainDrop_invalid (validHandle_byte_ge hge)))
  case dropFree => exact request_unchanged hk rfl (congrArg (onBlocks _) (requestChainDrop_invalid (validHandle_byte_free e hf)))
  case dropBound =>
    have hv : validHandle s.blocks (fieldAt [handle] 0 1) = some h := validHandle_byte e (by rw [hb]; decide)
    refine request_unchanged hk rfl (congrArg (onBlocks _) ((requestChainDrop_bound hv hb).trans ?_))
    unfold chainRefusal
    rw [hb]
    rfl
  case dropUnbound =>
    have hf : (s.blocks.chain h).state ≠ .free := by rcases hu with hu | hu <;> rw [hu] <;> decide
    have hb : (s.blocks.chain h).state ≠ .bound := by rcases hu with hu | hu <;> rw [hu] <;> decide
    exact request_answered hk rfl (handover_of_taken hk) (congrArg (onBlocks _) (requestChainDrop_unbound (validHandle_byte e hf) hb))

end Sys2Proof.Proofs
end

section
/-! PROOFS. CHAIN NEW and CHAIN APPEND: static validation, the checks in order, the chain built and the chain extended (R5 to R10, R15 to
R19). -/

namespace Sys2Proof.Proofs

open Sys2Proof.Machine Sys2Proof.Safety Sys2Proof.Laws

/-! ### Static validation (R5 to R10) -/

/-- The flags byte of a record, as the statement spells it (R204). -/
theorem flags_eq (d : Descriptor) :
    d.flags = BitVec.ofNat 8 ((if d.record then 1 else 0) + (if d.haltAfter then 2 else 0) + (if d.cont then 4 else 0)) := by
  unfold Descriptor.flags
  cases d.record <;> cases d.haltAfter <;> cases d.cont <;> rfl

/-- Static validation accepts an entry as a record exactly when the entry is the record's form and the checks of its kind hold. -/
theorem validate_iff_form (size : Nat) (f : DescForm) (d : Descriptor) :
    validate size f = some d ↔ f = d.form ∧ entryOk size d.form d.kind d.src d.dst = true := by
  have hform : f = d.form ↔ f.kind = d.kind.code ∧ f.src = d.src.code ∧ f.dst = d.dst.code ∧ f.srcOff = d.srcOff ∧
      f.dstOff = d.dstOff ∧ f.length = d.length ∧ f.operand = d.operand ∧ f.flags.toNat < 8 ∧ f.flags.getLsbD 0 = d.record ∧
      f.flags.getLsbD 1 = d.haltAfter ∧ f.flags.getLsbD 2 = d.cont := by
    rw [flagByte_iff, ← flags_eq]
    obtain ⟨k, fl, src, dst, so, dof, len, op⟩ := f
    simp only [Descriptor.form, DescForm.mk.injEq]
    tauto
  rw [validate_iff, ← hform]
  exact and_congr_right fun e => by rw [e]

/-- The zero forms of a record with no source and of one with no destination (R6). -/
theorem noSource_form (d : Descriptor) : DescForm.noSource d.form = true ↔ d.src = .buf ∧ d.srcOff = 0 := by
  change (d.src.code == 0 && d.srcOff == 0) = true ↔ _
  rw [Bool.and_eq_true, beq_iff_eq, beq_iff_eq, spaceCode_zero_iff]

theorem noDest_form (d : Descriptor) : DescForm.noDest d.form = true ↔ d.dst = .buf ∧ d.dstOff = 0 := by
  change (d.dst.code == 0 && d.dstOff == 0) = true ↔ _
  rw [Bool.and_eq_true, beq_iff_eq, beq_iff_eq, spaceCode_zero_iff]

/-- A space other than the buffer is a unit's. -/
theorem space_ne_buf_iff (p : Space) : p ≠ .buf ↔ ∃ u, p = .unit u := by
  cases p <;> simp

/-- The length range of COPY, FILL and CHECK (R7). -/
def LengthInRange (d : Descriptor) : Prop := 1 ≤ d.length.toNat ∧ d.length.toNat ≤ 16777216

/-- The ranges of a COPY share a byte (R9). -/
def ShareByte (d : Descriptor) : Prop :=
  ∃ x, d.srcOff.toNat ≤ x ∧ x < d.srcOff.toNat + d.length.toNat ∧ d.dstOff.toNat ≤ x ∧ x < d.dstOff.toNat + d.length.toNat

/-- The source range of a record stays within its space (R8). -/
def SourceFits (size : Nat) (d : Descriptor) : Prop := rangeFits size d.src d.srcOff.toNat d.length.toNat = true

/-- The destination range of a record stays within its space (R8). -/
def DestFits (size : Nat) (d : Descriptor) : Prop := rangeFits size d.dst d.dstOff.toNat d.length.toNat = true

/-! What the checks of each kind ask of the record spelled (R6 to R9). -/

theorem entryOk_copy (size : Nat) (d : Descriptor) :
    entryOk size d.form .copy d.src d.dst = true ↔
      LengthInRange d ∧ d.operand = 0 ∧ SourceFits size d ∧ DestFits size d ∧ ¬ (d.src = .buf ∧ d.dst = .buf ∧ ShareByte d) := by
  have meets : LengthInRange d → (rangesMeet d.srcOff.toNat d.dstOff.toNat d.length.toNat = true ↔ ShareByte d) :=
    fun h => rangesMeet_iff _ _ _ h.1
  simp only [entryOk, Bool.and_eq_true, decide_eq_true_eq, beq_iff_eq, Bool.not_eq_true', Bool.eq_false_iff, ne_eq]
  simp only [Descriptor.form, LengthInRange, SourceFits, DestFits, Config.maxLength] at meets ⊢
  tauto

theorem entryOk_fill (size : Nat) (d : Descriptor) :
    entryOk size d.form .fill d.src d.dst = true ↔ (d.src = .buf ∧ d.srcOff = 0) ∧ LengthInRange d ∧ DestFits size d := by
  simp only [entryOk, noSource_form, Bool.and_eq_true, decide_eq_true_eq]
  simp only [Descriptor.form, LengthInRange, DestFits, Config.maxLength, and_assoc]

theorem entryOk_check (size : Nat) (d : Descriptor) :
    entryOk size d.form .check d.src d.dst = true ↔ (d.dst = .buf ∧ d.dstOff = 0) ∧ LengthInRange d ∧ SourceFits size d := by
  simp only [entryOk, noDest_form, Bool.and_eq_true, decide_eq_true_eq]
  simp only [Descriptor.form, LengthInRange, SourceFits, Config.maxLength, and_assoc]

theorem entryOk_mark (size : Nat) (d : Descriptor) :
    entryOk size d.form .mark d.src d.dst = true ↔
      (d.src = .buf ∧ d.srcOff = 0) ∧ d.length.toNat = 4 ∧ DestFits size d ∧ d.dstOff.toNat % 4 = 0 := by
  simp only [entryOk, noSource_form, Bool.and_eq_true, beq_iff_eq, and_assoc]
  rfl

theorem entryOk_wait (size : Nat) (d : Descriptor) :
    entryOk size d.form .wait d.src d.dst = true ↔
      (d.dst = .buf ∧ d.dstOff = 0) ∧ (∃ u, d.src = .unit u) ∧ d.srcOff = 0 ∧ d.length.toNat = 0 ∧ d.operand.toNat ≤ 16777215 := by
  rw [← space_ne_buf_iff]
  simp only [entryOk, noDest_form, Bool.and_eq_true, decide_eq_true_eq, beq_iff_eq, bne_iff_ne]
  simp only [Descriptor.form, Config.maxWaitOperand]
  tauto

/-- The statement's spelling of a record is its form. -/
theorem form_spelled (d : Descriptor) :
    d.form =
      { kind := match d.kind with | .copy => 0x01 | .fill => 0x02 | .check => 0x03 | .mark => 0x04 | .wait => 0x05
        flags := BitVec.ofNat 8 ((if d.record then 1 else 0) + (if d.haltAfter then 2 else 0) + (if d.cont then 4 else 0))
        src := match d.src with | .buf => 0x00 | .unit u => BitVec.ofNat 8 (16 + u.val)
        dst := match d.dst with | .buf => 0x00 | .unit u => BitVec.ofNat 8 (16 + u.val)
        srcOff := d.srcOff, dstOff := d.dstOff, length := d.length, operand := d.operand } := by
  rw [← flags_eq]
  rfl

/-! ### CHAIN NEW (R15 to R17) -/

/-- The first byte of a chain request. -/
theorem first_formsPayload (x : Byte) (fs : List DescForm) : fieldAt (formsPayload x fs) 0 1 = x.toNat := fieldAt_zero_byte _ _

/-- The open byte and the number of entries that CHAIN NEW admits (R16). -/
def NewFieldsOk (openByte : Byte) (entries : List DescForm) : Prop := openByte = 1 ∨ openByte = 0 ∧ entries ≠ []

/-- An admitted open byte is a flag, and is set where there are no entries. -/
theorem NewFieldsOk.flag {openByte : Byte} {entries : List DescForm} (h : NewFieldsOk openByte entries) :
    flagOf? openByte.toNat = some (openByte == 1) ∧ (entries = [] && !(openByte == 1)) = false := by
  rw [flagOf_cases]
  rcases h with rfl | ⟨rfl, hne⟩
  · exact ⟨rfl, Bool.and_false _⟩
  · exact ⟨rfl, by simpa using hne⟩

theorem requestChainNew_badFields {x : Byte} {fs : List DescForm} (b : Blocks) (h : ¬ NewFieldsOk x fs) :
    requestChainNew (formsPayload x fs) b = (b, .now (badField 0xFF)) := by
  unfold requestChainNew
  rw [first_formsPayload, formsOf_formsPayload, flagOf_cases]
  by_cases h0 : x = 0
  · have hfs : fs = [] := by
      by_contra hne
      exact h (.inr ⟨h0, hne⟩)
    subst h0 hfs
    rfl
  · have h1 : x ≠ 1 := fun h1 => h (.inl h1)
    rw [if_neg h0, if_neg h1]

section Admitted

variable {x : Byte} {fs : List DescForm} {b : Blocks} {ds : List Descriptor}

theorem requestChainNew_invalid {i : Nat} (h : NewFieldsOk x fs) (hv : validateAll b.bufferSize 0 fs = .error i) :
    requestChainNew (formsPayload x fs) b = (b, .now (badField (byteOf i))) := by
  obtain ⟨hflag, hsome⟩ := h.flag
  simp only [requestChainNew, first_formsPayload, formsOf_formsPayload, hflag, hsome, hv, Bool.false_eq_true, if_false]

theorem requestChainNew_noChains (h : NewFieldsOk x fs) (hv : validateAll b.bufferSize 0 fs = .ok ds) (hl : lowestFree b = none) :
    requestChainNew (formsPayload x fs) b = (b, .now [Result.noChains.code]) := by
  obtain ⟨hflag, hsome⟩ := h.flag
  simp only [requestChainNew, first_formsPayload, formsOf_formsPayload, hflag, hsome, hv, hl, Bool.false_eq_true, if_false]

theorem requestChainNew_noSlots {k : Handle} (h : NewFieldsOk x fs) (hv : validateAll b.bufferSize 0 fs = .ok ds)
    (hl : lowestFree b = some k) (hp : b.pool.length < ds.length) :
    requestChainNew (formsPayload x fs) b = (b, .now (Result.noSlots.code :: poolBytes b)) := by
  obtain ⟨hflag, hsome⟩ := h.flag
  simp only [requestChainNew, first_formsPayload, formsOf_formsPayload, hflag, hsome, hv, hl, hp, Bool.false_eq_true, if_false,
    if_true]

theorem requestChainNew_builds {k : Handle} (h : NewFieldsOk x fs) (hv : validateAll b.bufferSize 0 fs = .ok ds)
    (hl : lowestFree b = some k) (hp : ds.length ≤ b.pool.length) :
    requestChainNew (formsPayload x fs) b =
      (buildChain k (x == 1) ds b,
        .now ([Result.ok.code, byteOf k.val, byteOf ds.length] ++ slotBytes (b.pool.take ds.length))) := by
  obtain ⟨hflag, hsome⟩ := h.flag
  simp only [requestChainNew, first_formsPayload, formsOf_formsPayload, hflag, hsome, hv, hl, Nat.not_lt.2 hp, Bool.false_eq_true,
    if_false]

end Admitted

theorem lowestFree_none {b : Blocks} (h : ∀ k, (b.chain k).state ≠ .free) : lowestFree b = none :=
  find_finRange_none fun k => beq_false_of_ne (h k)

theorem lowestFree_some {b : Blocks} {h : Handle} (hf : (b.chain h).state = .free) (hl : ∀ k, k < h → (b.chain k).state ≠ .free) :
    lowestFree b = some h :=
  find_finRange (beq_iff_eq.2 hf) fun k hk => beq_false_of_ne (hl k hk)

/-- The payload of CHAIN NEW with up to 11 entries has a length of its kind (R186). -/
theorem lengthFits_chainNew (x : Byte) {fs : List DescForm} (h : fs.length ≤ 11) :
    RequestKind.chainNew.lengthFits (formsPayload x fs).length = true := by
  rw [length_formsPayload]
  simp only [RequestKind.lengthFits, Bool.and_eq_true, beq_iff_eq, decide_eq_true_eq]
  omega

/-- Settles O10: what static validation accepts, then the cases of CHAIN NEW in the order of its checks. -/
theorem chainNewChecksThenBuilds : Obligations.ChainNewChecksThenBuilds := by
  refine ⟨fun size f d => ?record, fun size forms ds => validateAll_ok_iff size forms 0 ds, fun size forms i => ?first,
    fun tag openByte entries s hw hk => ?request⟩
  case record =>
    intro spells n moved fits noSource noDest shareByte legal
    have hs : DestFits size d ↔ fits d.dst d.dstOff := rangeFits_iff _ _ _ _
    have hd : SourceFits size d ↔ fits d.src d.srcOff := rangeFits_iff _ _ _ _
    rw [validate_iff_form]
    refine and_congr (iff_of_eq (congrArg (f = ·) (form_spelled d))) ?_
    rcases hk : d.kind <;> simp only [legal, hk]
    · rw [entryOk_copy, hs, hd]; rfl
    · rw [entryOk_fill, hs]; rfl
    · rw [entryOk_check, hd]; rfl
    · rw [entryOk_mark, hs]
    · rw [entryOk_wait]
  case first =>
    rw [validateAll_error_iff]
    simp only [Nat.zero_add, exists_eq_left']
  case request =>
    intro r go fieldsOk
    have hlen : RequestKind.chainNew.lengthFits (formsPayload openByte entries).length = true :=
      lengthFits_chainNew openByte (of_decide_eq_true hw)
    refine ⟨fun hf => ?badFields, fun i hf hv => ?invalid, fun ds hf hv hn => ?noChains,
      fun ds h hf hv hfree hlow => ⟨fun hp => ?noSlots, fun hp => ?builds⟩⟩
    case badFields => exact request_unchanged hk hlen (congrArg (onBlocks _) (requestChainNew_badFields s.blocks hf))
    case invalid => exact request_unchanged hk hlen (congrArg (onBlocks _) (requestChainNew_invalid hf hv))
    case noChains =>
      exact request_unchanged hk hlen (congrArg (onBlocks _) (requestChainNew_noChains hf hv (lowestFree_none hn)))
    case noSlots =>
      exact request_unchanged hk hlen
        (congrArg (onBlocks _) (requestChainNew_noSlots hf hv (lowestFree_some hfree hlow) hp))
    case builds =>
      exact request_answered hk hlen (handover_of_taken hk)
        (congrArg (onBlocks _) (requestChainNew_builds hf hv (lowestFree_some hfree hlow) hp))

/-! ### CHAIN APPEND (R18, R19, R35) -/

/-- The payload of CHAIN APPEND with 1 to 11 entries has a length of its kind (R186). -/
theorem lengthFits_chainAppend (x : Byte) {fs : List DescForm} (h1 : 1 ≤ fs.length) (h2 : fs.length ≤ 11) :
    RequestKind.chainAppend.lengthFits (formsPayload x fs).length = true := by
  rw [length_formsPayload]
  simp only [RequestKind.lengthFits, Bool.and_eq_true, beq_iff_eq, decide_eq_true_eq]
  omega

/-- The longer chain keeps its binding, and its members are the old ones and the new. -/
theorem chain_extendChain (h : Handle) (ds : List Descriptor) (b : Blocks) :
    (extendChain h ds b).chain h = { b.chain h with members := (b.chain h).members ++ takeSlots b ds } :=
  chain_updChain_self b h fun x => { x with members := x.members ++ takeSlots b ds }

theorem boundTo_extendChain (h : Handle) (ds : List Descriptor) (b : Blocks) :
    ((extendChain h ds b).chain h).boundTo = (b.chain h).boundTo := by
  rw [chain_extendChain]

/-- With no channel bound, or a cursor present, a longer chain changes no channel (R19). -/
theorem wakeBound_same {h : Handle} {b : Blocks} (first : Nat)
    (hn : ∀ c, (b.chain h).boundTo = some c → (b.chan c).cursor ≠ none) : wakeBound h first b = b := by
  unfold wakeBound
  split
  · rfl
  · rename_i c hc
    exact if_neg (hn c hc)

/-- The blocks with a channel's cursor set on a slot (R19). -/
def pointChannel (c : ChanId) (first : Nat) (b : Blocks) : Blocks := b.updChan c fun ch => { ch with cursor := some first }

theorem wakeBound_points {h : Handle} {b : Blocks} {c : ChanId} (first : Nat) (hc : (b.chain h).boundTo = some c)
    (hn : (b.chan c).cursor = none) (hs : (b.chan c).state ≠ .starved) : wakeBound h first b = pointChannel c first b := by
  unfold wakeBound
  rw [hc]
  dsimp only
  rw [if_pos hn, if_neg hs]
  rfl

theorem wakeBound_starved {h : Handle} {b : Blocks} {c : ChanId} (first : Nat) (hc : (b.chain h).boundTo = some c)
    (hn : (b.chan c).cursor = none) (hs : (b.chan c).state = .starved) :
    wakeBound h first b = settle (proceed c (pointChannel c first b)) := by
  unfold wakeBound
  rw [hc]
  dsimp only
  rw [if_pos hn, if_pos hs]
  rfl

theorem requestChainAppend_badHandle {payload : List Byte} {b : Blocks} (h : validHandle b (fieldAt payload 0 1) = none) :
    requestChainAppend payload b = (b, .now [Result.badHandle.code]) := by
  simp only [requestChainAppend, h]

section Valid

variable {x : Byte} {fs : List DescForm} {b : Blocks} {h : Handle} {ds : List Descriptor}

theorem requestChainAppend_closed (hv : validHandle b (fieldAt (formsPayload x fs) 0 1) = some h)
    (ho : (b.chain h).isOpen = false) :
    requestChainAppend (formsPayload x fs) b = (b, .now (chainRefusal .chainClosed (b.chain h))) := by
  simp only [requestChainAppend, hv, ho, Bool.not_false, if_true]

theorem requestChainAppend_invalid {i : Nat} (hv : validHandle b (fieldAt (formsPayload x fs) 0 1) = some h)
    (ho : (b.chain h).isOpen = true) (he : validateAll b.bufferSize 0 fs = .error i) :
    requestChainAppend (formsPayload x fs) b = (b, .now (badField (byteOf i))) := by
  simp only [requestChainAppend, formsOf_formsPayload, hv, ho, he, Bool.not_true, Bool.false_eq_true, if_false]

theorem requestChainAppend_noSlots (hv : validHandle b (fieldAt (formsPayload x fs) 0 1) = some h)
    (ho : (b.chain h).isOpen = true) (he : validateAll b.bufferSize 0 fs = .ok ds) (hp : b.pool.length < ds.length) :
    requestChainAppend (formsPayload x fs) b = (b, .now (Result.noSlots.code :: poolBytes b)) := by
  simp only [requestChainAppend, formsOf_formsPayload, hv, ho, he, hp, Bool.not_true, Bool.false_eq_true, if_false, if_true]

/-- CHAIN APPEND accepted, with the blocks that the waking of the bound channel leaves. -/
theorem requestChainAppend_extends {b' : Blocks} (hv : validHandle b (fieldAt (formsPayload x fs) 0 1) = some h)
    (ho : (b.chain h).isOpen = true) (he : validateAll b.bufferSize 0 fs = .ok ds) (hp : ds.length ≤ b.pool.length)
    (hw : wakeBound h ((b.pool.take ds.length).headD 0) (extendChain h ds b) = b') :
    requestChainAppend (formsPayload x fs) b =
      (b', .now ([Result.ok.code, byteOf h.val] ++ beBytes 2 ((b.chain h).members ++ takeSlots b ds).length ++ [byteOf ds.length]
        ++ slotBytes (b.pool.take ds.length))) := by
  simp only [requestChainAppend, formsOf_formsPayload, hv, ho, he, Nat.not_lt.2 hp, hw, chain_extendChain, Bool.not_true,
    Bool.false_eq_true, if_false]

end Valid

/-- Settles O11: the refusals in their order, then the longer chain by what its channel does. -/
theorem chainAppendChecksThenExtends : Obligations.ChainAppendChecksThenExtends := by
  intro tag handle entries s hw hk r go
  have hlen : RequestKind.chainAppend.lengthFits (formsPayload handle entries).length = true := by
    obtain ⟨h1, h2⟩ := (Bool.and_eq_true _ _).mp hw
    exact lengthFits_chainAppend handle (of_decide_eq_true h1) (of_decide_eq_true h2)
  refine ⟨fun hge => ?out, fun h e => ⟨fun hf => ?free, fun hf ho => ?shut, fun hf ho => ⟨fun i he => ?invalid,
    fun ds he => ⟨fun hp => ?noSlots, fun hp => ?longer⟩⟩⟩⟩
  case out => exact request_unchanged hk hlen (congrArg (onBlocks _) (requestChainAppend_badHandle (validHandle_byte_ge hge)))
  case free =>
    exact request_unchanged hk hlen (congrArg (onBlocks _) (requestChainAppend_badHandle (validHandle_byte_free e hf)))
  all_goals
    have hv : validHandle s.blocks (fieldAt (formsPayload handle entries) 0 1) = some h := validHandle_byte e hf
  case shut => exact request_unchanged hk hlen (congrArg (onBlocks _) (requestChainAppend_closed hv ho))
  case invalid => exact request_unchanged hk hlen (congrArg (onBlocks _) (requestChainAppend_invalid hv ho he))
  case noSlots => exact request_unchanged hk hlen (congrArg (onBlocks _) (requestChainAppend_noSlots hv ho he hp))
  case longer =>
    intro members longer slots reply pointedAt
    have hbound : (longer.chain h).boundTo = (s.blocks.chain h).boundTo := boundTo_extendChain h ds s.blocks
    have answers : ∀ b', wakeBound h (slots.headD 0) longer = b' → b'.handover = none →
        go = .next (answered s r b' s.link.tally reply) := fun b' hb hn =>
      request_answered hk hlen hn (congrArg (onBlocks _) (requestChainAppend_extends hv ho he hp hb))
    refine ⟨fun hn => ?unbound, fun c hc hcur => ?running, fun c hc hcur hs => ?points, fun c hc hcur hs => ?wakes⟩
    case unbound =>
      exact answers _ (wakeBound_same _ fun c hc => by rw [hbound, hn] at hc; cases hc) (handover_of_taken hk)
    case running =>
      refine answers _ (wakeBound_same _ fun d hd => ?_) (handover_of_taken hk)
      obtain rfl : c = d := Option.some.inj (hc.symm.trans (hbound.symm.trans hd))
      exact Option.isSome_iff_ne_none.1 hcur
    case points => exact answers _ (wakeBound_points _ (hbound.trans hc) hcur hs) (handover_of_taken hk)
    case wakes =>
      have hn : (settle (proceed c (pointedAt c))).handover = none :=
        (handover_settleProceed c (b := pointedAt c) (agent_of_taken hk)).trans (handover_of_taken hk)
      exact answers _ (wakeBound_starved _ (hbound.trans hc) hcur hs) hn

end Sys2Proof.Proofs
end

section
/-! PROOFS. The channel engine: the proceed step, completion and faults, the records and their posting, the end of an access (chapters
2 to 4). -/

namespace Sys2Proof.Proofs

open Sys2Proof.Machine Sys2Proof.Safety Sys2Proof.Laws

/-! ### Waiting on the outbox -/

/-- What waits for the outbox to drain, said of the outbox. -/
theorem ite_drained {α : Type} (b : Blocks) (c : ChanId) (x y : α) :
    (if b.drained c = true then x else y) = if (b.chan c).outbox ≠ [] then y else x := by
  simp only [drained_iff, ne_eq, ite_not]

/-- What a fault with CONTINUE goes on to once the outbox has drained. -/
theorem ite_cont_drained {α : Type} (on : Bool) (b : Blocks) (c : ChanId) (x y : α) :
    (if (on && b.drained c) = true then x else y) = if on = true ∧ (b.chan c).outbox = [] then x else y := by
  simp only [Bool.and_eq_true, drained_iff]

/-! ### The proceed step (R27, R29, R33, R75) -/

theorem proceed_of_ahead {c : ChanId} {b : Blocks} {ms : List Member} (h : b.ahead c = ms) : proceed c b = run c ms b := by
  rw [proceed, h]

/-- Past the tail an open chain starves the channel, a closed one ends the run. -/
theorem run_nil (c : ChanId) (b : Blocks) : run c [] b = if b.boundOpen c = true then enterStarved c b else endRun c b := rfl

section Descriptor

variable {c : ChanId} {m : Member} {rest : List Member} {b b1 : Blocks}

/-- A WAIT whose checks pass looks at the latch of its unit. -/
theorem run_wait {u : UnitId} (h : checkStart m.desc b = (b1, none)) (hk : m.desc.kind = .wait) (hs : m.desc.src = .unit u) :
    run c (m :: rest) b =
      if (b1.unit u).latch = true then
        let b2 := finish c m rest (if m.desc.haltAfter = true then .held else .proceed)
          (b1.updUnit u fun e => { e with latch := false })
        if b2.drained c = true then (if m.desc.haltAfter = true then enterHeld c b2 else run c rest b2) else b2
      else startWaiting c u m.desc b1 := by
  rw [run, h]
  dsimp only
  rw [hk, hs]

/-- A failing check is a fault, and with CONTINUE the proceed step goes on. -/
theorem run_fault {f : FaultInfo} (h : checkStart m.desc b = (b1, some f)) :
    run c (m :: rest) b =
      let b2 := takeFault c m rest f .proceed b1
      if (m.desc.cont && b2.drained c) = true then run c rest b2 else b2 := by
  rw [run, h]

end Descriptor

/-- Settles O47: past the tail, then the cases of descriptor start. -/
theorem proceedStepOutcomes : Obligations.ProceedStepOutcomes := by
  intro c b
  refine ⟨fun ha ho => ?starves, fun ha ho => ?ends, fun m rest b1 ha hc hk => ?moves,
    fun m rest b1 u ha hc hk hs => ⟨fun hl => ?waits, fun hl => ?latched⟩, fun m rest b1 f ha hc => ?faults⟩
  all_goals rw [proceed_of_ahead ha]
  case starves => rw [run_nil, if_pos ho]; rfl
  case ends => rw [run_nil, if_neg (ne_true_of_eq_false ho)]
  case moves => exact run_start hc hk
  case waits => rw [run_wait hc hk hs, if_neg (ne_true_of_eq_false hl)]; rfl
  case latched =>
    rw [run_wait hc hk hs, if_pos hl]
    exact ite_drained _ c _ _
  case faults =>
    rw [run_fault hc]
    exact ite_cont_drained _ _ c _ _

/-! ### Records made (R30, R34, R39, R48) -/

/-- A record made from the channel as it stands enters its outbox at the tail. -/
theorem pushRecord_eq (c : ChanId) (r : Channel → Record) (b : Blocks) :
    pushRecord c (r (b.chan c)) b = b.updChan c fun ch => { ch with outbox := ch.outbox ++ [r ch] } := rfl

/-- Whether a completion makes a DONE record (R30, R73). -/
theorem makesDone_iff (d : Descriptor) : (d.record || d.kind == .check) = true ↔ d.record = true ∨ d.kind = .check := by
  rw [Bool.or_eq_true, beq_iff_eq]

/-- The channel record after a descriptor has been left for those that follow (R30, R41). -/
def leftBehind (rest : List Member) (ch : Channel) : Channel :=
  { ch with
    cursor := rest.head?.map Member.slot
    bytesDone := 0
    started := false
    crc := none
    deadline := none
    staging := [] }

theorem moveCursor_eq (c : ChanId) (rest : List Member) (b : Blocks) : moveCursor c rest b = b.updChan c (leftBehind rest) := rfl

/-- A completion makes DONE when it is due, counts, and moves the cursor on (R30). -/
theorem finish_eq (c : ChanId) (m : Member) (rest : List Member) (k : Continuation) (b : Blocks) :
    finish c m rest k b = postOrBlock c k (b.updChan c fun ch =>
      leftBehind rest
        { ch with
          outbox := ch.outbox ++ (if m.desc.record = true ∨ m.desc.kind = .check then [doneRecord c ch m] else [])
          completed := ch.completed + 1 }) := by
  unfold finish
  dsimp only
  by_cases hd : m.desc.record = true ∨ m.desc.kind = .check
  · simp only [if_pos hd, if_pos ((makesDone_iff _).2 hd), pushRecord_eq c (doneRecord c · m), moveCursor_eq, updChan_updChan]
  · simp only [if_neg hd, if_neg (mt (makesDone_iff _).1 hd), moveCursor_eq, updChan_updChan, List.append_nil]

/-- A fault with CONTINUE makes FAULT and moves the cursor on, uncounted (R41). -/
theorem takeFault_continues {c : ChanId} {m : Member} (rest : List Member) (f : FaultInfo) (k : Continuation) (b : Blocks)
    (hc : m.desc.cont = true) :
    takeFault c m rest f k b = postOrBlock c k (b.updChan c fun ch =>
      leftBehind rest { ch with outbox := ch.outbox ++ [faultRecord c ch m f] }) := by
  rw [takeFault, if_pos hc, moveCursor_eq, pushRecord_eq c (faultRecord c · m f), updChan_updChan]

/-- A fault without CONTINUE makes FAULT, is recorded, and stops the channel on the descriptor (R40). -/
theorem takeFault_stops {c : ChanId} {m : Member} (rest : List Member) (f : FaultInfo) (k : Continuation) (b : Blocks)
    (hc : m.desc.cont = false) :
    takeFault c m rest f k b =
      let posted := postOrBlock c .faulted (b.updChan c fun ch =>
        { ch with outbox := ch.outbox ++ [faultRecord c ch m f], staging := [], fault := some f })
      if (posted.chan c).outbox ≠ [] then posted else enterFaulted c posted := by
  rw [takeFault, if_neg (ne_true_of_eq_false hc), stopOnFault, pushRecord_eq c (faultRecord c · m f), updChan_updChan]
  exact ite_drained _ c _ _

/-! ### Completion and faults (R30, R32, R39 to R42) -/

section AtCursor

variable {c : ChanId} {m : Member} {rest : List Member} {b : Blocks}

/-- After its DONE the channel goes to HELD when a HOLD waited or HALT_AFTER is set, else by the proceed step. -/
theorem complete_eq (hold : Bool) (ha : b.ahead c = m :: rest) :
    complete c hold b =
      let done := finish c m rest (if hold = true ∨ m.desc.haltAfter = true then .held else .proceed) b
      if (done.chan c).outbox ≠ [] then done
      else if hold = true ∨ m.desc.haltAfter = true then enterHeld c done else run c rest done := by
  simp only [complete, ha, ite_drained, Bool.or_eq_true]

/-- A fault reaches the cursor descriptor with the deadline and the staged bytes given up. -/
theorem fault_eq (f : FaultInfo) (hold : Bool) (ha : b.ahead c = m :: rest) :
    fault c f hold b =
      let b2 := takeFault c m rest f (if hold = true then .held else .proceed)
        (b.updChan c fun ch => { ch with deadline := none, staging := [] })
      if m.desc.cont = true ∧ (b2.chan c).outbox = [] then (if hold = true then enterHeld c b2 else run c rest b2) else b2 := by
  simp only [fault, ha, ite_cont_drained]

/-- Without CONTINUE the fault is all that happens, whether a HOLD waited or not. -/
theorem fault_stops (f : FaultInfo) (hold : Bool) (ha : b.ahead c = m :: rest) (hc : m.desc.cont = false) :
    fault c f hold b =
      let posted := postOrBlock c .faulted (b.updChan c fun ch =>
        { ch with outbox := ch.outbox ++ [faultRecord c ch m f], deadline := none, staging := [], fault := some f })
      if (posted.chan c).outbox ≠ [] then posted else enterFaulted c posted := by
  rw [fault_eq f hold ha]
  dsimp only
  rw [if_neg (fun h => Bool.false_ne_true (hc.symm.trans h.1)), takeFault_stops rest f _ _ hc, updChan_updChan]
  rfl

/-- With CONTINUE the channel goes on once its record has been posted. -/
theorem fault_continues (f : FaultInfo) (hold : Bool) (ha : b.ahead c = m :: rest) (hc : m.desc.cont = true) :
    fault c f hold b =
      let passed := postOrBlock c (if hold = true then .held else .proceed) (b.updChan c fun ch =>
        leftBehind rest { ch with outbox := ch.outbox ++ [faultRecord c ch m f] })
      if (passed.chan c).outbox ≠ [] then passed else if hold = true then enterHeld c passed else run c rest passed := by
  rw [fault_eq f hold ha]
  dsimp only
  rw [takeFault_continues rest f _ _ hc, updChan_updChan]
  simp only [hc, true_and, ne_eq, ite_not]
  rfl

end AtCursor

/-! ### Posting (R36, R89 to R91, R94, R95) -/

@[simp] theorem queue_acceptRecord (r : Record) (b : Blocks) :
    (acceptRecord r b).queue =
      { b.queue with records := b.queue.records ++ [{ r with seq := some b.queue.nextSeq }], nextSeq := b.queue.nextSeq + 1 } := by
  unfold acceptRecord
  dsimp only
  split <;> simp

theorem length_acceptRecord (r : Record) (b : Blocks) :
    (acceptRecord r b).queue.records.length = b.queue.records.length + 1 := by
  simp

/-- The accepted record makes the depth 48 exactly when it was 47. -/
theorem acceptRecord_eq (x : Record) (b : Blocks) :
    acceptRecord x b =
      let longer := raise .records { b with queue := { b.queue with
        records := b.queue.records ++ [{ x with seq := some b.queue.nextSeq }], nextSeq := b.queue.nextSeq + 1 } }
      if b.queue.records.length = 47 then raise .queueHigh longer else longer := by
  simp [acceptRecord, Blocks.depth, Config.queueHighDepth]

/-- A queue with space takes the oldest record. -/
theorem offerAll_accepts (c : ChanId) {b : Blocks} (x : Record) (xs : List Record) (h : b.queue.records.length < 64) :
    offerAll c (x :: xs) b = offerAll c xs (acceptRecord x b) := if_pos h

/-- A full queue leaves the records in the outbox. -/
theorem offerAll_full (c : ChanId) {b : Blocks} (x : Record) (xs : List Record) (h : 64 ≤ b.queue.records.length) :
    offerAll c (x :: xs) b = b.updChan c fun ch => { ch with outbox := x :: xs } := if_neg (Nat.not_lt.2 h)

/-- Into a full queue nothing is posted. -/
theorem postOutbox_full {c : ChanId} {b : Blocks} {x : Record} {xs : List Record} (ho : (b.chan c).outbox = x :: xs)
    (h : 64 ≤ b.queue.records.length) : postOutbox c b = b := by
  rw [postOutbox, ho, offerAll_full c x xs h, ← ho]
  exact updChan_same rfl

theorem postOutbox_one {c : ChanId} {b : Blocks} {x : Record} (ho : (b.chan c).outbox = [x]) (h : b.queue.records.length < 64) :
    postOutbox c b = (acceptRecord x b).updChan c fun ch => { ch with outbox := [] } := by
  rw [postOutbox, ho, offerAll_accepts c x [] h, offerAll]

/-- A lone record that enters the queue empties the outbox, so the channel does not block. -/
theorem postOrBlock_posts {c : ChanId} (k : Continuation) {b : Blocks} {x : Record} (ho : (b.chan c).outbox = [x])
    (h : b.queue.records.length < 64) :
    postOrBlock c k b = (acceptRecord x b).updChan c fun ch => { ch with outbox := [] } := by
  rw [postOrBlock, postOutbox_one ho h]
  exact if_pos ((drained_iff _ c).2 (by rw [chan_updChan_self]))

/-- A record that finds the queue full blocks the channel (R91). -/
theorem postOrBlock_blocks {c : ChanId} (k : Continuation) {b : Blocks} {x : Record} {xs : List Record}
    (ho : (b.chan c).outbox = x :: xs) (h : 64 ≤ b.queue.records.length) : postOrBlock c k b = block c k b := by
  rw [postOrBlock, postOutbox_full ho h]
  exact if_neg fun hd => List.cons_ne_nil x xs (ho.symm.trans ((drained_iff b c).1 hd))

/-! ### The end of a run (R34, R48) -/

theorem endRun_eq (c : ChanId) (b : Blocks) :
    endRun c b =
      let ended := postOrBlock c .idle (b.updChan c fun ch => { ch with outbox := ch.outbox ++ [endRecord c ch] })
      if (ended.chan c).outbox ≠ [] then ended else enterIdle c ended := by
  rw [endRun, pushRecord_eq c (endRecord c)]
  exact ite_drained _ c _ _

theorem stopRun_eq (c : ChanId) (b : Blocks) :
    stopRun c b =
      let stopped := postOrBlock c .idle (b.updChan c fun ch =>
        { ch with outbox := ch.outbox ++ [stoppedRecord c ch], staging := [], fault := none })
      if (stopped.chan c).outbox ≠ [] then stopped else enterIdle c stopped := by
  rw [stopRun]
  dsimp only
  rw [pushRecord_eq c (stoppedRecord c), updChan_updChan]
  exact ite_drained _ c _ _

/-- Settles O50, clause by clause from the equations above. -/
theorem recordsAndPosting : Obligations.RecordsAndPosting := by
  refine ⟨finish_eq, fun c m rest f hold b ha hc => fault_stops f hold ha hc, fun c m rest hold b ha => complete_eq hold ha,
    fun c m rest f b hc => ⟨fun k => takeFault_continues rest f k b hc,
      fun ha => ⟨fault_continues f false ha hc, fault_continues f true ha hc⟩⟩,
    fun c m rest f k b hc => takeFault_stops rest f k b hc,
    fun c x y b ho => ⟨fun h => ?both, fun h => ?older, postOutbox_full ho⟩,
    fun c x b ho => ⟨postOutbox_one ho, postOutbox_full ho⟩,
    fun c k x b ho => ⟨postOrBlock_posts k ho, postOrBlock_blocks k ho⟩, acceptRecord_eq, fun c b => ⟨endRun_eq c b, stopRun_eq c b⟩⟩
  case both =>
    have hx : (acceptRecord x b).queue.records.length < 64 := by rw [length_acceptRecord]; omega
    rw [postOutbox, ho, offerAll_accepts c x [y] (by omega), offerAll_accepts c y [] hx, offerAll]
  case older =>
    have hx : 64 ≤ (acceptRecord x b).queue.records.length := by rw [length_acceptRecord]; omega
    rw [postOutbox, ho, offerAll_accepts c x [y] (by omega), offerAll_full c y [] hx]

/-! ### The end of an access (R28, R42, R49, R66, R67) -/

/-- The flags that end a run or a descriptor, and what each leads to. -/
theorem endOfChannel_eq {c : ChanId} {b : Blocks} {d : Descriptor} (a : Access) (e : Ending) (hd : b.current c = some d) :
    endOfChannel c a e b =
      if (b.chan c).stopRequested = true then handChannel c (endStopped c a e d b)
      else if (b.chan c).holdRequested = true then handChannel c (endHeld c a e d b)
      else endGoing c a e d b := by
  rw [endOfChannel, hd]

/-- Settles O51: the three settings of the flags, each with a done and a failed access. -/
theorem accessEndAtChannel : Obligations.AccessEndAtChannel := by
  intro c a d b hd hands counted full
  have hcount : ∀ data, b.updChan c (countAccess d.kind a data) = counted data := fun data => updChan_congr (countAccess_eq _ _ _ _)
  refine ⟨fun hs => ?stop, fun hs hh => ?hold, fun hs hh => ?going⟩
  case stop =>
    have he : ∀ e, endOfChannel c a e b = hands (endStopped c a e d b) := fun e => by rw [endOfChannel_eq a e hd, if_pos hs]; rfl
    refine ⟨fun data => ?_, fun code u => he _⟩
    rw [he, endStopped, hcount]
  case hold =>
    have he : ∀ e, endOfChannel c a e b = hands (endHeld c a e d b) := fun e => by
      rw [endOfChannel_eq a e hd, if_neg (ne_true_of_eq_false hs), if_pos hh]; rfl
    refine ⟨fun data hf => ?_, fun data hf => ?_, fun code u => he _⟩
    all_goals rw [he, endHeld, hcount]
    · exact congrArg hands (if_pos hf)
    · exact congrArg hands (if_neg hf)
  case going =>
    have he : ∀ e, endOfChannel c a e b = endGoing c a e d b := fun e => by
      rw [endOfChannel_eq a e hd, if_neg (ne_true_of_eq_false hs), if_neg (ne_true_of_eq_false hh)]
    refine ⟨fun data hf => ?_, fun data hf => ?_, fun code u => he _⟩
    all_goals rw [he, endGoing, hcount]
    · exact if_pos hf
    · exact if_neg hf

end Sys2Proof.Proofs
end

section
/-! PROOFS. The channel requests: START, HOLD, RESUME, STOP, RETRY, SKIP, CLEAR and the queries (chapter 2; R130). -/

namespace Sys2Proof.Proofs

open Sys2Proof.Machine Sys2Proof.Safety Sys2Proof.Laws

/-! ### A channel request and its reply (R54) -/

/-- A channel number of 4 or more names no channel. -/
theorem onChannel_ge {x : Byte} {l : List Byte} (e : 4 ≤ x.toNat) (b : Blocks) (f : ChanId → Blocks × Answer) :
    onChannel (x :: l) b f = (b, .now (badField 0xFF)) := by
  unfold onChannel
  rw [fieldAt_zero_byte, indexOf_ge e]

/-- The reply spelled out from the channel's state and continuation. -/
theorem channelReply_eq (r : Result) {c : ChanId} {b : Blocks} {st : ChanState} {k : Option Continuation}
    (hs : (b.chan c).state = st) (hc : (b.chan c).continuation = k) :
    channelReply r c b = [r.code, st.code, (k.map Continuation.code).getD 0xFF] := by
  rw [channelReply, hs, hc]

theorem refuseChannel_eq (r : Result) {c : ChanId} {b : Blocks} {st : ChanState} {k : Option Continuation}
    (hs : (b.chan c).state = st) (hc : (b.chan c).continuation = k) :
    refuseChannel r c b = (b, .now [r.code, st.code, (k.map Continuation.code).getD 0xFF]) := by
  rw [refuseChannel, channelReply_eq r hs hc]

section CarriedOut

variable {s : State} {tag : Byte} {k : RequestKind} {payload : List Byte} {c : ChanId} {b : Blocks}

/-- A request carried out on a channel: the arbiters grant what they can, and the reply shows the channel at the end of the step. -/
theorem request_carriedOut (hk : taken s (requestFrame tag k payload) = true) (hl : k.lengthFits payload.length = true)
    (hb : Kept s.blocks b)
    (he : executeKind s.link.baudCode s.link.tally s.blocks payload k = onBlocks s.link.tally (answerChannel c b)) :
    arrive (frameOf tag k.code payload) s =
      .next (answered s (requestFrame tag k payload) (settle b) s.link.tally (channelReply .ok c (settle b))) :=
  request_answered hk hl
    (((hb.trans (kept_settle b)).agent (agent_of_taken hk)).2.trans (handover_of_taken hk)) he

/-- With nothing to grant the step ends with the request's own effect. -/
theorem request_carriedOut_rested {reply : List Byte} (hk : taken s (requestFrame tag k payload) = true)
    (hl : k.lengthFits payload.length = true) (hb : Kept s.blocks b) (hr : rested b = true) (hreply : channelReply .ok c b = reply)
    (he : executeKind s.link.baudCode s.link.tally s.blocks payload k = onBlocks s.link.tally (answerChannel c b)) :
    arrive (frameOf tag k.code payload) s = .next (answered s (requestFrame tag k payload) b s.link.tally reply) := by
  rw [request_carriedOut hk hl hb he, settle_rested hr, hreply]

end CarriedOut

/-- Settles O14: each of the eight requests looks its channel up first. -/
theorem channelNumberTooLarge : Obligations.ChannelNumberTooLarge := by
  intro tag channel handle s e
  refine ⟨fun hk => ?_, fun hk => ?_, fun hk => ?_, fun hk => ?_, fun hk => ?_, fun hk => ?_, fun hk => ?_, fun hk => ?_⟩
  all_goals exact request_unchanged hk rfl (congrArg (onBlocks _) (onChannel_ge e _ _))

/-! ### START (R31) -/

section Start

variable {x y : Byte} {c : ChanId} {b : Blocks}

/-- The handle of a START stands in its second byte. -/
theorem startHandle (x y : Byte) : fieldAt [x, y] 1 1 = fieldAt [y] 0 1 := fieldAt_cons x [y] 0 1

theorem requestStart_badHandle (e : x.toNat = c.val) (hv : validHandle b (fieldAt [y] 0 1) = none) :
    requestStart [x, y] b = refuseChannel .badHandle c b := by
  rw [requestStart, onChannel_val e, startHandle, hv]

theorem requestStart_channelBusy {h : Handle} (e : x.toNat = c.val) (hv : validHandle b (fieldAt [y] 0 1) = some h)
    (hs : (b.chan c).state ≠ .idle) : requestStart [x, y] b = refuseChannel .channelBusy c b := by
  rw [requestStart, onChannel_val e, startHandle, hv]
  exact if_pos hs

theorem requestStart_chainBusy {h : Handle} (e : x.toNat = c.val) (hv : validHandle b (fieldAt [y] 0 1) = some h)
    (hs : (b.chan c).state = .idle) (hb : (b.chain h).state = .bound) :
    requestStart [x, y] b = refuseChannel .chainBusy c b := by
  rw [requestStart, onChannel_val e, startHandle, hv]
  dsimp only
  rw [if_neg (not_not_intro hs), if_pos hb]

theorem requestStart_binds {h : Handle} (e : x.toNat = c.val) (hv : validHandle b (fieldAt [y] 0 1) = some h)
    (hs : (b.chan c).state = .idle) (hb : (b.chain h).state ≠ .bound) :
    requestStart [x, y] b = answerChannel c (proceed c (bindChain c h b)) := by
  rw [requestStart, onChannel_val e, startHandle, hv]
  dsimp only
  rw [if_neg (not_not_intro hs), if_neg hb]

end Start

/-- Settles O15: the refusals in their order, then the binding, after which the proceed step is taken. -/
theorem channelStartChecksThenBinds : Obligations.ChannelStartChecksThenBinds := by
  intro tag channel handle c s e hk r go state
  refine ⟨fun hge => ?out, fun h eh => ⟨fun hf => ?free, fun hf hs => ?channelBusy, fun hb hs => ?chainBusy, fun hb hs => ?binds⟩⟩
  case out => exact request_unchanged hk rfl (congrArg (onBlocks _) (requestStart_badHandle e (validHandle_byte_ge hge)))
  case free => exact request_unchanged hk rfl (congrArg (onBlocks _) (requestStart_badHandle e (validHandle_byte_free eh hf)))
  case channelBusy => exact request_unchanged hk rfl (congrArg (onBlocks _) (requestStart_channelBusy e (validHandle_byte eh hf) hs))
  case chainBusy =>
    have hf : (s.blocks.chain h).state ≠ .free := by rw [hb]; decide
    exact request_unchanged hk rfl (congrArg (onBlocks _) (requestStart_chainBusy e (validHandle_byte eh hf) hs hb))
  case binds =>
    have hf : (s.blocks.chain h).state ≠ .free := by rcases hb with hb | hb <;> rw [hb] <;> decide
    have hn : (s.blocks.chain h).state ≠ .bound := by rcases hb with hb | hb <;> rw [hb] <;> decide
    exact request_carriedOut hk rfl ((kept_bindChain c h _).trans (kept_proceed c _))
      (congrArg (onBlocks _) (requestStart_binds e (validHandle_byte eh hf) hs hn))

/-! ### HOLD (R42 to R44) -/

/-- A PENDING channel leaves the waiter list of the unit its WAIT names (R76). -/
theorem leaveWait_unit {c : ChanId} {b : Blocks} {d : Descriptor} {u : UnitId} (hd : b.current c = some d) (hs : d.src = .unit u) :
    b.leaveWait c = b.leaveWaiters u c := by
  rw [Blocks.leaveWait, hd, Option.map_some, hs]

/-- Leaving a waiter list touches no arbiter. -/
theorem rested_leaveWaiters {b : Blocks} (u : UnitId) (c : ChanId) (h : rested b = true) : rested (b.leaveWaiters u c) = true := h

section Hold

variable {x : Byte} {c : ChanId} {b : Blocks}

theorem requestHold_awaitingGrant (e : x.toNat = c.val) (hs : (b.chan c).state = .running) (hf : b.accessInFlight c = false) :
    requestHold [x] b =
      answerChannel c (enterHeld c ((b.withdrawRequest (.chan c)).updChan c fun ch => { ch with staging := [] })) := by
  simp only [requestHold, onChannel_val e, hs, hf, Bool.false_eq_true, if_false]

theorem requestHold_accessInFlight (e : x.toNat = c.val) (hs : (b.chan c).state = .running) (hf : b.accessInFlight c = true) :
    requestHold [x] b = (b.updChan c fun ch => { ch with holdRequested := true }, .deferred) := by
  simp only [requestHold, onChannel_val e, hs, hf, if_true]

theorem requestHold_pending (e : x.toNat = c.val) (hs : (b.chan c).state = .pending) :
    requestHold [x] b = answerChannel c (enterHeld c ((b.leaveWait c).updChan c fun ch => { ch with started := false })) := by
  simp only [requestHold, onChannel_val e, hs]

theorem requestHold_starved (e : x.toNat = c.val) (hs : (b.chan c).state = .starved) :
    requestHold [x] b = answerChannel c (enterHeld c b) := by
  simp only [requestHold, onChannel_val e, hs]

theorem requestHold_held (e : x.toNat = c.val) (hs : (b.chan c).state = .held) : requestHold [x] b = answerChannel c b := by
  simp only [requestHold, onChannel_val e, hs]

theorem requestHold_blocked (e : x.toNat = c.val) (hs : (b.chan c).state = .blocked)
    (hc : (b.chan c).continuation = some .proceed ∨ (b.chan c).continuation = some .held) :
    requestHold [x] b = answerChannel c (rewrite c .held b) := by
  rcases hc with hc | hc <;> simp only [requestHold, onChannel_val e, hs, hc]

theorem requestHold_blocked_refused (e : x.toNat = c.val) (hs : (b.chan c).state = .blocked)
    (hc : (b.chan c).continuation = some .faulted ∨ (b.chan c).continuation = some .idle) :
    requestHold [x] b = refuseChannel .wrongState c b := by
  rcases hc with hc | hc <;> simp only [requestHold, onChannel_val e, hs, hc]

theorem requestHold_refused (e : x.toNat = c.val) (hs : (b.chan c).state = .idle ∨ (b.chan c).state = .faulted) :
    requestHold [x] b = refuseChannel .wrongState c b := by
  rcases hs with hs | hs <;> simp only [requestHold, onChannel_val e, hs]

end Hold

/-- Settles O16, by the state the channel waits in. -/
theorem holdStopsWaitingChannel : Obligations.HoldStopsWaitingChannel := by
  intro tag channel c s e hk hr r go held
  have holds : ∀ b, Kept s.blocks b → rested b = true → requestHold [channel] s.blocks = answerChannel c (enterHeld c b) →
      go = .next (answered s r (held b) s.link.tally [0x00, 0x04, 0xFF]) := fun b hb hb' he =>
    request_carriedOut_rested hk rfl (hb.trans (kept_enterHeld c b)) (rested_enterHeld c hb') (channelReply_held c b)
      (congrArg (onBlocks _) he)
  refine ⟨fun hs h1 h2 => ?awaiting, fun hs ho => ?inFlight, fun d u hs hd hu => ?pending, fun hs => ?starved⟩
  case awaiting =>
    exact holds _ ((kept_withdrawRequest _ _).trans (kept_updChan _ _ _)) (rested_withdraw (.chan c) hr)
      (requestHold_awaitingGrant e hs (accessInFlight_false h1 h2))
  case inFlight =>
    exact request_deferring hk rfl (handover_of_taken hk)
      (congrArg (onBlocks _) (requestHold_accessInFlight e hs (accessInFlight_true ho)))
  case pending =>
    have he := requestHold_pending e hs
    rw [leaveWait_unit hd hu, Blocks.leaveWaiters, updChan_updChan] at he
    have hb : Kept s.blocks ((s.blocks.leaveWaiters u c).updChan c fun ch => { ch with started := false }) :=
      (kept_leaveWaiters _ u c).trans (kept_updChan _ _ _)
    rw [Blocks.leaveWaiters, updChan_updChan] at hb
    exact holds _ hb hr he
  case starved => exact holds _ (.refl _) hr (requestHold_starved e hs)

/-- A continuation rewritten to the one that stands changes nothing. -/
theorem rewrite_same {c : ChanId} {k : Continuation} {b : Blocks} (hc : (b.chan c).continuation = some k) : rewrite c k b = b :=
  updChan_same (by rw [← hc])

/-- The reply of a BLOCKED channel whose continuation has been rewritten. -/
theorem channelReply_rewrite {c : ChanId} (k : Continuation) {b : Blocks} (hs : (b.chan c).state = .blocked) :
    channelReply .ok c (rewrite c k b) = [0x00, 0x05, k.code] :=
  channelReply_eq .ok (st := .blocked) (k := some k) (by rw [rewrite, chan_updChan_self]; exact hs)
    (by rw [rewrite, chan_updChan_self])

/-- Settles O17: the rows of R44's table, then the continuation HELD of a drained outbox. -/
theorem holdInRemainingStates : Obligations.HoldInRemainingStates := by
  intro tag channel c s e hk hr r go
  have refuses : ∀ st k, requestHold [channel] s.blocks = refuseChannel .wrongState c s.blocks → (s.blocks.chan c).state = st →
      (s.blocks.chan c).continuation = k → go = .next (unchanged s r [0x0A, st.code, (k.map Continuation.code).getD 0xFF]) :=
    fun st k he hs hc => request_unchanged hk rfl (congrArg (onBlocks _) (he.trans (refuseChannel_eq .wrongState hs hc)))
  refine ⟨fun hs hc => ?proceeds, fun hs hc => ?holds, fun hs hc => ?faults, fun hs hc => ?ends, fun hs hc => ?held,
    fun hs hc => ?idle, fun hs hc => ?faulted, fun b hs hc => ?drained⟩
  case proceeds =>
    exact request_carriedOut_rested hk rfl (kept_updChan _ _ _) hr (channelReply_rewrite .held hs)
      (congrArg (onBlocks _) (requestHold_blocked e hs (.inl hc)))
  case holds =>
    have he := requestHold_blocked e hs (.inr hc)
    rw [rewrite_same hc] at he
    exact request_carriedOut_rested hk rfl (.refl _) hr (channelReply_eq .ok hs hc) (congrArg (onBlocks _) he)
  case faults => exact refuses .blocked (some .faulted) (requestHold_blocked_refused e hs (.inl hc)) hs hc
  case ends => exact refuses .blocked (some .idle) (requestHold_blocked_refused e hs (.inr hc)) hs hc
  case held =>
    exact request_carriedOut_rested hk rfl (.refl _) hr (channelReply_eq .ok hs hc) (congrArg (onBlocks _) (requestHold_held e hs))
  case idle => exact refuses .idle none (requestHold_refused e (.inl hs)) hs hc
  case faulted => exact refuses .faulted none (requestHold_refused e (.inr hs)) hs hc
  case drained => rw [actOnContinuation, hc]

/-! ### RESUME (R45, R46) -/

section Resume

variable {x : Byte} {c : ChanId} {b : Blocks}

theorem requestResume_moves (e : x.toNat = c.val) (hs : (b.chan c).state = .held) (hc : (b.chan c).cursor.isSome = true)
    (ht : (b.chan c).started = true) : requestResume [x] b = answerChannel c (resumeMoving c b) := by
  simp only [requestResume, onChannel_val e, hs, hc, ht, Bool.and_self, if_true]

theorem requestResume_proceeds (e : x.toNat = c.val) (hs : (b.chan c).state = .held)
    (hc : (b.chan c).cursor = none ∨ (b.chan c).started = false) : requestResume [x] b = answerChannel c (proceed c b) := by
  have hn : ((b.chan c).cursor.isSome && (b.chan c).started) = false := by
    rcases hc with hc | hc <;> rw [hc]
    · rfl
    · exact Bool.and_false _
  simp only [requestResume, onChannel_val e, hs, hn, Bool.false_eq_true, if_false]

theorem requestResume_blocked (e : x.toNat = c.val) (hs : (b.chan c).state = .blocked)
    (hc : (b.chan c).continuation = some .held) : requestResume [x] b = answerChannel c (rewrite c .proceed b) := by
  simp only [requestResume, onChannel_val e, hs, hc]

theorem requestResume_blocked_refused {k : Continuation} (e : x.toNat = c.val) (hs : (b.chan c).state = .blocked)
    (hc : (b.chan c).continuation = some k) (hk : k ≠ .held) : requestResume [x] b = refuseChannel .wrongState c b := by
  simp only [requestResume, onChannel_val e, hs, hc]
  cases k with
  | held => exact absurd rfl hk
  | proceed | faulted | idle => rfl

theorem requestResume_refused (e : x.toNat = c.val) (hb : (b.chan c).state ≠ .blocked) (hh : (b.chan c).state ≠ .held) :
    requestResume [x] b = refuseChannel .wrongState c b := by
  rw [requestResume, onChannel_val e]
  split
  · rename_i hs; exact absurd hs hh
  · rename_i hs; exact absurd hs hb
  · rfl

end Resume

/-- Settles O18: a descriptor that has been started goes on, all else takes the proceed step. -/
theorem resumeGoesOnFromPlaceHeld : Obligations.ResumeGoesOnFromPlaceHeld := by
  intro tag channel c s e hk hs r go state
  refine ⟨fun hc ht => ?moves, fun hc => ?proceeds⟩
  case moves =>
    exact request_carriedOut hk rfl ((kept_updChan _ _ _).trans (kept_request _ _))
      (congrArg (onBlocks _) (requestResume_moves e hs hc ht))
  case proceeds =>
    exact request_carriedOut hk rfl (kept_proceed c _) (congrArg (onBlocks _) (requestResume_proceeds e hs hc))

/-- Settles O19: the change of continuation, the refusals, and the continuation PROCEED of a drained outbox. -/
theorem resumeOfBlockedChannel : Obligations.ResumeOfBlockedChannel := by
  intro tag channel c s e hk hr r go
  refine ⟨fun hs hc => ?changes, fun k hs hc hne => ?otherContinuation, fun hb hh hc => ?otherState, fun b hs hc => ?drained⟩
  case changes =>
    exact request_carriedOut_rested hk rfl (kept_updChan _ _ _) hr (channelReply_rewrite .proceed hs)
      (congrArg (onBlocks _) (requestResume_blocked e hs hc))
  case otherContinuation =>
    exact request_unchanged hk rfl
      (congrArg (onBlocks _) ((requestResume_blocked_refused e hs hc hne).trans (refuseChannel_eq .wrongState hs hc)))
  case otherState =>
    exact request_unchanged hk rfl
      (congrArg (onBlocks _) ((requestResume_refused e hb hh).trans (refuseChannel_eq .wrongState rfl hc)))
  case drained => rw [actOnContinuation, hc]

/-! ### STOP (R48 to R50) -/

section Stop

variable {x : Byte} {c : ChanId} {b : Blocks}

theorem requestStop_idle (e : x.toNat = c.val) (hs : (b.chan c).state = .idle) :
    requestStop [x] b = refuseChannel .wrongState c b := by
  simp only [requestStop, onChannel_val e, hs]

theorem requestStop_accessInFlight (e : x.toNat = c.val) (hs : (b.chan c).state = .running) (hf : b.accessInFlight c = true) :
    requestStop [x] b = (b.updChan c fun ch => { ch with stopRequested := true }, .deferred) := by
  simp only [requestStop, onChannel_val e, hs, hf, if_true]

theorem requestStop_awaitingGrant (e : x.toNat = c.val) (hs : (b.chan c).state = .running) (hf : b.accessInFlight c = false) :
    requestStop [x] b = answerChannel c (stopRun c (b.withdrawRequest (.chan c))) := by
  simp only [requestStop, onChannel_val e, hs, hf, Bool.false_eq_true, if_false]

theorem requestStop_pending (e : x.toNat = c.val) (hs : (b.chan c).state = .pending) :
    requestStop [x] b = answerChannel c (stopRun c (b.leaveWait c)) := by
  simp only [requestStop, onChannel_val e, hs]

theorem requestStop_resting (e : x.toNat = c.val)
    (hs : (b.chan c).state = .starved ∨ (b.chan c).state = .held ∨ (b.chan c).state = .faulted) :
    requestStop [x] b = answerChannel c (stopRun c b) := by
  rcases hs with hs | hs | hs <;> simp only [requestStop, onChannel_val e, hs]

theorem requestStop_blocked (e : x.toNat = c.val) (hs : (b.chan c).state = .blocked) :
    requestStop [x] b = answerChannel c (stopBlocked c b) := by
  simp only [requestStop, onChannel_val e, hs]

/-- A run that ends already is not stopped again. -/
theorem stopBlocked_ending (hc : (b.chan c).continuation = some .idle) : stopBlocked c b = b := by
  rw [stopBlocked, hc]

/-- STOPPED joins the outbox behind the record that waits, and the channel is to go to IDLE. -/
theorem stopBlocked_appends (hc : (b.chan c).continuation ≠ some .idle) :
    stopBlocked c b = b.updChan c fun ch =>
      { ch with outbox := ch.outbox ++ [stoppedRecord c ch], continuation := some .idle, fault := none } := by
  unfold stopBlocked
  split
  · rename_i h; exact absurd h hc
  · rw [pushRecord_eq c (stoppedRecord c), updChan_updChan]

end Stop

/-- Settles O20, by the state of the channel. -/
theorem stopEndsRun : Obligations.StopEndsRun := by
  intro tag channel c s e hk hr r go ch state stopped
  have stops : ∀ b, Kept s.blocks b → rested b = true → requestStop [channel] s.blocks = answerChannel c (stopRun c b) → stopped b :=
    fun b hb hb' he => request_carriedOut_rested hk rfl (hb.trans (kept_stopRun c b)) (rested_same (samePorts_stopRun c b) hb') rfl
      (congrArg (onBlocks _) he)
  refine ⟨fun hs => ?idle, fun hs ho => ?inFlight, fun hs h1 h2 => ?awaiting, fun d u hs hd hu => ?pending, fun hs => ?resting⟩
  case idle => exact request_unchanged hk rfl (congrArg (onBlocks _) (requestStop_idle e hs))
  case inFlight =>
    exact request_deferring hk rfl (handover_of_taken hk)
      (congrArg (onBlocks _) (requestStop_accessInFlight e hs (accessInFlight_true ho)))
  case awaiting =>
    exact stops _ (kept_withdrawRequest _ _) (rested_withdraw (.chan c) hr)
      (requestStop_awaitingGrant e hs (accessInFlight_false h1 h2))
  case pending =>
    have he := requestStop_pending e hs
    rw [leaveWait_unit hd hu] at he
    exact stops _ (kept_leaveWaiters _ u c) (rested_leaveWaiters u c hr) he
  case resting => exact stops _ (.refl _) hr (requestStop_resting e hs)

/-- Settles O21, by the continuation of the channel. -/
theorem stopOfBlockedChannel : Obligations.StopOfBlockedChannel := by
  intro tag channel c s e hk hr hs r go ch
  have he := requestStop_blocked e hs
  refine ⟨fun hc => ?appends, fun hc => ?ending⟩
  case appends =>
    have hn : (s.blocks.chan c).continuation ≠ some .idle := by
      rcases hc with hc | hc | hc <;> exact fun h => nomatch hc.symm.trans h
    rw [stopBlocked_appends hn] at he
    refine request_carriedOut_rested hk rfl (kept_updChan _ _ _) hr ?_ (congrArg (onBlocks _) he)
    exact channelReply_eq .ok (st := .blocked) (k := some .idle) (by rw [chan_updChan_self]; exact hs) (by rw [chan_updChan_self])
  case ending =>
    rw [stopBlocked_ending hc] at he
    exact request_carriedOut_rested hk rfl (.refl _) hr (channelReply_eq .ok hs hc) (congrArg (onBlocks _) he)

/-! ### RETRY, SKIP and CLEAR (R51 to R53) -/

section Faulted

variable {x : Byte} {c : ChanId} {b : Blocks}

theorem onFaulted_faulted (e : x.toNat = c.val) (hs : (b.chan c).state = .faulted) (f : ChanId → Blocks) :
    onFaulted [x] b f = answerChannel c (f c) := by
  rw [onFaulted, onChannel_val e]
  exact if_pos hs

theorem onFaulted_refused (e : x.toNat = c.val) (hs : (b.chan c).state ≠ .faulted) (f : ChanId → Blocks) :
    onFaulted [x] b f = refuseChannel .wrongState c b := by
  rw [onFaulted, onChannel_val e]
  exact if_neg hs

/-- SKIP leaves the faulted descriptor for those that follow it. -/
theorem requestSkip_faulted (e : x.toNat = c.val) (hs : (b.chan c).state = .faulted) :
    requestSkip [x] b = answerChannel c (run c ((b.ahead c).drop 1)
      (b.updChan c fun ch => leftBehind ((b.ahead c).drop 1) { ch with fault := none })) := by
  rw [requestSkip, onFaulted_faulted e hs]
  dsimp only
  rw [moveCursor_eq, updChan_updChan]

/-- CLEAR gives the channel its IDLE values and makes its chain SPENT (R14, R34). -/
theorem enterIdle_bound {h : Handle} (hh : (b.chan c).handle = some h) :
    enterIdle c b = (b.updChain h fun x => { x with state := .spent, boundTo := none }).updChan c fun _ => {} := by
  rw [enterIdle, hh, unbind]

theorem channelReply_enterIdle (c : ChanId) (b : Blocks) : channelReply .ok c (enterIdle c b) = [0x00, 0x00, 0xFF] :=
  channelReply_eq .ok (st := .idle) (k := none) (by rw [enterIdle, chan_updChan_self]) (by rw [enterIdle, chan_updChan_self])

end Faulted

/-- Settles O22: RETRY, then SKIP. -/
theorem retryAndSkipOfFaultedChannel : Obligations.RetryAndSkipOfFaultedChannel := by
  intro tag channel c s e ch state retried rest skipped
  refine ⟨fun hk => ⟨fun hs => ?retries, fun hs => ?retryRefused⟩, fun hk => ⟨fun hs => ?skips, fun hs => ?skipRefused⟩⟩
  case retries =>
    exact request_carriedOut hk rfl ((kept_updChan _ _ _).trans (kept_proceed c _))
      (congrArg (onBlocks _) (onFaulted_faulted e hs _))
  case skips =>
    exact request_carriedOut hk rfl ((kept_updChan _ _ _).trans (kept_run c _ _))
      (congrArg (onBlocks _) (requestSkip_faulted e hs))
  all_goals exact request_unchanged hk rfl (congrArg (onBlocks _) (onFaulted_refused e hs _))

/-- Settles O23: the channel enters IDLE, or is not FAULTED. -/
theorem clearReturnsFaultedChannelToIdle : Obligations.ClearReturnsFaultedChannelToIdle := by
  intro tag channel c s e hr hk
  refine ⟨fun h hs hh => ?clears, fun hs => ?refused⟩
  case clears =>
    have hclear : arrive _ s = _ := request_carriedOut_rested (tag := tag) (k := .channelClear) hk rfl (kept_enterIdle c _)
      (rested_same (samePorts_enterIdle c _) hr) (channelReply_enterIdle c _) (congrArg (onBlocks _) (onFaulted_faulted e hs _))
    rw [enterIdle_bound hh] at hclear
    exact hclear
  case refused => exact request_unchanged hk rfl (congrArg (onBlocks _) (onFaulted_refused e hs _))

/-! ### CHANNEL QUERY and UNIT QUERY (R56, R130) -/

/-- A handle that may be absent, as the statement writes it out (R201). -/
theorem optBytes_handle (o : Option Handle) :
    optBytes 1 (o.map Fin.val) = [match o with | some h => byteOf h.val | none => 0xFF] := by
  cases o with
  | none => rfl
  | some h => simp [optBytes, beBytes, byteOf]

theorem continuationByte (o : Option Continuation) :
    (o.map Continuation.code).getD 0xFF = match o with | some k => k.code | none => 0xFF := by
  cases o <;> rfl

/-- The presence byte of a CHANNEL QUERY reply, bit 0 the CRC register and bit 1 the deadline, and the fields it marks (R203). -/
theorem queryPresence_eq (now : Nat) (ch : Channel) :
    queryPresence now ch =
      [byteOf ((if ch.crc.isSome then 1 else 0) + (if ch.deadline.isSome then 2 else 0))]
        ++ beBytes 4 (match ch.crc with | some x => x.toNat | none => 0)
        ++ beBytes 3 (match ch.deadline with | some due => timeRemaining now due | none => 0) := by
  unfold queryPresence
  cases ch.crc <;> cases ch.deadline <;> rfl

theorem windowBytes (o : Option Window) :
    optBytes 3 (o.map Window.base) ++ optBytes 3 (o.map Window.size) =
      match o with
      | some w => beBytes 3 w.base ++ beBytes 3 w.size
      | none => [0xFF, 0xFF, 0xFF, 0xFF, 0xFF, 0xFF] := by
  cases o <;> rfl

/-- Settles O28: CHANNEL QUERY, then UNIT QUERY, field by field. -/
theorem channelAndUnitQueryReply : Obligations.ChannelAndUnitQueryReply := by
  refine ⟨fun tag channel c s e hk => ?channel, fun tag unit s hk => ⟨fun hge => ?badUnit, fun u e => ?unit⟩⟩
  case channel =>
    refine request_unchanged hk rfl (congrArg (onBlocks _) ((onChannel_val e _ _).trans ?_))
    simp only [channelReply, continuationByte, queryPresence_eq, optBytes_handle, optBytes_two, List.append_assoc]
    rfl
  case badUnit => exact request_unchanged hk rfl (congrArg (onBlocks _) (onUnit_ge hge _ _))
  case unit =>
    refine request_unchanged hk rfl (congrArg (onBlocks _) ((onUnit_val e _ _).trans ?_))
    simp only [List.append_assoc]
    rw [← List.append_assoc (optBytes 3 _), windowBytes]
    rfl

end Sys2Proof.Proofs
end

section
/-! PROOFS. Descriptor start and the accesses a descriptor makes: the six checks in their order, burst sizes and patterns (chapter 3). -/

namespace Sys2Proof.Proofs

open Sys2Proof.Machine Sys2Proof.Safety Sys2Proof.Laws

/-! ### The single checks (R59 to R62) -/

theorem hasSource_iff (k : DescKind) : k.hasSource = true ↔ k = .copy ∨ k = .check := by
  cases k <;> decide

theorem hasDest_iff (k : DescKind) : k.hasDest = true ↔ k = .copy ∨ k = .fill ∨ k = .mark := by
  cases k <;> decide

theorem applies_eq_some_iff {on : Bool} {o : Option FaultInfo} {f : FaultInfo} :
    applies on o = some f ↔ on = true ∧ o = some f := by
  cases on <;> simp [applies]

theorem stateFault_eq_some_iff {b : Blocks} {s : Space} {f : FaultInfo} :
    stateFault b s = some f ↔ ∃ u, s = .unit u ∧ (b.unit u).state ≠ .active ∧ f = ⟨.unitState, u⟩ := by
  cases s with
  | buf => simp [stateFault]
  | unit u => simp [stateFault, eq_comm]

/-- A unit with no window fails the check as one whose window the range runs past (R61). -/
theorem windowFault_eq_some_iff {b : Blocks} {offset length : Nat} {s : Space} {f : FaultInfo} :
    windowFault b offset length s = some f ↔
      ∃ u, s = .unit u ∧ f = ⟨.windowRange, u⟩ ∧ ∀ w, (b.unit u).window = some w → w.size < offset + length := by
  cases s with
  | buf => simp [windowFault]
  | unit u => cases hw : (b.unit u).window <;> simp [windowFault, hw, eq_comm, and_comm]

/-- Check 1: the state of the source unit. -/
theorem sourceState_fails_iff {b : Blocks} {d : Descriptor} {f : FaultInfo} :
    applies (d.kind.hasSource || d.kind == .wait) (stateFault b d.src) = some f ↔
      ((d.kind = .copy ∨ d.kind = .check) ∨ d.kind = .wait) ∧
        ∃ u, d.src = .unit u ∧ (b.unit u).state ≠ .active ∧ f = ⟨.unitState, u⟩ := by
  rw [applies_eq_some_iff, stateFault_eq_some_iff, Bool.or_eq_true, hasSource_iff, beq_iff_eq]

/-- Check 2: the state of the destination unit. -/
theorem destState_fails_iff {b : Blocks} {d : Descriptor} {f : FaultInfo} :
    applies d.kind.hasDest (stateFault b d.dst) = some f ↔
      (d.kind = .copy ∨ d.kind = .fill ∨ d.kind = .mark) ∧
        ∃ u, d.dst = .unit u ∧ (b.unit u).state ≠ .active ∧ f = ⟨.unitState, u⟩ := by
  rw [applies_eq_some_iff, stateFault_eq_some_iff, hasDest_iff]

/-- Check 3: the source window. -/
theorem sourceWindow_fails_iff {b : Blocks} {d : Descriptor} {f : FaultInfo} :
    applies d.kind.hasSource (windowFault b d.srcOff.toNat d.length.toNat d.src) = some f ↔
      (d.kind = .copy ∨ d.kind = .check) ∧ ∃ u, d.src = .unit u ∧ f = ⟨.windowRange, u⟩ ∧
        ∀ w, (b.unit u).window = some w → w.size < d.srcOff.toNat + d.length.toNat := by
  rw [applies_eq_some_iff, windowFault_eq_some_iff, hasSource_iff]

/-- Check 4: the destination window. -/
theorem destWindow_fails_iff {b : Blocks} {d : Descriptor} {f : FaultInfo} :
    applies d.kind.hasDest (windowFault b d.dstOff.toNat d.length.toNat d.dst) = some f ↔
      (d.kind = .copy ∨ d.kind = .fill ∨ d.kind = .mark) ∧ ∃ u, d.dst = .unit u ∧ f = ⟨.windowRange, u⟩ ∧
        ∀ w, (b.unit u).window = some w → w.size < d.dstOff.toNat + d.length.toNat := by
  rw [applies_eq_some_iff, windowFault_eq_some_iff, hasDest_iff]

/-- A check passes when none of the faults it could give is there. -/
theorem passes_of_fails_iff {o : Option FaultInfo} {P : FaultInfo → Prop} (h : ∀ {f}, o = some f ↔ P f) (hn : ∀ f, ¬ P f) :
    o = none :=
  Option.eq_none_iff_forall_ne_some.mpr fun f hf => hn f (h.mp hf)

/-- Checks 5 and 6: a refusal is the guard unit's, and it is charged. -/
theorem guardFault_refused {offset length : Nat} {dir : Dir} {b : Blocks} {s : Space} {i : GuardId} (hs : s = .buf)
    (h : (rangeCheck offset length dir .channels b).2 = some i) :
    guardFault offset length dir b s = ((rangeCheck offset length dir .channels b).1, some ⟨.guard, i⟩) := by
  subst hs
  rcases hr : rangeCheck offset length dir .channels b with ⟨b1, _ | j⟩
  · simp [hr] at h
  · simp_all [guardFault]

theorem guardFault_passed {offset length : Nat} {dir : Dir} {b : Blocks} {s : Space}
    (h : ¬ (s = .buf ∧ (rangeCheck offset length dir .channels b).2.isSome)) :
    guardFault offset length dir b s = (b, none) := by
  cases s with
  | unit u => rfl
  | buf =>
    have hn : (rangeCheck offset length dir .channels b).2 = none := by simpa using h
    have hr : rangeCheck offset length dir .channels b = (b, none) := Prod.ext (rangeCheck_none hn) hn
    rw [guardFault, hr]

/-! ### The order of the checks (R59) -/

section Order

variable {d : Descriptor} {b : Blocks}

theorem checkStart_unitFault {f : FaultInfo} (h : unitFault b d = some f) : checkStart d b = (b, some f) := by
  rw [checkStart, h]

theorem checkStart_readRefused {i : GuardId} (h : unitFault b d = none) (hk : d.kind.hasSource = true) (hs : d.src = .buf)
    (hr : (rangeCheck d.srcOff.toNat d.length.toNat .read .channels b).2 = some i) :
    checkStart d b = ((rangeCheck d.srcOff.toNat d.length.toNat .read .channels b).1, some ⟨.guard, i⟩) := by
  rw [checkStart, h, if_pos hk, guardFault_refused hs hr]

/-- Past the first five checks nothing has changed, and the sixth decides. -/
theorem checkStart_readPassed (h : unitFault b d = none)
    (hr : ¬ (d.kind.hasSource = true ∧ d.src = .buf ∧ (rangeCheck d.srcOff.toNat d.length.toNat .read .channels b).2.isSome)) :
    checkStart d b = if d.kind.hasDest then guardFault d.dstOff.toNat d.length.toNat .write b d.dst else (b, none) := by
  have hsource : (if d.kind.hasSource then guardFault d.srcOff.toNat d.length.toNat .read b d.src else (b, none)) = (b, none) := by
    split
    · exact guardFault_passed fun hg => hr ⟨‹_›, hg⟩
    · rfl
  rw [checkStart, h, hsource]

end Order

/-- Settles O48: the first of the four unit checks that fails, then the guard checks of source and destination. -/
theorem descriptorStartChecksInOrder : Obligations.DescriptorStartChecksInOrder := by
  intro d b hasSrc hasDst inactive outside fault1 fault2 fault3 fault4 none1 none2 none3 none4 read write readRefused writeRefused
  have pass1 (n : none1) := passes_of_fails_iff sourceState_fails_iff n
  have pass2 (n : none2) := passes_of_fails_iff destState_fails_iff n
  have pass3 (n : none3) := passes_of_fails_iff sourceWindow_fails_iff n
  have pass4 (n : none4) := passes_of_fails_iff destWindow_fails_iff n
  have unitsPass (n1 : none1) (n2 : none2) (n3 : none3) (n4 : none4) : unitFault b d = none := by
    simp [unitFault, pass1 n1, pass2 n2, pass3 n3, pass4 n4]
  have readPasses (n : ¬ readRefused) : ¬ (d.kind.hasSource = true ∧ d.src = .buf ∧ read.2.isSome) := by
    rwa [hasSource_iff]
  refine ⟨fun f h => ?sourceState, fun f n1 h => ?destState, fun f n1 n2 h => ?sourceWindow, fun f n1 n2 n3 h => ?destWindow,
    fun i n1 n2 n3 n4 hr hi => ?readGuard, fun i n1 n2 n3 n4 hr hw hi => ?writeGuard, fun n1 n2 n3 n4 hr hw => ?allPass⟩
  case sourceState => exact checkStart_unitFault (by simp [unitFault, sourceState_fails_iff.mpr h])
  case destState => exact checkStart_unitFault (by simp [unitFault, pass1 n1, destState_fails_iff.mpr h])
  case sourceWindow => exact checkStart_unitFault (by simp [unitFault, pass1 n1, pass2 n2, sourceWindow_fails_iff.mpr h])
  case destWindow => exact checkStart_unitFault (by simp [unitFault, pass1 n1, pass2 n2, pass3 n3, destWindow_fails_iff.mpr h])
  case readGuard =>
    obtain ⟨hk, hs, _⟩ := hr
    exact checkStart_readRefused (unitsPass n1 n2 n3 n4) ((hasSource_iff _).mpr hk) hs hi
  case writeGuard =>
    obtain ⟨hk, hd, _⟩ := hw
    rw [checkStart_readPassed (unitsPass n1 n2 n3 n4) (readPasses hr), if_pos ((hasDest_iff _).mpr hk), guardFault_refused hd hi]
  case allPass =>
    rw [checkStart_readPassed (unitsPass n1 n2 n3 n4) (readPasses hr)]
    split
    case isTrue hk => exact guardFault_passed fun hg => hw ⟨(hasDest_iff _).mp hk, hg⟩
    case isFalse => rfl

/-! ### Accesses (R64, R65, R68, R71, R74) -/

section Plans

variable {d : Descriptor} (done : Nat) {staging : List Byte}

theorem plan_copy_read (h : d.kind = .copy) :
    d.plan done [] = some ⟨d.src, d.srcOff.toNat + done, .read, burst d.srcOff.toNat d.length.toNat done, []⟩ := by
  simp [Descriptor.plan, h]

theorem plan_copy_write (h : d.kind = .copy) (hs : staging ≠ []) :
    d.plan done staging = some ⟨d.dst, d.dstOff.toNat + done, .write, staging.length, staging⟩ := by
  simp [Descriptor.plan, h, hs]

theorem plan_fill (h : d.kind = .fill) (staging : List Byte) :
    d.plan done staging =
      some ⟨d.dst, d.dstOff.toNat + done, .write, burst d.dstOff.toNat d.length.toNat done,
        patternBytes d.operand done (burst d.dstOff.toNat d.length.toNat done)⟩ := by
  simp [Descriptor.plan, h]

theorem plan_check (h : d.kind = .check) (staging : List Byte) :
    d.plan done staging =
      some ⟨d.src, d.srcOff.toNat + done, .read, burst d.srcOff.toNat d.length.toNat done, []⟩ := by
  simp [Descriptor.plan, h]

theorem plan_mark (h : d.kind = .mark) (staging : List Byte) :
    d.plan done staging = some ⟨d.dst, d.dstOff.toNat, .write, 4, patternBytes d.operand 0 4⟩ := by
  simp [Descriptor.plan, h]

theorem plan_wait (h : d.kind = .wait) (staging : List Byte) : d.plan done staging = none := by
  simp [Descriptor.plan, h]

end Plans

theorem patternBytes_four (operand : Word) :
    patternBytes operand 0 4 =
      [patternByte operand 0, patternByte operand 1, patternByte operand 2, patternByte operand 3] := rfl

/-- Settles O49, one kind after another. -/
theorem burstsAndPatterns : Obligations.BurstsAndPatterns := by
  intro d done staging size pattern
  have hpattern : patternByte d.operand = pattern := funext (patternByte_eq d.operand)
  refine ⟨?copyReads, plan_copy_write done, fun hk => ?fill, fun hk => plan_check done hk staging, fun hk => ?mark,
    fun hk => plan_wait done hk staging⟩
  case copyReads =>
    rintro hk rfl
    exact plan_copy_read done hk
  case fill =>
    rw [plan_fill done hk, patternBytes, hpattern]
    rfl
  case mark => rw [plan_mark done hk, patternBytes_four, hpattern]

end Sys2Proof.Proofs
end

section
/-! PROOFS. The completion queue: COLLECT, the service of the blocked posters, the reset that waits, and the bounds of the part's
queues (chapter 4; R174, R188, R195, R196, R205). -/

namespace Sys2Proof.Proofs

open Sys2Proof.Machine Sys2Proof.Safety Sys2Proof.Laws

/-! ### The receive queue and reply memory over a step (R174, R188) -/

/-- A step with no command waiting leaves the link alone. -/
theorem link_idle (s : State) : (idle s).link = s.link := by
  unfold idle
  split
  · rfl
  · split <;> rfl

/-- RESET_N going low leaves the two stores as they were (R199). -/
theorem linkOk_resetNLow {s t : State} (hs : LinkOk s.link) (ht : execResetNLow s = .next t) : LinkOk t.link := by
  unfold execResetNLow at ht
  split at ht <;> injection ht with ht <;> subst ht
  · exact hs
  · exact linkOk_of rfl rfl hs

/-- The stores are empty at their COLD values (R183). -/
theorem linkOk_cold (baud : BitVec 2) : LinkOk { baudCode := baud } := ⟨Nat.zero_le 4, Nat.zero_le 4, List.nodup_nil⟩

theorem linkOk_resetNRelease {s t : State} {baud msz : BitVec 2} {presence : BitVec 8} (hs : LinkOk s.link)
    (ht : execResetNRelease baud msz presence s = .next t) : LinkOk t.link := by
  unfold execResetNRelease at ht
  split at ht <;> injection ht with ht <;> subst ht
  · exact linkOk_cold baud
  · exact hs

/-- The end of a buffer access reaches the link only by the reset that may have waited for it, and by the end of the step. -/
theorem linkOk_bufferAccessEnd {s t : State} (hs : LinkOk s.link) (ht : execBufferAccessEnd s = .next t) : LinkOk t.link := by
  unfold execBufferAccessEnd at ht
  split at ht
  · injection ht with ht
    subst ht
    exact hs
  · split at ht
    · cases ht
    · exact storesKept_linkOk.onSome _ hs ht (storesKept_linkOk.endAccess _ _ _ _ hs)

theorem linkOk_exec {c : Instr} {s t : State} (hs : LinkOk s.link) (ht : exec c s = .next t) : LinkOk t.link := by
  by_cases hb : c = .bufferAccessEnd
  · subst hb
    exact linkOk_bufferAccessEnd hs ht
  by_cases hl : c = .resetNLow
  · subst hl
    exact linkOk_resetNLow hs ht
  by_cases hr : ∃ baud msz presence, c = .resetNRelease baud msz presence
  · obtain ⟨baud, msz, presence, rfl⟩ := hr
    exact linkOk_resetNRelease hs ht
  exact storesKept_linkOk.exec hs hb hl (fun baud msz presence e => hr ⟨baud, msz, presence, e⟩) ht

theorem linkOk_step {s t : State} (hs : LinkOk s.link) (ht : step s = .next t) : LinkOk t.link := by
  rcases step_cases ht with ⟨_, rfl⟩ | ⟨c, rest, _, hx⟩
  · rw [link_idle]
    exact hs
  · exact linkOk_exec (s := { s with pending := rest }) hs hx

/-! ### The completion queue over a step (R85, R89) -/

/-- The release of RESET_N leaves the blocks alone, or empties the completion queue (R100, R200). -/
theorem resetNRelease_queue {baud msz : BitVec 2} {presence : BitVec 8} {s t : State}
    (ht : execResetNRelease baud msz presence s = .next t) : t.blocks = s.blocks ∨ t.blocks.queue = {} := by
  unfold execResetNRelease at ht
  split at ht <;> injection ht with ht <;> subst ht
  · exact .inr rfl
  · exact .inl rfl

theorem queueOk_empty : QueueOk {} := ⟨by decide, rfl⟩

theorem queueOk_step {s t : State} (hs : QueueOk s.blocks.queue) (ht : step s = .next t) : QueueOk t.blocks.queue := by
  refine queue_basic.closed.step hs hs (fun s' t' _ _ _ e hr => ?_) ht
  rcases resetNRelease_queue hr with he | he
  · rw [he, e]
    exact hs
  · rw [he]
    exact queueOk_empty

/-- Settles O56: `queue_basic` says it of every block operation, `storesKept_linkOk` of every way of writing the link's two stores. -/
theorem queuesStayNumberedAndBounded : Obligations.QueuesStayNumberedAndBounded :=
  fun _ _ hq hl ht => ⟨queueOk_step hq ht, linkOk_step hl ht⟩

/-! ### The form of a record (R205) -/

theorem length_recordBytes (r : Record) : r.bytes.length = 18 := by
  simp [Record.bytes, length_beBytes]

/-- The bytes of a numbered record of a chain, field by field; an absent field is 0 under the mask. -/
theorem recordBytes_eq (n : BitVec 16) (kind : RecordKind) (c : ChanId) (h : Handle) (slot : Option Nat)
    (fault : Option FaultInfo) (amount : Nat) (check : Option Word) :
    Record.bytes ⟨some n, kind, c, some h, slot, fault, amount, check⟩ =
      beBytes 2 n.toNat
        ++ [kind.code, byteOf c.val, byteOf h.val,
          byteOf (slot.isSome.toNat + 6 * fault.isSome.toNat + 8 * check.isSome.toNat)]
        ++ slot.elim [0, 0] (beBytes 2)
        ++ fault.elim [0, 0] (fun f => [f.code.code, byteOf f.detail.val])
        ++ beBytes 4 amount
        ++ check.elim [0, 0, 0, 0] (fun v => beBytes 4 v.toNat) := by
  have hslot : slot.elim [0, 0] (beBytes 2) = beBytes 2 (slot.getD 0) := by cases slot <;> rfl
  have hfault : fault.elim [0, 0] (fun f => [f.code.code, byteOf f.detail.val])
      = [(fault.map fun f => f.code.code).getD 0, (fault.map fun f => byteOf f.detail.val).getD 0] := by
    cases fault <;> rfl
  have hcheck : check.elim [0, 0, 0, 0] (fun v => beBytes 4 v.toNat) = beBytes 4 ((check.map BitVec.toNat).getD 0) := by
    cases check <;> rfl
  rw [hslot, hfault, hcheck]
  rfl

/-! ### COLLECT (R96 to R98) -/

/-- The blocks with the `k` oldest records gone from the queue (R96). -/
def withoutOldest (k : Nat) (b : Blocks) : Blocks := { b with queue := { b.queue with records := b.queue.records.drop k } }

theorem withoutOldest_empty {b : Blocks} (k : Nat) (h : b.queue.records = []) : withoutOldest k b = b := by
  have hd : b.queue.records.drop k = b.queue.records := by rw [h, List.drop_nil]
  rw [withoutOldest, hd]

theorem handover_serve (cs : List ChanId) {b : Blocks} (h : b.agent = none) : (serve cs b).handover = b.handover :=
  ((kept_serve cs b).agent h).2

section Collect

variable {max : Byte} {b : Blocks}

/-- Nothing leaves an empty queue, so nobody is served. -/
theorem collect_empty (k : Nat) (h : b.queue.records = []) : collect k b = b := by
  have ht : b.queue.records.take k = [] := by rw [h, List.take_nil]
  exact (if_pos ht).trans (withoutOldest_empty k h)

/-- Records leave a queue that holds some, and the blocked posters are served (R97). -/
theorem collect_served {k : Nat} (hk : 1 ≤ k) (h : b.queue.records ≠ []) :
    collect k b = serve b.queue.blocked (withoutOldest k b) := by
  have ht : b.queue.records.take k ≠ [] := by
    rw [ne_eq, List.take_eq_nil_iff]
    exact not_or.mpr ⟨by omega, h⟩
  exact if_neg ht

theorem requestCollect_refused (h : max = 0 ∨ 12 < max.toNat) : requestCollect [max] b = (b, .now (badField 0xFF)) := by
  have hz : max.toNat = 0 ∨ 12 < max.toNat := h.imp_left fun e => by rw [e]; rfl
  unfold requestCollect
  rw [fieldAt_zero_byte]
  exact if_pos (by simpa using hz)

theorem requestCollect_admitted (h1 : 1 ≤ max.toNat) (h2 : max.toNat ≤ 12) :
    requestCollect [max] b =
      (collect max.toNat b,
       .now ([0x00, byteOf (b.queue.records.take max.toNat).length, byteOf (collect max.toNat b).queue.records.length]
         ++ (b.queue.records.take max.toNat).flatMap Record.bytes)) := by
  have hn : ¬ (max.toNat = 0 ∨ 12 < max.toNat) := by omega
  unfold requestCollect
  rw [fieldAt_zero_byte]
  exact if_neg (by simpa using hn)

end Collect

/-- Settles O24: the record's bytes kind by kind, then COLLECT refused, on an empty queue, and on one that holds records. -/
theorem collectRemovesOldestRecords : Obligations.CollectRemovesOldestRecords := by
  refine ⟨fun n c h slot amount v f => ?forms, length_recordBytes, fun tag max s hk =>
    ⟨fun h => ?refused, fun h1 h2 he => ?empty, fun h1 h2 hne => ?removes⟩⟩
  case forms =>
    exact ⟨recordBytes_eq .., recordBytes_eq .., recordBytes_eq .., recordBytes_eq .., recordBytes_eq .., recordBytes_eq ..⟩
  case refused => exact request_unchanged hk rfl (congrArg (onBlocks _) (requestCollect_refused h))
  case empty =>
    refine request_unchanged hk rfl (congrArg (onBlocks _) ((requestCollect_admitted h1 h2).trans ?_))
    rw [collect_empty _ he, he, List.take_nil]
    rfl
  case removes =>
    have hgo := requestCollect_admitted (b := s.blocks) h1 h2
    rw [collect_served h1 hne] at hgo
    have hh : (serve s.blocks.queue.blocked (withoutOldest max.toNat s.blocks)).handover = s.blocks.handover :=
      handover_serve _ (b := withoutOldest max.toNat s.blocks) (agent_of_taken hk)
    exact request_answered hk rfl (hh.trans (handover_of_taken hk)) (congrArg (onBlocks _) hgo)

/-! ### Serving the blocked posters (R97) -/

section Serve

variable {c : ChanId} {cs : List ChanId} {b : Blocks}

/-- A full queue serves nobody. -/
theorem serve_full (h : 64 ≤ b.queue.records.length) : serve (c :: cs) b = b := by
  rw [serve]
  exact if_neg (Nat.not_lt.mpr h)

/-- With space the head channel posts, and it is done when its outbox has drained. -/
theorem serve_space (h : b.queue.records.length < 64) :
    serve (c :: cs) b =
      if (postOutbox c b).drained c then serve cs (settle (actOnContinuation c (postOutbox c b))) else postOutbox c b := by
  rw [serve]
  exact if_pos h

theorem serve_stops (h : b.queue.records.length < 64) (ho : ((postOutbox c b).chan c).outbox ≠ []) :
    serve (c :: cs) b = postOutbox c b := by
  rw [serve_space h, if_neg (mt (drained_iff _ _).mp ho)]

theorem serve_goesOn (h : b.queue.records.length < 64) (ho : ((postOutbox c b).chan c).outbox = []) :
    serve (c :: cs) b = serve cs (settle (actOnContinuation c (postOutbox c b))) := by
  rw [serve_space h, if_pos ((drained_iff _ _).mpr ho)]

end Serve

/-! ### The two commands that act inside other steps (log 16) -/

theorem anyInFlight_iff (b : Blocks) : b.anyInFlight = true ↔ b.bufPort.inFlight.isSome ∨ b.slotPort.inFlight.isSome := by
  simp [Blocks.anyInFlight]

section Running

variable {s : State}

theorem blockedPosterServed_nothing (h : s.blocks.queue.blocked = [] ∨ 64 ≤ s.blocks.queue.records.length) :
    exec .blockedPosterServed s = .next s := by
  have hn : ¬ (s.blocks.queue.blocked ≠ [] ∧ s.blocks.depth < Config.queueCapacity) := fun ⟨hb, hd⟩ =>
    h.elim hb (Nat.not_le.mpr hd)
  change execBlockedPosterServed s = _
  rw [execBlockedPosterServed, if_neg hn, onRunning_none]

theorem blockedPosterServed_serves (hp : s.power = .running) (hb : s.blocks.queue.blocked ≠ [])
    (hd : s.blocks.queue.records.length < 64) :
    exec .blockedPosterServed s = .next (endStep { s with blocks := serve s.blocks.queue.blocked s.blocks }) := by
  have hc : s.blocks.queue.blocked ≠ [] ∧ s.blocks.depth < Config.queueCapacity := ⟨hb, hd⟩
  change execBlockedPosterServed s = _
  rw [execBlockedPosterServed, if_pos hc, onRunning_some hp _]
  rfl

theorem resetTakesEffect_nothing
    (h : s.pendingReset = none ∨ s.blocks.bufPort.inFlight.isSome ∨ s.blocks.slotPort.inFlight.isSome) :
    exec .resetTakesEffect s = .next s := by
  change execResetTakesEffect s = _
  unfold execResetTakesEffect
  split
  · rename_i x hx
    have hf : s.blocks.anyInFlight = true := (anyInFlight_iff _).mpr (h.resolve_left (by simp [hx]))
    rw [if_pos hf, onRunning_none]
  · exact onRunning_none s

theorem resetTakesEffect_resets {x : Scope} (hp : s.power = .running) (hx : s.pendingReset = some x)
    (h1 : s.blocks.bufPort.inFlight = none) (h2 : s.blocks.slotPort.inFlight = none) :
    exec .resetTakesEffect s = .next (endStep (resetNow x s)) := by
  have hf : ¬ s.blocks.anyInFlight = true := by simp [anyInFlight_iff, h1, h2]
  change execResetTakesEffect s = _
  rw [execResetTakesEffect, hx]
  dsimp only
  rw [if_neg hf, onRunning_some hp _]

end Running

/-- Settles O44: one case of `serve` after another, then the two commands, each with and without something to do. -/
theorem blockedPostersAndWaitingReset : Obligations.BlockedPostersAndWaitingReset := by
  refine ⟨fun _ => rfl, fun _ _ _ => serve_full, fun _ _ _ => serve_stops, fun _ _ _ => serve_goesOn, fun s hp => ?_⟩
  refine ⟨blockedPosterServed_nothing, blockedPosterServed_serves hp, resetTakesEffect_nothing, fun x hx h1 h2 => ?_⟩
  rw [resetTakesEffect_resets hp hx h1 h2]
  cases x <;> rfl

end Sys2Proof.Proofs
end

section
/-! PROOFS. Buffer memory: which commands write it and what the end of a buffer access does to it; every command completes, but for that
end outside buffer memory (5.2, 5.3; R107 to R109). -/

namespace Sys2Proof.Proofs

open Sys2Proof.Machine Sys2Proof.Safety Sys2Proof.Laws

/-! ### BUFFER_ACCESS_END, case by case (R107, R108; log 12, log 26) -/

section BufferAccessEnd

variable {s : State} {a : Access}

theorem bufferAccessEnd_nothing (h : s.blocks.bufPort.inFlight = none) : exec .bufferAccessEnd s = .next s := by
  change execBufferAccessEnd s = _
  simp only [execBufferAccessEnd, h]

theorem bufferAccessEnd_absent (h : s.blocks.bufPort.inFlight = some a) (hp : s.power = .running)
    (hs : memorySize s.blocks.mszCode < a.addr + a.count) : exec .bufferAccessEnd s = .fault .bufferAddressAbsent := by
  have hc : s.power = .running ∧ s.blocks.bufferSize < a.addr + a.count := ⟨hp, hs⟩
  change execBufferAccessEnd s = _
  simp only [execBufferAccessEnd, h, if_pos hc]

theorem bufferAccessEnd_within (h : s.blocks.bufPort.inFlight = some a)
    (hs : ¬ (s.power = .running ∧ memorySize s.blocks.mszCode < a.addr + a.count)) :
    exec .bufferAccessEnd s =
      onRunning s (some (endAccess .buffer a (.done (s.mem.readBytes a.addr a.count)) { s with mem := memoryAfter a s.mem })) := by
  have hc : ¬ (s.power = .running ∧ s.blocks.bufferSize < a.addr + a.count) := hs
  change execBufferAccessEnd s = _
  simp only [execBufferAccessEnd, h, if_neg hc]

end BufferAccessEnd

/-! ### Every command completes -/

theorem presenceLineChange_next (u : UnitId) (level : Bool) (s : State) : ∃ t, execPresenceLineChange u level s = .next t := by
  unfold execPresenceLineChange
  split <;> exact ⟨_, rfl⟩

theorem resetNLow_next (s : State) : ∃ t, execResetNLow s = .next t := by
  unfold execResetNLow
  split <;> exact ⟨_, rfl⟩

theorem resetNRelease_next (baud msz : BitVec 2) (presence : BitVec 8) (s : State) :
    ∃ t, execResetNRelease baud msz presence s = .next t := by
  unfold execResetNRelease
  split <;> exact ⟨_, rfl⟩

theorem startUpEnd_next (s : State) : ∃ t, execStartUpEnd s = .next t := by
  unfold execStartUpEnd
  split <;> exact ⟨_, rfl⟩

theorem arrive_next (r : RxFrame) (s : State) : ∃ t, arrive r s = .next t := onRunning_next s (some (goodFrame r s))

/-- Four commands act whether the part runs or not; the others are events of a running part, most of them the arrival of a frame. -/
theorem exec_next_of_ne {c : Instr} (hc : c ≠ .bufferAccessEnd) (s : State) : ∃ t, exec c s = .next t := by
  cases c
  case bufferAccessEnd => exact absurd rfl hc
  case presenceLineChange u level => exact presenceLineChange_next u level s
  case resetNLow => exact resetNLow_next s
  case resetNRelease baud msz presence => exact resetNRelease_next baud msz presence s
  case startUpEnd => exact startUpEnd_next s
  case checkErr => exact onRunning_next s (some (checkError s))
  case lineBreak => exact onRunning_next s (some (linkReset s))
  case requestEdge u => exact onRunning_next s (some (onBlock s (takeEdge u)))
  case characterReceived byte => exact onRunning_next s (some (receiveByte byte s))
  case lenErr | gapErr | frameTaken | replyEnd | noticeSent | resendTimerExpiry | arbiterGrant | doneAnswer | errorAnswer
      | accessTimeout | cardDetected | cardLost | deadlineExpiry | blockedPosterServed | resetTakesEffect =>
    exact onRunning_next s _
  all_goals exact arrive_next _ s

/-- Settles O4: the end of a buffer access by its cases, every other command by `exec_next_of_ne`. -/
theorem everyOtherCommandCompletes : Obligations.EveryOtherCommandCompletes := by
  intro c s
  by_cases hc : c = .bufferAccessEnd
  · subst hc
    rcases ha : s.blocks.bufPort.inFlight with _ | a
    · exact .inl ⟨s, bufferAccessEnd_nothing ha⟩
    · by_cases hs : s.power = .running ∧ memorySize s.blocks.mszCode < a.addr + a.count
      · obtain ⟨hp, hlt⟩ := hs
        exact .inr ⟨rfl, bufferAccessEnd_absent ha hp hlt, a, rfl, hp, hlt⟩
      · rw [bufferAccessEnd_within ha hs]
        exact .inl (onRunning_next s _)
  · exact .inl (exec_next_of_ne hc s)

/-! ### What a command does to buffer memory -/

/-- An event that has left buffer memory at `m` leaves it there at the end of its step. -/
theorem onRunning_mem {s t x : State} {m : Memory} (hx : x.mem = m) (ht : onRunning s (some x) = .next t) :
    t.mem = s.mem ∨ t.mem = m := by
  by_cases hp : s.power = .running
  · rw [onRunning_some hp] at ht
    injection ht with ht
    exact .inr (by rw [← ht, endStep_mem, hx])
  · rw [onRunning, if_neg hp] at ht
    injection ht with ht
    exact .inl (by rw [ht])

theorem bufferAccessEnd_mem {s t : State} (ht : exec .bufferAccessEnd s = .next t) :
    t.mem = s.mem ∨ ∃ a, t.mem = memoryAfter a s.mem := by
  rcases ha : s.blocks.bufPort.inFlight with _ | a
  · rw [bufferAccessEnd_nothing ha] at ht
    injection ht with ht
    exact .inl (by rw [ht])
  · by_cases hs : s.power = .running ∧ memorySize s.blocks.mszCode < a.addr + a.count
    · obtain ⟨hp, hlt⟩ := hs
      rw [bufferAccessEnd_absent ha hp hlt] at ht
      cases ht
    · rw [bufferAccessEnd_within ha hs] at ht
      exact (onRunning_mem (endAccess_mem _ _ _ _) ht).imp_right fun h => ⟨a, h⟩

theorem resetNLow_mem {s t : State} (ht : execResetNLow s = .next t) : t.mem = s.mem ∨ t.mem = memoryCut s := by
  unfold execResetNLow at ht
  split at ht <;> injection ht with ht <;> subst ht
  · exact .inl rfl
  · exact .inr rfl

/-- The release of RESET_N writes 00h everywhere (R200). -/
theorem resetNRelease_mem {baud msz : BitVec 2} {presence : BitVec 8} {s t : State}
    (ht : execResetNRelease baud msz presence s = .next t) : t.mem = s.mem ∨ t.mem = [] := by
  unfold execResetNRelease at ht
  split at ht <;> injection ht with ht <;> subst ht
  · exact .inr rfl
  · exact .inl rfl

/-- All that a command can do to buffer memory: a buffer access ends, RESET_N cuts one, or start-up writes 00h everywhere (R109, R199,
R200). -/
theorem exec_mem_cases {c : Instr} {s t : State} (ht : exec c s = .next t) :
    t.mem = s.mem ∨ (∃ a, t.mem = memoryAfter a s.mem) ∨ t.mem = memoryCut s ∨ t.mem = [] := by
  by_cases hb : c = .bufferAccessEnd
  · subst hb
    exact (bufferAccessEnd_mem ht).imp_right .inl
  by_cases hl : c = .resetNLow
  · subst hl
    exact (resetNLow_mem ht).imp_right fun h => .inr (.inl h)
  by_cases hr : ∃ baud msz presence, c = .resetNRelease baud msz presence
  · obtain ⟨baud, msz, presence, rfl⟩ := hr
    exact (resetNRelease_mem ht).imp_right fun h => .inr (.inr h)
  · exact .inl ((storesKept_mem s.mem).exec rfl hb hl (fun baud msz presence e => hr ⟨baud, msz, presence, e⟩) ht)

/-- A step with no command waiting leaves buffer memory alone. -/
theorem mem_idle (s : State) : (idle s).mem = s.mem := by
  unfold idle
  split
  · rfl
  · split <;> rfl

/-- Settles O54: each way a command can write buffer memory keeps the canonical form. -/
theorem memoryStaysCanonical : Obligations.MemoryStaysCanonical := by
  intro s t hm ht
  rcases step_cases ht with ⟨_, rfl⟩ | ⟨c, rest, _, hx⟩
  · rw [mem_idle]
    exact hm
  · rcases exec_mem_cases hx with h | ⟨a, h⟩ | h | h <;> rw [h]
    · exact hm
    · exact wf_memoryAfter a hm
    · exact wf_memoryCut (s := { s with pending := rest }) hm
    · rfl

/-! ### The bytes a buffer access moves (R107, R109; log 11) -/

theorem read_memoryAfter {m : Memory} (a : Access) (hm : m.wf = true) (x : Nat) :
    (memoryAfter a m).read x =
      if a.dir = .write ∧ a.addr ≤ x ∧ x < a.addr + a.data.length then a.data.getD (x - a.addr) 0 else m.read x := by
  cases hd : a.dir with
  | read => simp [memoryAfter, hd]
  | write => simp [memoryAfter, hd, read_writeBytes a.addr a.data hm]

/-- Settles O38: the access in flight within buffer memory, its write read back address by address. -/
theorem bufferAccessEndMovesBytes : Obligations.BufferAccessEndMovesBytes := by
  intro s hp hm
  refine ⟨bufferAccessEnd_nothing, fun a ha hfits => ?_⟩
  have hex := bufferAccessEnd_within ha fun ⟨_, hlt⟩ => Nat.not_lt.mpr hfits hlt
  rw [onRunning_some hp] at hex
  refine ⟨_, memoryAfter a s.mem, hex, ?_, read_memoryAfter a hm, rfl, fun i => getD_readBytes s.mem a.addr a.count i⟩
  rw [endStep_mem, endAccess_mem]

end Sys2Proof.Proofs
end

section
/-! PROOFS. The arbiters and the end of an access: choice, grant, unit check, request, and the handing over of the outcome (5.1, 5.2;
R65, R101 to R107, R131). -/

namespace Sys2Proof.Proofs

open Sys2Proof.Machine Sys2Proof.Safety Sys2Proof.Laws

/-! ### The arbiter's choice (R103) -/

theorem next_of_busy {a : Arbiter} (h : a.barred = true ∨ a.inFlight.isSome) : a.next = none := next_busy a h a.requests

/-- A free arbiter searches its set in the cyclic order. -/
theorem next_of_free {a : Arbiter} (hb : a.barred = false) (hf : a.inFlight = none) :
    a.next = (searchOrder a.lastGranted).find? a.requests.contains := by
  simp [Arbiter.next, hb, hf]

/-! ### Grants (R65, R102, R103, R105, R131) -/

section Grants

variable {b b1 : Blocks} {r : Requester} {q : Plan}

theorem grantBuffer_none (h : b.bufPort.next = none) : grantBuffer b = b := by
  rw [grantBuffer, h]

theorem grantBuffer_some (h : b.bufPort.next = some r) (hq : b.plan r = some q) :
    grantBuffer b =
      { b with
        bufPort := b.bufPort.grant r
          (some { requester := r, dir := q.dir, addr := q.offset, count := q.count, data := q.data, card := none }) } := by
  rw [grantBuffer, h]
  simp only [hq, Option.map_some]

theorem slotAccess_within {u : UnitId} {w : Window} (hu : q.space = .unit u) (hs : (b.unit u).state = .active)
    (hw : (b.unit u).window = some w) (hl : q.offset + q.count ≤ w.size) :
    slotAccess b r q =
      .ok { requester := r, dir := q.dir, addr := w.base + q.offset, count := q.count, data := q.data
            card := some ⟨u, b.now + (b.unit u).timeout⟩ } := by
  simp only [slotAccess, hu, hs, hw, if_pos hl]

theorem slotAccess_past {u : UnitId} {w : Window} (hu : q.space = .unit u) (hs : (b.unit u).state = .active)
    (hw : (b.unit u).window = some w) (hl : w.size < q.offset + q.count) : slotAccess b r q = .error ⟨.windowRange, u⟩ := by
  simp only [slotAccess, hu, hs, hw, if_neg (Nat.not_le.mpr hl)]

theorem slotAccess_inactive {u : UnitId} (hu : q.space = .unit u)
    (hs : (b.unit u).state = .present ∨ (b.unit u).state = .fenced) : slotAccess b r q = .error ⟨.unitState, u⟩ := by
  rcases hs with hs | hs <;> simp only [slotAccess, hu, hs]

theorem slotAccess_empty {u : UnitId} (hu : q.space = .unit u) (hs : (b.unit u).state = .empty) :
    slotAccess b r q = .error ⟨.unitGone, u⟩ := by
  simp only [slotAccess, hu, hs]

theorem grantSlot_none (k : Nat) (h : b.slotPort.next = none) : grantSlot k b = (b, []) := by
  cases k with
  | zero => rfl
  | succ k => rw [grantSlot, h]

theorem grantSlot_granted {a : Access} (k : Nat) (h : b.slotPort.next = some r) (hq : b.plan r = some q)
    (ha : slotAccess b r q = .ok a) : grantSlot (k + 1) b = ({ b with slotPort := b.slotPort.grant r (some a) }, []) := by
  rw [grantSlot, h]
  simp only [hq, ha]

/-- A grant that is given back makes its requester last granted, and the search goes on (R105). -/
theorem grantSlot_givenBack {f : FaultInfo} (k : Nat) (h : b.slotPort.next = some r) (hq : b.plan r = some q)
    (hf : slotAccess b r q = .error f) :
    grantSlot (k + 1) b =
      ((grantSlot k { b with slotPort := b.slotPort.grant r none }).1,
        (r, f) :: (grantSlot k { b with slotPort := b.slotPort.grant r none }).2) := by
  rw [grantSlot, h]
  simp only [hq, hf]

/-- One grant is left to make, on the buffer port. -/
theorem grants_buffer (h : b.bufPort.next = some r) (hq : b.plan r = some q) (hs : b.slotPort.next = none) :
    grants b =
      ({ b with
          bufPort := b.bufPort.grant r
            (some { requester := r, dir := q.dir, addr := q.offset, count := q.count, data := q.data, card := none }) }, []) := by
  rw [grants, grantBuffer_some h hq]
  exact grantSlot_none 5 hs

/-- One grant is left to make, on the slot bus. -/
theorem grants_slot {a : Access} (hb : b.bufPort.next = none) (h : b.slotPort.next = some r) (hq : b.plan r = some q)
    (ha : slotAccess b r q = .ok a) : grants b = ({ b with slotPort := b.slotPort.grant r (some a) }, []) := by
  rw [grants, grantBuffer_none hb]
  exact grantSlot_granted 4 h hq ha

theorem settleRounds_done (k : Nat) (h : grants b = (b1, [])) : settleRounds (k + 1) b = b1 := by
  rw [settleRounds, h]

theorem settleRounds_again {x : Requester × FaultInfo} {back : List (Requester × FaultInfo)} (k : Nat)
    (h : grants b = (b1, x :: back)) : settleRounds (k + 1) b = settleRounds k ((x :: back).foldl giveBack b1) := by
  rw [settleRounds, h]

/-! ### Requests (R26, R65, R102) -/

theorem request_eq (h : b.plan r = some q) : request r b = b.raiseRequest r q.space.port := by
  rw [request, h]

theorem request_buf (h : b.plan r = some q) (hs : q.space = .buf) :
    request r b = { b with bufPort := { b.bufPort with requests := addRequest r b.bufPort.requests } } := by
  rw [request_eq h, hs]
  rfl

theorem request_slot {u : UnitId} (h : b.plan r = some q) (hs : q.space = .unit u) :
    request r b = { b with slotPort := { b.slotPort with requests := addRequest r b.slotPort.requests } } := by
  rw [request_eq h, hs]
  rfl

end Grants

/-! ### ARBITER_GRANT (log 16) -/

theorem arbiterGrant_nothing {p : Port} {s : State} (h : (s.blocks.arb p).next = none) : exec (.arbiterGrant p) s = .next s := by
  change execArbiterGrant p s = _
  simp [execArbiterGrant, h, onRunning_none]

theorem arbiterGrant_grants {p : Port} {s : State} (hp : s.power = .running) (h : (s.blocks.arb p).next.isSome) :
    exec (.arbiterGrant p) s = .next (endStep { s with blocks := settle s.blocks }) := by
  change execArbiterGrant p s = _
  rw [execArbiterGrant, if_pos h, onRunning_some hp _]
  rfl

/-- Settles O41: the arbiter's choice is `searchOrder_find_iff`; each further clause is the equation of its operation. -/
theorem arbiterGrantsInCyclicOrder : Obligations.ArbiterGrantsInCyclicOrder := by
  unfold Obligations.ArbiterGrantsInCyclicOrder
  intro place
  refine ⟨fun a => next_of_busy, fun a r hb hf => ?choice, fun b r q hn hq => ?bufferGrant, fun p s hp => ?command,
    fun b r q u hu => ?unitCheck, fun b r q hq => ?joins, fun b => grantBuffer_none, fun k b => ?slotGrant, fun b => rfl,
    fun k b b1 => settleRounds_done k, fun k b b1 x back => settleRounds_again k, fun b => rfl, fun b c f => rfl⟩
  case choice =>
    rw [next_of_free hb hf]
    exact searchOrder_find_iff a.requests a.lastGranted r
  case bufferGrant =>
    rw [grantBuffer_some hn hq]
    rfl
  case command => exact ⟨arbiterGrant_nothing, arbiterGrant_grants hp⟩
  case unitCheck =>
    exact ⟨fun w => slotAccess_within hu, fun w => slotAccess_past hu, slotAccess_inactive hu, slotAccess_empty hu⟩
  case joins => exact ⟨request_buf hq, fun u => request_slot hq⟩
  case slotGrant => exact ⟨grantSlot_none k, fun r q a => grantSlot_granted k, fun r q f => grantSlot_givenBack k⟩

/-! ### The end of an access (R103, R107, R195) -/

/-- The blocks with a port freed of the access in flight on it (R107). -/
def freePort (p : Port) (b : Blocks) : Blocks := b.updArb p fun x => { x with inFlight := none }

theorem handEnd_of_grants {b b1 : Blocks} {back : List (Requester × FaultInfo)} (h : grants b = (b1, back)) (a : Access)
    (e : Ending) : handEnd a e b = settle (endOfOwner a e (back.foldl giveBack b1)) := by
  rw [handEnd, h]

/-- With no reset pending, or with an access left that it waits for, the port is granted anew and the outcome is handed over. -/
theorem endAccess_of_grants {p : Port} {s : State} {b : Blocks} {back : List (Requester × FaultInfo)}
    (h : s.pendingReset = none ∨ (freePort p s.blocks).bufPort.inFlight.isSome ∨ (freePort p s.blocks).slotPort.inFlight.isSome)
    (hg : grants (freePort p s.blocks) = (b, back)) (a : Access) (e : Ending) :
    endAccess p a e s = { s with blocks := settle (endOfOwner a e (back.foldl giveBack b)) } := by
  have hn : s.pendingReset = none ∨ (freePort p s.blocks).anyInFlight = true := h.imp_right (anyInFlight_iff _).mpr
  rw [endAccess_hands hn, ← handEnd_of_grants hg]
  rfl

theorem dropNotice_freePort (p : Port) (b : Blocks) : dropNotice (freePort p b) = freePort p (dropNotice b) := by
  cases p
  all_goals
    unfold dropNotice freePort Blocks.updArb
    dsimp only
    split <;> rfl

/-- A reset withdraws whatever the arbiters hold, so it is the same whether a port has been freed before it or not (R106). -/
theorem resetBlocks_freePort (x : Scope) (p : Port) (b : Blocks) : resetBlocks x (freePort p b) = resetBlocks x b := by
  cases x with
  | work => cases p <;> rfl
  | full =>
    unfold resetBlocks resetNotice
    rw [dropNotice_freePort]
    cases p <;> rfl

theorem endAccess_last {p : Port} {s : State} {x : Scope} (hx : s.pendingReset = some x)
    (hb : (freePort p s.blocks).bufPort.inFlight = none) (hs : (freePort p s.blocks).slotPort.inFlight = none) (a : Access)
    (e : Ending) :
    endAccess p a e s = { s with blocks := resetBlocks x s.blocks, link := resetLink x s.link, pendingReset := none } := by
  have hn : (freePort p s.blocks).anyInFlight = false := by simp [Blocks.anyInFlight, hb, hs]
  rw [endAccess_resets hx hn, ← resetBlocks_freePort x p]
  rfl

/-- Settles O39: with an access left, or no reset pending, `endAccess_of_grants`; at the last access of a reset, `endAccess_last`. -/
theorem endOfAccessFreesPortAndHandsOutcome : Obligations.EndOfAccessFreesPortAndHandsOutcome := by
  intro p a e s
  refine ⟨fun h hr => endAccess_of_grants h (grants_rested hr) a e, fun b h hg => endAccess_of_grants h hg a e,
    fun b back h hg => endAccess_of_grants h hg a e, fun x hx hb hs => ?_⟩
  rw [endAccess_last hx hb hs]
  cases x <;> rfl

end Sys2Proof.Proofs
end

section
/-! PROOFS. PEEK and POKE: the checks of the request, the first access, the progress of the operation and its end (5.4; R110 to R114,
R203). -/

namespace Sys2Proof.Proofs

open Sys2Proof.Machine Sys2Proof.Safety Sys2Proof.Laws

/-! ### The checks in their order (R111) -/

/-- The direction of the link agent's accesses (R110). -/
def agentDir : AgentKind → Dir
  | .peek => .read
  | .poke => .write

section Checks

variable {o : AgentOp} {b b1 : Blocks}

theorem beginAgent_pastMemory (hs : o.space = .buf) (hl : memorySize b.mszCode < o.offset + o.count) :
    beginAgent o b = (b, agentRefusal .range 0xFF) := by
  have hc : b.bufferSize < o.offset + o.count := hl
  simp only [beginAgent, hs, if_pos hc]

theorem beginAgent_guarded {g : GuardId} (hs : o.space = .buf) (hl : o.offset + o.count ≤ memorySize b.mszCode)
    (hg : rangeCheck o.offset o.count (agentDir o.kind) .link b = (b1, some g)) :
    beginAgent o b = (b1, agentRefusal .guardRefused (byteOf g.val)) := by
  have hc : ¬ b.bufferSize < o.offset + o.count := Nat.not_lt.mpr hl
  cases hk : o.kind <;> simp only [hk, agentDir] at hg <;> simp only [beginAgent, hs, hk, if_neg hc, hg]

theorem beginAgent_buf (hs : o.space = .buf) (hl : o.offset + o.count ≤ memorySize b.mszCode)
    (hg : rangeCheck o.offset o.count (agentDir o.kind) .link b = (b1, none)) :
    beginAgent o b = (settle (request .link { b1 with agent := some o }), .deferred) := by
  have hc : ¬ b.bufferSize < o.offset + o.count := Nat.not_lt.mpr hl
  cases hk : o.kind <;> simp only [hk, agentDir] at hg <;> simp only [beginAgent, hs, hk, if_neg hc, hg]

variable {u : UnitId} {w : Window}

theorem beginAgent_inactive (hs : o.space = .unit u) (hn : (b.unit u).state ≠ .active) :
    beginAgent o b = (b, agentRefusal .unitState (byteOf u.val)) := by
  cases ha : (b.unit u).state with
  | active => exact absurd ha hn
  | empty | present | fenced => simp only [beginAgent, hs, ha]

theorem beginAgent_pastWindow (hs : o.space = .unit u) (ha : (b.unit u).state = .active) (hw : (b.unit u).window = some w)
    (hl : w.size < o.offset + o.count) : beginAgent o b = (b, agentRefusal .range 0xFF) := by
  simp only [beginAgent, hs, ha, hw, if_pos hl]

theorem beginAgent_unit (hs : o.space = .unit u) (ha : (b.unit u).state = .active) (hw : (b.unit u).window = some w)
    (hl : o.offset + o.count ≤ w.size) :
    beginAgent o b = (settle (request .link { b with agent := some o }), .deferred) := by
  simp only [beginAgent, hs, ha, hw, if_neg (Nat.not_lt.mpr hl)]

end Checks

/-! ### The two commands (R111, R202) -/

/-- PEEK or POKE: the command, its frame, and the kind, the count and the bytes of the operation it asks for. -/
inductive AgentRequest (tag space : Byte) (offset : Word) : Instr → RxFrame → AgentKind → Nat → List Byte → Prop
  | peek (n : Byte) :
    AgentRequest tag space offset (.peek tag space offset n)
      (requestFrame tag .peek (space :: beBytes 4 offset.toNat ++ [n])) .peek n.toNat []
  | poke (data : List Byte) :
    AgentRequest tag space offset (.poke tag space offset data)
      (requestFrame tag .poke (space :: beBytes 4 offset.toNat ++ data)) .poke data.length data

/-- A POKE of 1 to 128 bytes has a fitting length (R186). -/
theorem lengthFits_poke (space : Byte) (offset : Nat) {data : List Byte} (h1 : 1 ≤ data.length) (h2 : data.length ≤ 128) :
    RequestKind.lengthFits .poke (space :: beBytes 4 offset ++ data).length = true := by
  simp [RequestKind.lengthFits]
  omega

theorem requestPeek_begins {space n : Byte} {sp : Space} (hsp : Space.ofCode space = some sp) (h1 : 1 ≤ n.toNat)
    (h2 : n.toNat ≤ 128) (offset : Word) (b : Blocks) :
    requestPeek (space :: beBytes 4 offset.toNat ++ [n]) b = beginAgent ⟨.peek, sp, offset.toNat, n.toNat, 0, []⟩ b := by
  have hc : ¬ (decide (n.toNat = 0) || decide (128 < n.toNat)) = true := by simp; omega
  rw [requestPeek_eq, hsp]
  exact if_neg hc

theorem requestPoke_begins {space : Byte} {sp : Space} (hsp : Space.ofCode space = some sp) (offset : Word) (data : List Byte)
    (b : Blocks) :
    requestPoke (space :: beBytes 4 offset.toNat ++ data) b = beginAgent ⟨.poke, sp, offset.toNat, data.length, 0, data⟩ b := by
  rw [requestPoke_eq, hsp]

/-- A PEEK of 0 bytes or of more than 128, or of no space. -/
theorem requestPeek_badField {space n : Byte} (h : n.toNat = 0 ∨ 128 < n.toNat ∨ Space.ofCode space = none) (offset : Word)
    (b : Blocks) : requestPeek (space :: beBytes 4 offset.toNat ++ [n]) b = (b, .now (badField 0xFF)) := by
  rw [requestPeek_eq]
  rcases hsp : Space.ofCode space with _ | sp
  · rfl
  · have hc : (decide (n.toNat = 0) || decide (128 < n.toNat)) = true := by simpa [hsp] using h
    exact if_pos hc

theorem requestPoke_badField {space : Byte} (h : Space.ofCode space = none) (offset : Word) (data : List Byte) (b : Blocks) :
    requestPoke (space :: beBytes 4 offset.toNat ++ data) b = (b, .now (badField 0xFF)) := by
  rw [requestPoke_eq, h]

section Requests

variable {tag space : Byte} {offset : Word} {s : State} {i : Instr} {r : RxFrame} {k : AgentKind} {count : Nat} {data : List Byte}
  {sp : Space} {b : Blocks}

/-- A request with a field out of its values; a POKE has its count from its length (R186). -/
theorem AgentRequest.badField (h : AgentRequest tag space offset i r k count data) (ht : taken s r = true)
    (hbad : count = 0 ∨ 128 < count ∨ Space.ofCode space = none) (hpoke : k = .poke → 1 ≤ count ∧ count ≤ 128) :
    exec i s = .next (unchanged s r [0x03, 0xFF]) := by
  cases h with
  | peek n => exact request_unchanged ht rfl (congrArg (onBlocks _) (requestPeek_badField hbad offset _))
  | poke data =>
    obtain ⟨h1, h2⟩ := hpoke rfl
    have hsp : Space.ofCode space = none :=
      (hbad.resolve_left (Nat.ne_of_gt h1)).resolve_left (Nat.not_lt.mpr h2)
    exact request_unchanged ht (lengthFits_poke space _ h1 h2)
      (congrArg (onBlocks _) (requestPoke_badField hsp offset data _))

/-- A request whose operation is refused. -/
theorem AgentRequest.answers {reply : List Byte} (h : AgentRequest tag space offset i r k count data) (ht : taken s r = true)
    (h1 : 1 ≤ count) (h2 : count ≤ 128) (hsp : Space.ofCode space = some sp)
    (he : beginAgent ⟨k, sp, offset.toNat, count, 0, data⟩ s.blocks = (b, .now reply)) (hb : b.handover = none) :
    exec i s = .next (answered s r b s.link.tally reply) := by
  cases h with
  | peek n => exact request_answered ht rfl hb (congrArg (onBlocks _) ((requestPeek_begins hsp h1 h2 offset _).trans he))
  | poke data =>
    exact request_answered ht (lengthFits_poke space _ h1 h2) hb
      (congrArg (onBlocks _) ((requestPoke_begins hsp offset data _).trans he))

/-- A request whose operation is refused with nothing charged. -/
theorem AgentRequest.refused {reply : List Byte} (h : AgentRequest tag space offset i r k count data) (ht : taken s r = true)
    (h1 : 1 ≤ count) (h2 : count ≤ 128) (hsp : Space.ofCode space = some sp)
    (he : beginAgent ⟨k, sp, offset.toNat, count, 0, data⟩ s.blocks = (s.blocks, .now reply)) :
    exec i s = .next (unchanged s r reply) :=
  h.answers ht h1 h2 hsp he (handover_of_taken ht)

/-- A request whose operation begins. -/
theorem AgentRequest.defers (h : AgentRequest tag space offset i r k count data) (ht : taken s r = true)
    (h1 : 1 ≤ count) (h2 : count ≤ 128) (hsp : Space.ofCode space = some sp)
    (he : beginAgent ⟨k, sp, offset.toNat, count, 0, data⟩ s.blocks = (b, .deferred)) (hb : b.handover = none) :
    exec i s = .next (deferring s r b) := by
  cases h with
  | peek n => exact request_deferring ht rfl hb (congrArg (onBlocks _) ((requestPeek_begins hsp h1 h2 offset _).trans he))
  | poke data =>
    exact request_deferring ht (lengthFits_poke space _ h1 h2) hb
      (congrArg (onBlocks _) ((requestPoke_begins hsp offset data _).trans he))

end Requests

/-! ### The first access (R105, R112) -/

theorem settle_of_grants {b b1 : Blocks} (h : grants b = (b1, [])) : settle b = b1 := settleRounds_done 7 h

/-- The arbiter with the link agent's request joined to its set (R102). -/
def joinLink (a : Arbiter) : Arbiter := { a with requests := addRequest .link a.requests }

/-- The link agent alone in the set is granted, and the set is empty again. -/
theorem grant_joinLink {a : Arbiter} (h : a.requests = []) (x : Option Access) :
    (joinLink a).grant .link x = { a with lastGranted := .link, inFlight := x } := by
  have hf : (addRequest .link []).filter (· != .link) = [] := by decide
  simp [joinLink, Arbiter.grant, h, hf]

theorem rested_iff {b : Blocks} : rested b = true ↔ b.bufPort.next = none ∧ b.slotPort.next = none := by
  simp [rested]

theorem space_plan (o : AgentOp) : o.plan.space = o.space := by
  unfold AgentOp.plan
  cases o.kind <;> rfl

section FirstAccess

variable {o : AgentOp} {b : Blocks}

theorem request_agent_buf (hs : o.space = .buf) :
    request .link { b with agent := some o } = { b with agent := some o, bufPort := joinLink b.bufPort } :=
  request_buf (b := { b with agent := some o }) rfl ((space_plan o).trans hs)

theorem request_agent_slot {u : UnitId} (hs : o.space = .unit u) :
    request .link { b with agent := some o } = { b with agent := some o, slotPort := joinLink b.slotPort } :=
  request_slot (b := { b with agent := some o }) rfl ((space_plan o).trans hs)

/-- On a busy or barred port the request waits. -/
theorem settle_agent_buf_waits (hs : o.space = .buf) (hr : rested b = true)
    (hp : b.bufPort.barred = true ∨ b.bufPort.inFlight.isSome) :
    settle (request .link { b with agent := some o }) = { b with agent := some o, bufPort := joinLink b.bufPort } := by
  obtain ⟨_, hslot⟩ := rested_iff.mp hr
  rw [request_agent_buf hs]
  exact settle_rested (rested_iff.mpr ⟨next_busy b.bufPort hp _, hslot⟩)

theorem settle_agent_slot_waits {u : UnitId} (hs : o.space = .unit u) (hr : rested b = true)
    (hp : b.slotPort.barred = true ∨ b.slotPort.inFlight.isSome) :
    settle (request .link { b with agent := some o }) = { b with agent := some o, slotPort := joinLink b.slotPort } := by
  obtain ⟨hbuf, _⟩ := rested_iff.mp hr
  rw [request_agent_slot hs]
  exact settle_rested (rested_iff.mpr ⟨hbuf, next_busy b.slotPort hp _⟩)

/-- On a free port with no other request it is granted in the same step. -/
theorem settle_agent_buf_granted (hs : o.space = .buf) (hr : rested b = true) (hb : b.bufPort.barred = false)
    (hf : b.bufPort.inFlight = none) (he : b.bufPort.requests = []) :
    settle (request .link { b with agent := some o }) =
      { b with
        agent := some o
        bufPort := { b.bufPort with
          lastGranted := .link
          inFlight := some
            { requester := .link, dir := o.plan.dir, addr := o.plan.offset, count := o.plan.count, data := o.plan.data
              card := none } } } := by
  obtain ⟨_, hslot⟩ := rested_iff.mp hr
  have hg := grants_buffer (b := { b with agent := some o, bufPort := joinLink b.bufPort }) (next_link_of_empty b.bufPort hb hf he)
    rfl hslot
  rw [grant_joinLink he] at hg
  rw [request_agent_buf hs]
  exact settle_of_grants hg

theorem settle_agent_slot_granted {u : UnitId} {w : Window} (hs : o.space = .unit u) (hr : rested b = true)
    (hb : b.slotPort.barred = false) (hf : b.slotPort.inFlight = none) (he : b.slotPort.requests = [])
    (ha : (b.unit u).state = .active) (hw : (b.unit u).window = some w) (hl : o.plan.offset + o.plan.count ≤ w.size) :
    settle (request .link { b with agent := some o }) =
      { b with
        agent := some o
        slotPort := { b.slotPort with
          lastGranted := .link
          inFlight := some
            { requester := .link, dir := o.plan.dir, addr := w.base + o.plan.offset, count := o.plan.count, data := o.plan.data
              card := some ⟨u, b.now + (b.unit u).timeout⟩ } } } := by
  obtain ⟨hbuf, _⟩ := rested_iff.mp hr
  have hg := grants_slot (b := { b with agent := some o, slotPort := joinLink b.slotPort }) hbuf
    (next_link_of_empty b.slotPort hb hf he) rfl (slotAccess_within ((space_plan o).trans hs) ha hw hl)
  rw [grant_joinLink he] at hg
  rw [request_agent_slot hs]
  exact settle_of_grants hg

end FirstAccess

/-- The first access ends at the next 64-byte boundary of the space, or with the operation. -/
theorem plan_first {o : AgentOp} (h : o.done = 0) :
    o.plan = ⟨o.space, o.offset, agentDir o.kind, min o.count (64 - o.offset % 64),
      match o.kind with | .peek => [] | .poke => o.data.take (min o.count (64 - o.offset % 64))⟩ :=
  Option.some.inj (plan_link o {} h)

/-! ### Progress and end of the operation (R112 to R114) -/

section Progress

variable {o : AgentOp} {a : Access} {b : Blocks}

theorem endOfAgent_last {data : List Byte} (h : b.agent = some o) (hc : o.done + a.count = o.count) :
    endOfAgent a (.done data) b = endAgent (o.counted a data) .ok 0xFF b := by
  have hd : (o.counted a data).done = (o.counted a data).count := hc
  simp only [endOfAgent, h, if_pos hd]

theorem endOfAgent_more {data : List Byte} (h : b.agent = some o) (hc : o.done + a.count ≠ o.count) :
    endOfAgent a (.done data) b = request .link { b with agent := some (o.counted a data) } := by
  have hd : ¬ (o.counted a data).done = (o.counted a data).count := hc
  simp only [endOfAgent, h, if_neg hd]

theorem endOfAgent_failed (h : b.agent = some o) (code : FaultCode) (u : UnitId) :
    endOfAgent a (.failed code u) b = endAgent o (agentResult code) (agentDetail code u) b := by
  simp only [endOfAgent, h]

theorem giveBack_link (h : b.agent = some o) (f : FaultInfo) :
    giveBack b (.link, f) = endAgent o (agentResult f.code) (agentDetail f.code f.detail) b := by
  simp only [giveBack, h]

end Progress

/-- The operation of a request, from its fields. -/
theorem agentOp_eq {o : AgentOp} {offset : Word} (ho : o.offset = offset.toNat) (hd : o.done = 0) :
    (⟨o.kind, o.space, offset.toNat, o.count, 0, o.data⟩ : AgentOp) = o := by
  rw [← ho, ← hd]

/-- Settles O33: the refusals, the beginning, then the accesses that follow. -/
theorem peekAndPokeCheckThenBegin : Obligations.PeekAndPokeCheckThenBegin := by
  refine ⟨?refusals, ?begins, ?goesOn⟩
  case refusals =>
    intro tag space offset s i r count dir hreq ht
    obtain ⟨k, data, hA, hdir, hpoke⟩ : ∃ k data, AgentRequest tag space offset i r k count data ∧ agentDir k = dir ∧
        (k = .poke → 1 ≤ count ∧ count ≤ 128) := by
      rcases hreq with ⟨n, rfl, rfl, rfl, rfl⟩ | ⟨data, h1, h2, rfl, rfl, rfl, rfl⟩
      · exact ⟨_, _, .peek n, rfl, nofun⟩
      · exact ⟨_, _, .poke data, rfl, fun _ => ⟨h1, h2⟩⟩
    refine ⟨fun hbad => ?badField, fun h1 h2 hz => ⟨fun hl => ?pastMemory, fun b g hl hg => ?guarded⟩,
      fun u h1 h2 hu => ⟨fun hn => ?inactive, fun w ha hw hl => ?pastWindow⟩⟩
    case badField =>
      refine hA.badField ht (hbad.imp_right (Or.imp_right fun h => ?_)) hpoke
      obtain ⟨h0, hu⟩ := h
      exact spaceOfCode_none h0 hu
    case pastMemory => exact hA.refused ht h1 h2 (hz ▸ rfl) (beginAgent_pastMemory rfl hl)
    case guarded =>
      have hkept : Kept s.blocks b := by
        have := kept_rangeCheck offset.toNat count dir .link s.blocks
        rwa [hg] at this
      exact hA.answers ht h1 h2 (hz ▸ rfl) (beginAgent_guarded rfl hl (hdir ▸ hg))
        ((hkept.agent (agent_of_taken ht)).2.trans (handover_of_taken ht))
    case inactive => exact hA.refused ht h1 h2 (spaceOfCode_unit hu) (beginAgent_inactive rfl hn)
    case pastWindow => exact hA.refused ht h1 h2 (spaceOfCode_unit hu) (beginAgent_pastWindow rfl ha hw hl)
  case begins =>
    intro tag space offset s i r o hreq ht hr h1 h2 ho hd n dir bytes joined held
    have hA : AgentRequest tag space offset i r o.kind o.count o.data := by
      rcases hreq with ⟨n, rfl, rfl, hk, hc, hdata⟩ | ⟨data, rfl, rfl, hk, hc, hdata⟩
      · rw [hk, hc, hdata]
        exact .peek n
      · rw [hk, hc, hdata]
        exact .poke data
    have begins {b : Blocks} (hsp : Space.ofCode space = some o.space) (he : beginAgent o s.blocks = (b, .deferred))
        (hb : b.handover = s.blocks.handover) : exec i s = .next (deferring s r b) :=
      hA.defers ht h1 h2 hsp (by rw [agentOp_eq ho hd, he]) (hb.trans (handover_of_taken ht))
    refine ⟨fun hs hz hl hg => ⟨fun hp => ?bufWaits, fun hb hf he => ?bufGranted⟩,
      fun u w hs hu ha hw hl => ⟨fun hp => ?slotWaits, fun hb hf he => ?slotGranted⟩⟩
    case bufWaits =>
      have hbegin := beginAgent_buf hs hl hg
      rw [settle_agent_buf_waits hs hr hp] at hbegin
      exact begins (hs ▸ hz ▸ rfl) hbegin rfl
    case bufGranted =>
      have hbegin := beginAgent_buf hs hl hg
      rw [settle_agent_buf_granted hs hr hb hf he, plan_first hd] at hbegin
      exact begins (hs ▸ hz ▸ rfl) hbegin rfl
    case slotWaits =>
      have hbegin := beginAgent_unit hs ha hw hl
      rw [settle_agent_slot_waits hs hr hp] at hbegin
      exact begins (hs ▸ spaceOfCode_unit hu) hbegin rfl
    case slotGranted =>
      have hfits : o.plan.offset + o.plan.count ≤ w.size := by
        rw [plan_first hd]
        dsimp only
        omega
      have hbegin := beginAgent_unit hs ha hw hl
      rw [settle_agent_slot_granted hs hr hb hf he ha hw hfits, plan_first hd] at hbegin
      exact begins (hs ▸ spaceOfCode_unit hu) hbegin rfl
  case goesOn =>
    intro b o a h n moved taken replies fails
    refine ⟨?plan, fun data hc hk => ?lastPeek, fun data hc hk => ?lastPoke, fun data hc => endOfAgent_more h hc,
      fun u => ⟨endOfAgent_failed h _ u, endOfAgent_failed h _ u, endOfAgent_failed h _ u, giveBack_link h _,
        giveBack_link h _⟩⟩
    case plan =>
      rw [Blocks.plan, h]
      rfl
    case lastPeek | lastPoke =>
      rw [endOfAgent_last h hc]
      simp [endAgent, agentReply, AgentOp.counted, hk, replies, moved, Result.code]

end Sys2Proof.Proofs
end

section
/-! PROOFS. The law of the unit table under every step: entries as their states ask, windows of units in use apart (6.1, 6.3, 6.6;
R117, R118, R123, R140). -/

namespace Sys2Proof.Proofs

open Sys2Proof.Machine Sys2Proof.Safety Sys2Proof.Laws

/-! ### The law and the unit table -/

/-- The windows in use depend on the states and the windows of the entries alone. -/
theorem windowsApart_congr {b b' : Blocks} (hs : ∀ u, (b'.unit u).state = (b.unit u).state)
    (hw : ∀ u, (b'.unit u).window = (b.unit u).window) (h : WindowsApart b) : WindowsApart b' := by
  unfold WindowsApart InUse at *
  simpa only [hs, hw] using h

/-- While RESET_N is not low, the law is `UnitsLaw`. -/
theorem unitsLaw_of_unitsOk {s : State} (hp : s.power ≠ .heldLow) (hu : UnitsOk s) (hw : WindowsApart s.blocks) :
    UnitsLaw s.blocks := ⟨hu hp, hw⟩

theorem unitsOk_of_unitsLaw {s : State} (h : UnitsLaw s.blocks) : UnitsOk s := fun _ => h.1

/-! ### The clock -/

theorem unit_idle (s : State) (u : UnitId) : (idle s).blocks.unit u = s.blocks.unit u := by
  unfold idle
  split
  · rfl
  · split <;> rfl

theorem power_idle (s : State) : (idle s).power = s.power := by
  unfold idle
  split
  · rfl
  · split <;> rfl

/-- A step with no command waiting keeps the law. -/
theorem unitsOk_idle {s : State} (hu : UnitsOk s) (hw : WindowsApart s.blocks) : UnitsOk (idle s) ∧ WindowsApart (idle s).blocks := by
  refine ⟨fun hp u => ?_, windowsApart_congr (fun u => by rw [unit_idle]) (fun u => by rw [unit_idle]) hw⟩
  rw [unit_idle]
  exact hu (power_idle s ▸ hp) u

/-! ### RESET_N (R199, R200) -/

theorem unit_cutBlocks (b : Blocks) (u : UnitId) : (cutBlocks b).unit u = { b.unit u with slotEnable := false } :=
  Vector.getElem_map _ _

/-- As RESET_N goes low the slot enables are released, and the law of the entries is suspended. -/
theorem unitsOk_resetNLow {s t : State} (hu : UnitsOk s) (hw : WindowsApart s.blocks) (ht : execResetNLow s = .next t) :
    UnitsOk t ∧ WindowsApart t.blocks := by
  unfold execResetNLow at ht
  split at ht <;> injection ht with ht <;> subst ht
  · exact ⟨hu, hw⟩
  · exact ⟨fun hp => absurd rfl hp, windowsApart_congr (fun u => by rw [unit_cutBlocks]) (fun u => by rw [unit_cutBlocks]) hw⟩

theorem not_inUse_coldUnit (level : Bool) : ¬ InUse (coldUnit level) := by
  cases level <;> simp [coldUnit, InUse]

/-- The entry that start-up makes of a presence line is lawful (R119, R143). -/
theorem unitOk_coldUnit (level : Bool) : UnitOk (coldUnit level) where
  seated := by cases level <;> simp [coldUnit]
  enable := ⟨nofun, fun h => absurd h (not_inUse_coldUnit level)⟩
  configured := fun h => absurd h (not_inUse_coldUnit level)
  unconfigured := fun _ => rfl
  window := nofun
  timeout := by simp [coldUnit, Config.defaultTimeout]
  latch := nofun
  deactivation := nofun

/-- The release of RESET_N leaves the state alone, or gives every unit the entry its presence line asks for. -/
theorem resetNRelease_units {baud msz : BitVec 2} {presence : BitVec 8} {s t : State}
    (ht : execResetNRelease baud msz presence s = .next t) : t = s ∨ ∀ u, ∃ level, t.blocks.unit u = coldUnit level := by
  unfold execResetNRelease at ht
  split at ht <;> injection ht with ht <;> subst ht
  · exact .inr fun u => ⟨presence.getLsbD u.val, Vector.getElem_ofFn _⟩
  · exact .inl rfl

theorem unitsLaw_of_cold {b : Blocks} (h : ∀ u, ∃ level, b.unit u = coldUnit level) : UnitsLaw b := by
  refine ⟨fun u => ?_, fun u _ _ hu => ?_⟩ <;> obtain ⟨level, hl⟩ := h u
  · rw [hl]
    exact unitOk_coldUnit level
  · rw [hl] at hu
    exact absurd hu (not_inUse_coldUnit level)

theorem unitsOk_resetNRelease {baud msz : BitVec 2} {presence : BitVec 8} {s t : State} (hu : UnitsOk s)
    (hw : WindowsApart s.blocks) (ht : execResetNRelease baud msz presence s = .next t) : UnitsOk t ∧ WindowsApart t.blocks := by
  rcases resetNRelease_units ht with rfl | hc
  · exact ⟨hu, hw⟩
  · have hl := unitsLaw_of_cold hc
    exact ⟨unitsOk_of_unitsLaw hl, hl.2⟩

/-! ### Every step -/

/-- Under RESET_N low no other command acts; of a part that is not held, `units_basic` says that each block operation keeps the law. -/
theorem unitsOk_exec {c : Instr} {s t : State} (hu : UnitsOk s) (hw : WindowsApart s.blocks) (ht : exec c s = .next t) :
    UnitsOk t ∧ WindowsApart t.blocks := by
  by_cases hr : ∃ baud msz presence, c = .resetNRelease baud msz presence
  · obtain ⟨baud, msz, presence, rfl⟩ := hr
    exact unitsOk_resetNRelease hu hw ht
  have hr' : ∀ baud msz presence, c ≠ .resetNRelease baud msz presence := fun baud msz presence e => hr ⟨baud, msz, presence, e⟩
  by_cases hl : c = .resetNLow
  · subst hl
    exact unitsOk_resetNLow hu hw ht
  by_cases hp : s.power = .heldLow
  · rw [exec_low hp hr' ht]
    exact ⟨hu, hw⟩
  · have law := units_basic.closed.exec (unitsLaw_of_unitsOk hp hu hw) hl hr' ht
    exact ⟨unitsOk_of_unitsLaw law, law.2⟩

/-- Settles O57: a tick of the clock by `unitsOk_idle`, a command by `unitsOk_exec`. -/
theorem unitTableLawKept : Obligations.UnitTableLawKept := by
  intro s t hu hw ht
  rcases step_cases ht with ⟨_, rfl⟩ | ⟨c, rest, _, hx⟩
  · exact unitsOk_idle hu hw
  · exact unitsOk_exec (s := { s with pending := rest }) hu hw hx

end Sys2Proof.Proofs
end

section
/-! PROOFS. The unit requests UNIT SET, UNIT ACTIVATE and UNIT DEACTIVATE: their checks in order and what they do (6.4; R124 to R129). -/

namespace Sys2Proof.Proofs

open Sys2Proof.Machine Sys2Proof.Safety Sys2Proof.Laws

/-! ### A unit request and its reply (6.4) -/

theorem refuseUnit_eq (r : Result) {u : UnitId} {b : Blocks} {st : UnitState} (hs : (b.unit u).state = st) :
    refuseUnit r u b = (b, .now [r.code, st.code]) := by
  rw [refuseUnit, unitReply, hs]

theorem answerUnit_eq {u : UnitId} {b : Blocks} {st : UnitState} (hs : (b.unit u).state = st) :
    answerUnit u b = (b, .now [0x00, st.code]) := by
  rw [answerUnit, unitReply, hs]
  rfl

/-- The reply shows the entry that the request has made. -/
theorem answerUnit_updUnit (u : UnitId) (b : Blocks) (f : UnitEntry → UnitEntry) :
    answerUnit u (b.updUnit u f) = (b.updUnit u f, .now [0x00, (f (b.unit u)).state.code]) :=
  answerUnit_eq (by rw [unit_updUnit_self])

/-! ### UNIT SET (R124, R125) -/

section UnitSet

variable {unit timeout : Byte} {base size : BitVec 24} {u : UnitId} {b : Blocks}

/-- The payload of UNIT SET (R202). -/
def unitSetPayload (unit : Byte) (base size : BitVec 24) (timeout : Byte) : List Byte :=
  unit :: beBytes 3 base.toNat ++ beBytes 3 size.toNat ++ [timeout]

/-- The fields of UNIT SET are read as they were sent. -/
theorem unitSetPayload_fields (unit timeout : Byte) (base size : BitVec 24) :
    fieldAt (unitSetPayload unit base size timeout) 1 3 = base.toNat ∧
      fieldAt (unitSetPayload unit base size timeout) 4 3 = size.toNat ∧
      fieldAt (unitSetPayload unit base size timeout) 7 1 = timeout.toNat := by
  have field : ∀ (x : BitVec 24) (pre post : List Byte), fieldAt (pre ++ (beBytes 3 x.toNat ++ post)) pre.length 3 = x.toNat :=
    fun x pre post => fieldAt_beBytes x.isLt
  have hbase := field base [unit] (beBytes 3 size.toNat ++ [timeout])
  have hsize := field size (unit :: beBytes 3 base.toNat) [timeout]
  have htimeout := fieldAt_skip (unit :: beBytes 3 base.toNat ++ beBytes 3 size.toNat) [timeout] 0 1
  rw [fieldAt_zero_byte] at htimeout
  simp only [List.length_append, List.length_cons, List.length_nil, length_beBytes, List.append_assoc, List.cons_append,
    List.nil_append, Nat.zero_add] at hbase hsize htimeout
  simp only [unitSetPayload, List.append_assoc, List.cons_append]
  exact ⟨hbase, hsize, htimeout⟩

theorem requestUnitSet_ge (e : 8 ≤ unit.toNat) :
    requestUnitSet (unitSetPayload unit base size timeout) b = (b, .now (badField 0xFF)) := onUnit_ge e b _

/-- UNIT SET of a unit of the table, from its fields. -/
theorem requestUnitSet_eq (e : unit.toNat = u.val) :
    requestUnitSet (unitSetPayload unit base size timeout) b =
      if (b.unit u).state = .empty || (b.unit u).state = .active then refuseUnit .unitState u b
      else if !unitFieldsOk ⟨base.toNat, size.toNat⟩ timeout.toNat then (b, .now (badField 0xFF))
      else if (b.unit u).state = .fenced && overlapsInUse u ⟨base.toNat, size.toNat⟩ b then refuseUnit .overlap u b
      else answerUnit u (b.updUnit u fun x => { x with window := some ⟨base.toNat, size.toNat⟩, timeout := timeout.toNat }) := by
  obtain ⟨hbase, hsize, htimeout⟩ := unitSetPayload_fields unit timeout base size
  rw [requestUnitSet, hbase, hsize, htimeout]
  exact onUnit_val e b _

/-- Checks 3 to 5 of R124, on the fields as they are sent. -/
theorem unitFieldsOk_iff (base size : BitVec 24) (timeout : Byte) :
    unitFieldsOk ⟨base.toNat, size.toNat⟩ timeout.toNat = true ↔
      isWindowSize size.toNat = true ∧ base.toNat % size.toNat = 0 ∧ base.toNat + size.toNat ≤ 16777216 ∧ timeout ≠ 0 := by
  have h0 : timeout.toNat ≠ 0 ↔ timeout ≠ 0 := not_congr (BitVec.toNat_inj (x := timeout) (y := 0))
  simp only [unitFieldsOk, Bool.and_eq_true, beq_iff_eq, decide_eq_true_eq, bne_iff_ne, and_assoc, ne_eq, h0]
  rfl

theorem requestUnitSet_unitState (e : unit.toNat = u.val) (hs : (b.unit u).state = .empty ∨ (b.unit u).state = .active) :
    requestUnitSet (unitSetPayload unit base size timeout) b = refuseUnit .unitState u b := by
  rw [requestUnitSet_eq e, if_pos (by simpa using hs)]

theorem requestUnitSet_badField (e : unit.toNat = u.val) (hs : (b.unit u).state = .present ∨ (b.unit u).state = .fenced)
    (hf : ¬ unitFieldsOk ⟨base.toNat, size.toNat⟩ timeout.toNat = true) :
    requestUnitSet (unitSetPayload unit base size timeout) b = (b, .now (badField 0xFF)) := by
  rw [requestUnitSet_eq e, if_neg (by rcases hs with hs | hs <;> simp [hs]), if_pos (by simpa using hf)]

theorem requestUnitSet_overlap (e : unit.toNat = u.val) (hs : (b.unit u).state = .fenced)
    (hf : unitFieldsOk ⟨base.toNat, size.toNat⟩ timeout.toNat = true)
    (ho : overlapsInUse u ⟨base.toNat, size.toNat⟩ b = true) :
    requestUnitSet (unitSetPayload unit base size timeout) b = refuseUnit .overlap u b := by
  rw [requestUnitSet_eq e, if_neg (by simp [hs]), if_neg (by simp [hf]), if_pos (by simp [hs, ho])]

theorem requestUnitSet_stores (e : unit.toNat = u.val)
    (hs : (b.unit u).state = .present ∨ (b.unit u).state = .fenced ∧ ¬ overlapsInUse u ⟨base.toNat, size.toNat⟩ b = true)
    (hf : unitFieldsOk ⟨base.toNat, size.toNat⟩ timeout.toNat = true) :
    requestUnitSet (unitSetPayload unit base size timeout) b =
      answerUnit u (b.updUnit u fun x => { x with window := some ⟨base.toNat, size.toNat⟩, timeout := timeout.toNat }) := by
  rw [requestUnitSet_eq e, if_neg ?state, if_neg (by simp [hf]), if_neg ?overlap]
  case state => rcases hs with hs | ⟨hs, _⟩ <;> simp [hs]
  case overlap =>
    rcases hs with hs | ⟨_, ho⟩
    · simp [hs]
    · simp [ho]

end UnitSet

/-- Settles O25: the refusals in the order of R124, then what is stored. -/
theorem unitSetChecksThenStores : Obligations.UnitSetChecksThenStores := by
  intro tag unit base size timeout s payload hk r go
  refine ⟨fun hge => request_unchanged hk rfl (congrArg (onBlocks _) (requestUnitSet_ge hge)), ?_⟩
  intro u e entry fieldsOk overlap
  refine ⟨fun hs => ?unitState, fun hs hf => ?badField, fun hs hf ho => ?overlaps, fun hs hf => ?stores⟩
  case unitState =>
    exact request_unchanged hk rfl (congrArg (onBlocks _) ((requestUnitSet_unitState e hs).trans (refuseUnit_eq _ rfl)))
  case badField =>
    have hf' := mt (unitFieldsOk_iff base size timeout).mp hf
    exact request_unchanged hk rfl (congrArg (onBlocks _) (requestUnitSet_badField e hs hf'))
  case overlaps =>
    have hf' := (unitFieldsOk_iff base size timeout).mpr hf
    have ho' := (overlaps_iff u ⟨base.toNat, size.toNat⟩ s.blocks).mpr ho
    exact request_unchanged hk rfl (congrArg (onBlocks _) ((requestUnitSet_overlap e hs hf' ho').trans (refuseUnit_eq _ hs)))
  case stores =>
    have hf' := (unitFieldsOk_iff base size timeout).mpr hf
    have hs' := hs.imp_right (And.imp_right (mt (overlaps_iff u ⟨base.toNat, size.toNat⟩ s.blocks).mp))
    exact request_answered hk rfl (handover_of_taken hk)
      (congrArg (onBlocks _) ((requestUnitSet_stores e hs' hf').trans (answerUnit_updUnit u _ _)))

/-! ### UNIT ACTIVATE (R126) -/

section UnitActivate

variable {unit : Byte} {u : UnitId} {b : Blocks}

theorem requestUnitActivate_empty (e : unit.toNat = u.val) (hs : (b.unit u).state = .empty) :
    requestUnitActivate [unit] b = refuseUnit .unitState u b := by
  rw [requestUnitActivate, onUnit_val e, hs]

theorem requestUnitActivate_active (e : unit.toNat = u.val) (hs : (b.unit u).state = .active) :
    requestUnitActivate [unit] b = answerUnit u b := by
  rw [requestUnitActivate, onUnit_val e, hs]

theorem requestUnitActivate_fenced (e : unit.toNat = u.val) (hs : (b.unit u).state = .fenced) :
    requestUnitActivate [unit] b = answerUnit u (b.updUnit u fun x => { x with state := .active }) := by
  rw [requestUnitActivate, onUnit_val e, hs]

theorem requestUnitActivate_notConfigured (e : unit.toNat = u.val) (hs : (b.unit u).state = .present)
    (hw : (b.unit u).window = none) : requestUnitActivate [unit] b = refuseUnit .notConfigured u b := by
  rw [requestUnitActivate, onUnit_val e, hs, hw]

theorem requestUnitActivate_overlap {w : Window} (e : unit.toNat = u.val) (hs : (b.unit u).state = .present)
    (hw : (b.unit u).window = some w) (ho : overlapsInUse u w b = true) :
    requestUnitActivate [unit] b = refuseUnit .overlap u b := by
  rw [requestUnitActivate, onUnit_val e, hs, hw]
  exact if_pos ho

theorem requestUnitActivate_enters {w : Window} (e : unit.toNat = u.val) (hs : (b.unit u).state = .present)
    (hw : (b.unit u).window = some w) (ho : ¬ overlapsInUse u w b = true) :
    requestUnitActivate [unit] b =
      answerUnit u (b.updUnit u fun x => { x with state := .active, slotEnable := true, latch := false }) := by
  rw [requestUnitActivate, onUnit_val e, hs, hw]
  exact if_neg ho

end UnitActivate

/-- Settles O26: one equation per row of R126's table. -/
theorem unitActivateChecksThenEnters : Obligations.UnitActivateChecksThenEnters := by
  intro tag unit s hk r go
  have refused {reply : List Byte} (h : requestUnitActivate [unit] s.blocks = (s.blocks, .now reply)) :
      go = .next (unchanged s r reply) := request_unchanged hk rfl (congrArg (onBlocks _) h)
  refine ⟨fun hge => refused (onUnit_ge hge _ _), ?_⟩
  intro u e entry becomes overlap
  have entered {f : UnitEntry → UnitEntry} (hst : (f entry).state = .active)
      (h : requestUnitActivate [unit] s.blocks = answerUnit u (s.blocks.updUnit u f)) : becomes (f entry) :=
    request_answered hk rfl (handover_of_taken hk)
      (congrArg (onBlocks _) (h.trans (answerUnit_eq ((congrArg _ (unit_updUnit_self _ u f)).trans hst))))
  refine ⟨fun hs => ?empty, fun hs => ?active, fun hs => ?fenced, fun hs hw => ?notConfigured, fun w hs hw ho => ?overlaps,
    fun w hs hw ho => ?enters⟩
  case empty => exact refused ((requestUnitActivate_empty e hs).trans (refuseUnit_eq _ hs))
  case active => exact refused ((requestUnitActivate_active e hs).trans (answerUnit_eq hs))
  case fenced => exact entered rfl (requestUnitActivate_fenced e hs)
  case notConfigured => exact refused ((requestUnitActivate_notConfigured e hs hw).trans (refuseUnit_eq _ hs))
  case overlaps =>
    exact refused ((requestUnitActivate_overlap e hs hw ((overlaps_iff u w _).mpr ho)).trans (refuseUnit_eq _ hs))
  case enters => exact entered rfl (requestUnitActivate_enters e hs hw (mt (overlaps_iff u w _).mp ho))

/-! ### UNIT DEACTIVATE (R127 to R129) -/

section UnitDeactivate

variable {unit force : Byte} {u : UnitId} {b : Blocks}

/-- The force flag stands in the second byte. -/
theorem forceFlag (unit force : Byte) :
    flagOf? (fieldAt [unit, force] 1 1) = if force = 0 then some false else if force = 1 then some true else none := by
  rw [show fieldAt [unit, force] 1 1 = fieldAt [force] 0 1 from fieldAt_cons unit [force] 0 1, fieldAt_zero_byte, flagOf_cases]

theorem forceFlag_some (unit : Byte) (hf : force = 0 ∨ force = 1) : ∃ f, flagOf? (fieldAt [unit, force] 1 1) = some f := by
  rcases hf with rfl | rfl
  · exact ⟨false, forceFlag unit 0⟩
  · exact ⟨true, forceFlag unit 1⟩

theorem requestUnitDeactivate_badField (h : 8 ≤ unit.toNat ∨ force ≠ 0 ∧ force ≠ 1) :
    requestUnitDeactivate [unit, force] b = (b, .now (badField 0xFF)) := by
  by_cases hge : 8 ≤ unit.toNat
  · exact onUnit_ge hge b _
  · obtain ⟨h0, h1⟩ := h.resolve_left hge
    have e : unit.toNat = (⟨unit.toNat, Nat.lt_of_not_le hge⟩ : UnitId).val := rfl
    rw [requestUnitDeactivate, onUnit_val e, forceFlag, if_neg h0, if_neg h1]

theorem requestUnitDeactivate_empty (e : unit.toNat = u.val) (hf : force = 0 ∨ force = 1) (hs : (b.unit u).state = .empty) :
    requestUnitDeactivate [unit, force] b = refuseUnit .unitState u b := by
  obtain ⟨f, hf⟩ := forceFlag_some unit hf
  rw [requestUnitDeactivate, onUnit_val e, hf, hs]

theorem requestUnitDeactivate_present (e : unit.toNat = u.val) (hf : force = 0 ∨ force = 1) (hs : (b.unit u).state = .present) :
    requestUnitDeactivate [unit, force] b = answerUnit u b := by
  obtain ⟨f, hf⟩ := forceFlag_some unit hf
  rw [requestUnitDeactivate, onUnit_val e, hf, hs]

/-- Without force a unit in use is released unless a channel's descriptor names it (R127). -/
theorem requestUnitDeactivate_plain (e : unit.toNat = u.val) (hs : InUse (b.unit u)) :
    requestUnitDeactivate [unit, 0] b =
      if unitInUse u b then refuseUnit .unitBusy u b else answerUnit u (releaseUnit u b) := by
  have hf : flagOf? (fieldAt [unit, 0] 1 1) = some false := forceFlag unit 0
  rw [requestUnitDeactivate, onUnit_val e, hf]
  rcases hs with hs | hs <;> rw [hs] <;> rfl

/-- With force a unit in use is released once no access to it is in flight (R128, R129). -/
theorem requestUnitDeactivate_forced (e : unit.toNat = u.val) (hs : InUse (b.unit u)) :
    requestUnitDeactivate [unit, 1] b =
      if b.unitAccessed u then (b.updUnit u fun x => { x with deactPending := true }, .deferred)
      else answerUnit u (deactivate u b) := by
  have hf : flagOf? (fieldAt [unit, 1] 1 1) = some true := forceFlag unit 1
  rw [requestUnitDeactivate, onUnit_val e, hf]
  rcases hs with hs | hs <;> rw [hs] <;> rfl

end UnitDeactivate

theorem state_releaseUnit (u : UnitId) (b : Blocks) : ((releaseUnit u b).unit u).state = .present := by
  rw [releaseUnit, unit_updUnit_self]

theorem waiters_releaseUnit (u : UnitId) (b : Blocks) : ((releaseUnit u b).unit u).waiters = (b.unit u).waiters := by
  rw [releaseUnit, unit_updUnit_self]

/-- A forced deactivation: the unit released, its waiters fault UNIT_STATE in list order (R79, R128). -/
theorem deactivate_eq (u : UnitId) (b : Blocks) :
    deactivate u b =
      (b.unit u).waiters.foldl (fun x c => settle (fault c ⟨.unitState, u⟩ false x))
        ((releaseUnit u b).updUnit u fun e => { e with waiters := [] }) := by
  rw [deactivate, faultWaiters, waiters_releaseUnit]

/-- The faults of the waiters leave the unit's state alone. -/
theorem state_deactivate (u : UnitId) (b : Blocks) : ((deactivate u b).unit u).state = .present :=
  ((kept_faultWaiters u .unitState (releaseUnit u b)).unit u).state.trans (state_releaseUnit u b)

theorem handover_deactivate (u : UnitId) {b : Blocks} (h : b.agent = none) : (deactivate u b).handover = b.handover :=
  ((kept_faultWaiters u .unitState (releaseUnit u b)).agent h).2

/-- Settles O27: the refusals, then the two forms of release. -/
theorem unitDeactivateChecksThenReleases : Obligations.UnitDeactivateChecksThenReleases := by
  intro tag unit force s hk r go
  have refused {reply : List Byte} (h : requestUnitDeactivate [unit, force] s.blocks = (s.blocks, .now reply)) :
      go = .next (unchanged s r reply) := request_unchanged hk rfl (congrArg (onBlocks _) h)
  have carriedOut {b : Blocks} {reply : List Byte} (hb : b.handover = s.blocks.handover)
      (h : requestUnitDeactivate [unit, force] s.blocks = (b, .now reply)) :
      go = .next (answered s r b s.link.tally reply) :=
    request_answered hk rfl (hb.trans (handover_of_taken hk)) (congrArg (onBlocks _) h)
  refine ⟨fun h => refused (requestUnitDeactivate_badField h), ?_⟩
  intro u e hf entry inUse accessed released
  refine ⟨fun hs => ?empty, fun hs => ?present, fun hu h0 hi => ?busy, fun hu h0 hi => ?plain, fun hu h1 ha => ?deferred,
    fun hu h1 ha => ?forced⟩
  case empty => exact refused ((requestUnitDeactivate_empty e hf hs).trans (refuseUnit_eq _ hs))
  case present => exact refused ((requestUnitDeactivate_present e hf hs).trans (answerUnit_eq hs))
  case busy =>
    subst h0
    have hq := requestUnitDeactivate_plain e hu
    rw [if_pos ((unitInUse_iff u s.blocks).mpr hi)] at hq
    exact refused (hq.trans (refuseUnit_eq _ rfl))
  case plain =>
    subst h0
    have hq := requestUnitDeactivate_plain e hu
    rw [if_neg (mt (unitInUse_iff u s.blocks).mp hi)] at hq
    exact carriedOut rfl (hq.trans (answerUnit_eq (state_releaseUnit u s.blocks)))
  case deferred =>
    subst h1
    have hq := requestUnitDeactivate_forced e hu
    rw [if_pos ((unitAccessed_iff u s.blocks).mpr ha)] at hq
    exact request_deferring hk rfl (handover_of_taken hk) (congrArg (onBlocks _) hq)
  case forced =>
    subst h1
    have hq := requestUnitDeactivate_forced e hu
    rw [if_neg (mt (unitAccessed_iff u s.blocks).mp ha), answerUnit_eq (state_deactivate u s.blocks)] at hq
    have hgo := carriedOut (handover_deactivate u (agent_of_taken hk)) hq
    rwa [deactivate_eq] at hgo

end Sys2Proof.Proofs
end

section
/-! PROOFS. The card side of an access: the answers of a card and the access timer (6.4, 6.5; R128, R129, R132 to R137). -/

namespace Sys2Proof.Proofs

open Sys2Proof.Machine Sys2Proof.Safety Sys2Proof.Laws

/-! ### The unit's share of the end of an access (R129, R135) -/

/-- A forced deactivation that waits on a unit is carried out at the end of the access; `e` is any entry that agrees with the unit's
own in what decides it. -/
theorem deactivatePending_eq {u : UnitId} {b : Blocks} {e : UnitEntry} (hd : (b.unit u).deactPending = e.deactPending)
    (hw : (b.unit u).waiters = e.waiters) :
    deactivatePending u b =
      if e.deactPending then
        { (e.waiters.foldl (fun x c => settle (fault c ⟨.unitState, u⟩ false x)) (b.updUnit u fun x =>
            { x with state := .present, slotEnable := false, latch := false, deactPending := false, waiters := [] })) with
          handover := some (.unit false u) }
      else b := by
  rw [deactivatePending, deactivate_eq, releaseUnit, updUnit_updUnit, hd, hw]

theorem deactPending_fence (e : UnitEntry) : (fence e).deactPending = e.deactPending := by
  unfold fence
  split <;> rfl

theorem waiters_fence (e : UnitEntry) : (fence e).waiters = e.waiters := by
  unfold fence
  split <;> rfl

/-- The expiry of the access timer at the unit: fenced, UNIT raised (R135). -/
def timedOut (u : UnitId) (due : Nat) (b : Blocks) : Blocks := raise .unit ((b.reachTime due).updUnit u fence)

theorem unit_timedOut (u : UnitId) (due : Nat) (b : Blocks) : (timedOut u due b).unit u = fence (b.unit u) := by
  rw [timedOut, unit_raise, unit_updUnit_self]
  rfl

/-! ### The three commands -/

section CardAnswers

variable {u : UnitId} {data : List Byte} {s : State} {a : Access} {due : Nat}

theorem accessTo_none (h : s.blocks.unitAccessed u = false) : accessTo u s = none := by
  simp [accessTo, h]

theorem doneAnswer_ignored (h : s.blocks.unitAccessed u = false) : exec (.doneAnswer u data) s = .next s := by
  change execDoneAnswer u data s = _
  rw [execDoneAnswer, accessTo_none h]
  exact onRunning_none s

theorem errorAnswer_ignored (h : s.blocks.unitAccessed u = false) : exec (.errorAnswer u) s = .next s := by
  change execErrorAnswer u s = _
  rw [execErrorAnswer, accessTo_none h]
  exact onRunning_none s

theorem accessTimeout_ignored (h : s.blocks.slotPort.inFlight = none) : exec .accessTimeout s = .next s := by
  change execAccessTimeout s = _
  simp only [execAccessTimeout, h]
  exact onRunning_none s

theorem doneAnswer_ends (hp : s.power = .running) (ha : accessTo u s = some a) :
    exec (.doneAnswer u data) s =
      .next (endStep (endAccess .slot a (.done (answeredBytes s.freeCount a data))
        { s with blocks := deactivatePending u s.blocks, freeCount := s.freeCount + 1 })) := by
  change execDoneAnswer u data s = _
  rw [execDoneAnswer, ha]
  exact onRunning_some hp _

theorem errorAnswer_ends (hp : s.power = .running) (ha : accessTo u s = some a) :
    exec (.errorAnswer u) s =
      .next (endStep (endAccess .slot a (.failed .unitError u) { s with blocks := deactivatePending u s.blocks })) := by
  change execErrorAnswer u s = _
  rw [execErrorAnswer, ha]
  exact onRunning_some hp _

theorem accessTimeout_ends (hp : s.power = .running) (ha : s.blocks.slotPort.inFlight = some a)
    (hc : a.card = some ⟨u, due⟩) :
    exec .accessTimeout s =
      .next (endStep (endAccess .slot a (.failed .unitTimeout u)
        { s with blocks := deactivatePending u (timedOut u due s.blocks) })) := by
  change execAccessTimeout s = _
  simp only [execAccessTimeout, ha, hc, Option.map_some]
  exact onRunning_some hp _

/-- A step that ends a slot bus access leaves buffer memory alone (R109). -/
theorem slotAccess_ends {i : Instr} {e : Ending} {b : Blocks} {k : Nat}
    (h : exec i s = .next (endStep (endAccess .slot a e { s with blocks := b, freeCount := k }))) :
    ∃ t, exec i s = .next t ∧ t.mem = s.mem ∧ t = endStep (endAccess .slot a e { s with blocks := b, freeCount := k }) :=
  ⟨_, h, by rw [endStep_mem, endAccess_mem], rfl⟩

end CardAnswers

/-! ### The bytes of a done answer (R133; log 9) -/

section AnsweredBytes

variable {a : Access}

theorem answeredBytes_write (h : a.dir = .write) (k : Nat) (data : List Byte) : answeredBytes k a data = [] := by
  simp only [answeredBytes, h]

theorem length_answeredBytes (h : a.dir = .read) (k : Nat) (data : List Byte) : (answeredBytes k a data).length = a.count := by
  simp [answeredBytes, h]

/-- A byte that the card brings stands in its place. -/
theorem getElem_answeredBytes (h : a.dir = .read) (k : Nat) {data : List Byte} {i : Nat} (hi : i < a.count)
    (hd : i < data.length) : (answeredBytes k a data)[i]? = data[i]? := by
  simp [answeredBytes, h, hi, hd]

/-- A card that brings every byte leaves none open. -/
theorem answeredBytes_full (h : a.dir = .read) (k : Nat) {data : List Byte} (hl : data.length = a.count) :
    answeredBytes k a data = data := by
  apply List.ext_getElem?
  intro i
  by_cases hi : i < a.count
  · exact getElem_answeredBytes h k hi (hl ▸ hi)
  · have hn := Nat.not_lt.mp hi
    rw [List.getElem?_eq_none (by rwa [length_answeredBytes h]), List.getElem?_eq_none (by rwa [hl])]

end AnsweredBytes

/-- Settles O40: each command is the end of the access behind its effect on the unit. -/
theorem cardAnswersEndAccess : Obligations.CardAnswersEndAccess := by
  intro u data s hp
  refine ⟨fun h => ⟨doneAnswer_ignored h, errorAnswer_ignored h⟩, accessTimeout_ignored, ?_⟩
  intro a due ha hc deactivated fenced ends
  have hto := accessTo_some ha hc
  have hpending : deactivatePending u s.blocks = deactivated s.blocks := deactivatePending_eq rfl rfl
  have hfenced : deactivatePending u (timedOut u due s.blocks) = deactivated fenced :=
    deactivatePending_eq (by rw [unit_timedOut, deactPending_fence]) (by rw [unit_timedOut, waiters_fence])
  have done := doneAnswer_ends (data := data) hp hto
  have error := errorAnswer_ends hp hto
  have timeout := accessTimeout_ends hp ha hc
  rw [hpending] at done error
  rw [hfenced] at timeout
  refine ⟨fun hd => ?write, fun hd hl => ?full, fun hd => ?read, ?error, ?timeout⟩
  case write =>
    rw [answeredBytes_write hd] at done
    exact slotAccess_ends done
  case full =>
    rw [answeredBytes_full hd s.freeCount hl] at done
    exact slotAccess_ends done
  case read =>
    exact ⟨_, length_answeredBytes hd _ _, fun i hi hl => getElem_answeredBytes hd _ hi hl, slotAccess_ends done⟩
  case error => exact slotAccess_ends error
  case timeout => exact slotAccess_ends timeout

end Sys2Proof.Proofs
end

section
/-! PROOFS. The cards: presence lines, cards detected and lost, request edges and the deadlines of WAIT (3.7, 6.2, 6.6; R77 to R79, R119
to R121, R138 to R140, R195). -/

namespace Sys2Proof.Proofs

open Sys2Proof.Machine Sys2Proof.Safety Sys2Proof.Laws

/-! ### The unit table at the end of a step -/

theorem unit_aside {b b' : Blocks} (h : Aside b b') (u : UnitId) : b'.unit u = b.unit u := by
  rw [h]
  rfl

theorem rxQueue_deliver (s : State) : (deliver s).link.rxQueue = s.link.rxQueue := by
  unfold deliver sendReply
  split
  · rfl
  · dsimp only
    split
    · split <;> rfl
    · rfl

/-- With no frame waiting, what follows an event leaves every unit alone. -/
theorem unit_endStep {s : State} (h : s.link.rxQueue = []) (u : UnitId) : (endStep s).blocks.unit u = s.blocks.unit u := by
  have hq : takeRequest (deliver s) = deliver s := takeRequest_busy (.inr ((rxQueue_deliver s).trans h))
  rw [endStep, hq]
  exact unit_aside (((aside_deliver s).trans (aside_deliver _)).trans (aside_settleLine _)) u

/-! ### Presence lines and cards detected (R119, R120) -/

section Presence

variable {u : UnitId} {level : Bool} {s : State}

theorem presenceLineChange_changes (hp : s.power ≠ .heldLow) (hl : (s.blocks.unit u).line ≠ level) :
    exec (.presenceLineChange u level) s = .next { s with blocks := changeLine u level s.blocks } := by
  have hc : ¬ (s.power = .heldLow ∨ (s.blocks.unit u).line = level) := not_or.mpr ⟨hp, hl⟩
  change execPresenceLineChange u level s = _
  rw [execPresenceLineChange, if_neg hc]
  rfl

theorem presenceLineChange_nothing (hl : (s.blocks.unit u).line = level) : exec (.presenceLineChange u level) s = .next s := by
  change execPresenceLineChange u level s = _
  rw [execPresenceLineChange, if_pos (.inr hl)]

/-- The blocks with the clock at the end of a unit's debounce or later, when its timer runs (log 2). -/
def debounced (u : UnitId) (b : Blocks) : Blocks :=
  { b with now := match (b.unit u).debounceDue with | some due => max b.now due | none => b.now }

theorem atDebounce_eq (u : UnitId) (s : State) : atDebounce u s = { s with blocks := debounced u s.blocks } := by
  unfold atDebounce debounced
  cases h : (s.blocks.unit u).debounceDue with
  | none => rfl
  | some due => rfl

theorem cardDetected_nothing (h : (s.blocks.unit u).presence = true) : exec (.cardDetected u) s = .next s := by
  change execCardDetected u s = _
  rw [execCardDetected, if_pos h]
  exact onRunning_none s

theorem cardDetected_detects (hp : s.power = .running) (h : (s.blocks.unit u).presence = false) :
    exec (.cardDetected u) s = .next (endStep { s with blocks := detectCard u (debounced u s.blocks) }) := by
  have hc : ¬ (s.blocks.unit u).presence = true := by simp [h]
  change execCardDetected u s = _
  rw [execCardDetected, if_neg hc, onRunning_some hp, atDebounce_eq]
  rfl

end Presence

/-! ### A card lost, at the unit (R79, R121, R129) -/

theorem unit_emptyUnit (u : UnitId) (b : Blocks) : (emptyUnit u b).unit u = goneUnit (b.unit u) := by
  rw [emptyUnit_eq, unit_raise, unit_updUnit_self]

theorem unit_emptyUnit_ne {u v : UnitId} (h : v ≠ u) (b : Blocks) : (emptyUnit u b).unit v = b.unit v := by
  rw [emptyUnit_eq, unit_raise, unit_updUnit_ne _ h]

/-- The unit becomes EMPTY, its waiters fault UNIT_GONE in list order, and a forced deactivation that waited is answered. -/
theorem loseCard_eq (u : UnitId) (b : Blocks) :
    loseCard u b =
      let faulted := (b.unit u).waiters.foldl (fun x c => settle (fault c ⟨.unitGone, u⟩ false x))
        ((emptyUnit u b).updUnit u fun e => { e with waiters := [] })
      if (b.unit u).deactPending then { faulted with handover := some (.unit true u) } else faulted := by
  have hw : ((emptyUnit u b).unit u).waiters = (b.unit u).waiters := by
    rw [unit_emptyUnit]
    rfl
  rw [loseCard, faultWaiters, hw]

/-- With no waiter and no deactivation pending nothing but the entry and the notice unit changes. -/
theorem loseCard_alone {u : UnitId} {b : Blocks} (hw : (b.unit u).waiters = []) (hd : (b.unit u).deactPending = false) :
    loseCard u b = (emptyUnit u b).updUnit u fun e => { e with waiters := [] } := by
  rw [loseCard_eq, hw, hd]
  rfl

theorem unit_loseCard_alone {u : UnitId} {b : Blocks} (hw : (b.unit u).waiters = []) (hd : (b.unit u).deactPending = false) :
    (loseCard u b).unit u = goneUnit (b.unit u) := by
  rw [loseCard_alone hw hd, unit_updUnit_self, unit_emptyUnit]
  exact congrArg (fun w => { goneUnit (b.unit u) with waiters := w }) hw.symm

/-- The faults of the waiters leave the entry of the lost card as it is, but for latch and waiters. -/
theorem unitKept_loseCard (u : UnitId) (b : Blocks) : UnitKept (goneUnit (b.unit u)) ((loseCard u b).unit u) := by
  have h := (kept_faultWaiters u .unitGone (emptyUnit u b)).unit u
  rw [unit_emptyUnit] at h
  unfold loseCard
  dsimp only
  split
  · exact h
  · exact h

/-! ### CARD_LOST, case by case (R121, R195; log 26, log 30) -/

section CardLost

variable {u : UnitId} {s : State} {a : Access} {due : Nat}

/-- The state with a card lost at its unit, before the access in flight to it ends (R121 steps 1 to 3). -/
def cardGone (u : UnitId) (s : State) : State := { s with blocks := loseCard u (debounced u s.blocks) }

theorem cardLost_nothing (h : (s.blocks.unit u).presence = false) : exec (.cardLost u) s = .next s := by
  have hc : ¬ (s.blocks.unit u).presence = true := by simp [h]
  change execCardLost u s = _
  rw [execCardLost, if_neg hc]
  exact onRunning_none s

theorem lastBeforeReset_iff :
    lastBeforeReset u s = true ↔ s.pendingReset.isSome ∧ s.blocks.unitAccessed u = true ∧ s.blocks.bufPort.inFlight = none := by
  simp [lastBeforeReset, and_assoc]

theorem cardLost_unaccessed (hp : s.power = .running) (h : (s.blocks.unit u).presence = true)
    (hu : s.blocks.unitAccessed u = false) :
    exec (.cardLost u) s = .next (endStep (cardGone u s)) := by
  have hl : ¬ lastBeforeReset u s = true := by simp [lastBeforeReset_iff, hu]
  change execCardLost u s = _
  simp only [execCardLost, if_pos h, if_neg hl, accessTo_none hu, onRunning_some hp, atDebounce_eq]
  rfl

/-- The access in flight ends with UNIT_GONE behind the loss. -/
theorem cardLost_accessed (hp : s.power = .running) (h : (s.blocks.unit u).presence = true)
    (ha : s.blocks.slotPort.inFlight = some a) (hc : a.card = some ⟨u, due⟩)
    (hr : s.pendingReset = none ∨ s.blocks.bufPort.inFlight.isSome) :
    exec (.cardLost u) s = .next (endStep (endAccess .slot a (.failed .unitGone u) (cardGone u s))) := by
  have hl : ¬ lastBeforeReset u s = true := by
    rw [lastBeforeReset_iff]
    rintro ⟨hx, _, hb⟩
    rcases hr with hr | hr
    · simp [hr] at hx
    · simp [hb] at hr
  change execCardLost u s = _
  simp only [execCardLost, if_pos h, if_neg hl, accessTo_some ha hc, onRunning_some hp, atDebounce_eq]
  rfl

/-- Where the access in flight is the last that a reset waits for, no waiter faults and the reset takes effect. -/
theorem cardLost_resets {x : Scope} (hp : s.power = .running) (h : (s.blocks.unit u).presence = true)
    (ha : s.blocks.slotPort.inFlight = some a) (hc : a.card = some ⟨u, due⟩) (hx : s.pendingReset = some x)
    (hb : s.blocks.bufPort.inFlight = none) :
    exec (.cardLost u) s =
      .next (endStep { s with
        blocks := resetBlocks x (emptyUnit u (debounced u s.blocks)), link := resetLink x s.link, pendingReset := none }) := by
  have hl : lastBeforeReset u s = true :=
    lastBeforeReset_iff.mpr ⟨by simp [hx], (unitAccessed_iff u s.blocks).mpr ⟨a, _, ha, hc, rfl⟩, hb⟩
  have hbuf : (freePort .slot (emptyUnit u (debounced u s.blocks))).bufPort.inFlight = none := by
    change (emptyUnit u (debounced u s.blocks)).bufPort.inFlight = none
    rw [emptyUnit_eq, bufPort_raise]
    exact hb
  change execCardLost u s = _
  simp only [execCardLost, if_pos h, if_pos hl, accessTo_some ha hc, onRunning_some hp, atDebounce_eq]
  rw [endAccess_last (s := onBlock { s with blocks := debounced u s.blocks } (emptyUnit u)) hx hbuf rfl]
  rfl

theorem link_endAccess (p : Port) (a : Access) (e : Ending) (hr : s.pendingReset = none) : (endAccess p a e s).link = s.link := by
  rw [endAccess_hands (.inl hr)]

theorem unitAccessed_card (h : s.blocks.unitAccessed u = true) :
    ∃ a due, s.blocks.slotPort.inFlight = some a ∧ a.card = some ⟨u, due⟩ := by
  obtain ⟨a, t, ha, hc, rfl⟩ := (unitAccessed_iff u s.blocks).mp h
  exact ⟨a, t.due, ha, hc⟩

/-- The end of an access with no reset pending leaves the entries' configuration alone. -/
theorem unitKept_endAccess (p : Port) (a : Access) (e : Ending) (hr : s.pendingReset = none) (u : UnitId) :
    UnitKept (s.blocks.unit u) ((endAccess p a e s).blocks.unit u) := by
  have h := (moved_handEnd a e (freePort p s.blocks)).unit u
  have hf : (freePort p s.blocks).unit u = s.blocks.unit u := unit_updArb _ _ _ _
  rw [endAccess_hands (.inl hr)]
  exact hf ▸ h

/-- With no reset pending and no frame waiting, the step ends with the unit's entry that of a lost card. -/
theorem cardLost_unitKept (hp : s.power = .running) (h : (s.blocks.unit u).presence = true) (hr : s.pendingReset = none)
    (hq : s.link.rxQueue = []) :
    ∃ t, exec (.cardLost u) s = .next t ∧ t.mem = s.mem ∧ UnitKept (goneUnit (s.blocks.unit u)) (t.blocks.unit u) := by
  have hlost : UnitKept (goneUnit (s.blocks.unit u)) ((cardGone u s).blocks.unit u) := unitKept_loseCard u (debounced u s.blocks)
  have hr' : (cardGone u s).pendingReset = none := hr
  have hq' : (cardGone u s).link.rxQueue = [] := hq
  cases hu : s.blocks.unitAccessed u with
  | false =>
    refine ⟨_, cardLost_unaccessed hp h hu, endStep_mem _, ?_⟩
    rwa [unit_endStep hq']
  | true =>
    obtain ⟨a, due, ha, hc⟩ := unitAccessed_card hu
    refine ⟨_, cardLost_accessed hp h ha hc (.inl hr), by rw [endStep_mem, endAccess_mem, cardGone], ?_⟩
    rw [unit_endStep (by rw [link_endAccess _ _ _ hr', hq'])]
    exact hlost.trans (unitKept_endAccess _ _ _ hr' u)

end CardLost

/-- Settles O42: each event by its cases. -/
theorem presenceLinesAndCards : Obligations.PresenceLinesAndCards := by
  intro u level s e now gone emptied faulted lost
  have hlost : cardGone u s = { s with blocks := lost } := congrArg (fun b => { s with blocks := b }) (loseCard_eq u _)
  refine ⟨presenceLineChange_changes, presenceLineChange_nothing, fun _ => cardDetected_nothing, cardDetected_detects,
    fun _ => cardLost_nothing, fun hp h hu => ?unaccessed, fun a due hp h ha hc => ⟨fun hr => ?accessed, fun x hx hb => ?resets⟩,
    fun hp h hw hd hu => ?alone, fun hp h hr hq => ?settled⟩
  case unaccessed => exact hlost ▸ cardLost_unaccessed hp h hu
  case accessed => exact hlost ▸ cardLost_accessed hp h ha hc hr
  case resets =>
    rw [cardLost_resets hp h ha hc hx hb]
    cases x <;> rfl
  case alone =>
    refine ⟨loseCard u (debounced u s.blocks), cardLost_unaccessed hp h hu, ?_⟩
    have hunit : (loseCard u (debounced u s.blocks)).unit u = gone := unit_loseCard_alone hw hd
    refine ⟨hunit, ?_⟩
    rw [loseCard_alone (b := debounced u s.blocks) hw hd]
    refine ⟨fun v hv => ?_, fun c => ?_, ?_, ?_⟩
    · rw [unit_updUnit_ne _ hv, unit_emptyUnit_ne hv]
      rfl
    · rw [chan_updUnit, emptyUnit_eq, chan_raise]
      rfl
    · rw [updUnit_now, emptyUnit_eq, now_raise]
      rfl
    · rw [updUnit_notice, emptyUnit_eq, summary_raise]
      rfl
  case settled =>
    obtain ⟨t, ht, hm, hk⟩ := cardLost_unitKept hp h hr hq
    exact ⟨t, ht, hm, hk.state, hk.presence, hk.window, hk.timeout, hk.slotEnable, hk.deactPending⟩

/-! ### Request edges and deadlines (R77, R78, R138 to R140; log 2, log 26) -/

section Edges

variable {u : UnitId} {c : ChanId} {b : Blocks} {s : State}

theorem takeEdge_ignored (h : ¬ InUse (b.unit u)) : takeEdge u b = b := by
  rw [takeEdge, if_neg (by simpa [InUse] using h)]

theorem takeEdge_latches (h : InUse (b.unit u)) (hw : (b.unit u).waiters = []) :
    takeEdge u b = b.updUnit u fun e => { e with latch := true } := by
  rw [takeEdge, if_pos (by simpa [InUse] using h), hw]

theorem takeEdge_completes {rest : List ChanId} (h : InUse (b.unit u)) (hw : (b.unit u).waiters = c :: rest) :
    takeEdge u b = settle (complete c false (b.leaveWaiters u c)) := by
  rw [takeEdge, if_pos (by simpa [InUse] using h), hw]

theorem requestEdge_next (hp : s.power = .running) :
    exec (.requestEdge u) s = .next (endStep { s with blocks := takeEdge u s.blocks }) := onRunning_some hp _

theorem expireWait_faults {d : Descriptor} (hd : b.current c = some d) (hs : d.src = .unit u) :
    expireWait c b = settle (fault c ⟨.waitTimeout, u⟩ false (b.leaveWaiters u c)) := by
  rw [expireWait, hd, Option.map_some, hs]

theorem deadlineExpiry_nothing (h : (s.blocks.chan c).state ≠ .pending) : exec (.deadlineExpiry c) s = .next s := by
  change execDeadlineExpiry c s = _
  rw [execDeadlineExpiry, if_neg h]
  exact onRunning_none s

theorem deadlineExpiry_expires {due : Nat} (hp : s.power = .running) (h : (s.blocks.chan c).state = .pending)
    (hd : (s.blocks.chan c).deadline = some due) :
    exec (.deadlineExpiry c) s = .next (endStep { s with blocks := expireWait c (s.blocks.reachTime due) }) := by
  change execDeadlineExpiry c s = _
  rw [execDeadlineExpiry, if_pos h, hd]
  exact onRunning_some hp _

end Edges

/-- Settles O43: the edge at a unit by its state and its waiters, the deadline by the channel's state. -/
theorem requestEdgesAndDeadlines : Obligations.RequestEdgesAndDeadlines := by
  intro u c s hp e left
  have hedge := requestEdge_next (u := u) hp
  refine ⟨fun h => ?ignored, fun h hw => ?latches, fun rest h hw => ?completes, deadlineExpiry_nothing,
    fun d due h hdue hd hs => ?expires⟩
  case ignored => rwa [takeEdge_ignored h] at hedge
  case latches => rwa [takeEdge_latches h hw] at hedge
  case completes => rwa [takeEdge_completes h hw] at hedge
  case expires =>
    have hexp := deadlineExpiry_expires hp h hdue
    rwa [expireWait_faults (b := s.blocks.reachTime due) hd hs] at hexp

end Sys2Proof.Proofs
end

section
/-! PROOFS. The guard unit: the range check and its charge, GUARD SET, GUARD FREEZE and GUARD QUERY, and the frozen table under every step
(chapter 7; R146, R147, R149 to R151, R153). -/

namespace Sys2Proof.Proofs

open Sys2Proof.Machine Sys2Proof.Safety Sys2Proof.Laws

/-! ### The frozen table over a step (R150, R153) -/

/-- The flag set, and the eight entries as they are in `entries`. -/
def FrozenAt (entries : Vector (Option GuardRange) 8) (b : Blocks) : Prop := b.guards.frozen = true ∧ b.guards.entries = entries

/-- RESET_N going low cuts the accesses in flight and leaves the guard unit as it is (R199). -/
theorem guards_resetNLow {s t : State} (ht : execResetNLow s = .next t) : t.blocks.guards = s.blocks.guards := by
  unfold execResetNLow at ht
  split at ht <;> injection ht with ht <;> subst ht <;> rfl

/-- Every command but the release of RESET_N keeps a frozen table. -/
theorem frozenAt_exec {entries : Vector (Option GuardRange) 8} {c : Instr} {s t : State} (hs : FrozenAt entries s.blocks)
    (hc : ∀ baud msz presence, c ≠ .resetNRelease baud msz presence) (ht : exec c s = .next t) : FrozenAt entries t.blocks := by
  by_cases hl : c = .resetNLow
  · subst hl
    rw [FrozenAt, guards_resetNLow ht]
    exact hs
  · exact (guard_basic entries).closed.exec hs hl hc ht

/-- Settles O59: `guard_basic` says it of every block operation, so of every command but those of RESET_N. -/
theorem frozenGuardTableStays : Obligations.FrozenGuardTableStays := by
  intro s t hf ht hn
  have hs : FrozenAt s.blocks.guards.entries s.blocks := ⟨hf, rfl⟩
  rcases step_cases ht with ⟨_, rfl⟩ | ⟨c, rest, hp, hx⟩
  · exact (guard_basic s.blocks.guards.entries).aside _ _ (aside_idle s) hs
  · refine frozenAt_exec (s := { s with pending := rest }) hs (fun baud msz presence e => ?_) hx
    exact hn baud msz presence rest (e ▸ hp)

/-! ### The range check (R145 to R147) -/

/-- The entry at an index refuses a check (R146). -/
def RefusedAt (g : GuardUnit) (offset length : Nat) (dir : Dir) (agent : Agent) (i : GuardId) : Prop :=
  ∃ r, g.entries[i] = some r ∧ r.refuses offset length dir agent = true

section RangeCheck

variable {g : GuardUnit} {offset length : Nat} {dir : Dir} {agent : Agent} {b : Blocks} {i : GuardId}

/-- What an enabled entry asks before it refuses: a shared byte, the direction, the agent (R146). -/
theorem refuses_iff (r : GuardRange) : r.refuses offset length dir agent = true ↔
    offset < r.limit ∧ r.base < offset + length ∧ r.mode.refuses dir = true ∧ r.agents.covers agent = true := by
  simp [GuardRange.refuses, and_assoc]

/-- The search answers an entry when there is one that refuses. -/
theorem refusing_isSome_iff : (g.refusing offset length dir agent).isSome ↔ ∃ i, RefusedAt g offset length dir agent i := by
  obtain ⟨hsome, hnone⟩ := refusing_spec g offset length dir agent
  constructor
  · intro h
    obtain ⟨i, hi⟩ := Option.isSome_iff_exists.mp h
    exact ⟨i, hsome i hi⟩
  · rintro ⟨i, r, hr, href⟩
    by_contra h
    have hpass := hnone (Option.not_isSome_iff_eq_none.mp h) i r hr
    exact absurd href (by simp [hpass])

/-- The search answers the lowest entry that refuses (R147). -/
theorem refusing_lowest (hi : RefusedAt g offset length dir agent i) (hl : ∀ j, j < i → ¬ RefusedAt g offset length dir agent j) :
    g.refusing offset length dir agent = some i := by
  refine find_finRange ?refuses fun j hj => ?lower
  case refuses =>
    obtain ⟨r, hr, href⟩ := hi
    rw [hr]
    exact href
  case lower =>
    cases hr : g.entries[j] with
    | none => rfl
    | some r => exact Bool.eq_false_iff.mpr fun href => hl j hj ⟨r, hr, href⟩

theorem rangeCheck_index : (rangeCheck offset length dir agent b).2 = b.guards.refusing offset length dir agent := by
  unfold rangeCheck
  split <;> rename_i h <;> exact h.symm

theorem rangeCheck_refused (h : b.guards.refusing offset length dir agent = some i) :
    rangeCheck offset length dir agent b = (chargeGuard i b, some i) := by
  rw [rangeCheck, h]

theorem rangeCheck_passed (h : ∀ i, ¬ RefusedAt b.guards offset length dir agent i) :
    rangeCheck offset length dir agent b = (b, none) := by
  have hn : b.guards.refusing offset length dir agent = none :=
    Option.not_isSome_iff_eq_none.mp fun hs => (refusing_isSome_iff.mp hs).elim h
  rw [rangeCheck, hn]

end RangeCheck

/-- Settles O31: the modes and agents one by one, then the search over the entries. -/
theorem rangeCheckRefusesExactly : Obligations.RangeCheckRefusesExactly := by
  intro offset length dir agent b refusesDir coversAgent refuses
  have hdir (m : GuardMode) : m.refuses dir = true ↔ refusesDir m := by
    cases m <;> cases dir <;> simp [GuardMode.refuses, refusesDir]
  have hagent (a : GuardAgents) : a.covers agent = true ↔ coversAgent a := by
    cases a <;> cases agent <;> simp [GuardAgents.covers, coversAgent]
  have hrefuses (i : GuardId) : RefusedAt b.guards offset length dir agent i ↔ refuses i :=
    exists_congr fun r => and_congr_right fun _ => (refuses_iff r).trans (by rw [hdir, hagent])
  refine ⟨?refusesIff, fun h => rangeCheck_passed fun i => mt (hrefuses i).mp (h i)⟩
  case refusesIff =>
    rw [rangeCheck_index, refusing_isSome_iff]
    exact exists_congr hrefuses

/-- Settles O32: the lowest entry that refuses is the one charged. -/
theorem refusalChargedToLowestEntry : Obligations.RefusalChargedToLowestEntry := by
  intro offset length dir agent b i refuses hi hl
  exact rangeCheck_refused (refusing_lowest hi hl)

/-! ### GUARD FREEZE and GUARD QUERY (R150, R151) -/

/-- One entry of GUARD QUERY's reply: the entry, then its hit count (R203). -/
def guardItem (g : GuardUnit) (i : GuardId) : List Byte := guardBytes g.entries[i] ++ beBytes 2 g.hits[i]

/-- The reply to GUARD QUERY (R151). -/
def guardTable (g : GuardUnit) : List Byte :=
  [0x00, flagByte g.frozen] ++ guardItem g 0 ++ guardItem g 1 ++ guardItem g 2 ++ guardItem g 3 ++ guardItem g 4 ++ guardItem g 5
    ++ guardItem g 6 ++ guardItem g 7

/-- A list made of a piece per entry, written out. -/
theorem flatMap_allGuards (f : GuardId → List Byte) :
    allGuards.flatMap f = f 0 ++ f 1 ++ f 2 ++ f 3 ++ f 4 ++ f 5 ++ f 6 ++ f 7 := by
  have hall : allGuards = [0, 1, 2, 3, 4, 5, 6, 7] := by decide
  simp [hall]

/-- GUARD QUERY by its clear flag. -/
theorem requestGuardQuery_eq (clear : Byte) (b : Blocks) :
    requestGuardQuery [clear] b =
      if clear = 0 then (b, .now (guardTable b.guards))
      else if clear = 1 then ({ b with guards := { b.guards with hits := Vector.replicate 8 0 } }, .now (guardTable b.guards))
      else (b, .now (badField 0xFF)) := by
  have htable : [Result.ok.code, flagByte b.guards.frozen] ++ allGuards.flatMap (guardItem b.guards) = guardTable b.guards := by
    simp [flatMap_allGuards, guardTable, Result.code]
  rw [← htable, requestGuardQuery, fieldAt_zero_byte, flagOf_cases]
  by_cases h0 : clear = 0
  · simp only [if_pos h0]
    rfl
  · by_cases h1 : clear = 1
    · simp only [if_neg h0, if_pos h1]
      rfl
    · simp only [if_neg h0, if_neg h1]

/-- Settles O30: FREEZE's one write, then QUERY by its clear flag. -/
theorem guardFreezeAndQuery : Obligations.GuardFreezeAndQuery := by
  intro tag s g
  refine ⟨fun hk => request_answered hk rfl (handover_of_taken hk) rfl, fun clear hk => ?query⟩
  case query =>
    intro r item reply
    have hq := requestGuardQuery_eq clear s.blocks
    split_ifs at hq ⊢
    · exact request_unchanged hk rfl (congrArg (onBlocks _) hq)
    · exact request_answered hk rfl (handover_of_taken hk) (congrArg (onBlocks _) hq)
    · exact request_unchanged hk rfl (congrArg (onBlocks _) hq)

/-! ### GUARD SET (R149) -/

/-- The fields of a clearing form: all 0. -/
def GuardClears (enabled : Byte) (base limit : Word) (mode agents : Byte) : Prop :=
  enabled = 0 ∧ base = 0 ∧ limit = 0 ∧ mode = 0 ∧ agents = 0

/-- A range that an enabled entry may have: 64-aligned, not empty, within buffer memory. -/
def GuardRangeOk (size base limit : Nat) : Prop := base % 64 = 0 ∧ limit % 64 = 0 ∧ base < limit ∧ limit ≤ size

section GuardSet

variable {size : Nat} {index enabled mode agents : Byte} {base limit : Word} {b : Blocks} {i : GuardId}

/-- The payload of GUARD SET (R202). -/
def guardSetPayload (index enabled : Byte) (base limit : Word) (mode agents : Byte) : List Byte :=
  [index, enabled] ++ beBytes 4 base.toNat ++ beBytes 4 limit.toNat ++ [mode, agents]

/-- The fields of GUARD SET are read as they were sent. -/
theorem guardSetPayload_fields (index enabled mode agents : Byte) (base limit : Word) :
    let payload := guardSetPayload index enabled base limit mode agents
    fieldAt payload 1 1 = enabled.toNat ∧ fieldAt payload 2 4 = base.toNat ∧ fieldAt payload 6 4 = limit.toNat ∧
      fieldAt payload 10 1 = mode.toNat ∧ fieldAt payload 11 1 = agents.toNat := by
  have word (x : Word) (pre post : List Byte) : fieldAt (pre ++ (beBytes 4 x.toNat ++ post)) pre.length 4 = x.toNat :=
    fieldAt_beBytes (word_lt x)
  have hbase := word base [index, enabled] (beBytes 4 limit.toNat ++ [mode, agents])
  have hlimit := word limit ([index, enabled] ++ beBytes 4 base.toNat) [mode, agents]
  have hcodes := fieldAt_skip ([index, enabled] ++ beBytes 4 base.toNat ++ beBytes 4 limit.toNat) [mode, agents]
  have hmode := (hcodes 0 1).trans (fieldAt_zero_byte mode [agents])
  have hagents := (hcodes 1 1).trans ((fieldAt_cons mode [agents] 0 1).trans (fieldAt_zero_byte agents []))
  simp only [← List.append_assoc, List.length_append, length_beBytes] at hbase hlimit hmode hagents
  exact ⟨(fieldAt_cons index _ 0 1).trans (fieldAt_zero_byte enabled _), hbase, hlimit, hmode, hagents⟩

theorem modeOfCode_iff {m : GuardMode} : GuardMode.ofCode mode.toNat = some m ↔ GuardMode.code m = mode :=
  ⟨code_of_modeOfCode, modeOfCode_code m mode⟩

theorem agentsOfCode_iff {a : GuardAgents} : GuardAgents.ofCode agents.toNat = some a ↔ GuardAgents.code a = agents :=
  ⟨code_of_agentsOfCode, agentsOfCode_code a agents⟩

/-- A clearing form asks for a disabled entry when its other fields are 0. -/
theorem guardEntry_zero (size base limit mode agents : Nat) :
    guardEntry size 0 base limit mode agents =
      if base = 0 && limit = 0 && mode = 0 && agents = 0 then some none else none := rfl

/-- An enabling form asks for an entry when mode, agents and range are good. -/
theorem guardEntry_one_iff {base limit mode agents : Nat} {x : Option GuardRange} :
    guardEntry size 1 base limit mode agents = some x ↔
      ∃ m a, GuardMode.ofCode mode = some m ∧ GuardAgents.ofCode agents = some a ∧ GuardRangeOk size base limit ∧
        x = some ⟨base, limit, m, a⟩ := by
  rw [guardEntry, show flagOf? 1 = some true from rfl]
  cases hm : GuardMode.ofCode mode with
  | none => simp
  | some m =>
    cases ha : GuardAgents.ofCode agents with
    | none => simp
    | some a => simp [GuardRangeOk, and_assoc, @eq_comm _ x]

/-- An entry is stored for a clearing form, or for an enabling form with a mode, agents and a range (R149, checks 3 to 6). -/
theorem guardEntry_eq_some_iff {x : Option GuardRange} :
    guardEntry size enabled.toNat base.toNat limit.toNat mode.toNat agents.toNat = some x ↔
      (GuardClears enabled base limit mode agents ∧ x = none) ∨
      enabled = 1 ∧ ∃ m a, GuardMode.code m = mode ∧ GuardAgents.code a = agents ∧ GuardRangeOk size base.toNat limit.toNat ∧
        x = some ⟨base.toNat, limit.toNat, m, a⟩ := by
  have zero {w : Nat} {y : BitVec w} : y.toNat = 0 ↔ y = 0 := BitVec.toNat_inj (y := 0)
  by_cases h0 : enabled = 0
  · subst h0
    rw [show (0 : Byte).toNat = 0 from rfl, guardEntry_zero]
    simp [GuardClears, zero, and_assoc, @eq_comm _ x]
  by_cases h1 : enabled = 1
  · subst h1
    rw [show (1 : Byte).toNat = 1 from rfl, guardEntry_one_iff]
    simp [GuardClears, modeOfCode_iff, agentsOfCode_iff]
  · have hflag : flagOf? enabled.toNat = none := by rw [flagOf_cases, if_neg h0, if_neg h1]
    rw [guardEntry, hflag]
    refine ⟨nofun, ?_⟩
    rintro (⟨⟨h, _⟩, _⟩ | ⟨h, _⟩)
    · exact absurd h h0
    · exact absurd h h1

/-- The blocks with the entry at an index replaced, hit counts and other entries untouched. -/
def storeGuard (i : GuardId) (x : Option GuardRange) (b : Blocks) : Blocks :=
  { b with guards := { b.guards with entries := b.guards.entries.set i.val x } }

theorem requestGuardSet_ge (e : 8 ≤ index.toNat) :
    requestGuardSet (guardSetPayload index enabled base limit mode agents) b = (b, .now (badField 0xFF)) := by
  have hi : fieldAt (guardSetPayload index enabled base limit mode agents) 0 1 = index.toNat := fieldAt_zero_byte _ _
  rw [requestGuardSet, hi, indexOf_ge e]

theorem requestGuardSet_frozen (e : index.toNat = i.val) (hf : b.guards.frozen = true) :
    requestGuardSet (guardSetPayload index enabled base limit mode agents) b =
      (b, .now ([0x0F, index] ++ guardBytes b.guards.entries[i])) := by
  have hi : fieldAt (guardSetPayload index enabled base limit mode agents) 0 1 = i.val := (fieldAt_zero_byte _ _).trans e
  have hx : byteOf i.val = index := by rw [← e, byteOf_toNat]
  rw [requestGuardSet, hi, indexOf_val]
  dsimp only
  rw [if_pos hf, guardReply, hx]
  rfl

/-- While the table is not frozen, the fields decide. -/
theorem requestGuardSet_unfrozen (e : index.toNat = i.val) (hf : b.guards.frozen = false) :
    requestGuardSet (guardSetPayload index enabled base limit mode agents) b =
      (guardEntry b.bufferSize enabled.toNat base.toNat limit.toNat mode.toNat agents.toNat).elim (b, .now (badField 0xFF))
        fun x => (storeGuard i x b, .now ([0x00, index] ++ guardBytes x)) := by
  have hi : fieldAt (guardSetPayload index enabled base limit mode agents) 0 1 = i.val := (fieldAt_zero_byte _ _).trans e
  have hx : byteOf i.val = index := by rw [← e, byteOf_toNat]
  have hf' : ¬ b.guards.frozen = true := by simp [hf]
  obtain ⟨henabled, hbase, hlimit, hmode, hagents⟩ := guardSetPayload_fields index enabled mode agents base limit
  rw [requestGuardSet, hi, indexOf_val]
  dsimp only
  rw [if_neg hf', henabled, hbase, hlimit, hmode, hagents]
  cases guardEntry b.bufferSize enabled.toNat base.toNat limit.toNat mode.toNat agents.toNat with
  | none => rfl
  | some x => simp [guardReply, storeGuard, hx, Result.code]

end GuardSet

/-- Settles O29: the index, the flag, then the fields by `guardEntry_eq_some_iff`. -/
theorem guardSetChecksThenReplaces : Obligations.GuardSetChecksThenReplaces := by
  intro tag index enabled base limit mode agents s payload hk r go g clears rangeOk store
  have refused {reply : List Byte} (h : requestGuardSet payload s.blocks = (s.blocks, .now reply)) :
      go = .next (unchanged s r reply) := request_unchanged hk rfl (congrArg (onBlocks _) h)
  refine ⟨fun hge => refused (requestGuardSet_ge hge), ?_⟩
  intro i e
  have stored {x : Option GuardRange} (hf : g.frozen = false)
      (hx : guardEntry s.blocks.bufferSize enabled.toNat base.toNat limit.toNat mode.toNat agents.toNat = some x) :
      go = .next (answered s r (store i x) s.link.tally ([0x00, index] ++ guardBytes x)) := by
    have hq : requestGuardSet payload s.blocks = _ := requestGuardSet_unfrozen e hf
    rw [hx] at hq
    exact request_answered hk rfl (handover_of_taken hk) (congrArg (onBlocks _) hq)
  refine ⟨fun hf => refused (requestGuardSet_frozen e hf), fun hf hc => ?clears, fun m a hf h1 hm ha hr => ?enables,
    fun hf hc hn => ?badField⟩
  case clears => exact stored hf (guardEntry_eq_some_iff.mpr (.inl ⟨hc, rfl⟩))
  case enables =>
    subst hm ha
    exact stored hf (guardEntry_eq_some_iff.mpr (.inr ⟨h1, m, a, rfl, rfl, hr, rfl⟩))
  case badField =>
    have hnone : guardEntry s.blocks.bufferSize enabled.toNat base.toNat limit.toNat mode.toNat agents.toNat = none := by
      refine Option.eq_none_iff_forall_ne_some.mpr fun x hx => ?_
      rcases guardEntry_eq_some_iff.mp hx with ⟨hc', _⟩ | ⟨h1, m, a, hm, ha, hr, _⟩
      · exact hc hc'
      · exact hn ⟨h1, ⟨m, hm⟩, ⟨a, ha⟩, hr⟩
    have hq : requestGuardSet payload s.blocks = _ := requestGuardSet_unfrozen e hf
    rw [hnone] at hq
    exact refused hq

end Sys2Proof.Proofs
end

section
/-! PROOFS. The notice unit: a raised source, the notice a QUIET sender builds, NOTICE ACK and the unmuting of the sender (chapter 8;
R155, R157, R158, R160 to R162). -/

namespace Sys2Proof.Proofs

open Sys2Proof.Machine Sys2Proof.Safety Sys2Proof.Laws

/-! ### Building a notice (R157, R158) -/

theorem buildNotice_of_ne {b : Blocks} (h : b.notice.sender ≠ .quiet) : buildNotice b = b := by
  unfold buildNotice
  split
  · contradiction
  · rfl

theorem buildNotice_quiet {b : Blocks} (hq : b.notice.sender = .quiet) (hs : b.notice.summary ≠ 0) :
    buildNotice b =
      { b with
        notice := { b.notice with
          tag := b.notice.tag + 1
          sender := .awaiting
            { snapshot := b.notice.summary, later := 0, frame := noticeFrame b (b.notice.tag + 1) b.notice.summary, sends := 1,
              phase := .waiting } }
        noticeSlot := some (noticeFrame b (b.notice.tag + 1) b.notice.summary) } := by
  unfold buildNotice
  rw [hq]
  exact if_neg hs

/-- Building a notice leaves a sender in QUIET or AWAITING; it never mutes one. -/
theorem buildNotice_not_muted {b : Blocks} (h : b.notice.sender ≠ .muted) : (buildNotice b).notice.sender ≠ .muted := by
  by_cases hq : b.notice.sender = .quiet
  · by_cases hs : b.notice.summary = 0
    · have hb : buildNotice b = b := by simp [buildNotice, hq, hs]
      rwa [hb]
    · rw [buildNotice_quiet hq hs]
      exact Sender.noConfusion
  · rwa [buildNotice_of_ne hq]

/-! ### Raising a source (R155) -/

theorem raise_masked {x : Source} {b : Blocks} (h : b.notice.mask &&& 1#16 <<< x.bit = 0) : raise x b = b :=
  if_neg fun hs => (sourceSet_has_iff _ _).mp hs h

theorem raise_admitted {x : Source} {b : Blocks} (h : b.notice.mask &&& 1#16 <<< x.bit ≠ 0) :
    raise x b = buildNotice { b with notice := addSource b.notice (1#16 <<< x.bit) } :=
  if_pos ((sourceSet_has_iff _ _).mpr h)

theorem addSource_awaiting {n : NoticeUnit} {f : NoticeInFlight} (x : SourceSet) (h : n.sender = .awaiting f) :
    addSource n x = { n with summary := n.summary ||| x, sender := .awaiting { f with later := f.later ||| x } } := by
  rw [addSource, h]

theorem addSource_of_not_awaiting {n : NoticeUnit} (x : SourceSet) (h : ∀ f, n.sender ≠ .awaiting f) :
    addSource n x = { n with summary := n.summary ||| x } := by
  unfold addSource
  split
  · exact absurd ‹_› (h _)
  · rfl

/-- Settles O52: a masked source by `raise_masked`, another by the sender state it meets. -/
theorem raiseEntersSummaryAndBuildsNotice : Obligations.RaiseEntersSummaryAndBuildsNotice := by
  intro x b n bit frame
  refine ⟨raise_masked, fun hm hs => ?muted, fun f hm hs => ?awaiting, fun hm hs => ?quiet⟩
  case muted =>
    rw [raise_admitted hm, addSource_of_not_awaiting _ (by simp [n, hs]), buildNotice_of_ne (by simp [n, hs])]
  case awaiting =>
    rw [raise_admitted hm, addSource_awaiting _ hs, buildNotice_of_ne Sender.noConfusion]
  case quiet =>
    have hne : n.summary ||| bit ≠ 0 := of_eq_false (or_bit_eq_zero _ _ (bit_lt x))
    rw [raise_admitted hm, addSource_of_not_awaiting _ (by simp [n, hs])]
    exact buildNotice_quiet (b := { b with notice := { n with summary := n.summary ||| bit } }) hs hne

/-! ### A NOTICE ACK at the notice unit (R160, R161) -/

theorem dropNotice_awaiting {b : Blocks} {f : NoticeInFlight} (h : b.notice.sender = .awaiting f) :
    dropNotice b =
      { b with
        notice := { b.notice with sender := .quiet }
        noticeSlot := if f.phase = .waiting then none else b.noticeSlot } := by
  rw [dropNotice, h]

theorem acceptAck_awaiting {b : Blocks} {f : NoticeInFlight} (h : b.notice.sender = .awaiting f) :
    acceptAck f b =
      buildNotice
        { b with
          notice := { b.notice with summary := b.notice.summary &&& ~~~(f.snapshot &&& ~~~f.later), sender := .quiet }
          noticeSlot := if f.phase = .waiting then none else b.noticeSlot } :=
  congrArg buildNotice (dropNotice_awaiting
    (b := { b with notice := { b.notice with summary := b.notice.summary &&& ~~~(f.snapshot &&& ~~~f.later) } }) h)

theorem takeAck_accepted {tag : Byte} {s : State} {f : NoticeInFlight} (h : s.blocks.notice.sender = .awaiting f)
    (ht : tag = s.blocks.notice.tag) : takeAck tag s = { s with blocks := acceptAck f s.blocks } := by
  rw [takeAck, h]
  exact if_pos ht

/-- An ACK that finds no notice in flight, or another tag's, is stale. -/
theorem takeAck_stale {tag : Byte} {s : State} (h : ∀ f, s.blocks.notice.sender = .awaiting f → tag ≠ s.blocks.notice.tag) :
    takeAck tag s = staleAck s := by
  unfold takeAck
  split
  · exact if_neg (h _ ‹_›)
  · rfl

/-! ### Good frames and the unmuting (R162, R173) -/

theorem unmute_muted {b : Blocks} (h : b.notice.sender = .muted) :
    unmute b = buildNotice { b with notice := { b.notice with sender := .quiet } } := by
  rw [unmute, h]

/-- The ACK reaches the notice unit, then a MUTED sender is unmuted; the ACK's payload has no part in either (R161). -/
theorem exec_noticeAck {tag : Byte} {payload : List Byte} {s t : State} (hp : s.power = .running) (ht : takeAck tag (hunt s) = t) :
    exec (.noticeAck tag payload) s = .next (endStep { t with blocks := unmute t.blocks }) := by
  have hgood : goodFrame (frameOf tag ackCode payload) s = { t with blocks := unmute t.blocks } := by
    simp [goodFrame, frameOf, ht]
  exact (onRunning_some hp _).trans (by rw [hgood])

theorem exec_noticeAck_accepted {tag : Byte} {payload : List Byte} {s : State} {f : NoticeInFlight} (hp : s.power = .running)
    (hs : s.blocks.notice.sender = .awaiting f) (ht : tag = s.blocks.notice.tag) :
    exec (.noticeAck tag payload) s = .next (endStep { hunt s with blocks := unmute (acceptAck f s.blocks) }) := by
  rw [exec_noticeAck hp (takeAck_accepted (s := hunt s) hs ht)]
  rfl

theorem exec_noticeAck_stale {tag : Byte} {payload : List Byte} {s : State} (hp : s.power = .running)
    (h : ∀ f, s.blocks.notice.sender = .awaiting f → tag ≠ s.blocks.notice.tag) :
    exec (.noticeAck tag payload) s = .next (endStep { staleAck (hunt s) with blocks := unmute s.blocks }) := by
  rw [exec_noticeAck hp (takeAck_stale (s := hunt s) h)]
  rfl

/-- A frame that is no ACK unmutes the sender before it joins the receive queue. -/
theorem exec_goodFrame {tag kind : Byte} {payload : List Byte} {s : State} (hp : s.power = .running) (hk : kind ≠ ackCode) :
    exec (.goodFrame tag kind payload) s =
      .next (endStep (appendFrame (frameOf tag kind payload) { hunt s with blocks := unmute s.blocks })) := by
  have hgood : goodFrame (frameOf tag kind payload) s =
      appendFrame (frameOf tag kind payload) { hunt s with blocks := unmute s.blocks } := by
    simp [goodFrame, frameOf, hk, hunt]
  exact (onRunning_some hp _).trans (by rw [hgood])

theorem appendFrame_room {r : RxFrame} {s : State} (h : s.link.rxQueue.length < 4) :
    appendFrame r s = { s with link := { s.link with rxQueue := s.link.rxQueue ++ [r] } } := if_pos h

theorem appendFrame_full {r : RxFrame} {s : State} (h : 4 ≤ s.link.rxQueue.length) :
    appendFrame r s = countError (fun t => { t with overrun := countUp t.overrun }) s := if_neg (Nat.not_lt.mpr h)

/-- Settles O9: an ACK is accepted or stale, a frame finds room or not; `unmute_muted` and `unmute_of_ne` say what either does to the
sender. -/
theorem noticeAckAndUnmuting : Obligations.NoticeAckAndUnmuting := by
  intro tag kind payload s hp stale unmuted
  refine ⟨fun n hs ht => ?accepted, fun h => ?stale, fun hs => ?mutedAck, fun hs hk hq => ?mutedFrame, fun hs hk hq => ?mutedOverrun⟩
  case accepted =>
    have hack : acceptAck n s.blocks = _ := acceptAck_awaiting hs
    have hnot : (acceptAck n s.blocks).notice.sender ≠ .muted := by
      rw [hack]
      exact buildNotice_not_muted Sender.noConfusion
    rw [exec_noticeAck_accepted hp hs ht, unmute_of_ne hnot, hack]
    rfl
  case stale =>
    have hnot : s.blocks.notice.sender ≠ .muted := by
      rcases h with hq | ⟨⟨f, hf⟩, _⟩
      · simp [hq]
      · simp [hf]
    have hstale : ∀ f, s.blocks.notice.sender = .awaiting f → tag ≠ s.blocks.notice.tag := by
      intro f hf
      rcases h with hq | ⟨_, ht⟩
      · simp [hq] at hf
      · exact ht
    rw [exec_noticeAck_stale hp hstale, unmute_of_ne hnot]
    rfl
  case mutedAck =>
    rw [exec_noticeAck_stale hp (by simp [hs]), unmute_muted hs]
    rfl
  case mutedFrame =>
    rw [exec_goodFrame hp hk, unmute_muted hs, appendFrame_room]
    · rfl
    · exact hq
  case mutedOverrun =>
    rw [exec_goodFrame hp hk, unmute_muted hs, appendFrame_full]
    · rfl
    · exact hq

end Sys2Proof.Proofs
end

section
/-! PROOFS. The control link: the receiver byte by byte, damaged frames, breaks and the transmitter (chapter 9; R159, R169 to R172, R175
to R181). -/

namespace Sys2Proof.Proofs

open Sys2Proof.Machine Sys2Proof.Safety Sys2Proof.Laws

/-! ### The receiver takes a byte (R171) -/

theorem lengthOk_iff (b : Byte) : lengthOk b = true ↔ 2 ≤ b.toNat ∧ b.toNat ≤ 242 := by
  simp [lengthOk]

theorem lengthOk_false_iff (b : Byte) : lengthOk b = false ↔ b.toNat < 2 ∨ 242 < b.toNat := by
  rw [← Bool.not_eq_true, lengthOk_iff]
  omega

section ReceiveByte

variable {s : State} {b hi : Byte} {p : Partial} {d : Nat}

theorem receiveByte_sync (h : s.link.receiver = .hunt) : receiveByte 0xC3 s = withRx s (.length (s.blocks.now + 2001)) := by
  rw [receiveByte, h]
  rfl

theorem receiveByte_noise (h : s.link.receiver = .hunt) (hb : b ≠ 0xC3) : receiveByte b s = s := by
  rw [receiveByte, h]
  exact if_neg hb

theorem receiveByte_length (h : s.link.receiver = .length d) (hb : lengthOk b = true) :
    receiveByte b s =
      withRx s (.body { length := b.toNat, taken := [], crc := crc16Byte 0xFFFF b } (s.blocks.now + 2001)) := by
  rw [receiveByte, h]
  exact if_pos hb

theorem receiveByte_badLength (h : s.link.receiver = .length d) (hb : lengthOk b = false) : receiveByte b s = lengthError s := by
  rw [receiveByte, h]
  exact if_neg (Bool.not_eq_true _ ▸ hb)

theorem length_keep (p : Partial) (b : Byte) : (p.keep b).taken.length = p.taken.length + 1 := List.length_append

theorem receiveByte_keeps (h : s.link.receiver = .body p d) (hl : p.taken.length + 1 ≠ p.length) :
    receiveByte b s = withRx s (.body (p.keep b) (s.blocks.now + 2001)) := by
  rw [receiveByte, h]
  exact if_neg (length_keep p b ▸ hl)

theorem receiveByte_lastKept (h : s.link.receiver = .body p d) (hl : p.taken.length + 1 = p.length) :
    receiveByte b s = withRx s (.check (p.keep b) none (s.blocks.now + 2001)) := by
  rw [receiveByte, h]
  exact if_pos (length_keep p b ▸ hl)

theorem receiveByte_checkHigh (h : s.link.receiver = .check p none d) :
    receiveByte b s = withRx s (.check p (some b) (s.blocks.now + 2001)) := by
  rw [receiveByte, h]
  rfl

theorem receiveByte_checkFails (h : s.link.receiver = .check p (some hi) d) (hc : hi ++ b ≠ p.crc) :
    receiveByte b s = checkError s := by
  rw [receiveByte, h]
  exact if_neg hc

/-- The check matches: the bytes kept are the tag, the kind and the payload of a good frame. -/
theorem receiveByte_checkMatches {tag kind : Byte} {payload : List Byte} (h : s.link.receiver = .check p (some hi) d)
    (ht : p.taken = tag :: kind :: payload) (hk : p.crc = frameCheck tag kind payload) (hc : hi ++ b = p.crc) :
    receiveByte b s = goodFrame (frameOf tag kind payload) s := by
  rw [receiveByte, h]
  refine (if_pos hc).trans ?_
  rw [ht, hk]
  rfl

theorem exec_characterReceived (hp : s.power = .running) (b : Byte) :
    exec (.characterReceived b) s = .next (endStep (receiveByte b s)) := onRunning_some hp _

/-- A byte that only moves a settled part's receiver leaves nothing for the end of the step (`receive_next`). -/
theorem characterReceived_enters {x : Receiver} (hp : s.power = .running) (hs : settled s = true)
    (h : receiveByte b s = withRx s x) : exec (.characterReceived b) s = .next (withRx s x) :=
  receive_next hp hs s.link.receiver b x h

theorem exec_goodFrame_next (hp : s.power = .running) (tag kind : Byte) (payload : List Byte) :
    exec (.goodFrame tag kind payload) s = .next (endStep (goodFrame (frameOf tag kind payload) s)) := onRunning_some hp _

theorem lenErr_counts (hp : s.power = .running) (hb : lengthOk b = false) :
    exec (.lenErr b) s = .next (endStep (lengthError s)) := by
  change execLenErr b s = _
  rw [execLenErr, hb]
  exact onRunning_some hp _

theorem lenErr_nothing (hb : lengthOk b = true) : exec (.lenErr b) s = .next s := by
  change execLenErr b s = _
  rw [execLenErr, if_pos hb]
  exact onRunning_none s

theorem checkErr_counts (hp : s.power = .running) : exec .checkErr s = .next (endStep (checkError s)) := onRunning_some hp _

end ReceiveByte

/-- Settles O34: one `receiveByte_` lemma per row of the table of R171. -/
theorem receiverTakesByte : Obligations.ReceiverTakesByte := by
  intro b s hp hs go due enters
  refine ⟨fun h hb => ?sync, fun h hb => ?noise, fun d h hlo hhi => ?length, fun d h hb => ?badLength, fun p d h hl => ?keeps,
    fun p d h hl => ?lastKept, fun p d h => ?checkHigh, fun p hi d h hc => ?checkFails,
    fun tag kind payload p hi d h ht hk hc => ?checkMatches⟩
  case sync =>
    subst hb
    exact characterReceived_enters hp hs (receiveByte_sync h)
  case noise => exact (exec_characterReceived hp b).trans (by rw [receiveByte_noise h hb, endStep_settled hs])
  case length => exact characterReceived_enters hp hs (receiveByte_length h ((lengthOk_iff b).mpr ⟨hlo, hhi⟩))
  case badLength =>
    have hbad := (lengthOk_false_iff b).mpr hb
    exact (exec_characterReceived hp b).trans (by rw [receiveByte_badLength h hbad, lenErr_counts hp hbad])
  case keeps => exact characterReceived_enters hp hs (receiveByte_keeps h hl)
  case lastKept => exact characterReceived_enters hp hs (receiveByte_lastKept h hl)
  case checkHigh => exact characterReceived_enters hp hs (receiveByte_checkHigh h)
  case checkFails => exact (exec_characterReceived hp b).trans (by rw [receiveByte_checkFails h hc, checkErr_counts hp])
  case checkMatches =>
    exact (exec_characterReceived hp b).trans (by rw [receiveByte_checkMatches h ht hk hc, exec_goodFrame_next hp])

/-! ### Damaged frames (R171, R172, R181) -/

theorem gapErr_counts {s : State} {due : Nat} (hp : s.power = .running) (h : s.link.receiver.gapDue = some due) :
    exec .gapErr s = .next (endStep (gapError (atTime due s))) := by
  change execGapErr s = _
  rw [execGapErr, h]
  exact onRunning_some hp _

theorem gapErr_nothing {s : State} (h : s.link.receiver.gapDue = none) : exec .gapErr s = .next s := by
  change execGapErr s = _
  rw [execGapErr, h]
  exact onRunning_none s

/-- Settles O35: `lengthError`, `checkError` and `gapError` are `countError` after `hunt`, each with its own counter. -/
theorem damagedFrameCountsAndRaisesLink : Obligations.DamagedFrameCountsAndRaisesLink := by
  intro s hp counted
  refine ⟨fun l hl => ?lenErr, fun l hlo hhi => ?lengthFits, ?checkErr, fun due h => ?gapErr, fun h => ?noFrame⟩
  case lenErr => exact lenErr_counts hp ((lengthOk_false_iff l).mpr hl)
  case lengthFits => exact lenErr_nothing ((lengthOk_iff l).mpr ⟨hlo, hhi⟩)
  case checkErr => exact checkErr_counts hp
  case gapErr => exact gapErr_counts hp h
  case noFrame => exact gapErr_nothing (by rw [h]; rfl)

/-! ### The LINK reset (R175 to R177) -/

/-- A deferral in progress at the break makes its reply silent; otherwise the flag stays. -/
theorem silent_breakLink (h : HandlerPhase) (l : Link) :
    (breakLink h l).silent = match h with | .deferred _ => true | _ => l.silent := by
  cases h with
  | deferred r => exact Bool.or_true _
  | free | sending r => exact Bool.or_false _

theorem cutOff_eq (l : Line) : l.cutOff = match l with | .idle => .idle | _ => .cut := by
  cases l <;> rfl

theorem breakLink_eq (h : HandlerPhase) (l : Link) :
    breakLink h l =
      { l with
        receiver := .hunt
        rxQueue := []
        replyMemory := keptReplies h l.replyMemory
        silent := (breakLink h l).silent
        replySlot := none
        line := l.line.cutOff
        tally := { l.tally with breaks := countUp l.tally.breaks } } := rfl

/-- The break empties the notice slot whatever the phase of the notice that is given up. -/
theorem breakNotice_eq (b : Blocks) :
    breakNotice b =
      buildNotice
        { b with
          noticeSlot := none
          resetCause := .link
          notice := { b.notice with summary := b.notice.summary ||| 1, sender := .quiet } } := by
  unfold breakNotice dropNotice
  split <;> rfl

/-- Settles O36: what is left of reply memory and of the request is read off the handler's phase. -/
theorem breakResetsLinkAlone : Obligations.BreakResetsLinkAlone := by
  intro s hp
  have hnext : exec .lineBreak s = .next (endStep (linkReset s)) := onRunning_some hp _
  rw [hnext, linkReset, breakLink_eq, silent_breakLink, cutOff_eq, breakNotice_eq]
  cases s.handler <;> rfl

/-! ### The transmitter takes a frame (R178) -/

/-- The reply goes before the notice. -/
theorem takeFrame_eq (x : State) :
    takeFrame x =
      match x.link.replySlot, x.blocks.noticeSlot with
      | some f, _ => replyTaken x f x.freeCount
      | none, some f => noticeTaken x f x.freeCount
      | none, none => x := by
  unfold takeFrame takeReply takeNotice
  cases x.link.replySlot with
  | some f => rfl
  | none => cases x.blocks.noticeSlot <;> rfl

section Transmitter

variable {s : State} {f : Frame} {due : Nat}

theorem frameTaken_takes (hp : s.power = .running) (h : canTake s = true) :
    exec .frameTaken s = .next (endStep (takeFrame (idleLine s))) := by
  change execFrameTaken s = _
  rw [execFrameTaken, if_pos h]
  exact onRunning_some hp _

theorem frameTaken_nothing (h : canTake s = false) : exec .frameTaken s = .next s := by
  change execFrameTaken s = _
  rw [execFrameTaken, h]
  exact onRunning_none s

theorem idleLine_idle (h : s.link.line = .idle) : idleLine s = s := by
  rw [idleLine, ← h]

theorem replyEnd_frees (hp : s.power = .running) (h : s.link.line = .reply f due) :
    exec .replyEnd s = .next (endStep { takeFrame (idleLine (atTime due s)) with handler := .free }) := by
  change execReplyEnd s = _
  rw [execReplyEnd, h]
  exact onRunning_some hp _

theorem replyEnd_nothing (h : ∀ f due, s.link.line ≠ .reply f due) : exec .replyEnd s = .next s := by
  change execReplyEnd s = _
  unfold execReplyEnd
  split
  · exact absurd ‹_› (h _ _)
  · exact onRunning_none s

theorem noticeSent_next (hp : s.power = .running) (h : s.link.line = .notice f due) :
    exec .noticeSent s =
      .next (endStep (takeFrame (idleLine
        { s with blocks := { s.blocks.reachTime due with
          notice := noticeTiming (max s.blocks.now due) s.blocks.notice } }))) := by
  change execNoticeSent s = _
  rw [execNoticeSent, h]
  exact onRunning_some hp _

theorem noticeSent_nothing (h : ∀ f due, s.link.line ≠ .notice f due) : exec .noticeSent s = .next s := by
  change execNoticeSent s = _
  unfold execNoticeSent
  split
  · exact absurd ‹_› (h _ _)
  · exact onRunning_none s

end Transmitter

/-! ### The notice in flight and its resend timer (R159) -/

section Resend

variable {s : State} {m : NoticeUnit} {n : NoticeInFlight} {due : Nat}

theorem noticeTiming_onLine (now : Nat) (h : m.sender = .awaiting n) (hn : n.phase = .onLine) :
    noticeTiming now m = { m with sender := .awaiting { n with phase := .timing (now + 25000) } } := by
  rw [noticeTiming, h]
  exact if_pos hn

theorem noticeTiming_same (now : Nat) (h : ∀ n, m.sender = .awaiting n → n.phase ≠ .onLine) : noticeTiming now m = m := by
  unfold noticeTiming
  split
  · exact if_neg (h _ ‹_›)
  · rfl

theorem resend_again (b : Blocks) (h : n.sends < 4) :
    resend n b =
      { b with
        notice := { b.notice with sender := .awaiting { n with sends := n.sends + 1, phase := .waiting } }
        noticeSlot := some n.frame } := if_pos h

theorem resend_mutes (b : Blocks) (h : 4 ≤ n.sends) : resend n b = { b with notice := { b.notice with sender := .muted } } :=
  if_neg (Nat.not_lt.mpr h)

theorem resendTimerExpiry_next (hp : s.power = .running) (h : s.blocks.notice.sender = .awaiting n) (hn : n.phase = .timing due) :
    exec .resendTimerExpiry s = .next (endStep { s with blocks := resend n (s.blocks.reachTime due) }) := by
  change execResendTimerExpiry s = _
  simp only [execResendTimerExpiry, h, hn]
  exact onRunning_some hp _

theorem resendTimerExpiry_nothing (h : ∀ n due, s.blocks.notice.sender = .awaiting n → n.phase ≠ .timing due) :
    exec .resendTimerExpiry s = .next s := by
  change execResendTimerExpiry s = _
  unfold execResendTimerExpiry
  split
  · split
    · exact absurd ‹_› (h _ _ ‹_›)
    · exact onRunning_none s
  · exact onRunning_none s

end Resend

/-- Settles O37: each event by its own lemma; the taking of a frame is `takeFrame_eq`. -/
theorem transmitterEvents : Obligations.TransmitterEvents := by
  intro s hp idle at' next
  have hnext (x : State) : takeFrame x = next x := takeFrame_eq x
  refine ⟨fun h => ?cut, fun h hf => ?taken, fun h hr hn => ?noFrame, fun f due h => ?busy, fun f due h => ?replyEnd, replyEnd_nothing,
    fun f due n h hs hn => ?noticeSent, fun f due h hn => ?noticeGivenUp, noticeSent_nothing, fun n due hs hn hk => ?again,
    fun n due hs hn hk => ?muted, resendTimerExpiry_nothing⟩
  case cut =>
    rw [frameTaken_takes hp (by simp [canTake, h]), hnext]
    rfl
  case taken => rw [frameTaken_takes hp (by simpa [canTake, h] using hf), idleLine_idle h, hnext]
  case noFrame => exact frameTaken_nothing (by simp [canTake, h, hr, hn])
  case busy =>
    refine frameTaken_nothing ?_
    rcases h with h | h <;> simp [canTake, h]
  case replyEnd =>
    rw [replyEnd_frees hp h, hnext]
    rfl
  case noticeSent =>
    rw [noticeSent_next hp h, noticeTiming_onLine _ hs hn, hnext]
    rfl
  case noticeGivenUp =>
    rw [noticeSent_next hp h, noticeTiming_same _ hn, hnext]
    rfl
  case again =>
    rw [resendTimerExpiry_next hp hs hn, resend_again _ hk]
    rfl
  case muted =>
    rw [resendTimerExpiry_next hp hs hn, resend_mutes _ hk]
    rfl

/-! ### A whole frame, byte by byte (R169, R170, R171) -/

/-- A good frame discards whatever the receiver has in progress, so where it stood makes no difference. -/
theorem goodFrame_withRx (r : RxFrame) (s : State) (x : Receiver) : goodFrame r (withRx s x) = goodFrame r s := rfl

theorem wire_eq (f : Frame) :
    f.wire = [0xC3, byteOf (f.payload.length + 2)] ++ (f.tag :: f.kind :: f.payload)
      ++ beBytes 2 (frameCheck f.tag f.kind f.payload).toNat := rfl

section WholeFrame

variable {s : State} (hp : s.power = .running) (hs : settled s = true)

include hp

theorem feed_next (b : Byte) (l : List Byte) : feed (.next s) (b :: l) = feed (.next (endStep (receiveByte b s))) l := by
  rw [← exec_characterReceived hp]
  rfl

include hs

theorem feed_enters {b : Byte} {r x : Receiver} (l : List Byte) (h : receiveByte b (withRx s r) = withRx s x) :
    feed (.next (withRx s r)) (b :: l) = feed (.next (withRx s x)) l := by
  rw [← receive_next hp hs r b x h]
  rfl

theorem feed_header {b : Byte} (hr : s.link.receiver = .hunt) (hb : lengthOk b = true) :
    feed (.next s) [0xC3, b] =
      .next (withRx s (.body { length := b.toNat, taken := [], crc := crc16Byte 0xFFFF b } (s.blocks.now + 2001))) :=
  calc
    feed (.next s) [0xC3, b] = feed (.next (withRx s (.length (s.blocks.now + 2001)))) [b] :=
      feed_enters (r := s.link.receiver) hp hs [b] (receiveByte_sync hr)
    _ = _ := feed_enters hp hs [] (receiveByte_length (s := withRx s (.length (s.blocks.now + 2001))) rfl hb)

/-- The two check bytes spell the register, so the frame is good. -/
theorem feed_check {p : Partial} {hi lo tag kind : Byte} {payload : List Byte} {d : Nat} (ht : p.taken = tag :: kind :: payload)
    (hk : p.crc = frameCheck tag kind payload) (hc : hi ++ lo = p.crc) :
    feed (.next (withRx s (.check p none d))) [hi, lo] = .next (endStep (goodFrame (frameOf tag kind payload) s)) := by
  rw [feed_enters hp hs [lo] (receiveByte_checkHigh (s := withRx s (.check p none d)) rfl)]
  refine (feed_next (s := withRx s (.check p (some hi) (s.blocks.now + 2001))) hp lo []).trans ?_
  rw [receiveByte_checkMatches rfl ht hk hc, goodFrame_withRx]
  rfl

end WholeFrame

theorem toNat_lengthByte {n : Nat} (h : n ≤ 240) : (byteOf (n + 2)).toNat = n + 2 :=
  Nat.mod_eq_of_lt (by omega)

/-- Settles O60: the sync and length bytes by `feed_header`, the body by `feed_body`, the check bytes by `feed_check`. -/
theorem frameSentByteByByteIsReceived : Obligations.FrameSentByteByByteIsReceived := by
  intro tag kind payload s hp hs hr hl
  refine ⟨_, exec_goodFrame_next hp tag kind payload, ?_⟩
  change feed (.next s) (Frame.wire ⟨tag, kind, payload⟩) = _
  have hlen : (byteOf (payload.length + 2)).toNat = payload.length + 2 := toNat_lengthByte hl
  have hok : lengthOk (byteOf (payload.length + 2)) = true := (lengthOk_iff _).mpr (by omega)
  obtain ⟨hi, lo, hbytes, hcheck⟩ := beBytes_two (frameCheck tag kind payload)
  obtain ⟨d, hbody⟩ := feed_body hp hs (byteOf (payload.length + 2)).toNat (tag :: kind :: payload) []
    (crc16Byte 0xFFFF (byteOf (payload.length + 2))) (s.blocks.now + 2001) (by simp) (by simp [hlen])
  rw [wire_eq, feed_append, feed_append, feed_header hp hs hr hok, hbody, hbytes]
  exact feed_check hp hs rfl rfl hcheck

end Sys2Proof.Proofs
end

section
/-! PROOFS. The request handler and the transmitter: what `answered` and `deferring` leave, the end of a step, and good frames of any kind
(10.1, 10.2, 10.4; R173, R174, R178, R184 to R188, R190). -/

namespace Sys2Proof.Proofs

open Sys2Proof.Machine Sys2Proof.Safety Sys2Proof.Laws

/-! ### The idle line (R178) -/

section IdleLine

variable {s : State} {f g : Frame}

theorem takeReply_some (h : s.link.replySlot = some f) : takeReply s = replyTaken s f s.freeCount := by
  rw [takeReply, h]
  rfl

theorem takeNotice_some (h : s.blocks.noticeSlot = some g) : takeNotice s = noticeTaken s g s.freeCount := by
  rw [takeNotice, h]
  rfl

theorem settleLine_oneSlot (hl : s.link.line = .idle) (h : (s.link.replySlot.isSome && s.blocks.noticeSlot.isSome) = false) :
    settleLine s = takeFrame s := by
  rw [settleLine, if_pos hl, h]
  rfl

theorem settleLine_reply (hl : s.link.line = .idle) (hr : s.link.replySlot = some f) (hn : s.blocks.noticeSlot = none) :
    settleLine s = replyTaken s f s.freeCount := by
  rw [settleLine_oneSlot hl (by simp [hn]), takeFrame_eq, hr]

theorem settleLine_notice (hl : s.link.line = .idle) (hr : s.link.replySlot = none) (hn : s.blocks.noticeSlot = some g) :
    settleLine s = noticeTaken s g s.freeCount := by
  rw [settleLine_oneSlot hl (by simp [hr]), takeFrame_eq, hr, hn]

/-- Of a reply and a notice placed together either goes first (log 8). -/
theorem settleLine_both (hl : s.link.line = .idle) (hr : s.link.replySlot = some f) (hn : s.blocks.noticeSlot = some g) :
    settleLine s = replyTaken s f (s.freeCount + 1) ∨ settleLine s = noticeTaken s g (s.freeCount + 1) := by
  have hreply : takeReply { s with freeCount := s.freeCount + 1 } = replyTaken s f (s.freeCount + 1) := takeReply_some hr
  have hnotice : takeNotice { s with freeCount := s.freeCount + 1 } = noticeTaken s g (s.freeCount + 1) := takeNotice_some hn
  rw [settleLine, if_pos hl, if_pos (by simp [hr, hn])]
  dsimp only
  rw [hreply, hnotice]
  split
  · exact .inr rfl
  · exact .inl rfl

end IdleLine

/-- The blocks apart from what the taking of a notice changes: the notice slot and the send phase. -/
def lessNotice (b : Blocks) : Blocks := { b with noticeSlot := none, notice := { b.notice with sender := .quiet } }

theorem lessNotice_onLine (b : Blocks) : lessNotice { b with noticeSlot := none, notice := noticeOnLine b.notice } = lessNotice b := by
  unfold lessNotice noticeOnLine
  dsimp only
  split <;> rfl

/-- What the transmitter leaves alone at the end of a step. -/
structure OnlyLine (s t : State) : Prop where
  mem : t.mem = s.mem
  handler : t.handler = s.handler
  pendingReset : t.pendingReset = s.pendingReset
  power : t.power = s.power
  pending : t.pending = s.pending
  link : { t.link with replySlot := s.link.replySlot, line := s.link.line } = s.link
  blocks : lessNotice t.blocks = lessNotice s.blocks

theorem settleLine_onlyLine (s : State) : OnlyLine s (settleLine s) := by
  rcases settleLine_cases s with h | ⟨f, k, _, h⟩ | ⟨f, k, _, h⟩ <;> rw [h]
  · exact ⟨rfl, rfl, rfl, rfl, rfl, rfl, rfl⟩
  · exact ⟨rfl, rfl, rfl, rfl, rfl, rfl, rfl⟩
  · exact ⟨rfl, rfl, rfl, rfl, rfl, rfl, lessNotice_onLine s.blocks⟩

/-- A reply in its slot waits there or is on the line. -/
theorem settleLine_keepsReply {s : State} {f : Frame} (h : s.link.replySlot = some f) :
    (settleLine s).link.replySlot = some f ∨ (settleLine s).link.line = .reply f (s.frameDue f) := by
  rcases settleLine_cases s with e | ⟨g, k, hg, e⟩ | ⟨g, k, _, e⟩ <;> rw [e]
  · exact .inl h
  · rw [h] at hg
    injection hg with hg
    subst hg
    exact .inr rfl
  · exact .inl h

/-! ### Replies sent (R177, R187, R188) -/

/-- The reply to a frame, with the payload given. -/
def replyTo (r : RxFrame) (payload : List Byte) : Frame := ⟨r.tag, replyKind r.kind, payload⟩

/-- Reply memory with the reply to a frame as its newest entry. -/
def rememberReply (r : RxFrame) (payload : List Byte) (memory : List ReplyEntry) : List ReplyEntry :=
  remember ⟨r.tag, r.kind, r.check, replyTo r payload⟩ memory

section SendReply

variable {s : State} (r : RxFrame) (payload : List Byte)

theorem sendReply_sent (h : s.link.silent = false) :
    sendReply r payload s =
      { s with
        link := { s.link with replyMemory := rememberReply r payload s.link.replyMemory, replySlot := some (replyTo r payload) }
        handler := .sending r } :=
  if_neg (by simp [h])

theorem sendReply_stored (h : s.link.silent = true) :
    sendReply r payload s =
      { s with
        link := { s.link with replyMemory := rememberReply r payload s.link.replyMemory, silent := false }
        handler := .free } :=
  if_pos h

end SendReply

/-- A state with a request's effect taken and its reply in the reply slot: `answered` before the line is looked at. -/
def replied (s : State) (r : RxFrame) (b : Blocks) (t : Tally) (payload : List Byte) : State :=
  { s with
    blocks := b
    link := { s.link with
      receiver := .hunt
      tally := t
      replyMemory := rememberReply r payload s.link.replyMemory
      replySlot := some (replyTo r payload) }
    handler := .sending r }

theorem answered_eq {s : State} {r : RxFrame} {b : Blocks} {t : Tally} {payload : List Byte} (h : s.link.silent = false) :
    answered s r b t payload = settleLine (replied s r b t payload) :=
  congrArg settleLine (sendReply_sent r payload h)

/-- Settles O2: `answered` is `sendReply` and the idle line, `deferring` the idle line alone; `OnlyLine` says what the line leaves. -/
theorem requestLeavesTheseStates : Obligations.RequestLeavesTheseStates := by
  intro s r b t payload hready rest reply
  have hsilent : s.link.silent = false := ((ready_iff s).mp hready).silent
  have carried {x a : State} (h : OnlyLine x a) (hx : rest x) : rest a := by
    obtain ⟨hmem, hreset, hpower, hpending, hqueue, hreceiver, hsil, hbaud, hblocks⟩ := hx
    exact ⟨h.mem.trans hmem, h.pendingReset.trans hreset, h.power.trans hpower, h.pending.trans hpending,
      (congrArg Link.rxQueue h.link).trans hqueue, (congrArg Link.receiver h.link).trans hreceiver,
      (congrArg Link.silent h.link).trans hsil, (congrArg Link.baudCode h.link).trans hbaud, h.blocks.trans hblocks⟩
  refine ⟨⟨_, rfl, ?answered⟩, ⟨_, rfl, ?deferring⟩⟩
  case answered =>
    rw [answered_eq hsilent]
    have h := settleLine_onlyLine (replied s r b t payload)
    exact ⟨carried h ⟨rfl, rfl, rfl, rfl, rfl, rfl, rfl, rfl, rfl⟩, h.handler, (congrArg Link.tally h.link :),
      (congrArg Link.replyMemory h.link :), settleLine_keepsReply rfl⟩
  case deferring =>
    have h := settleLine_onlyLine { s with blocks := b, link := { s.link with receiver := .hunt }, handler := .deferred r }
    exact ⟨carried h ⟨rfl, rfl, rfl, rfl, rfl, rfl, rfl, rfl, rfl⟩, h.handler, (congrArg Link.tally h.link :),
      (congrArg Link.replyMemory h.link :)⟩

/-! ### A deferral that has ended (R190) -/

theorem deliver_deferred {s : State} {r : RxFrame} {h : Handover} (hh : s.blocks.handover = some h) (hd : s.handler = .deferred r) :
    deliver s = sendReply r (handoverReply s.blocks h) { s with blocks := { s.blocks with handover := none } } := by
  rw [deliver, hh]
  dsimp only
  rw [hd]

/-- Nothing stays handed over. -/
theorem handover_deliver (s : State) : (deliver s).blocks.handover = none := by
  unfold deliver
  split
  · assumption
  · dsimp only
    split
    · rw [sendReply_blocks]
    · rfl

/-- A step may as well begin with the reply its end would send first. -/
theorem endStep_deliver (s : State) : endStep (deliver s) = endStep s := by
  rw [endStep, deliver_none (handover_deliver s), endStep]

theorem endStep_handedOver {s : State} {r : RxFrame} {h : Handover} (hh : s.blocks.handover = some h) (hd : s.handler = .deferred r) :
    endStep s = endStep (sendReply r (handoverReply s.blocks h) { s with blocks := { s.blocks with handover := none } }) := by
  rw [← endStep_deliver, deliver_deferred hh hd]

/-- A reply that is not silent keeps the handler SENDING, so it takes no frame in the step. -/
theorem endStep_sent {s : State} (r : RxFrame) (payload : List Byte) (h0 : s.blocks.handover = none) (h : s.link.silent = false) :
    endStep (sendReply r payload s) = settleLine (sendReply r payload s) := by
  rw [sendReply_sent r payload h]
  exact endStep_busy h0 (.inl HandlerPhase.noConfusion)

/-! ### Waiting frames (R184 to R186) -/

section Waiting

variable {s : State} {r : RxFrame} {rest : List RxFrame}

/-- A FREE handler takes the oldest frame that waits. -/
theorem endStep_takes (h0 : s.blocks.handover = none) (hh : s.handler = .free) (hq : s.link.rxQueue = r :: rest) :
    endStep s = settleLine (deliver (handle r { s with link := { s.link with rxQueue := rest } })) := by
  rw [endStep, deliver_none h0, takeRequest_free hh hq]

theorem handle_matched {e : ReplyEntry} (h : (s.link.replyMemory.find? fun x => x.matchesFrame r) = some e) :
    handle r s = replay r e s := by
  rw [handle, h]

theorem handle_fresh (h : fresh s r = true) : handle r s = executeNew r s := by
  rw [handle, find_fresh h]

/-- A retransmission is answered from reply memory: the blocks are not touched. -/
theorem endStep_replays {e : ReplyEntry} (h0 : s.blocks.handover = none) (hh : s.handler = .free) (hq : s.link.rxQueue = r :: rest)
    (he : (s.link.replyMemory.find? fun x => x.matchesFrame r) = some e) :
    endStep s = settleLine (replay r e { s with link := { s.link with rxQueue := rest } }) := by
  rw [endStep_takes h0 hh hq, handle_matched (s := { s with link := { s.link with rxQueue := rest } }) he]
  exact congrArg settleLine (deliver_none h0)

theorem endStep_executes (h0 : s.blocks.handover = none) (hh : s.handler = .free) (hq : s.link.rxQueue = r :: rest)
    (hf : fresh s r = true) :
    endStep s = settleLine (deliver (executeNew r { s with link := { s.link with rxQueue := rest } })) := by
  rw [endStep_takes h0 hh hq, handle_fresh (s := { s with link := { s.link with rxQueue := rest } }) hf]

end Waiting

/-- Settles O3: what is handed over, the frame that waits, the reply's bytes, then the line. -/
theorem endOfStepTakesWaitingFrames : Obligations.EndOfStepTakesWaitingFrames := by
  refine ⟨fun s => endStep_settled, fun s h0 hq => endStep_busy h0 (.inr hq), fun s r h hh hd hs => ?sends,
      fun s r h hh hd _ => endStep_handedOver hh hd, fun s r rest e => endStep_replays, fun s r rest => endStep_executes,
    fun s r payload => ⟨sendReply_sent r payload, sendReply_stored r payload⟩, fun b => ⟨fun c => ?channel, fun u => ⟨rfl, rfl⟩,
      fun payload => rfl, rfl, rfl⟩,
    fun s => ⟨settleLine_busy, settleLine_none, fun f => settleLine_reply, fun f => settleLine_notice, fun f g => settleLine_both⟩⟩
  case sends => exact (endStep_handedOver hh hd).trans (endStep_sent r _ rfl hs)
  case channel =>
    rw [handoverReply, channelReply, continuationByte]
    rfl

/-! ### Good frames of any kind (R173, R174, R186) -/

section GoodFrames

variable {s : State} {r : RxFrame} {tag kind : Byte} {payload : List Byte}

theorem executeFrame_unknown (bc : BitVec 2) (t : Tally) (b : Blocks) (h : kind ∉ requestCodes) :
    executeFrame bc t b kind payload = { blocks := b, tally := t, answer := .now [0x01] } := by
  rw [executeFrame, ofCode_none kind h]
  rfl

theorem executeFrame_badLength (bc : BitVec 2) (t : Tally) (b : Blocks) {k : RequestKind} (h : k.lengthFits payload.length = false) :
    executeFrame bc t b k.code payload = { blocks := b, tally := t, answer := .now [0x02] } := by
  rw [executeFrame, ofCode_code]
  dsimp only
  rw [h]
  rfl

/-- A taken frame refused before it reaches a block changes nothing. -/
theorem arrive_unchanged {reply : List Byte} (h : taken s r = true) (hk : r.kind ≠ ackCode)
    (he : executeFrame s.link.baudCode s.link.tally s.blocks r.kind r.payload
      = { blocks := s.blocks, tally := s.link.tally, answer := .now reply }) :
    arrive r s = .next (unchanged s r reply) :=
  arrive_now ((ready_iff s).mp (taken_iff.mp h).1) (taken_iff.mp h).2 hk (handover_of_taken h) he

/-- A retransmission that reaches a ready part. -/
theorem arrive_replay {e : ReplyEntry} (h : Ready s) (hk : r.kind ≠ ackCode)
    (he : (s.link.replyMemory.find? fun x => x.matchesFrame r) = some e) :
    arrive r s = .next (settleLine (replay r e (hunt s))) := by
  have hq : { received r s with link := { (received r s).link with rxQueue := [] } } = hunt s := by
    simp [received, hunt, h.rxQueue]
  rw [arrive, onRunning_some h.power, goodFrame_ready h hk, endStep_replays (s := received r s) h.handover h.handler rfl he, hq]

theorem handover_of_settled (h : settled s = true) : s.blocks.handover = none := by
  simp only [settled, Bool.and_eq_true, beq_iff_eq] at h
  exact h.1.1

/-- While a request is in progress an arriving frame waits. -/
theorem goodFrame_waits (hp : s.power = .running) (hh : s.handler ≠ .free) (hs : settled s = true)
    (hm : s.blocks.notice.sender ≠ .muted) (hk : kind ≠ ackCode) (hq : s.link.rxQueue.length < 4) :
    exec (.goodFrame tag kind payload) s = .next
      { s with link := { s.link with receiver := .hunt, rxQueue := s.link.rxQueue ++ [frameOf tag kind payload] } } := by
  have hsettled : settled
      { s with link := { s.link with receiver := .hunt, rxQueue := s.link.rxQueue ++ [frameOf tag kind payload] } } = true := by
    simpa [settled, hh] using hs
  rw [exec_goodFrame hp hk, unmute_of_ne hm, appendFrame_room]
  · exact congrArg _ (endStep_settled hsettled)
  · exact hq

/-- A frame for which the receive queue has no room is discarded and counted. -/
theorem goodFrame_overruns (hp : s.power = .running) (hh : s.handler ≠ .free) (h0 : s.blocks.handover = none)
    (hm : s.blocks.notice.sender ≠ .muted) (hk : kind ≠ ackCode) (hq : 4 ≤ s.link.rxQueue.length) :
    exec (.goodFrame tag kind payload) s =
      .next (settleLine (countError (fun t => { t with overrun := countUp t.overrun }) (hunt s))) := by
  rw [exec_goodFrame hp hk, unmute_of_ne hm, appendFrame_full]
  · exact congrArg _ (endStep_busy ((handover_raise _ _).trans h0) (.inl hh))
  · exact hq

end GoodFrames

/-- Settles O8: the commands as good frames, then the frames refused, replayed, queued and discarded. -/
theorem framesOfAnyKind : Obligations.FramesOfAnyKind := by
  refine ⟨?commands, fun tag kind payload s ht hk hc => ?unknown, fun tag k payload s ht hl => ?badLength,
    fun tag kind payload s e hr hk he => ?replayed,
    fun tag kind payload s hp hh hs hm hk => ⟨fun hq => goodFrame_waits hp hh hs hm hk hq, fun hq => ?overrun⟩⟩
  case commands =>
    intro tag s is form
    exact ⟨rfl, rfl, fun _ => rfl, fun _ => rfl, fun _ => rfl, fun _ _ => rfl, fun _ _ => rfl, fun _ => rfl, fun _ => rfl,
      fun _ _ => rfl, fun _ => rfl, fun _ _ => rfl, fun _ => rfl, fun _ => rfl, fun _ => rfl, fun _ => rfl, fun _ => rfl,
      fun _ => rfl, fun _ => rfl, fun _ => rfl, fun _ _ _ _ => rfl, fun _ => rfl, fun _ _ => rfl, fun _ => rfl,
      fun _ _ _ _ _ _ => rfl, rfl, fun _ => rfl, fun _ _ _ => rfl, fun _ _ _ => rfl, fun _ _ => rfl⟩
  case unknown =>
    have h := arrive_unchanged ht hk (executeFrame_unknown s.link.baudCode s.link.tally s.blocks hc)
    exact ⟨h, h⟩
  case badLength => exact arrive_unchanged ht (code_ne_ack k) (executeFrame_badLength _ _ _ hl)
  case replayed => exact arrive_replay ((ready_iff s).mp hr) hk he
  case overrun => exact goodFrame_overruns hp hh (handover_of_settled hs) hm hk hq

end Sys2Proof.Proofs
end

section
/-! PROOFS. The requests of the device, the link and the notice unit: HELLO, STATUS, LINK TALLY, NOTICE MASK and RESET (10.4 to 10.6; R156,
R182, R190, R192 to R196, R206). -/

namespace Sys2Proof.Proofs

open Sys2Proof.Machine Sys2Proof.Safety Sys2Proof.Laws

/-! ### HELLO and STATUS (R192, R193, R206) -/

/-- The capacities and the identification byte by byte. -/
theorem helloReply_eq (baudCode : BitVec 2) (b : Blocks) :
    helloReply baudCode b =
      [0x00, 0x3A, 0x71, 0x46, 0x20, 0x01, 0x01, 0x02, 0x00, 32, 4, 64, 8, 8, b.mszCode.setWidth 8, baudCode.setWidth 8,
       b.resetCause.code] := rfl

theorem map_allChans (f : ChanId → Byte) : allChans.map f = [f 0, f 1, f 2, f 3] := rfl

theorem map_allUnits (f : UnitId → Byte) : allUnits.map f = [f 0, f 1, f 2, f 3, f 4, f 5, f 6, f 7] := rfl

/-- The states of the channels and of the units one by one. -/
theorem statusReply_eq (b : Blocks) :
    statusReply b =
      [0x00, (b.chan 0).state.code, (b.chan 1).state.code, (b.chan 2).state.code, (b.chan 3).state.code,
        byteOf b.queue.records.length]
      ++ beBytes 2 b.pool.length ++ [byteOf (allHandles.filter fun h => (b.chain h).state == .free).length]
      ++ [(b.unit 0).state.code, (b.unit 1).state.code, (b.unit 2).state.code, (b.unit 3).state.code, (b.unit 4).state.code,
          (b.unit 5).state.code, (b.unit 6).state.code, (b.unit 7).state.code]
      ++ beBytes 2 b.notice.summary.toNat ++ [b.notice.sender.code, flagByte b.guards.frozen, b.resetCause.code] := by
  rw [statusReply, map_allChans, map_allUnits]
  rfl

/-! ### LINK TALLY (R182) -/

/-- The reply to LINK TALLY: the seven counts (R182). -/
def tallyReply (t : Tally) : List Byte :=
  0x00 :: (beBytes 2 t.lenErr ++ beBytes 2 t.gapErr ++ beBytes 2 t.checkErr ++ beBytes 2 t.overrun ++ beBytes 2 t.breaks
    ++ beBytes 2 t.replays ++ beBytes 2 t.staleAcks)

/-- LINK TALLY by its clear flag; the counts reported are those before the clearing. -/
theorem requestLinkTally_eq (clear : Byte) (t : Tally) :
    requestLinkTally [clear] t =
      if clear = 0 then (t, tallyReply t) else if clear = 1 then ({}, tallyReply t) else (t, badField 0xFF) := by
  have hcounts : Result.ok.code :: t.counts.flatMap (beBytes 2) = tallyReply t := rfl
  rw [requestLinkTally, fieldAt_zero_byte, flagOf_cases, hcounts]
  split_ifs <;> rfl

theorem linkTally_answered {tag clear : Byte} {s : State} {t : Tally} {reply : List Byte}
    (hk : taken s (requestFrame tag .linkTally [clear]) = true) (h : requestLinkTally [clear] s.link.tally = (t, reply)) :
    exec (.linkTally tag clear) s = .next (answered s (requestFrame tag .linkTally [clear]) s.blocks t reply) := by
  refine request_now (k := .linkTally) (taken_iff.mp hk).1 (taken_iff.mp hk).2 rfl (handover_of_taken hk) ?_
  rw [executeKind, h]

/-! ### NOTICE MASK (R156) -/

/-- The test of the request refuses exactly the masks without RESET or with one of bits 12 to 15 set (R156). -/
theorem maskRefused_iff (mask : BitVec 16) :
    (mask.toNat % 2 = 0 || 4096 ≤ mask.toNat) = true ↔ ¬ (mask.getLsbD 0 = true ∧ mask.toNat < 4096) := by
  have hbit : mask.getLsbD 0 = true ↔ mask.toNat % 2 = 1 := by simp [BitVec.getLsbD, Nat.testBit_zero]
  rw [hbit, Bool.or_eq_true, decide_eq_true_iff, decide_eq_true_iff]
  omega

/-- NOTICE MASK by its mask. -/
theorem requestNoticeMask_eq (mask : BitVec 16) (b : Blocks) :
    requestNoticeMask (beBytes 2 mask.toNat) b =
      if mask.getLsbD 0 = true ∧ mask.toNat < 4096 then
        ({ b with notice := setMask mask b.notice },
          .now (0x00 :: (beBytes 2 mask.toNat ++ beBytes 2 (b.notice.summary &&& mask).toNat)))
      else (b, .now (badField 0xFF)) := by
  rw [requestNoticeMask, fieldAt_whole mask.isLt]
  dsimp only
  rw [BitVec.ofNat_toNat, BitVec.setWidth_eq]
  by_cases h : mask.getLsbD 0 = true ∧ mask.toNat < 4096
  · rw [if_neg (mt (maskRefused_iff mask).mp (not_not.mpr h)), if_pos h]
    rfl
  · rw [if_pos ((maskRefused_iff mask).mpr h), if_neg h]

/-- Settles O5: the two queries by their replies, LINK TALLY by its flag, NOTICE MASK by its mask. -/
theorem deviceLinkAndMaskRequests : Obligations.DeviceLinkAndMaskRequests := by
  refine ⟨fun tag s => ⟨fun hk => ?hello, fun hk => ?status⟩, fun tag clear s hk => ?linkTally, fun tag mask s hk => ?noticeMask⟩
  case hello =>
    exact request_unchanged hk rfl (congrArg (fun x => onBlocks _ (s.blocks, .now x)) (helloReply_eq s.link.baudCode s.blocks))
  case status => exact request_unchanged hk rfl (congrArg (fun x => onBlocks _ (s.blocks, .now x)) (statusReply_eq s.blocks))
  case linkTally =>
    intro t reply
    have hq := requestLinkTally_eq clear t
    split_ifs at hq ⊢ <;> exact linkTally_answered hk hq
  case noticeMask =>
    intro n n'
    have hq := requestNoticeMask_eq mask s.blocks
    split_ifs at hq ⊢
    · exact request_answered hk rfl (handover_of_taken hk) (congrArg (onBlocks _) hq)
    · exact request_unchanged hk rfl (congrArg (onBlocks _) hq)

/-! ### RESET (R190, R194 to R196) -/

/-- A scope byte other than 0 and 1 names no reset. -/
theorem scopeOfCode_none {x : Byte} (h0 : x ≠ 0) (h1 : x ≠ 1) : Scope.ofCode x.toNat = none := by
  have hflag := flagOf_cases x
  rw [if_neg h0, if_neg h1] at hflag
  unfold flagOf? at hflag
  unfold Scope.ofCode
  split_ifs at hflag ⊢
  rfl

/-- Barring the arbiters makes no difference to a reset, which unbars them (R106). -/
theorem resetBlocks_barPorts (x : Scope) (b : Blocks) : resetBlocks x (barPorts b) = resetBlocks x b := by
  cases x with
  | work => rfl
  | full =>
    unfold resetBlocks resetNotice dropNotice
    dsimp only [barPorts]
    split <;> rfl

theorem askReset_waits {s : State} (x : Scope) (h : s.blocks.anyInFlight = true) :
    askReset x s = { s with pendingReset := some x } := if_pos h

theorem askReset_atOnce {s : State} (x : Scope) (h : s.blocks.anyInFlight = false) : askReset x s = resetNow x s :=
  if_neg (by simp [h])

theorem executeNew_reset {r : RxFrame} {s : State} {x : Scope}
    (h : executeFrame s.link.baudCode s.link.tally s.blocks r.kind r.payload =
      { blocks := barPorts s.blocks, tally := s.link.tally, reset := some x, answer := .deferred }) :
    executeNew r s = { askReset x { s with blocks := barPorts s.blocks } with handler := .deferred r } := by
  rw [executeNew, h]

/-- The part with reply memory as the scope's reset leaves it (R183). -/
def memoryReset (x : Scope) (s : State) : State :=
  { s with link := { s.link with replyMemory := (resetLink x s.link).replyMemory } }

/-- The reply to RESET: the scope, and the sequence number of the next record (R195). -/
def resetReply (x : Scope) (q : Queue) : List Byte := [0x00, x.code] ++ beBytes 2 (resetQueue x q).nextSeq.toNat

theorem resetReply_full (q : Queue) : resetReply .full q = [0x00, 0x01, 0x00, 0x00] := by
  simp [resetReply, resetQueue, beBytes, Scope.code]

/-- The reset taken and its deferral ended at once: the scope's values, and the reply in the reply slot. -/
theorem deliver_resetNow {r : RxFrame} {s : State} {x : Scope} (hs : s.link.silent = false) (hp : s.pendingReset = none) :
    deliver { resetNow x { hunt s with blocks := barPorts s.blocks } with handler := .deferred r } =
      replied (memoryReset x s) r { resetBlocks x s.blocks with handover := none } (resetLink x s.link).tally
        (resetReply x s.blocks.queue) := by
  have hsilent : (resetLink x (hunt s).link).silent = false := by cases x <;> exact hs
  rw [deliver_deferred (r := r) (h := .reset x) rfl rfl, sendReply_sent r _ hsilent, replied, memoryReset, hp, ← resetBlocks_barPorts]
  cases x <;> rfl

section Reset

variable {tag scope : Byte} {s : State} {x : Scope}

/-- An accepted RESET before the end of its step: the arbiters barred, the handler DEFERRED, and the reset asked for. -/
theorem exec_reset (hk : taken s (requestFrame tag .reset [scope]) = true) (hx : Scope.ofCode scope.toNat = some x) :
    exec (.reset tag scope) s =
      .next (settleLine (deliver
        { askReset x { hunt s with blocks := barPorts s.blocks } with handler := .deferred (requestFrame tag .reset [scope]) })) := by
  have hframe : executeFrame s.link.baudCode s.link.tally s.blocks RequestKind.reset.code [scope] =
      { blocks := barPorts s.blocks, tally := s.link.tally, reset := some x, answer := .deferred } := by
    rw [executeFrame_code _ _ _ _ _ rfl, executeKind, requestReset, fieldAt_zero_byte, hx]
  obtain ⟨hready, hfresh⟩ := taken_iff.mp hk
  refine (arrive_ready ((ready_iff s).mp hready) hfresh (code_ne_ack .reset)).trans ?_
  rw [executeNew_reset (r := requestFrame tag .reset [scope]) (s := hunt s) hframe]
  rfl

/-- With an access in flight the arbiters are barred and the reset pends. -/
theorem exec_reset_waits (hk : taken s (requestFrame tag .reset [scope]) = true) (hx : Scope.ofCode scope.toNat = some x)
    (ha : s.blocks.bufPort.inFlight.isSome ∨ s.blocks.slotPort.inFlight.isSome) :
    exec (.reset tag scope) s =
      .next (deferring { s with pendingReset := some x } (requestFrame tag .reset [scope]) (barPorts s.blocks)) := by
  have hflight : s.blocks.anyInFlight = true := by simpa [Blocks.anyInFlight] using ha
  have h0 : (barPorts s.blocks).handover = none := handover_of_taken hk
  rw [exec_reset hk hx, askReset_waits (s := { hunt s with blocks := barPorts s.blocks }) x hflight]
  exact congrArg (fun y => Host.Outcome.next (settleLine y)) (deliver_none h0)

/-- With no access in flight the reset takes effect, and its reply is sent, in the step of the request. -/
theorem exec_reset_atOnce (hk : taken s (requestFrame tag .reset [scope]) = true) (hx : Scope.ofCode scope.toNat = some x)
    (hp : s.pendingReset = none) (hb : s.blocks.bufPort.inFlight = none) (hs : s.blocks.slotPort.inFlight = none) :
    exec (.reset tag scope) s =
      .next (answered (memoryReset x s) (requestFrame tag .reset [scope]) { resetBlocks x s.blocks with handover := none }
        (resetLink x s.link).tally (resetReply x s.blocks.queue)) := by
  have hflight : s.blocks.anyInFlight = false := by simp [Blocks.anyInFlight, hb, hs]
  have hready := (ready_iff s).mp (taken_iff.mp hk).1
  rw [exec_reset hk hx, askReset_atOnce (s := { hunt s with blocks := barPorts s.blocks }) x hflight,
    deliver_resetNow hready.silent hp, answered_eq (s := memoryReset x s) hready.silent]

theorem requestReset_refused (h0 : scope ≠ 0) (h1 : scope ≠ 1) (t : Tally) (b : Blocks) :
    requestReset [scope] t b = onBlocks t (b, .now [0x03, 0xFF]) := by
  rw [requestReset, fieldAt_zero_byte, scopeOfCode_none h0 h1]
  rfl

end Reset

/-- Settles O6: at once or pending by the ports, with the scope's values by `resetLink` and `resetQueue`. -/
theorem resetRequestTakesEffectOrWaits : Obligations.ResetRequestTakesEffectOrWaits := by
  intro tag scope s hk hp r after barred
  refine ⟨fun h hb hs => ?work, fun h hb hs => ?full, fun h ha => ?workWaits, fun h ha => ?fullWaits, fun h0 h1 => ?refused⟩
  case work =>
    subst h
    exact exec_reset_atOnce hk rfl hp hb hs
  case full =>
    subst h
    rw [exec_reset_atOnce hk rfl hp hb hs, resetReply_full]
    rfl
  case workWaits =>
    subst h
    exact exec_reset_waits hk rfl ha
  case fullWaits =>
    subst h
    exact exec_reset_waits hk rfl ha
  case refused => exact request_unchanged hk rfl (requestReset_refused h0 h1 s.link.tally s.blocks)

end Sys2Proof.Proofs
end

section
/-! PROOFS. RESET_N: its low level, its release and the end of start-up (10.7; R198 to R200). -/

namespace Sys2Proof.Proofs

open Sys2Proof.Machine Sys2Proof.Safety Sys2Proof.Laws

section ColdReset

variable {s : State}

/-! ### RESET_N low (R199) -/

/-- Only a buffer write in flight is cut in the middle of its bytes. -/
theorem memoryCut_same (h : ∀ a, s.blocks.bufPort.inFlight = some a → a.dir = .read) : memoryCut s = s.mem := by
  unfold memoryCut
  split
  · rfl
  · rename_i a ha
    rw [h a ha]

theorem resetNLow_cuts (h : s.power ≠ .heldLow) :
    exec .resetNLow s = .next
      { s with
        mem := memoryCut s
        blocks := cutBlocks s.blocks
        link := { s.link with receiver := .hunt, line := .idle }
        pendingReset := none
        power := .heldLow
        freeCount := s.freeCount + 1 } := if_neg h

theorem resetNLow_nothing (h : s.power = .heldLow) : exec .resetNLow s = .next s := if_pos h

/-! ### The release (R200) -/

/-- Every block at its COLD values, with the straps and the presence lines as sampled. -/
theorem resetNRelease_cold (baud msz : BitVec 2) (presence : BitVec 8) (h : s.power = .heldLow) :
    exec (.resetNRelease baud msz presence) s = .next
      { blocks :=
          { now := s.blocks.now
            resetCause := s.blocks.resetCause
            mszCode := msz
            units := Vector.ofFn fun u : UnitId => coldUnit (presence.getLsbD u.val) }
        link := { baudCode := baud }
        power := .startUp (s.blocks.now + Config.startUpTime)
        freeCount := s.freeCount
        pending := s.pending } := if_pos h

/-- The COLD values are those of `State.reset`, but for the clock, the cause and what the release samples. -/
theorem coldBlocks_eq (now : Nat) (cause : ResetCause) (msz : BitVec 2) (level : UnitId → Bool) :
    ({ now := now, resetCause := cause, mszCode := msz, units := Vector.ofFn fun u => coldUnit (level u) } : Blocks) =
      { (State.reset).blocks with
        now := now
        resetCause := cause
        mszCode := msz
        units := Vector.ofFn fun u =>
          { presence := level u, state := if level u then .present else .empty, line := level u } } := by
  simp only [State.reset, coldUnit]

theorem resetNRelease_nothing (baud msz : BitVec 2) (presence : BitVec 8) (h : s.power ≠ .heldLow) :
    exec (.resetNRelease baud msz presence) s = .next s := if_neg h

/-! ### The end of start-up (R198, R200) -/

theorem startUpEnd_runs {due : Nat} (h : s.power = .startUp due) :
    exec .startUpEnd s = .next (endStep
      { s with
        power := .running
        link := { s.link with receiver := .hunt }
        blocks := buildNotice { s.blocks with resetCause := .cold } }) := by
  change execStartUpEnd s = _
  rw [execStartUpEnd, h]
  rfl

theorem startUpEnd_nothing (h : ∀ due, s.power ≠ .startUp due) : exec .startUpEnd s = .next s := by
  change execStartUpEnd s = _
  unfold execStartUpEnd
  split
  · exact absurd ‹_› (h _)
  · rfl

end ColdReset

/-- Settles O45: each of the three commands in its phase and out of it. -/
theorem coldResetSequence : Obligations.ColdResetSequence := by
  intro s
  refine ⟨fun h => ⟨_, resetNLow_cuts h, rfl, rfl, rfl, unit_cutBlocks s.blocks, rfl, rfl, memoryCut_same⟩, resetNLow_nothing,
    fun baud msz presence h => ⟨_, resetNRelease_cold baud msz presence h, rfl, rfl, rfl, rfl, rfl, rfl, coldBlocks_eq _ _ _ _⟩,
    resetNRelease_nothing,
    fun due => startUpEnd_runs, startUpEnd_nothing⟩

end Sys2Proof.Proofs
end

section
/-! PROOFS. The machine's step: a command from the front of the queue, or the model's clock where none waits (95; log 1, log 3). -/

namespace Sys2Proof.Proofs

open Sys2Proof.Machine

section Step

variable {s : State}

/-! ### The two forms of a step -/

theorem step_of_cons {c : Instr} {rest : List Instr} (h : s.pending = c :: rest) :
    step s = exec c { s with pending := rest } := by
  unfold step
  rw [h]

theorem step_of_nil (h : s.pending = []) : step s = .next (idle s) := by
  unfold step
  rw [h]

/-! ### The clock where no command waits -/

/-- No timer runs under RESET_N (R199). -/
theorem dueCommand_heldLow (h : s.power = .heldLow) : dueCommand s = none := by
  unfold dueCommand
  rw [h]

theorem idle_of_due {c : Instr} (h : dueCommand s = some c) : idle s = { s with pending := [c] } := by
  unfold idle
  rw [h]

theorem idle_of_none (h : dueCommand s = none) :
    idle s = if s.power = .heldLow then s else onBlock s fun b => { b with now := b.now + 1 } := by
  unfold idle
  rw [h]

theorem idle_tick (h : dueCommand s = none) (hp : s.power ≠ .heldLow) :
    idle s = { s with blocks := { s.blocks with now := s.blocks.now + 1 } } :=
  (idle_of_none h).trans (if_neg hp)

theorem idle_heldLow (h : s.power = .heldLow) : idle s = s :=
  (idle_of_none (dueCommand_heldLow h)).trans (if_pos h)

end Step

/-- Settles O1. -/
theorem stepRunsFrontCommand : Obligations.StepRunsFrontCommand := by
  intro c rest s
  exact step_of_cons (s := { s with pending := c :: rest }) rfl

/-- Settles O46: the three branches of the clock. -/
theorem idleStepIsClockTick : Obligations.IdleStepIsClockTick := by
  intro s hnil
  rw [step_of_nil hnil]
  refine ⟨fun c hdue => ?due, fun hnone hpower => ?tick, fun hlow => ?heldLow⟩
  case due => rw [idle_of_due hdue]
  case tick => rw [idle_tick hnone hpower]
  case heldLow => rw [idle_heldLow hlow]

end Sys2Proof.Proofs
end
